-- ==== Sys2Proof/Word.lean ====
section
/-! DEFINITION. Word types of the MPC555 / MPC556 development-support logic. Registers and addresses are 32 bits,
bit 0 the most significant (spec rules R12 and R94); instruction addresses are compared as 30-bit word addresses (R102). -/

namespace Sys2Proof

/-- A 32-bit register, instruction word or byte address. -/
abbrev Word := BitVec 32

/-- One byte lane. -/
abbrev Byte := BitVec 8

/-- An instruction address as the logic sees it: I-address bits 0:29 (rule R102). -/
abbrev WordAddr := BitVec 30

end Sys2Proof
end

