-- ==== Sys2Proof/Config.lean ====
section
/-! DEFINITION. The CPU-side types the logic exchanges with the processor core, and the values the spec leaves open: every
constant below has no body, so nothing can be proved of its value (rules R9, R12 `draw(T)`, U17). -/

namespace Sys2Proof

/-- The five machine state register bits Section 21 names (rule R22). -/
structure Msr where
  /-- Recoverable interrupt. -/
  ri : Bool
  /-- Privilege: `true` is user mode. -/
  pr : Bool
  /-- External interrupt enable. -/
  ee : Bool
  /-- Machine check enable. -/
  me : Bool
  /-- Exception vector base selection (rule R483). -/
  ip : Bool
deriving DecidableEq, Repr, Inhabited

/-- SRR1 as far as the spec describes it: the interrupted MSR (rules R306, R496) and the error bits 1, 3, 4 and 10 that an
instruction protection error reports (rule R491). -/
structure Srr1 where
  msr : Msr
  bit1 : Bool
  /-- Guarded storage. -/
  bit3 : Bool
  /-- Protected storage. -/
  bit4 : Bool
  bit10 : Bool
deriving DecidableEq, Repr, Inhabited

/-- The CPU context the logic reads and writes without owning it (rules R20 to R23). -/
structure Cpu where
  gpr : Vector Word 32
  pc : Word
  msr : Msr
  srr0 : Word
  srr1 : Srr1
  dar : Word
  dsisr : Word
deriving DecidableEq, Repr, Inhabited

/-- The eighteen events of the catalogue of rule R480. -/
inductive Event where
  | systemReset | checkStop | machineCheck | instrProtection | dataProtection | externalInterrupt
  | alignment | program | fpUnavailable | fpAssist | decrementer | systemCall | trace | softwareEmulation
  | instrBreakpoint | loadStoreBreakpoint | externalBreakpoint | devPortInterrupt
deriving DecidableEq, Repr, Inhabited

/-- The causes that belong to the instruction being executed (rule R482), before MSR[ME] has turned a bus error into machine
check or check stop (rule R312). `guarded` selects the SRR1 bit of rule R491. -/
inductive SyncCause where
  | instrProtection (guarded : Bool) | dataProtection | alignment | program | fpUnavailable | fpAssist
  | systemCall | softwareEmulation | machineCheck
deriving DecidableEq, Repr, Inhabited

/-- The flow class of a fetch (rules R11 and R191). -/
inductive Flow where
  | sequential | direct | indirect
deriving DecidableEq, Repr, Inhabited

/-- The instruction types of Table 21-1 (rule R172) that the CPU reports; VF = 011 is produced by the logic itself. -/
inductive VfType where
  | none | sequential | notTaken | exception | indirect | direct | notTakenFlush
deriving DecidableEq, Repr, Inhabited

/-- Sizes of an L-bus cycle (rule R99). -/
inductive Size where
  | byte | half | word
deriving DecidableEq, Repr, Inhabited

/-- One load/store bus cycle as the logic observes it (rules R11 and R93): the data is the bus value (rule R97). -/
structure LsCycle where
  addr : Word
  size : Size
  write : Bool
  data : Word
deriving DecidableEq, Repr, Inhabited

/-- What one CPU instruction outside the opcode table does: the CPU model supplies it (rules R7 and R11). `cpu` is the CPU
context after the instruction, its `pc` the address of the next one; `stores` are the bytes written, in order. -/
structure Effect where
  cpu : Cpu
  stores : List (Word × Byte)
  cycles : List LsCycle
  exception : Option SyncCause
  flow : Flow
  vfType : VfType
deriving DecidableEq, Repr, Inhabited

/-- The six watchpoint indications (rule R53). -/
inductive Watchpoint where
  | iwp0 | iwp1 | iwp2 | iwp3 | lwp0 | lwp1
deriving DecidableEq, Repr, Inhabited

/-- `draw(Bool)` of rule R12: the n-th drawn boolean. -/
opaque Config.freeBool : Nat → Bool

/-- `draw(Bool)` for one show cycle: in the n-th draw, for the fetch with this number (U15). -/
opaque Config.freeShown : Nat → Nat → Bool

/-- `draw` of a 32-bit value (rules R445, R60). -/
opaque Config.freeWord : Nat → Word

/-- `draw` of a 16-bit count (U8). -/
opaque Config.freeCount : Nat → BitVec 16

/-- `draw` of a 30-bit fetch address (the address of the cycle made visible at debug mode entry, rule R177). -/
opaque Config.freeFetch : Nat → WordAddr

/-- The parameter `PortBusErrorCause` of rule R9: the event whose ECR bit the port's bus error sets (D14). -/
opaque Config.portBusErrorCause : Event

/-- The parameter `DataProtectionVector` of rules R9 and R492. -/
opaque Config.dataProtectionVector : Word

/-- The parameter `WatchpointPinMap` of rules R9 and R53: the one of the four instruction watchpoints that has no pin (D17). -/
opaque Config.iwpWithoutPin : Fin 4

/-- The MSR bits that a 32-bit source register stands for: the bit positions are not in the sources (R22, N16). -/
opaque Config.msrOfWord : Word → Msr

/-- The MSR an ordinary interrupt leaves, apart from MSR[RI] (rule R484): defined in the manual's section 3.15.4 (N1). -/
opaque Config.interruptMsr : Event → Msr → Msr

/-- The MSR debug mode entry leaves, apart from MSR[PR] and MSR[EE] (rule R308, N1). -/
opaque Config.debugEntryMsr : Msr → Msr

/-- SRR0 for a synchronous event of an instruction at this address (N1). -/
opaque Config.syncSrr0 : Event → Word → Word

/-- Bits 1, 3, 4 and 10 of SRR1 for an event other than an instruction protection error (N1). -/
opaque Config.srr1Info : Event → Msr → BitVec 4

/-- DAR and DSISR as a load/store type exception leaves them (rule R482). -/
opaque Config.darOf : Event → Word → Word
opaque Config.dsisrOf : Event → Word → Word

/-- The CPU model for an instruction word outside the opcode table (rule R7): what it does depends on the CPU context, on
the memory and on how many draws came before. -/
opaque Config.foreign : Word → Cpu → List Host.Cell → Nat → Effect

end Sys2Proof
end

