-- ==== Sys2Proof/Syntax.lean ====
section
/-! DEFINITION. The 55 rows of spec/opcode_table.json, one constructor each: nine port transmissions and seven reserved
command rows (30_encoding.md rules R130 to R138), the 34 register accesses (R144) and five more CPU instructions (R145, R146).
Ignored bits of a command (`x`) are kept as operands, so that no bit of an encoding is lost; a register field is a number
whose range WellFormed checks. -/

namespace Sys2Proof

/-- One serial transmission into the port (rules R131, R132): the mode bit chooses the length, so a frame is either short
(mode 1, seven data bits) or long (mode 0, 32 data bits); the start bit is always 1. -/
inductive Frame where
  | short (control : Bool) (data : BitVec 7)
  | long (control : Bool) (data : Word)
deriving DecidableEq, Repr, Inhabited

/-- Where the bits of an instruction arrive: the serial port or a CPU instruction fetch (rule R130, R144). -/
inductive Channel where
  | port | fetch
deriving DecidableEq, Repr

inductive Instr where
  /-- format I, `100` and a 32-bit CPU instruction word (rule R372) -/
  | dpInsn (w : Word)
  /-- format D, `101` and a 32-bit data word (rule R373) -/
  | dpData (w : Word)
  /-- format T, `110abcdefv` (rule R360) -/
  | dpTe (i0 i1 i2 i3 l0 l1 vs : Bool)
  /-- `111xx00000` (rule R362) -/
  | dpNop (x : BitVec 2)
  /-- `111xx00001` (rule R363) -/
  | dpHreset (x : BitVec 2)
  /-- `111xx00010` (rule R364) -/
  | dpSreset (x : BitVec 2)
  /-- `1111100011` (rule R365) -/
  | dpStartdl
  /-- `1111000011` (rule R366) -/
  | dpEnddl
  /-- `111nm11111` (rule R367) -/
  | dpBrk (nm m : Bool)
  /-- `1110x00011`, reserved (rule R368) -/
  | rsv00011 (x : Bool)
  /-- `111xx001yy`, reserved (rule R368) -/
  | rsv001 (x : BitVec 2) (y : BitVec 2)
  /-- `111xx01yyy`, reserved (rule R368) -/
  | rsv01 (x : BitVec 2) (y : BitVec 3)
  /-- `111xx10yyy`, reserved (rule R368) -/
  | rsv10 (x : BitVec 2) (y : BitVec 3)
  /-- `111xx110yy`, reserved (rule R368) -/
  | rsv110 (x : BitVec 2) (y : BitVec 2)
  /-- `111xx1110y`, reserved (rule R368) -/
  | rsv1110 (x : BitVec 2) (y : Bool)
  /-- `111xx11110`, reserved (rule R368) -/
  | rsv11110 (x : BitVec 2)
  /-- `mfspr rD, 144` (rule R437) -/
  | mfsprCmpa (rD : Nat)
  /-- `mtspr 144, rS` (rule R438) -/
  | mtsprCmpa (rS : Nat)
  /-- `mfspr rD, 145` (rule R439) -/
  | mfsprCmpb (rD : Nat)
  /-- `mtspr 145, rS` (rule R440) -/
  | mtsprCmpb (rS : Nat)
  /-- `mfspr rD, 146` (rule R448) -/
  | mfsprCmpc (rD : Nat)
  /-- `mtspr 146, rS` (rule R449) -/
  | mtsprCmpc (rS : Nat)
  /-- `mfspr rD, 147` (rule R450) -/
  | mfsprCmpd (rD : Nat)
  /-- `mtspr 147, rS` (rule R451) -/
  | mtsprCmpd (rS : Nat)
  /-- `mfspr rD, 148` (rule R441) -/
  | mfsprEcr (rD : Nat)
  /-- `mtspr 148, rS` (rule R442) -/
  | mtsprEcr (rS : Nat)
  /-- `mfspr rD, 149` (rule R443) -/
  | mfsprDer (rD : Nat)
  /-- `mtspr 149, rS` (rule R444) -/
  | mtsprDer (rS : Nat)
  /-- `mfspr rD, 150` (rule R452) -/
  | mfsprCounta (rD : Nat)
  /-- `mtspr 150, rS` (rule R453) -/
  | mtsprCounta (rS : Nat)
  /-- `mfspr rD, 151` (rule R454) -/
  | mfsprCountb (rD : Nat)
  /-- `mtspr 151, rS` (rule R455) -/
  | mtsprCountb (rS : Nat)
  /-- `mfspr rD, 152` (rule R456) -/
  | mfsprCmpe (rD : Nat)
  /-- `mtspr 152, rS` (rule R457) -/
  | mtsprCmpe (rS : Nat)
  /-- `mfspr rD, 153` (rule R458) -/
  | mfsprCmpf (rD : Nat)
  /-- `mtspr 153, rS` (rule R459) -/
  | mtsprCmpf (rS : Nat)
  /-- `mfspr rD, 154` (rule R460) -/
  | mfsprCmpg (rD : Nat)
  /-- `mtspr 154, rS` (rule R461) -/
  | mtsprCmpg (rS : Nat)
  /-- `mfspr rD, 155` (rule R462) -/
  | mfsprCmph (rD : Nat)
  /-- `mtspr 155, rS` (rule R463) -/
  | mtsprCmph (rS : Nat)
  /-- `mfspr rD, 156` (rule R464) -/
  | mfsprLctrl1 (rD : Nat)
  /-- `mtspr 156, rS` (rule R465) -/
  | mtsprLctrl1 (rS : Nat)
  /-- `mfspr rD, 157` (rule R466) -/
  | mfsprLctrl2 (rD : Nat)
  /-- `mtspr 157, rS` (rule R467) -/
  | mtsprLctrl2 (rS : Nat)
  /-- `mfspr rD, 158` (rule R468) -/
  | mfsprIctrl (rD : Nat)
  /-- `mtspr 158, rS` (rule R469) -/
  | mtsprIctrl (rS : Nat)
  /-- `mfspr rD, 159` (rule R470) -/
  | mfsprBar (rD : Nat)
  /-- `mtspr 159, rS` (rule R471) -/
  | mtsprBar (rS : Nat)
  /-- `mfspr rD, 630` (rule R446) -/
  | mfsprDpdr (rD : Nat)
  /-- `mtspr 630, rS` (rule R447) -/
  | mtsprDpdr (rS : Nat)
  /-- `rfi` (rule R320) -/
  | rfi
  /-- `sync` (rule R107) -/
  | sync
  /-- `isync` (rule R180) -/
  | isync
  /-- `mtmsr rS` (rule R180) -/
  | mtmsr (rS : Nat)
  /-- `stwu r31, 4(r30)` (rule R388) -/
  | stwu
deriving DecidableEq, Repr

end Sys2Proof
end

