-- ==== Sys2Proof/WellFormed.lean ====
section
/-! DEFINITION. Which terms of Instr stand for an instruction: a register field names one of the 32 general registers (the
5-bit field of rule R144). Every other operand has exactly the width of its field, so it needs no check. -/

namespace Sys2Proof

/-- Register numbers fit the 5-bit field of the encoding (rule R144). -/
def Instr.wellFormed : Instr → Bool
  | .dpInsn _ => true
  | .dpData _ => true
  | .dpTe _ _ _ _ _ _ _ => true
  | .dpNop _ => true
  | .dpHreset _ => true
  | .dpSreset _ => true
  | .dpStartdl => true
  | .dpEnddl => true
  | .dpBrk _ _ => true
  | .rsv00011 _ => true
  | .rsv001 _ _ => true
  | .rsv01 _ _ => true
  | .rsv10 _ _ => true
  | .rsv110 _ _ => true
  | .rsv1110 _ _ => true
  | .rsv11110 _ => true
  | .mfsprCmpa r => r < 32
  | .mtsprCmpa r => r < 32
  | .mfsprCmpb r => r < 32
  | .mtsprCmpb r => r < 32
  | .mfsprCmpc r => r < 32
  | .mtsprCmpc r => r < 32
  | .mfsprCmpd r => r < 32
  | .mtsprCmpd r => r < 32
  | .mfsprEcr r => r < 32
  | .mtsprEcr r => r < 32
  | .mfsprDer r => r < 32
  | .mtsprDer r => r < 32
  | .mfsprCounta r => r < 32
  | .mtsprCounta r => r < 32
  | .mfsprCountb r => r < 32
  | .mtsprCountb r => r < 32
  | .mfsprCmpe r => r < 32
  | .mtsprCmpe r => r < 32
  | .mfsprCmpf r => r < 32
  | .mtsprCmpf r => r < 32
  | .mfsprCmpg r => r < 32
  | .mtsprCmpg r => r < 32
  | .mfsprCmph r => r < 32
  | .mtsprCmph r => r < 32
  | .mfsprLctrl1 r => r < 32
  | .mtsprLctrl1 r => r < 32
  | .mfsprLctrl2 r => r < 32
  | .mtsprLctrl2 r => r < 32
  | .mfsprIctrl r => r < 32
  | .mtsprIctrl r => r < 32
  | .mfsprBar r => r < 32
  | .mtsprBar r => r < 32
  | .mfsprDpdr r => r < 32
  | .mtsprDpdr r => r < 32
  | .rfi => true
  | .sync => true
  | .isync => true
  | .mtmsr r => r < 32
  | .stwu => true

/-- A well-formed instruction. -/
abbrev Instr.WellFormed (i : Instr) : Prop := i.wellFormed = true

end Sys2Proof
end

