-- ==== Sys2Proof/Decode.lean ====
section
/-! DEFINITION. Decoding of port transmissions and CPU instruction words, and the encoder beside it (30_encoding.md). Both
are total; what stands for no row of the opcode table is rejected by name. A port transmission is a list of bits in the order
they are shifted (rule R98), a CPU instruction 32 bits with bit 0 first (R94), in memory four bytes, most significant first. -/

namespace Sys2Proof

/-- Why some bits stand for no instruction of the opcode table. -/
inductive DecodeError where
  /-- The first bit of a transmission is 0: idle time, no transmission (rule R130). -/
  | noStartBit
  /-- Fewer bits than the mode bit announces (rule R131), or fewer than one instruction word. -/
  | truncated
  /-- A CPU instruction outside the table (rule R7). -/
  | notInTable (w : Word)
deriving DecidableEq, Repr

/-- The bits of a value, most significant first (rule R98). -/
def toBits {n : Nat} (x : BitVec n) : List Bool := (List.range n).map fun k => x.getMsbD k

/-- The value of some bits, the first the most significant (rule R98). -/
def natOfBits : List Bool → Nat := fun l => l.foldl (fun acc b => 2 * acc + b.toNat) 0

def ofBits (n : Nat) (l : List Bool) : BitVec n := BitVec.ofNat n (natOfBits l)

/-- The wire bits of a transmission: start, mode, control, data (rules R131, R132). -/
def Frame.bits : Frame → List Bool
  | .short control data => true :: true :: control :: toBits data
  | .long control data => true :: false :: control :: toBits data

/-- Read one transmission from the wire (rules R130, R131); the rest of the bits is returned. -/
def readFrame : List Bool → Except DecodeError (Frame × List Bool)
  | false :: _ => .error .noStartBit
  | true :: true :: control :: rest =>
    if rest.length < 7 then .error .truncated
    else .ok (.short control (ofBits 7 (rest.take 7)), rest.drop 7)
  | true :: false :: control :: rest =>
    if rest.length < 32 then .error .truncated
    else .ok (.long control (ofBits 32 (rest.take 32)), rest.drop 32)
  | _ => .error .truncated

/-- Format C (rule R134): `e` the extended opcode, `m` the major opcode. -/
def decodeCommand (data : BitVec 7) : Instr :=
  let e : BitVec 2 := data.extractLsb' 5 2
  let m : BitVec 5 := data.extractLsb' 0 5
  if m = 0b00000 then .dpNop e
  else if m = 0b00001 then .dpHreset e
  else if m = 0b00010 then .dpSreset e
  else if m = 0b00011 then
    if e = 0b11 then .dpStartdl else if e = 0b10 then .dpEnddl else .rsv00011 (e.getLsbD 0)
  else if m = 0b11111 then .dpBrk (e.getLsbD 1) (e.getLsbD 0)
  else if m = 0b11110 then .rsv11110 e
  else if m.extractLsb' 2 3 = 0b001 then .rsv001 e (m.extractLsb' 0 2)
  else if m.extractLsb' 3 2 = 0b01 then .rsv01 e (m.extractLsb' 0 3)
  else if m.extractLsb' 3 2 = 0b10 then .rsv10 e (m.extractLsb' 0 3)
  else if m.extractLsb' 2 3 = 0b110 then .rsv110 e (m.extractLsb' 0 2)
  else .rsv1110 e (m.getLsbD 0)

/-- Formats I, D, T and C by mode and control (rule R132). Every transmission decodes (rules R133, R134, R136). -/
def decodeFrame : Frame → Instr
  | .long false w => .dpInsn w
  | .long true w => .dpData w
  | .short false d =>
    .dpTe (d.getMsbD 0) (d.getMsbD 1) (d.getMsbD 2) (d.getMsbD 3) (d.getMsbD 4) (d.getMsbD 5) (d.getMsbD 6)
  | .short true d => decodeCommand d

/-- `mfspr rD, n` for the seventeen SPR numbers of Table 21-14 (rules R24, R144). -/
def decodeMfspr (spr r : Nat) : Option Instr :=
  if spr = 144 then some (.mfsprCmpa r)
  else if spr = 145 then some (.mfsprCmpb r)
  else if spr = 146 then some (.mfsprCmpc r)
  else if spr = 147 then some (.mfsprCmpd r)
  else if spr = 148 then some (.mfsprEcr r)
  else if spr = 149 then some (.mfsprDer r)
  else if spr = 150 then some (.mfsprCounta r)
  else if spr = 151 then some (.mfsprCountb r)
  else if spr = 152 then some (.mfsprCmpe r)
  else if spr = 153 then some (.mfsprCmpf r)
  else if spr = 154 then some (.mfsprCmpg r)
  else if spr = 155 then some (.mfsprCmph r)
  else if spr = 156 then some (.mfsprLctrl1 r)
  else if spr = 157 then some (.mfsprLctrl2 r)
  else if spr = 158 then some (.mfsprIctrl r)
  else if spr = 159 then some (.mfsprBar r)
  else if spr = 630 then some (.mfsprDpdr r)
  else none

/-- `mtspr n, rS` (rules R24, R144). -/
def decodeMtspr (spr r : Nat) : Option Instr :=
  if spr = 144 then some (.mtsprCmpa r)
  else if spr = 145 then some (.mtsprCmpb r)
  else if spr = 146 then some (.mtsprCmpc r)
  else if spr = 147 then some (.mtsprCmpd r)
  else if spr = 148 then some (.mtsprEcr r)
  else if spr = 149 then some (.mtsprDer r)
  else if spr = 150 then some (.mtsprCounta r)
  else if spr = 151 then some (.mtsprCountb r)
  else if spr = 152 then some (.mtsprCmpe r)
  else if spr = 153 then some (.mtsprCmpf r)
  else if spr = 154 then some (.mtsprCmpg r)
  else if spr = 155 then some (.mtsprCmph r)
  else if spr = 156 then some (.mtsprLctrl1 r)
  else if spr = 157 then some (.mtsprLctrl2 r)
  else if spr = 158 then some (.mtsprIctrl r)
  else if spr = 159 then some (.mtsprBar r)
  else if spr = 630 then some (.mtsprDpdr r)
  else none

/-- The fields of an instruction word: primary opcode in bits 0:5, register in 6:10, the two halves of the SPR number swapped
in 11:20, extended opcode and the last bit in 21:31 (rule R144); four fixed words (R145, R146). -/
def decodeWord? (w : Word) : Option Instr :=
  let n := w.toNat
  let r := n / 2 ^ 21 % 32
  let spr := n / 2 ^ 16 % 32 + 32 * (n / 2 ^ 11 % 32)
  if n = 0x4C000064 then some .rfi
  else if n = 0x7C0004AC then some .sync
  else if n = 0x4C00012C then some .isync
  else if n = 0x97FE0004 then some .stwu
  else if n / 2 ^ 26 = 31 then
    if n % 2 ^ 11 = 2 * 339 then decodeMfspr spr r
    else if n % 2 ^ 11 = 2 * 467 then decodeMtspr spr r
    else if n % 2 ^ 11 = 2 * 146 ∧ spr = 0 then some (.mtmsr r)
    else none
  else none

/-- The general word of `stwu rS, d(rA)`, `37 ‖ rS ‖ rA ‖ d` (rule R146); the table's row is the one with r31, 4 and r30. -/
def stwuWord (rS rA : Nat) (d : BitVec 16) : Word := BitVec.ofNat 32 (37 * 2 ^ 26 + rS * 2 ^ 21 + rA * 2 ^ 16 + d.toNat)

/-- The fields rS, rA and d of a word of `stwu` (rule R146). -/
def stwuFields? (w : Word) : Option (Nat × Nat × BitVec 16) :=
  let n := w.toNat
  if n / 2 ^ 26 = 37 then some (n / 2 ^ 21 % 32, n / 2 ^ 16 % 32, BitVec.ofNat 16 n) else none

/-- Decode a CPU instruction word; a word outside the table is rejected by name (rule R7). -/
def decodeWord (w : Word) : Except DecodeError Instr :=
  match decodeWord? w with
  | some i => .ok i
  | none => .error (.notInTable w)

/-- Decode the first instruction of a bit stream of one channel. -/
def decodeBits : Channel → List Bool → Except DecodeError (Instr × List Bool)
  | .port, l =>
    match readFrame l with
    | .ok (f, rest) => .ok (decodeFrame f, rest)
    | .error e => .error e
  | .fetch, l =>
    if l.length < 32 then .error .truncated
    else
      match decodeWord (ofBits 32 (l.take 32)) with
      | .ok i => .ok (i, l.drop 32)
      | .error e => .error e

/-- The word at the head of a byte stream, most significant byte first (rule R95). -/
def wordOfBytes (b0 b1 b2 b3 : Byte) : Word := b0 ++ b1 ++ b2 ++ b3

/-- Decode the CPU instruction at the head of a byte stream. -/
def decodeBytes : List Byte → Except DecodeError (Instr × List Byte)
  | b0 :: b1 :: b2 :: b3 :: rest =>
    match decodeWord (wordOfBytes b0 b1 b2 b3) with
    | .ok i => .ok (i, rest)
    | .error e => .error e
  | _ => .error .truncated

/-- The seven data bits of a command (rule R134). -/
def commandData (e : BitVec 2) (m : BitVec 5) : BitVec 7 := e ++ m

/-- `mfspr rD, n` and `mtspr n, rS` as words (rule R144). -/
def mfsprWord (spr r : Nat) : Word :=
  BitVec.ofNat 32 (0x7C0002A6 + r * 2 ^ 21 + spr % 32 * 2 ^ 16 + spr / 32 * 2 ^ 11)

def mtsprWord (spr r : Nat) : Word :=
  BitVec.ofNat 32 (0x7C0003A6 + r * 2 ^ 21 + spr % 32 * 2 ^ 16 + spr / 32 * 2 ^ 11)

/-- An encoded instruction: a transmission or an instruction word. -/
inductive Encoded where
  | frame (f : Frame)
  | word (w : Word)
deriving DecidableEq, Repr

/-- The encoding of each row of the table (rules R132 to R134, R144 to R146). -/
def encode : Instr → Encoded
  | .dpInsn w => .frame (.long false w)
  | .dpData w => .frame (.long true w)
  | .dpTe i0 i1 i2 i3 l0 l1 vs => .frame (.short false (ofBits 7 [i0, i1, i2, i3, l0, l1, vs]))
  | .dpNop x => .frame (.short true (commandData x 0b00000))
  | .dpHreset x => .frame (.short true (commandData x 0b00001))
  | .dpSreset x => .frame (.short true (commandData x 0b00010))
  | .dpStartdl => .frame (.short true 0b1100011)
  | .dpEnddl => .frame (.short true 0b1000011)
  | .dpBrk nm m => .frame (.short true (ofBits 7 [nm, m, true, true, true, true, true]))
  | .rsv00011 x => .frame (.short true (ofBits 7 [false, x, false, false, false, true, true]))
  | .rsv001 x y => .frame (.short true (commandData x (0b001#3 ++ y)))
  | .rsv01 x y => .frame (.short true (commandData x (0b01#2 ++ y)))
  | .rsv10 x y => .frame (.short true (commandData x (0b10#2 ++ y)))
  | .rsv110 x y => .frame (.short true (commandData x (0b110#3 ++ y)))
  | .rsv1110 x y => .frame (.short true (commandData x (0b1110#4 ++ BitVec.ofBool y)))
  | .rsv11110 x => .frame (.short true (commandData x 0b11110))
  | .mfsprCmpa r => .word (mfsprWord 144 r)
  | .mtsprCmpa r => .word (mtsprWord 144 r)
  | .mfsprCmpb r => .word (mfsprWord 145 r)
  | .mtsprCmpb r => .word (mtsprWord 145 r)
  | .mfsprCmpc r => .word (mfsprWord 146 r)
  | .mtsprCmpc r => .word (mtsprWord 146 r)
  | .mfsprCmpd r => .word (mfsprWord 147 r)
  | .mtsprCmpd r => .word (mtsprWord 147 r)
  | .mfsprEcr r => .word (mfsprWord 148 r)
  | .mtsprEcr r => .word (mtsprWord 148 r)
  | .mfsprDer r => .word (mfsprWord 149 r)
  | .mtsprDer r => .word (mtsprWord 149 r)
  | .mfsprCounta r => .word (mfsprWord 150 r)
  | .mtsprCounta r => .word (mtsprWord 150 r)
  | .mfsprCountb r => .word (mfsprWord 151 r)
  | .mtsprCountb r => .word (mtsprWord 151 r)
  | .mfsprCmpe r => .word (mfsprWord 152 r)
  | .mtsprCmpe r => .word (mtsprWord 152 r)
  | .mfsprCmpf r => .word (mfsprWord 153 r)
  | .mtsprCmpf r => .word (mtsprWord 153 r)
  | .mfsprCmpg r => .word (mfsprWord 154 r)
  | .mtsprCmpg r => .word (mtsprWord 154 r)
  | .mfsprCmph r => .word (mfsprWord 155 r)
  | .mtsprCmph r => .word (mtsprWord 155 r)
  | .mfsprLctrl1 r => .word (mfsprWord 156 r)
  | .mtsprLctrl1 r => .word (mtsprWord 156 r)
  | .mfsprLctrl2 r => .word (mfsprWord 157 r)
  | .mtsprLctrl2 r => .word (mtsprWord 157 r)
  | .mfsprIctrl r => .word (mfsprWord 158 r)
  | .mtsprIctrl r => .word (mtsprWord 158 r)
  | .mfsprBar r => .word (mfsprWord 159 r)
  | .mtsprBar r => .word (mtsprWord 159 r)
  | .mfsprDpdr r => .word (mfsprWord 630 r)
  | .mtsprDpdr r => .word (mtsprWord 630 r)
  | .rfi => .word 0x4C000064
  | .sync => .word 0x7C0004AC
  | .isync => .word 0x4C00012C
  | .mtmsr r => .word (BitVec.ofNat 32 (0x7C000124 + r * 2 ^ 21))
  | .stwu => .word (stwuWord 31 30 4)

/-- The channel an encoded instruction travels on. -/
def Encoded.channel : Encoded → Channel
  | .frame _ => .port
  | .word _ => .fetch

/-- Its bits in the order they travel. -/
def Encoded.bits : Encoded → List Bool
  | .frame f => f.bits
  | .word w => toBits w

/-- The width the opcode table gives the row of an instruction. -/
def Instr.tableWidth : Instr → Nat
  | .dpInsn _ => 35
  | .dpData _ => 35
  | .dpTe _ _ _ _ _ _ _ => 10
  | .dpNop _ => 10
  | .dpHreset _ => 10
  | .dpSreset _ => 10
  | .dpStartdl => 10
  | .dpEnddl => 10
  | .dpBrk _ _ => 10
  | .rsv00011 _ => 10
  | .rsv001 _ _ => 10
  | .rsv01 _ _ => 10
  | .rsv10 _ _ => 10
  | .rsv110 _ _ => 10
  | .rsv1110 _ _ => 10
  | .rsv11110 _ => 10
  | .mfsprCmpa _ => 32
  | .mtsprCmpa _ => 32
  | .mfsprCmpb _ => 32
  | .mtsprCmpb _ => 32
  | .mfsprCmpc _ => 32
  | .mtsprCmpc _ => 32
  | .mfsprCmpd _ => 32
  | .mtsprCmpd _ => 32
  | .mfsprEcr _ => 32
  | .mtsprEcr _ => 32
  | .mfsprDer _ => 32
  | .mtsprDer _ => 32
  | .mfsprCounta _ => 32
  | .mtsprCounta _ => 32
  | .mfsprCountb _ => 32
  | .mtsprCountb _ => 32
  | .mfsprCmpe _ => 32
  | .mtsprCmpe _ => 32
  | .mfsprCmpf _ => 32
  | .mtsprCmpf _ => 32
  | .mfsprCmpg _ => 32
  | .mtsprCmpg _ => 32
  | .mfsprCmph _ => 32
  | .mtsprCmph _ => 32
  | .mfsprLctrl1 _ => 32
  | .mtsprLctrl1 _ => 32
  | .mfsprLctrl2 _ => 32
  | .mtsprLctrl2 _ => 32
  | .mfsprIctrl _ => 32
  | .mtsprIctrl _ => 32
  | .mfsprBar _ => 32
  | .mtsprBar _ => 32
  | .mfsprDpdr _ => 32
  | .mtsprDpdr _ => 32
  | .rfi => 32
  | .sync => 32
  | .isync => 32
  | .mtmsr _ => 32
  | .stwu => 32

/-- The bits of the number `w`, `n` of them, most significant first. -/
def natBits (n w : Nat) : List Bool := toBits (BitVec.ofNat n w)

/-- The instruction the decoder reads from an opcode-table word: 32 bits are a CPU instruction word, up to 16 bits hold a
10-bit transmission and more than 32 bits a 35-bit one, each right-aligned as the table prints it. -/
def decodeTableWord (nbits w : Nat) : Option Instr :=
  if nbits = 32 then (if w < 2 ^ 32 then decodeWord? (BitVec.ofNat 32 w) else none)
  else
    let width := if nbits ≤ 16 then 10 else 35
    if 2 ^ width ≤ w then none
    else
      match decodeBits .port (natBits width w) with
      | .ok (i, []) => some i
      | _ => none

end Sys2Proof
end

