-- ==== Sys2Proof/Machine/State.lean ====
section
/-! DEFINITION. Everything the spec gives the machine, as plain data (10_state.md; INVENTORY.md lists it with its rules), the
reasons a step can stop, and the state after reset. -/

namespace Sys2Proof.Machine

/-- The seventeen special purpose registers but for DPDR, which is the port's shift register (rules R24 to R36). -/
structure Sprs where
  cmpa : Word
  cmpb : Word
  cmpc : Word
  cmpd : Word
  cmpe : Word
  cmpf : Word
  cmpg : Word
  cmph : Word
  ictrl : Word
  lctrl1 : Word
  lctrl2 : Word
  counta : Word
  countb : Word
  ecr : Word
  der : Word
  bar : Word
deriving DecidableEq, Repr, Inhabited

/-- The trap enable control register (rule R41). -/
structure Tecr where
  diwp0en : Bool
  diwp1en : Bool
  diwp2en : Bool
  diwp3en : Bool
  dlw0en : Bool
  dlw1en : Bool
  vsync : Bool
  nmbrk : Bool
  mbrk : Bool
deriving DecidableEq, Repr, Inhabited

/-- What the CPU is trying to read from the port (rule R48); a pending `mfspr rD, DPDR` remembers its rD (rule R373). -/
inductive CpuWaiting where
  | none | instruction | data (rD : Nat)
deriving DecidableEq, Repr, Inhabited

/-- The serial clock mode (rule R45). -/
inductive ClockMode where
  | async | syncSelfClock
deriving DecidableEq, Repr, Inhabited

/-- The development port (rules R40, R41, R45 to R48, R356). -/
structure Port where
  /-- The 35-bit shift register; position 0 is the most significant bit. While no transmission is in progress position 0 is the
  ready bit that the port sets (rule R370), which is a function of the state: `State.shiftRegister` is the register with it. -/
  dpsr : BitVec 35
  tecr : Tecr
  clockMode : ClockMode
  downloadInProgress : Bool
  endRequested : Bool
  /-- The port supplies the stwu of the download loop next (rule R388). -/
  downloadStore : Bool
  validData : Bool
  seqErrPending : Bool
  cpuIntPending : Bool
  cpuWaiting : CpuWaiting
  /-- Bits of the transmission in progress already shifted; 0 when none is (rule R356). -/
  shifted : Nat
  /-- The frame in progress will be ignored (rule R385). -/
  suppress : Bool
  /-- DSDI was high 16 clocks after SRESET: the port waits for it to fall (rule R543). -/
  scanHold : Bool
  /-- Status bits of the current or last transmission out (rule R380). -/
  txStatus : BitVec 2
  /-- Data of the current or last transmission out; a 10-bit one carries its bits 0:6 (rule R142). -/
  txData : Word
deriving DecidableEq, Repr, Inhabited

/-- Debug mode, freeze and the model's flags (rules R42 to R44, R312, R497, D3, D19, U14). -/
structure Dbg where
  enable : Bool
  inDebug : Bool
  freeze : Bool
  checkStop : Bool
  nonRestartable : Bool
  reservedCommandSeen : Bool
  illegalProgramming : Bool
  unalignedSeen : Bool
deriving DecidableEq, Repr, Inhabited

/-- What the next VF value must be read as (rule R174). -/
inductive SlotKind where
  | type | flush
deriving DecidableEq, Repr, Inhabited

/-- A fetch waiting to be shown on the external bus (rules R182, R187); `tag` numbers the fetch. -/
structure ShowCycle where
  addr : WordAddr
  flow : Flow
  tag : Nat
deriving DecidableEq, Repr, Inhabited

/-- Program trace (rules R50 to R52, R170 to R194). -/
structure Trace where
  vf : BitVec 3
  prevKind : SlotKind
  histFlush : BitVec 2
  vsyncChanged : Bool
  /-- Instruction types not yet reported on VF, oldest first. -/
  pending : List VfType
  /-- Type reports made since the first that was declared one of the last two before a stop (rule R187, U11). -/
  lastReports : Nat
  /-- The class of the fetch of the next instruction to execute, when what comes before it decides it (rules R171, R180). -/
  nextFlow : Flow
  /-- That fetch is shown in every setting (rules R178, R179). -/
  nextVisible : Bool
  /-- The ISCT_SER setting in force for the next instruction to execute (rule R109). -/
  isctActive : BitVec 3
  /-- That setting is still the one before the last write of ICTRL (rule R109). -/
  isctHold : Bool
  showQueue : List ShowCycle
  /-- How many fetches have been made: the number of the next one. -/
  fetches : Nat
deriving DecidableEq, Repr, Inhabited

/-- The four instruction watchpoints detected at a fetch (rule R223). -/
structure Iwp where
  w0 : Bool
  w1 : Bool
  w2 : Bool
  w3 : Bool
deriving DecidableEq, Repr, Inhabited

/-- An instruction fetched and not yet retired, with what was detected at its fetch (rules R106, R224), the class its fetch
carried (R171) and the number of the fetch. -/
structure InFlight where
  addr : WordAddr
  word : Word
  iwp : Iwp
  fault : Option SyncCause
  flow : Flow
  tag : Nat
deriving DecidableEq, Repr, Inhabited

/-- How the last CPU instruction ended. -/
inductive Ended where
  | completed | excepted | stalled
deriving DecidableEq, Repr, Inhabited

/-- Kinds of access the memory system can refuse (rules R103, R104). -/
inductive Access where
  | fetch | read | write
deriving DecidableEq, Repr, Inhabited

/-- Addresses `first` to `last` whose accesses of one kind raise an event. -/
structure FaultRegion where
  access : Access
  first : Word
  last : Word
  cause : SyncCause
deriving DecidableEq, Repr, Inhabited

/-- Requests from outside the instruction stream (rules R480, R488). `peripheral` and `external` are levels; the others are
latched until the event is taken. -/
structure Lines where
  peripheral : Bool
  external : Bool
  nmi : Bool
  machineCheck : Bool
  decrementer : Bool
deriving DecidableEq, Repr, Inhabited

/-- The instructions that raise the trace event when they complete: they are in single trace or branch trace mode (rules R480,
R482). -/
structure Traced where
  /-- The instruction at this address, outside debug mode. -/
  insn : Option WordAddr
  /-- The instruction the port delivers next, or the one it delivered that has not yet ended. -/
  delivered : Bool
deriving DecidableEq, Repr, Inhabited

/-- The counters whose expiry led into the breakpoint exception routine that runs: what they read there is stated (rule R263). -/
structure Expired where
  a : Bool
  b : Bool
deriving DecidableEq, Repr, Inhabited

/-- What a trace clock reports as instruction type (rule R176): nothing, the oldest type not yet reported, or a type the CPU
model gives. -/
inductive ClockReport where
  | stall | next | given (t : VfType)
  /-- The report is one of the last two before the trace window ends, and any value, `t`, stands for the oldest type not yet
  reported (rule R187, U11). -/
  | last (t : VfType)
deriving DecidableEq, Repr, Inhabited

/-- What a reset takes from outside: the pin samples, in clocks from the release of SRESET (rules R541 to R543), and MSR[IP], which
chooses VectorBase, from the reset configuration word (rules R9, R483). -/
structure ResetPins where
  dsckAtMinus3 : Bool
  dsckAt7 : Bool
  dsdiAt8 : Bool
  dsdiAt16 : Bool
  ip : Bool
deriving DecidableEq, Repr, Inhabited

/-- One event the environment delivers (rules R10, R11, R105). -/
inductive Input where
  /-- The CPU takes its next step: it retires the oldest instruction in flight, or fetches and retires the one at pc; in debug mode it
  executes the word the port has delivered. -/
  | cpuStep
  /-- The CPU fetches ahead (`Fetch(ia)` of rule R11). -/
  | fetch (addr : WordAddr) (flow : Flow)
  /-- The n youngest instructions in flight are flushed (`Cancel(n)`). -/
  | cancel (n : Nat)
  /-- One clock of the VF and VFLS pins, with the queue and history flush counts (rule R176). -/
  | clock (report : ClockReport) (queueFlush : Fin 6) (historyFlush : Fin 3)
  /-- The SIU wins the external bus: the oldest show cycle is made (rule R187). -/
  | busGrant
  /-- The tool sends a whole transmission. -/
  | frame (f : Frame)
  /-- One serial clock with this level on DSDI (rule R356). -/
  | shift (dsdi : Bool)
  | peripheral (level : Bool)
  | external (level : Bool)
  | nmi
  | machineCheck
  | decrementer
  /-- The next instruction to execute raises the trace event when it completes (rule R480, event 13): outside debug mode the one at
  pc, in debug mode the one the port delivers. A trace event that still waits outside debug mode is replaced by the new one: DESIGN
  CHOICE, log entry 30. -/
  | trace
  | reset (pins : ResetPins)
deriving DecidableEq, Repr, Inhabited

/-- What the logic emits to the outside during a step. -/
inductive Output where
  /-- A new report on VF[0:2] (rule R51). -/
  | vf (v : BitVec 3)
  /-- A pulse on a watchpoint pin (rules R53, R224). -/
  | watchpoint (w : Watchpoint)
  /-- A cycle made visible on the external bus (rule R182): its address and whether it is a program trace cycle. -/
  | showCycle (addr : WordAddr) (programTrace : Bool)
  /-- A pulse of ECR_OR (rule R316). -/
  | ecrOr
  /-- `ResetRequest(hard)` or `ResetRequest(soft)` (rules R363, R364). -/
  | resetRequest (hard : Bool)
deriving DecidableEq, Repr, Inhabited

/-- Reasons the machine stops. -/
inductive Fault where
  /-- Raised by `step` when the CPU is in the check stop state and no input is left: nothing but a reset can change the machine
  (rule R312). Safe: the machine does nothing further there. -/
  | checkStopped
deriving DecidableEq, Repr

/-- Reasons an instruction has no meaning. -/
inductive Refusal where
  /-- Raised by an arm of `exec` whose instruction has no meaning yet. Safe: nothing is claimed of it. -/
  | notModelled (mnemonic : String)
deriving DecidableEq, Repr

/-- The machine. -/
structure State where
  cpu : Cpu
  spr : Sprs
  port : Port
  dbg : Dbg
  trace : Trace
  lines : Lines
  /-- The word a debug-mode fetch has delivered and the CPU has not yet executed (rule R372). -/
  ir : Option Word
  inflight : List InFlight
  /-- The L-bus cycles of the instruction being executed (rule R93). -/
  cycles : List LsCycle
  outcome : Ended
  traced : Traced
  /-- A sync has come before: a read of an active counter would be exact (rule R107). -/
  countersSettled : Bool
  expired : Expired
  /-- Effects the CPU model has prepared for instructions outside the table. -/
  oracle : List Effect
  faultMap : List FaultRegion
  /-- The system memory: addresses strictly rising, no byte 0 listed. -/
  mem : List Host.Cell
  inputs : List Input
  out : List Output
  /-- How many free values have been drawn. -/
  draws : Nat
deriving DecidableEq, Repr, Inhabited

/-- What a meaning or a step answers. -/
abbrev Result := Host.Outcome State Fault Refusal

/-- The machine right after a reset with the development port pins low: debug mode disabled, asynchronous clock, the CPU about
to fetch the reset vector (rules R60, R541 to R545). Values the spec does not give are those of log entries 2 to 5; that the first
fetch is a program trace cycle and nothing is reported for it on VF is a DESIGN CHOICE, log entry 60. -/
def State.reset : State where
  cpu :=
    { gpr := Vector.replicate 32 0
      pc := 0x00000100
      msr := ⟨false, false, false, false, false⟩
      srr0 := 0
      srr1 := ⟨⟨false, false, false, false, false⟩, false, false, false, false⟩
      dar := 0
      dsisr := 0 }
  spr :=
    { cmpa := 0, cmpb := 0, cmpc := 0, cmpd := 0, cmpe := 0, cmpf := 0, cmpg := 0, cmph := 0
      ictrl := 0, lctrl1 := 0, lctrl2 := 0, counta := 0, countb := 0
      ecr := 0, der := 0x2002000F, bar := 0 }
  port :=
    { dpsr := 0
      tecr := ⟨false, false, false, false, false, false, false, false, false⟩
      clockMode := .async
      downloadInProgress := false, endRequested := false, downloadStore := false
      validData := false, seqErrPending := false, cpuIntPending := false
      cpuWaiting := .none
      shifted := 0, suppress := false, scanHold := false
      txStatus := 0, txData := 0 }
  dbg := ⟨false, false, false, false, false, false, false, false⟩
  trace :=
    { vf := 0, prevKind := .type, histFlush := 0, vsyncChanged := false, pending := [], lastReports := 0
      nextFlow := .indirect, nextVisible := false, isctActive := 0, isctHold := false, showQueue := [], fetches := 0 }
  lines := ⟨false, false, false, false, false⟩
  ir := none
  inflight := []
  cycles := []
  outcome := .completed
  traced := ⟨none, false⟩
  countersSettled := false
  expired := ⟨false, false⟩
  oracle := []
  faultMap := []
  mem := []
  inputs := []
  out := []
  draws := 0

end Sys2Proof.Machine
end

