-- ==== Sys2Proof/Machine/Operands.lean ====
section
/-! DEFINITION. Bit fields in the manual's numbering (R12), the general registers, the views and masks of the special purpose
registers (R28, R30, R435), the access predicates (R430), and the geometry of an L-bus cycle (R95, R96). -/

namespace Sys2Proof.Machine

/-- Bit `n` of a register, bit 0 the most significant (rule R12). -/
def bitOf (w : Word) (n : Nat) : Bool := w.getMsbD n

/-- `REG[first : first + width - 1]` of rule R12. -/
def fieldOf (w : Word) (first width : Nat) : BitVec width := w.extractLsb' (32 - first - width) width

/-- A word with only bit `n` possibly set. -/
def bitMask (n : Nat) (b : Bool) : Word := if b then BitVec.twoPow 32 (31 - n) else 0

/-- Byte `k` of a word, byte 0 the most significant (rules R27, R95). -/
def byteOf (w : Word) (k : Nat) : Byte := w.extractLsb' (24 - 8 * k) 8

/-- `x[i]` of rule R12. -/
def State.reg (s : State) (n : Nat) : Word := s.cpu.gpr[n]?.getD 0

/-- `x[i] <- v` of rule R12. -/
def State.setReg (s : State) (n : Nat) (v : Word) : State :=
  { s with cpu := { s.cpu with gpr := s.cpu.gpr.setIfInBounds n v } }

/-- `MSR.PR = 0` (rule R430). -/
def State.supervisor (s : State) : Bool := !s.cpu.msr.pr

/-- `WriteEnabled` of rule R430. -/
def State.writeEnabled (s : State) : Bool := s.supervisor && (!s.dbg.enable || s.dbg.inDebug)

/-- `EcrClears` of rule R430. -/
def State.ecrClears (s : State) : Bool := s.supervisor && (!s.dbg.enable || s.dbg.inDebug)

/-- `DpdrLive` of rule R430. -/
def State.dpdrLive (s : State) : Bool := s.supervisor && s.dbg.inDebug

/-- The bits each register stores (rule R435). -/
def maskCmpI : Word := 0xFFFFFFFC
def maskIctrl : Word := 0xFFFFFF0F
def maskLctrl1 : Word := 0xFFFFFFFC
def maskLctrl2 : Word := 0xFFFFF803
def maskCount : Word := 0xFFFF0003
def maskEvents : Word := 0x73E7540F

/-- ICTRL as mfspr reads it: bits 24:27 show the port's trap enables (rules R28, R468). -/
def State.ictrlView (s : State) : Word :=
  (s.spr.ictrl &&& maskIctrl) ||| bitMask 24 s.port.tecr.diwp0en ||| bitMask 25 s.port.tecr.diwp1en
    ||| bitMask 26 s.port.tecr.diwp2en ||| bitMask 27 s.port.tecr.diwp3en

/-- LCTRL2 as mfspr reads it: bits 28:29 show the port's trap enables (rules R30, R466). -/
def State.lctrl2View (s : State) : Word :=
  (s.spr.lctrl2 &&& maskLctrl2) ||| bitMask 28 s.port.tecr.dlw0en ||| bitMask 29 s.port.tecr.dlw1en

/-- The live count of COUNTA or COUNTB (rules R31, R32). -/
def cntv (count : Word) : BitVec 16 := fieldOf count 0 16

/-- The source select of COUNTA or COUNTB (rules R31, R32). -/
def cntc (count : Word) : BitVec 2 := fieldOf count 30 2

/-- COUNTA or COUNTB with this count and source, reserved bits 0 (rules R452, R435). -/
def countWord (v : BitVec 16) (c : BitVec 2) : Word := v ++ (0 : BitVec 14) ++ c

/-- A counter is active when its source is a watchpoint (rules R31, R260). -/
def counterActive (count : Word) : Bool := cntc count == 0b01 || cntc count == 0b10

/-- ICTRL[IFM] (rule R28). -/
def State.ifm (s : State) : Bool := bitOf s.spr.ictrl 28

/-- `ICTRL.IFM <- b`. -/
def State.setIfm (s : State) (b : Bool) : State :=
  { s with spr := { s.spr with ictrl := (s.spr.ictrl &&& 0xFFFFFFF7) ||| bitMask 28 b } }

/-- Bytes of an L-bus cycle (rule R99). -/
def sizeBytes : Size → Nat
  | .byte => 1
  | .half => 2
  | .word => 4

/-- The cycle is aligned to its size (rule R100). -/
def cycleAligned (c : LsCycle) : Bool := c.addr.toNat % sizeBytes c.size == 0

/-- `Valid(addr, size)[k]` of rule R96. -/
def validLane (c : LsCycle) (k : Nat) : Bool :=
  let a := (fieldOf c.addr 30 2).toNat
  decide (a ≤ k) && decide (k < a + sizeBytes c.size)

end Sys2Proof.Machine
end

