-- ==== Sys2Proof/Machine/Events.lean ====
section
/-! DEFINITION. The event catalogue: ECR and DER bits, vectors, causes (60_exceptions.md rules R480 to R483, R312). -/

namespace Sys2Proof.Machine

/-- The ECR and DER bit of an event (rule R480). -/
def eventBit : Event → Nat
  | .systemReset => 1
  | .checkStop => 2
  | .machineCheck => 3
  | .instrProtection => 19
  | .dataProtection => 21
  | .externalInterrupt => 6
  | .alignment => 7
  | .program => 8
  | .fpUnavailable => 9
  | .fpAssist => 15
  | .decrementer => 10
  | .systemCall => 13
  | .trace => 14
  | .softwareEmulation => 17
  | .instrBreakpoint => 29
  | .loadStoreBreakpoint => 28
  | .externalBreakpoint => 30
  | .devPortInterrupt => 31

/-- The ECR and DER mask of an event. -/
def eventMask (e : Event) : Word := bitMask (eventBit e) true

/-- The vector offset of an event (rule R480). Check stop has none (it is a state, not a handler). -/
def vectorOffset : Event → Word
  | .systemReset => 0x0100
  | .checkStop => 0
  | .machineCheck => 0x0200
  | .instrProtection => 0x1300
  | .dataProtection => Config.dataProtectionVector
  | .externalInterrupt => 0x0500
  | .alignment => 0x0600
  | .program => 0x0700
  | .fpUnavailable => 0x0800
  | .fpAssist => 0x0E00
  | .decrementer => 0x0900
  | .systemCall => 0x0C00
  | .trace => 0x0D00
  | .softwareEmulation => 0x1000
  | .instrBreakpoint => 0x1D00
  | .loadStoreBreakpoint => 0x1C00
  | .externalBreakpoint => 0x1E00
  | .devPortInterrupt => 0x1F00

/-- `VectorBase` (rule R483). -/
def vectorBase (ip : Bool) : Word := if ip then 0xFFF00000 else 0x00000000

/-- `VectorAddr(e)` (rule R483). -/
def vectorAddr (ip : Bool) (e : Event) : Word := vectorBase ip + vectorOffset e

/-- Machine check or check stop, as MSR[ME] decides (rules R311, R312). -/
def machineCheckEvent (me : Bool) : Event := if me then .machineCheck else .checkStop

/-- The event of a cause that belongs to the instruction (rules R480, R482). -/
def syncEvent (me : Bool) : SyncCause → Event
  | .instrProtection _ => .instrProtection
  | .dataProtection => .dataProtection
  | .alignment => .alignment
  | .program => .program
  | .fpUnavailable => .fpUnavailable
  | .fpAssist => .fpAssist
  | .systemCall => .systemCall
  | .softwareEmulation => .softwareEmulation
  | .machineCheck => machineCheckEvent me

/-- The eighteen events in the order of the catalogue. -/
def allEvents : List Event :=
  [.systemReset, .checkStop, .machineCheck, .instrProtection, .dataProtection, .externalInterrupt, .alignment, .program,
    .fpUnavailable, .fpAssist, .decrementer, .systemCall, .trace, .softwareEmulation, .instrBreakpoint,
    .loadStoreBreakpoint, .externalBreakpoint, .devPortInterrupt]

/-- Breakpoints that leave a non-restartable state when MSR[RI] = 0 (rules R497, R489). -/
def nonRestartableEvent (e : Event) : Bool :=
  e == .instrBreakpoint || e == .loadStoreBreakpoint || e == .devPortInterrupt

/-- SRR1 as an event saves it: the interrupted MSR (R306, R496) and the error bits, which only the instruction protection
error defines (R491); the others are free. -/
def srr1Of (e : Event) (msr : Msr) : Srr1 :=
  let info := Config.srr1Info e msr
  ⟨msr, info.getMsbD 0, info.getMsbD 1, info.getMsbD 2, info.getMsbD 3⟩

/-- SRR1 for a cause that belongs to the instruction (rule R491). -/
def srr1OfSync (me : Bool) (c : SyncCause) (msr : Msr) : Srr1 :=
  match c with
  | .instrProtection guarded => ⟨msr, false, guarded, !guarded, false⟩
  | c => srr1Of (syncEvent me c) msr

end Sys2Proof.Machine
end

