-- ==== Sys2Proof/Machine/Flags.lean ====
section
/-! DEFINITION. The comparators, the match events, the watchpoints and the breakpoint conditions (41_watchpoints_breakpoints.md
rules R220 to R263). -/

namespace Sys2Proof.Machine

/-- `Ev(ct, eq, lt)` of rule R221. -/
def compareEvent (ct : BitVec 3) (eq lt : Bool) : Bool :=
  if ct = 0b100 then eq
  else if ct = 0b101 then lt
  else if ct = 0b110 then !eq && !lt
  else if ct = 0b111 then !eq
  else false

/-- One I-address comparator: 30-bit unsigned comparison (rule R222). -/
def iAddrEvent (ct : BitVec 3) (cmp : Word) (ia : WordAddr) : Bool :=
  let c := fieldOf cmp 0 30
  compareEvent ct (ia == c) (decide (ia < c))

/-- The four instruction watchpoints of a fetch (rule R223). -/
def iwpOf (r : Sprs) (ia : WordAddr) : Iwp :=
  let a := iAddrEvent (fieldOf r.ictrl 0 3) r.cmpa ia
  let b := iAddrEvent (fieldOf r.ictrl 3 3) r.cmpb ia
  let c := iAddrEvent (fieldOf r.ictrl 6 3) r.cmpc ia
  let d := iAddrEvent (fieldOf r.ictrl 9 3) r.cmpd ia
  let pick := fun (f : BitVec 2) (single both : Bool) => if f = 0b10 then single else if f = 0b11 then both else false
  { w0 := pick (fieldOf r.ictrl 12 2) a (a && b)
    w1 := pick (fieldOf r.ictrl 14 2) b (a || b)
    w2 := pick (fieldOf r.ictrl 16 2) c (c && d)
    w3 := pick (fieldOf r.ictrl 18 2) d (c || d) }

/-- `IWP[00..11]` of rule R242. -/
def Iwp.select (w : Iwp) (sel : BitVec 2) : Bool :=
  if sel = 0 then w.w0 else if sel = 1 then w.w1 else if sel = 2 then w.w2 else w.w3

/-- Bits masked in the address comparison (rules R101, R232). -/
def maskedBits : Size → Nat
  | .byte => 0
  | .half => 1
  | .word => 2

/-- The read/write qualifier (rule R231). -/
def rwMatch (crw : BitVec 2) (write : Bool) : Bool :=
  if crw = 0b10 then !write else if crw = 0b11 then write else true

/-- One L-address comparator with its qualifier (rules R232, R233): the masked low bits are dropped from both sides. -/
def lAddrEvent (ct : BitVec 3) (crw : BitVec 2) (cmp : Word) (c : LsCycle) : Bool :=
  let m := maskedBits c.size
  let a := c.addr.toNat / 2 ^ m
  let b := cmp.toNat / 2 ^ m
  compareEvent ct (a == b) (decide (a < b)) && rwMatch crw c.write

/-- `LA[sel]` of rule R233. -/
def lAddrSelect (r : Sprs) (sel : BitVec 2) (c : LsCycle) : Bool :=
  let e := lAddrEvent (fieldOf r.lctrl1 0 3) (fieldOf r.lctrl1 12 2) r.cmpe c
  let f := lAddrEvent (fieldOf r.lctrl1 3 3) (fieldOf r.lctrl1 14 2) r.cmpf c
  if sel = 0 then e else if sel = 1 then f else if sel = 2 then e && f else e || f

/-- The unit that contains byte `k` (rule R235); the reserved size 00 has none. -/
def unitOf (size : BitVec 2) (k : Nat) : List Nat :=
  if size = 0b01 then [0, 1, 2, 3]
  else if size = 0b10 then (if k < 2 then [0, 1] else [2, 3])
  else if size = 0b11 then [k]
  else []

/-- The number formed by some bytes of a word, taken in order (rule R238). -/
def unitValue (w : Word) (bytes : List Nat) : Nat := bytes.foldl (fun acc k => 256 * acc + (byteOf w k).toNat) 0

/-- The same, signed if the sign bit of the unit is among the bytes compared (rule R238). -/
def unitInt (signed : Bool) (w : Word) (unit bytes : List Nat) : Int :=
  let v : Int := unitValue w bytes
  let top := unit.headD 0
  if signed && bytes.contains top && (byteOf w top).msb then v - 2 ^ (8 * bytes.length) else v

/-- `Match(u)` of rule R238: masked bytes take no part; a unit with no live byte never matches. -/
def unitMatch (ct : BitVec 3) (signed : Bool) (mask : Nat → Bool) (d c : Word) (unit : List Nat) : Bool :=
  let live := unit.filter fun k => !mask k
  if live = [] then false
  else
    compareEvent ct (live.all fun k => byteOf d k == byteOf c k)
      (decide (unitInt signed d unit live < unitInt signed c unit live))

/-- `XmatchV[k]` of rules R238 and R239 for a comparator with compare type `ct`, size `cs`, sign bit and byte mask. -/
def dataMatch (ct : BitVec 3) (cs : BitVec 2) (signed : Bool) (mask : Nat → Bool) (cmp : Word) (c : LsCycle) (k : Nat) : Bool :=
  unitMatch ct signed mask c.data cmp (unitOf cs k) && (unitOf cs k).all (validLane c)

/-- `GmatchV[k]`. -/
def gMatch (r : Sprs) (c : LsCycle) (k : Nat) : Bool :=
  dataMatch (fieldOf r.lctrl1 6 3) (fieldOf r.lctrl1 16 2) (bitOf r.lctrl1 20) (fun j => bitOf r.lctrl1 (22 + j)) r.cmpg c k

/-- `HmatchV[k]`. -/
def hMatch (r : Sprs) (c : LsCycle) (k : Nat) : Bool :=
  dataMatch (fieldOf r.lctrl1 9 3) (fieldOf r.lctrl1 18 2) (bitOf r.lctrl1 21) (fun j => bitOf r.lctrl1 (26 + j)) r.cmph c k

/-- `LD[sel]` of rule R241. -/
def lDataSelect (r : Sprs) (sel : BitVec 2) (c : LsCycle) : Bool :=
  let g := gMatch r c
  let h := hMatch r c
  [0, 1, 2, 3].any fun k =>
    if sel = 0 then g k else if sel = 1 then h k else if sel = 2 then g k && h k else g k || h k

/-- `LWPx(c)` of rules R242 and R243 for x = 0 or 1; an unaligned cycle matches nothing (R100). -/
def lwpCycle (r : Sprs) (iwp : Iwp) (x : Nat) (c : LsCycle) : Bool :=
  let at' := 10 * x
  cycleAligned c
    && bitOf r.lctrl2 at'
    && (!bitOf r.lctrl2 (at' + 3) || iwp.select (fieldOf r.lctrl2 (at' + 1) 2))
    && (!bitOf r.lctrl2 (at' + 6) || lAddrSelect r (fieldOf r.lctrl2 (at' + 4) 2) c)
    && (!bitOf r.lctrl2 (at' + 9) || lDataSelect r (fieldOf r.lctrl2 (at' + 7) 2) c)

/-- `LWPx(i)`: one report per instruction (rule R244). -/
def lwpInsn (r : Sprs) (iwp : Iwp) (x : Nat) (cs : List LsCycle) : Bool := cs.any (lwpCycle r iwp x)

/-- `Recognized`: the context dependent filter (rule R255). -/
def State.recognized (s : State) : Bool := bitOf s.spr.lctrl2 20 || s.cpu.msr.ri

/-- `TEI[k]`, k = 0 to 3 (rules R225, R250). -/
def State.trapI (s : State) (k : Nat) : Bool :=
  bitOf s.spr.ictrl (20 + k) ||
    (if k = 0 then s.port.tecr.diwp0en else if k = 1 then s.port.tecr.diwp1en
     else if k = 2 then s.port.tecr.diwp2en else s.port.tecr.diwp3en)

/-- `TEL[x]`, x = 0, 1 (rules R245, R250). -/
def State.trapL (s : State) (x : Nat) : Bool :=
  bitOf s.spr.lctrl2 (30 + x) || (if x = 0 then s.port.tecr.dlw0en else s.port.tecr.dlw1en)

/-- `direct(i)` of rule R225. -/
def State.direct (s : State) (w : Iwp) : Bool :=
  (w.w0 && s.trapI 0) || (w.w1 && s.trapI 1) || (w.w2 && s.trapI 2) || (w.w3 && s.trapI 3)

/-- A counter expires on its instruction watchpoint `iwp` (rule R263, without `Recognized`). -/
def counterExpiryI (count : Word) (iwp : Bool) : Bool := cntc count == 0b01 && iwp && cntv count == 1

/-- `CounterExpiryI(i)` of rule R263 (without `Recognized`). -/
def State.expiryI (s : State) (w : Iwp) : Bool :=
  counterExpiryI s.spr.counta w.w0 || counterExpiryI s.spr.countb w.w1

/-- `Ibrk(i)` of rule R225. -/
def State.ibrk (s : State) (w : Iwp) : Bool :=
  s.recognized && ((s.direct w && !s.ifm) || s.expiryI w)

/-- The counter expires on load/store watchpoint `lwp` (rule R263, without `Recognized`). -/
def expiryL (count : Word) (lwp : Bool) : Bool := cntc count == 0b10 && lwp && cntv count == 1

/-- The load/store watchpoint x takes part in causing the breakpoint of rule R245. -/
def State.causesL (s : State) (x : Nat) (lwp : Bool) : Bool :=
  (lwp && s.trapL x) || expiryL (if x = 0 then s.spr.counta else s.spr.countb) lwp

/-- `Lbrk(i)` of rule R245, from the registers before the instruction. -/
def State.lbrk (s : State) (w : Iwp) (cs : List LsCycle) : Bool :=
  s.recognized && (s.causesL 0 (lwpInsn s.spr w 0 cs) || s.causesL 1 (lwpInsn s.spr w 1 cs))

/-- The address BAR records: that of the first cycle whose watchpoint causes the breakpoint (rule R259, D28). -/
def State.barAddr (s : State) (w : Iwp) (cs : List LsCycle) : Word :=
  let cause := fun x c => lwpCycle s.spr w x c && s.causesL x true
  ((cs.find? fun c => cause 0 c || cause 1 c).map (·.addr)).getD s.spr.bar

end Sys2Proof.Machine
end

