-- ==== Sys2Proof/Machine/Pins.lean ====
section
/-! DEFINITION. Program flow tracking: VF and VFLS, the class of fetches, show cycles (40_program_trace.md rules R170 to R194). -/

namespace Sys2Proof.Machine

/-- Emit something to the outside. -/
def State.emit (s : State) (o : Output) : State := { s with out := s.out ++ [o] }

/-- VFLS[0:1]: 11 exactly while freeze is asserted, else the history buffer flush count (rules R52, R175). -/
def State.vfls (s : State) : BitVec 2 := if s.dbg.freeze then 0b11 else s.trace.histFlush

/-- The FRZ pin (rule R54). -/
def State.frz (s : State) : Bool := s.dbg.freeze

/-- The code of an instruction type on VF (rule R172). -/
def vfCode : VfType → BitVec 3
  | .none => 0b000
  | .sequential => 0b001
  | .notTaken => 0b010
  | .exception => 0b100
  | .indirect => 0b101
  | .direct => 0b110
  | .notTakenFlush => 0b111

/-- What the clock after a type report holds (rule R172, third column). -/
def slotAfter : VfType → SlotKind
  | .none | .sequential | .notTaken => .type
  | .exception | .indirect | .direct | .notTakenFlush => .flush

/-- Put a value on VF. -/
def State.reportVf (s : State) (v : BitVec 3) (next : SlotKind) : State :=
  { s with trace := { s.trace with vf := v, prevKind := next }, out := s.out ++ [.vf v] }

/-- Report an instruction type. -/
def State.reportType (s : State) (t : VfType) : State := s.reportVf (vfCode t) (slotAfter t)

/-- A fetch that is both takes the stronger class: indirect over direct over sequential. -/
def joinFlow (a b : Flow) : Flow :=
  if a = .indirect || b = .indirect then .indirect else if a = .direct || b = .direct then .direct else .sequential

/-- `Shown(f)` of rule R191; `isct` is ISCT_SER, whose last two bits are ISCTL. Code 100 shows what 000 shows (D19). -/
def shownFetch (isct : BitVec 3) (vsync : Bool) (f : Flow) : Bool :=
  let ctl := isct.extractLsb' 0 2
  if ctl = 0b00 then true
  else if ctl = 0b01 then f = .direct || f = .indirect
  else if ctl = 0b10 then f = .indirect
  else vsync && f = .indirect

/-- The ISCT_SER setting a fetch is made under (rule R109): with nothing in flight the fetch is that of the next instruction to
execute, which the old setting may still hold for; a fetch ahead of that instruction is under ICTRL's setting. -/
def State.isctInForce (s : State) : BitVec 3 :=
  if s.trace.isctHold && s.inflight.isEmpty then s.trace.isctActive else fieldOf s.spr.ictrl 29 3

/-- The CPU is fetch serialized: SER = 0, or the illegal code 100, which acts as 000 (rules R190, R192, D19). -/
def State.serialized (s : State) : Bool := !s.isctInForce.msb || s.isctInForce == 0b100

/-- The address of an instruction as a word address (rule R21). Bits 30:31 of pc have no part in the fetch: DESIGN CHOICE beside R102,
log entry 61. -/
def State.pcWord (s : State) : WordAddr := fieldOf s.cpu.pc 0 30

/-- The oldest instruction in flight is the next to execute: it stands at pc and its fetch carried the class that is due to it
(rules R171, R178, R180). -/
def State.usable (s : State) (e : InFlight) : Bool := e.addr == s.pcWord && joinFlow s.trace.nextFlow e.flow == e.flow

/-- The target of an indirect change of flow that has been executed has not been fetched yet (rule R178). -/
def State.targetOwed (s : State) : Bool := s.trace.nextFlow == .indirect && !s.inflight.head?.any s.usable

/-- The class of a fetch (rules R171, R180): with nothing in flight it is that of the next instruction to execute. -/
def State.fetchFlow (s : State) (flow : Flow) : Flow :=
  if s.inflight.isEmpty then joinFlow s.trace.nextFlow flow else flow

/-- The fetch is shown on the external bus (rules R178, R179, R191). -/
def State.fetchShown (s : State) (flow : Flow) : Bool :=
  (s.trace.nextVisible && s.inflight.isEmpty) || shownFetch s.isctInForce s.port.tecr.vsync (s.fetchFlow flow)

/-- The trace side of a fetch outside debug mode (rules R171, R182, R191): a show cycle, if it is shown, waits for the bus. -/
def State.traceFetch (s : State) (ia : WordAddr) (flow : Flow) : State :=
  { s with trace :=
    { s.trace with
      fetches := s.trace.fetches + 1
      showQueue :=
        if s.fetchShown flow then s.trace.showQueue ++ [⟨ia, s.fetchFlow flow, s.trace.fetches⟩] else s.trace.showQueue } }

/-- The next instruction executes: what was due to its fetch has been given, and the instruction after it is fetched under
ICTRL's setting (rules R109, R171). Until then the fetch due to be visible after a VSYNC report or an exit from debug mode stays
due, also over an event that flushes it: DESIGN CHOICE beside R178, log entry 65. -/
def State.beginInsn (s : State) : State :=
  { s with trace :=
    { s.trace with
      nextFlow := .sequential, nextVisible := false, isctHold := false, isctActive := fieldOf s.spr.ictrl 29 3 } }

/-- The report of a VSYNC change is due: not in debug mode, with every executed instruction reported (D31) and, for a negation,
every program trace cycle fetched and shown (rule R178). -/
def State.vsyncReportDue (s : State) : Bool :=
  s.trace.vsyncChanged && !s.dbg.inDebug && s.trace.pending.isEmpty &&
    (s.port.tecr.vsync || !s.targetOwed && s.trace.showQueue.all fun c => c.flow != .indirect)

/-- Place the VSYNC report (rule R178): the machine synchronizes, so what was fetched ahead is fetched again; VF = 011, and the
first fetch after it is a program trace cycle shown in every setting. -/
def State.reportVsync (s : State) : State :=
  let s := State.reportVf { s with inflight := [] } 0b011 .type
  { s with trace :=
    { s.trace with
      vsyncChanged := false, nextFlow := .indirect, nextVisible := true
      lastReports := if s.port.tecr.vsync then s.trace.lastReports else 0 } }

/-- The last two type reports before a stop have been made (rule R187, U11): only the stop, a report of a negation of VSYNC or an
entry into debug mode, can come next. Types wait until then: DESIGN CHOICE, log entry 15. -/
def State.windowClosed (s : State) : Bool := decide (2 ≤ s.trace.lastReports)

/-- The type the clock reports and the types left to report. -/
def State.clockType (s : State) (r : ClockReport) : VfType × List VfType :=
  if s.windowClosed then (.none, s.trace.pending)
  else
    match r with
    | .stall => (.none, s.trace.pending)
    | .given t => (t, s.trace.pending)
    | .last t => (t, s.trace.pending.tail)
    | .next =>
      match s.trace.pending with
      | [] => (.none, [])
      | t :: rest => (t, rest)

/-- How many of the last two type reports before a stop have been made after a clock that reports `t` and leaves `rest` to report:
the first declared one begins the count, and every type report after it is counted (rule R187, U11). -/
def State.lastReportsAfter (s : State) (r : ClockReport) (t : VfType) (rest : List VfType) : Nat :=
  let counting := match r with
    | .last _ => true
    | .stall | .next | .given _ => s.trace.lastReports != 0
  if counting && (t != .none || rest != s.trace.pending) then s.trace.lastReports + 1 else s.trace.lastReports

/-- Report the type of a clock and leave `rest` to report. -/
def State.reportClock (s : State) (r : ClockReport) (t : VfType) (rest : List VfType) : State :=
  State.reportType { s with trace := { s.trace with pending := rest, lastReports := s.lastReportsAfter r t rest } } t

/-- The types that wait after a flush slot: one that the CPU model gives joins them, and none of the last two is reported there. -/
def State.waitingTypes (s : State) (r : ClockReport) (t : VfType) (rest : List VfType) : List VfType :=
  match r with
  | .last _ => s.trace.pending
  | .stall | .next | .given _ => if t = .none then rest else t :: rest

/-- One clock of the status pins (rules R174, R176 to R178, R181). In a flush slot only VF = 111 can be reported as a type; any
other type waits and the flush count is shown. A VSYNC report takes a clock with nothing else to report, after a pin value
000, 001 or 010 (D31). The last two type reports before a stop can be any value (rule R187, U11; log entry 15). -/
def State.clock (s : State) (r : ClockReport) (q : Fin 6) (h : Fin 3) : State :=
  let s := { s with trace := { s.trace with histFlush := BitVec.ofNat 2 h.val } }
  if s.dbg.inDebug then s.reportVf 0b000 .type
  else
    let (t, rest) := s.clockType r
    match s.trace.prevKind with
    | .type =>
      if t = .none && s.vsyncReportDue && decide (s.trace.vf.toNat ≤ 2) then s.reportVsync
      else s.reportClock r t rest
    | .flush =>
      if t = .notTakenFlush then s.reportClock r t rest
      else
        State.reportVf { s with trace := { s.trace with pending := s.waitingTypes r t rest } } (BitVec.ofNat 3 q.val) .type

/-- The SIU makes the oldest waiting show cycle (rule R187). -/
def State.busGrant (s : State) : State :=
  match s.trace.showQueue with
  | [] => s
  | c :: rest =>
    State.emit { s with trace := { s.trace with showQueue := rest } } (.showCycle c.addr (decide (c.flow = .indirect)))

/-- The pin of instruction watchpoint `k`, one of the pins 0 to 2, which are given out in order; one watchpoint has none (rules R8,
R53, D17). -/
def iwpPin (k : Fin 4) : Option (Fin 5) :=
  if k = Config.iwpWithoutPin then none
  else if k < Config.iwpWithoutPin then some (Fin.ofNat 5 k.val) else some (Fin.ofNat 5 (k.val - 1))

/-- The five watchpoint pins: three for the instruction and two for the load/store (rules R8, R53). The numbers 0 to 4 are the
model's (DESIGN CHOICE, log entry 12). -/
def watchpointPin : Watchpoint → Option (Fin 5)
  | .iwp0 => iwpPin 0
  | .iwp1 => iwpPin 1
  | .iwp2 => iwpPin 2
  | .iwp3 => iwpPin 3
  | .lwp0 => some 3
  | .lwp1 => some 4

/-- The pins pulsed by the watchpoints of the last step under the parameter WatchpointPinMap (rule R53). -/
def State.watchpointPins (s : State) : List (Fin 5) :=
  s.out.filterMap fun o =>
    match o with
    | .watchpoint w => watchpointPin w
    | _ => none

end Sys2Proof.Machine
end

