-- ==== Sys2Proof/Machine/Ops.lean ====
section
/-! DEFINITION. The operations the meanings share: the system memory, the fetch from the port, completing an instruction,
recognising an event and taking it (regular interrupt, debug mode entry, inside debug mode, check stop), and the return from
one (42_debug_mode.md, 60_exceptions.md). -/

namespace Sys2Proof.Machine

/-! ## Memory -/

/-- The byte at an address; one that is not listed reads 0. -/
def Memory.read : List Host.Cell → Nat → Byte
  | [], _ => 0
  | (k, b) :: rest, a => if a < k then 0 else if k = a then b else Memory.read rest a

/-- Store a byte, keeping the canonical form: a byte 0 is not listed. -/
def Memory.write : List Host.Cell → Nat → Byte → List Host.Cell
  | [], a, v => if v = 0 then [] else [(a, v)]
  | (k, b) :: rest, a, v =>
    if a < k then (if v = 0 then (k, b) :: rest else (a, v) :: (k, b) :: rest)
    else if k = a then (if v = 0 then rest else (a, v) :: rest)
    else (k, b) :: Memory.write rest a v

/-- Addresses from `lo` on, strictly rising, below 2^32, and no byte 0 listed. -/
def Memory.wfFrom : Nat → List Host.Cell → Bool
  | _, [] => true
  | lo, (k, b) :: rest => decide (lo ≤ k) && decide (k < 2 ^ 32) && b != 0 && Memory.wfFrom (k + 1) rest

/-- The canonical form of memory. -/
def Memory.wf (m : List Host.Cell) : Bool := Memory.wfFrom 0 m

/-- The word at an address, most significant byte first (rules R94, R95). A word that crosses the top of the address space goes on
at address 0: DESIGN CHOICE, log entry 53. -/
def Memory.readWord (m : List Host.Cell) (a : Word) : Word :=
  Memory.read m a.toNat ++ Memory.read m (a + 1).toNat ++ Memory.read m (a + 2).toNat ++ Memory.read m (a + 3).toNat

/-- Store the bytes of a list in order. -/
def Memory.writeBytes (m : List Host.Cell) : List (Word × Byte) → List Host.Cell
  | [] => m
  | (a, b) :: rest => Memory.writeBytes (Memory.write m a.toNat b) rest

/-- The four bytes a word store writes (rule R95); at the top of the address space it goes on at address 0 (DESIGN CHOICE, log
entry 53). -/
def wordStore (a v : Word) : List (Word × Byte) :=
  [(a, byteOf v 0), (a + 1, byteOf v 1), (a + 2, byteOf v 2), (a + 3, byteOf v 3)]

/-- Store a word, most significant byte at the lowest address (rule R95). -/
def Memory.writeWord (m : List Host.Cell) (a v : Word) : List Host.Cell := Memory.writeBytes m (wordStore a v)

/-- The cause, if any, with which the memory system or the protection unit refuses an access (rules R103, R104). -/
def State.accessFault (s : State) (k : Access) (a : Word) : Option SyncCause :=
  (s.faultMap.find? fun r => r.access == k && decide (r.first ≤ a) && decide (a ≤ r.last)).map (·.cause)

/-! ## Fetching from the port, completing an instruction -/

/-- A debug-mode fetch completes with a word; the CPU will execute it (rule R372). -/
def State.deliver (s : State) (w : Word) : State :=
  { s with port := { s.port with cpuWaiting := .none }, ir := some w }

/-- The next debug-mode fetch starts: the CPU waits for an instruction (R372), unless a download is in progress and the port
itself answers, alternately with `mfspr r31, DPDR` and `stwu r31, 4(r30)` (rule R388). -/
def State.startFetch (s : State) : State :=
  if s.port.downloadInProgress then
    State.deliver { s with port := { s.port with downloadStore := !s.port.downloadStore } }
      (if s.port.downloadStore then 0x97FE0004 else 0x7FF69AA6)
  else { s with port := { s.port with cpuWaiting := .instruction } }

/-- The instruction has completed. In debug mode the next fetch starts; otherwise its type waits to be reported, the class of
the next fetch is known, and a counter read is no longer synchronised (rules R107, R170, R372). -/
def State.finish (s : State) (t : VfType) (f : Flow) : State :=
  if s.dbg.inDebug then State.startFetch { s with outcome := .completed }
  else
    { s with
      outcome := .completed
      countersSettled := false
      trace := { s.trace with pending := s.trace.pending ++ [t], nextFlow := f } }

/-- The instruction has completed and the next one follows it in memory; in debug mode the address has no effect (R92). -/
def State.complete (s : State) (t : VfType) (f : Flow) : State :=
  State.finish (if s.dbg.inDebug then s else { s with cpu := { s.cpu with pc := s.cpu.pc + 4 } }) t f

/-- Completion of an instruction that Table 21-1 marks as an indirect branch "in some cases" (rule R180): a draw decides. -/
def State.completeMarked (s : State) : State :=
  let s' := { s with draws := s.draws + 1 }
  if Config.freeBool s.draws then s'.complete .indirect .indirect else s'.complete .sequential .sequential

/-! ## Events -/

/-- `ECR[bit(e)] <- 1` (rule R481). -/
def State.recordEvent (s : State) (e : Event) : State := { s with spr := { s.spr with ecr := s.spr.ecr ||| eventMask e } }

/-- An enabled event is recorded: `(ECR and DER) /= 0`. -/
def State.enabledEvent (s : State) : Bool := (s.spr.ecr &&& s.spr.der) != 0

/-- `EnterCondition` (rule R305). -/
def State.enterCondition (s : State) : Bool := s.dbg.enable && !s.dbg.inDebug && s.enabledEvent

/-- The level-sensitive set of the freeze latch (rule R324). -/
def State.updateFreeze (s : State) : State :=
  if s.enabledEvent || s.dbg.inDebug then { s with dbg := { s.dbg with freeze := true } } else s

/-- A pulse of ECR_OR: the port will report a CPU interrupt (rules R316, R384). -/
def State.pulseEcrOr (s : State) : State :=
  State.emit { s with port := { s.port with cpuIntPending := true } } .ecrOr

/-- All but the oldest instructions in flight are flushed; for each aborted target of a direct branch it is drawn whether its show
cycle still appears (rules R106, R193, U15). -/
def State.dropFlight (s : State) (kept : Nat) : State :=
  let aborted := fun c : ShowCycle => c.flow == .direct && (s.inflight.drop kept).any fun e => e.tag == c.tag
  { s with
    inflight := s.inflight.take kept
    draws := s.draws + 1
    trace :=
      { s.trace with showQueue := s.trace.showQueue.filter fun c => !aborted c || Config.freeShown s.draws c.tag } }

/-- Everything fetched ahead is cancelled. -/
def State.cancelFlight (s : State) : State := s.dropFlight 0

/-- A flush slot that is still due passes before the next type report (rule R174); its count, 0 to 5, is the CPU's: a free value. -/
def State.closeSlot (s : State) : State :=
  match s.trace.prevKind with
  | .type => s
  | .flush =>
    State.reportVf { s with draws := s.draws + 1 } (BitVec.ofNat 3 ((Config.freeCount s.draws).toNat % 6)) .type

/-- Debug mode entry (rules R306, R308, R177): the return state is saved, MSR[PR] and MSR[EE] are cleared, freeze is asserted,
VF reports an exception taken with a visible program trace cycle and then shows 000, and the first fetch goes to the port. Types
not yet reported on VF are dropped: DESIGN CHOICE, log entry 54. -/
def State.enterDebug (s : State) (resume : Word) (srr1 : Srr1) : State :=
  let s := s.cancelFlight.closeSlot
  let s := State.reportVf
    { s with
      cpu :=
        { s.cpu with
          srr0 := resume
          srr1 := srr1
          msr := { Config.debugEntryMsr s.cpu.msr with pr := false, ee := false } }
      dbg := { s.dbg with inDebug := true, freeze := true }
      countersSettled := false
      expired := ⟨false, false⟩
      draws := s.draws + 1
      trace :=
        { s.trace with
          pending := []
          lastReports := 0
          fetches := s.trace.fetches + 1
          showQueue := s.trace.showQueue ++ [⟨Config.freeFetch s.draws, .indirect, s.trace.fetches⟩] } }
    0b100 .flush
  State.startFetch (s.reportVf 0b000 .type)

/-- Regular interrupt handling (rules R484, R483): the return state is saved, MSR[RI] is cleared, and the CPU fetches from the
event's vector, an indirect change of flow. A fetch due to be visible stays due (DESIGN CHOICE beside R178, log entry 65). -/
def State.regularEntry (s : State) (e : Event) (resume : Word) (srr1 : Srr1) : State :=
  let s := s.cancelFlight
  { s with
    cpu :=
      { s.cpu with
        srr0 := resume
        srr1 := srr1
        msr := { Config.interruptMsr e s.cpu.msr with ri := false }
        pc := vectorAddr s.cpu.msr.ip e }
    countersSettled := false
    expired := ⟨false, false⟩
    trace := { s.trace with pending := s.trace.pending ++ [.exception], nextFlow := .indirect } }

/-- The check stop state: the CPU is halted until reset (rule R312). -/
def State.enterCheckStop (s : State) : State := { s.cancelFlight with dbg := { s.dbg with checkStop := true } }

/-- The routing of an event outside debug mode (rule R303). -/
def State.routeEvent (s : State) (e : Event) (resume : Word) (srr1 : Srr1) : State :=
  if s.dbg.enable && (s.spr.der &&& eventMask e) != 0 then s.enterDebug resume srr1
  else if e = .checkStop then s.enterCheckStop
  else s.regularEntry e resume srr1

/-- TAKING AN EXCEPTION (rules R481, R303, R312, R315, R324, R497). The ECR bit is set in every mode. Inside debug mode only
ECR_OR is pulsed: SRR0 and SRR1 keep their values and there is no branch to a vector. Outside it the event is routed by DER,
and freeze is asserted if DER enables it. -/
def State.takeEvent (s : State) (e : Event) (resume : Word) (srr1 : Srr1) : State :=
  let lost := !s.dbg.inDebug && !s.cpu.msr.ri && nonRestartableEvent e
  let s := { s.recordEvent e with
    outcome := .excepted
    dbg := { s.dbg with nonRestartable := s.dbg.nonRestartable || lost } }
  State.updateFreeze (if s.dbg.inDebug then s.pulseEcrOr else s.routeEvent e resume srr1)

/-- An event at an instruction boundary; execution resumes at `resume` (rules R21, R306, R484). -/
def State.takeAt (s : State) (e : Event) (resume : Word) : State := s.takeEvent e resume (srr1Of e s.cpu.msr)

/-- In the breakpoint exception routine that the expiry of counters led into, a read of them is exact (rule R263). In debug mode no
routine runs: DESIGN CHOICE, log entry 17. -/
def State.noteExpired (s : State) (a b : Bool) : State := if s.dbg.inDebug then s else { s with expired := ⟨a, b⟩ }

/-- An exception of the instruction being executed (rules R482, R315): it does not complete; DAR and DSISR record a data
access; in debug mode the next fetch starts. -/
def State.takeSync (s : State) (c : SyncCause) (access : Option Word) : State :=
  let e := syncEvent s.cpu.msr.me c
  let was := s.dbg.inDebug
  let s :=
    match access with
    | some a => { s with cpu := { s.cpu with dar := Config.darOf e a, dsisr := Config.dsisrOf e a } }
    | none => s
  let s := s.takeEvent e (Config.syncSrr0 e s.cpu.pc) (srr1OfSync s.cpu.msr.me c s.cpu.msr)
  if was then s.startFetch else s

/-- The program exception of a register access from user mode (rules R431, R487). -/
def State.programException (s : State) : State := s.takeSync .program none

/-- The bus error that ends the CPU's outstanding read after a sequencing error (rules R383, R494): an exception inside debug
mode whose ECR bit is the parameter PortBusErrorCause; the CPU goes on to fetch the next instruction. In a fast download, after
DP.ENDDL too, that fetch is answered by the port with the stwu: DESIGN CHOICE beside R388 and R390, log entry 35. -/
def State.portBusError (s : State) : State :=
  State.startFetch { (s.recordEvent Config.portBusErrorCause).pulseEcrOr with outcome := .excepted }

/-- The event a level-sensitive debug mode entry is attributed to: the first enabled one recorded. -/
def State.pendingCause (s : State) : Event :=
  (allEvents.find? fun e => (s.spr.ecr &&& s.spr.der &&& eventMask e) != 0).getD .devPortInterrupt

/-! ## Return -/

/-- Leaving debug mode (rules R320, R179, R325): freeze is negated unless an enabled event is still recorded (R324 sets it then);
the first VF report is 011 if VSYNC changed in debug mode, else 101, in a clock whose history flush count is the CPU's, a free
value (R175, R176); the first fetch is a program trace cycle and visible. A CPU interrupt not yet reported
stays pending for the next transmission (R47, log entry 56). The 011 of a negation does not wait for program trace cycles not
yet shown: DESIGN CHOICE, log entry 58. -/
def State.leaveDebug (s : State) : State :=
  let s := { s with
    dbg := { s.dbg with inDebug := false, freeze := s.enabledEvent }
    port := { s.port with cpuWaiting := .none }
    outcome := .completed
    countersSettled := false
    inflight := []
    draws := s.draws + 1
    trace := { s.trace with histFlush := BitVec.ofNat 2 ((Config.freeCount s.draws).toNat % 3) } }
  let s := if s.trace.vsyncChanged then s.reportVf 0b011 .type else s.reportVf 0b101 .flush
  { s with trace := { s.trace with vsyncChanged := false, nextFlow := .indirect, nextVisible := true } }

/-- RETURNING FROM AN EXCEPTION (rules R320, R321, R325, R496): MSR from SRR1, fetching from SRR0. In debug mode the CPU leaves
it, and re-enters it at once if an enabled event is still recorded; if not, there is no valid data from now on (R375, R380). With
debug mode disabled freeze is negated if no enabled event is recorded. pc takes all bits of SRR0, bits 30:31 too: DESIGN CHOICE
beside R102, log entry 61. -/
def State.returnFromInterrupt (s : State) : State :=
  let r := { s with cpu := { s.cpu with msr := s.cpu.srr1.msr, pc := s.cpu.srr0 }, expired := ⟨false, false⟩ }
  if s.dbg.inDebug then
    let t := r.leaveDebug
    if t.enterCondition then t.enterDebug s.cpu.srr0 s.cpu.srr1
    else { t with port := { t.port with validData := false } }
  else
    let t := if s.dbg.enable then r else { r with dbg := { r.dbg with freeze := r.enabledEvent } }
    t.finish .indirect .indirect

end Sys2Proof.Machine
end

