-- ==== Sys2Proof/Machine/CpuInsns.lean ====
section
/-! DEFINITION. The other CPU instructions of the table (rules R107, R180, R320, R388), the general form of its store (R146), and
the frame of every other instruction (rule R7). -/

namespace Sys2Proof.Machine

/-- `rfi` (rules R320, R321, R325, R496). -/
def execRfi (s : State) : Result := .next s.returnFromInterrupt

/-- `sync` (rule R107): a following read of an active counter is exact; no other effect on this logic. -/
def execSync (s : State) : Result := .next { s.complete .sequential .sequential with countersSettled := true }

/-- `isync` (rule R180): reported as VF = 101, the next fetch is a program trace cycle. -/
def execIsync (s : State) : Result := .next (s.complete .indirect .indirect)

/-- `mtmsr rS` (rules R180, R22): the MSR bits the register's value stands for (their positions are not in the sources, N16);
reported as VF = 101, the next fetch is a program trace cycle. -/
def execMtmsr (rS : Nat) (s : State) : Result :=
  .next (State.complete { s with cpu := { s.cpu with msr := Config.msrOfWord (s.reg rS) } } .indirect .indirect)

/-- `stwu rS, d(rA)` (rule R146): stores rS at rA + d and sets rA to that address, an ordinary load/store cycle; a refused
access is an exception and changes neither. The displacement is sign extended (PRESUMED, log entry 13). -/
def State.storeWithUpdate (s : State) (rS rA : Nat) (d : BitVec 16) : State :=
  let a := s.reg rA + d.signExtend 32
  let v := s.reg rS
  match s.accessFault .write a with
  | some c => s.takeSync c (some a)
  | none =>
    State.complete
      { s.setReg rA a with mem := Memory.writeWord s.mem a v, cycles := [⟨a, .word, true, v⟩] }
      .sequential .sequential

/-- `stwu r31, 4(r30)`, the store of the download loop (rule R388). -/
def execStwu (s : State) : Result := .next (s.storeWithUpdate 31 30 4)

/-- The effect the CPU model supplies for an instruction outside the table, and the machine with that effect used up. -/
def State.foreignEffect (s : State) (w : Word) : Effect × State :=
  match s.oracle with
  | e :: rest => (e, { s with oracle := rest })
  | [] => (Config.foreign w s.cpu s.mem s.draws, { s with draws := s.draws + 1 })

/-- The first access of an instruction that the memory system refuses. -/
def State.firstFault (s : State) (cs : List LsCycle) : Option (SyncCause × Word) :=
  cs.findSome? fun c => (s.accessFault (if c.write then .write else .read) c.addr).map fun e => (e, c.addr)

/-- An instruction outside the opcode table (rules R7, R11, R136): it has the effect the CPU model supplies, unless that is an
exception or one of its accesses is refused; then it does not complete (R315). An exception whose effect lists an L-bus cycle is
taken to be of load/store type and writes DAR and DSISR (R482; DESIGN CHOICE, log entry 44). Whether a floating-point access makes
cycles, and of which size, is left to the effect (R240; DESIGN CHOICE, log entry 66). -/
def State.runForeign (s : State) (w : Word) : State :=
  let (e, s) := s.foreignEffect w
  match e.exception with
  | some c => s.takeSync c (e.cycles.head?.map (·.addr))
  | none =>
    match s.firstFault e.cycles with
    | some (c, a) => s.takeSync c (some a)
    | none =>
      State.finish { s with cpu := e.cpu, mem := Memory.writeBytes s.mem e.stores, cycles := e.cycles } e.vfType e.flow

/-- A word that is no row of the opcode table: the general `stwu rS, d(rA)` has the effect rule R146 gives it, every other word
that of the CPU model. -/
def State.runOther (s : State) (w : Word) : State :=
  match stwuFields? w with
  | some (rS, rA, d) => s.storeWithUpdate rS rA d
  | none => s.runForeign w

end Sys2Proof.Machine
end

