-- ==== Sys2Proof/Machine/Port.lean ====
section
/-! DEFINITION. The development port between transmissions: ready, the answer, the shift register bit by bit, sequencing errors
(43_development_port.md rules R355, R356, R370, R371, R380 to R385; 30_encoding.md R140 to R142). -/

namespace Sys2Proof.Machine

/-- `Ready` (rules R370, R371): no transmission in progress and, in debug mode, the CPU waiting. -/
def State.ready (s : State) : Bool := s.port.shifted == 0 && (!s.dbg.inDebug || s.port.cpuWaiting != .none)

/-- The 35 bits of the shift register (rule R40). While no transmission is in progress the port sets position 0, the ready bit:
low exactly when ready (rules R370, R371). -/
def State.shiftRegister (s : State) : BitVec 35 :=
  if s.port.shifted = 0 then BitVec.ofBool (!s.ready) ++ s.port.dpsr.extractLsb' 0 34 else s.port.dpsr

/-- DSDO shows the most significant bit of the shift register (rules R40, R98, R356). -/
def State.dsdo (s : State) : Bool := s.shiftRegister.msb

/-- `StatusData` (rule R381): freeze, not download in progress, ones. -/
def State.statusData (s : State) : Word :=
  BitVec.ofBool s.dbg.freeze ++ BitVec.ofBool (!s.port.downloadInProgress) ++ (0x3FFFFFFF : BitVec 30)

/-- The data bits of the shift register (rule R40). -/
def State.dpsrData (s : State) : Word := s.port.dpsr.extractLsb' 0 32

/-- `DPSR.data[0:31] <- v` (rule R374). -/
def State.setDpsrData (s : State) (v : Word) : State :=
  { s with port := { s.port with dpsr := s.port.dpsr.extractLsb' 32 3 ++ v } }

/-- `Answer()` (rule R380): what is shifted out, by priority, and whether the frame coming in is ignored (R385). CPU interrupt
status cannot occur in trap enable mode (R380): outside debug mode one that is still pending is not reported, and the null answer
ends it (DESIGN CHOICE, log entry 56). -/
def State.answer (s : State) : State :=
  if s.port.validData then
    { s with port := { s.port with txStatus := 0b00, txData := s.dpsrData, validData := false, suppress := false } }
  else if s.port.seqErrPending then
    { s with port := { s.port with txStatus := 0b01, txData := s.statusData, seqErrPending := false, suppress := true } }
  else if s.port.cpuIntPending && s.dbg.inDebug then
    { s with port := { s.port with txStatus := 0b10, txData := s.statusData, cpuIntPending := false, suppress := true } }
  else
    { s with port := { s.port with txStatus := 0b11, txData := s.statusData, cpuIntPending := false, suppress := false } }

/-- The 35 bits of the transmission out: ready, status, data (rules R140, R141). -/
def State.txBits (s : State) : BitVec 35 := (0 : BitVec 1) ++ s.port.txStatus ++ s.port.txData

/-- The shift register after a whole transmission: the bits shifted in at its low end, what is left of the answer above. -/
def dpsrAfter (out : BitVec 35) : Frame → BitVec 35
  | .long control data => (0b10 : BitVec 2) ++ BitVec.ofBool control ++ data
  | .short control data => out.extractLsb' 0 25 ++ (0b11 : BitVec 2) ++ BitVec.ofBool control ++ data

/-- The answer and the shifting of a whole transmission (rule R355); the frame is then processed unless `suppress`. DSDI is low
before its start bit, so the port has begun to scan (R543; DESIGN CHOICE, log entry 33). -/
def State.exchange (s : State) (f : Frame) : State :=
  let s := s.answer
  { s with port := { s.port with dpsr := dpsrAfter s.txBits f, shifted := 0, scanHold := false } }

/-- Shift one bit in at the low end (rules R98, R350). -/
def shiftIn (r : BitVec 35) (b : Bool) : BitVec 35 := r.extractLsb' 0 34 ++ BitVec.ofBool b

/-- The transmission is complete after `n` bits: 10 if the mode bit is 1, else 35 (rule R131). After ten shifts the mode bit is
the ninth from the low end. -/
def transmissionDone (r : BitVec 35) (n : Nat) : Bool := n ≥ 35 || (n == 10 && r.getLsbD 8)

/-- The frame held by the shift register when its transmission is complete. -/
def frameOf (r : BitVec 35) (n : Nat) : Frame :=
  if n = 10 then .short (r.getLsbD 7) (r.extractLsb' 0 7) else .long (r.getLsbD 32) (r.extractLsb' 0 32)

/-- One serial clock (rule R356): the new state and, when the transmission is complete, its frame. A start bit is recognised
only while ready (D23); while `scanHold`, DSDI must first fall (R543). -/
def State.serialClock (s : State) (dsdi : Bool) : State × Option Frame :=
  if s.port.shifted = 0 then
    if s.ready && !s.port.scanHold && dsdi then
      let s := s.answer
      ({ s with port := { s.port with dpsr := shiftIn s.txBits true, shifted := 1 } }, none)
    else ({ s with port := { s.port with scanHold := s.port.scanHold && dsdi } }, none)
  else
    let r := shiftIn s.port.dpsr dsdi
    let n := s.port.shifted + 1
    if transmissionDone r n then ({ s with port := { s.port with dpsr := r, shifted := 0 } }, some (frameOf r n))
    else ({ s with port := { s.port with dpsr := r, shifted := n } }, none)

/-- A sequencing error outside debug mode (rule R382): the data are discarded. -/
def State.seqErrorRunning (s : State) : State := { s with port := { s.port with seqErrPending := true } }

/-- A sequencing error in debug mode (rule R383): the word is discarded and the CPU's read ends with a bus error. -/
def State.seqErrorDebug (s : State) : State :=
  State.portBusError { s with port := { s.port with seqErrPending := true } }

end Sys2Proof.Machine
end

