-- ==== Sys2Proof/Machine/Frames.lean ====
section
/-! DEFINITION. The meanings of the port transmissions: `Process(frame)` of rule R355, after the answer and when the frame is not
suppressed (43_development_port.md rules R360 to R368, R372, R373, R382, R383, R390). -/

namespace Sys2Proof.Machine

/-- `DP.INSN w` (rules R372, R382, R383): completes the CPU's fetch, or is a sequencing error. -/
def execDpInsn (w : Word) (s : State) : Result :=
  .next
    (if s.dbg.inDebug then
      match s.port.cpuWaiting with
      | .instruction => s.deliver w
      | .data _ => s.seqErrorDebug
      | .none => s
    else s.seqErrorRunning)

/-- The pending `mfspr rD, DPDR` receives its word (rules R373, R390): the extra word of a download ends it. -/
def State.receiveData (s : State) (rD : Nat) (w : Word) : State :=
  let t := { s.setReg rD w with outcome := .completed }
  if t.port.downloadInProgress && t.port.endRequested then
    State.startFetch { t with port := { t.port with downloadInProgress := false, endRequested := false, downloadStore := false } }
  else t.startFetch

/-- `DP.DATA w` (rules R373, R382, R383, R390). -/
def execDpData (w : Word) (s : State) : Result :=
  .next
    (if s.dbg.inDebug then
      match s.port.cpuWaiting with
      | .data rD => s.receiveData rD w
      | .instruction => s.seqErrorDebug
      | .none => s
    else s.seqErrorRunning)

/-- `DP.TE` (rules R360, R361): the six trap enables and VSYNC; a change of VSYNC is remembered (R178). -/
def execDpTe (i0 i1 i2 i3 l0 l1 vs : Bool) (s : State) : Result :=
  .next
    { s with
      trace := { s.trace with vsyncChanged := s.trace.vsyncChanged || s.port.tecr.vsync != vs }
      port := { s.port with tecr :=
        { s.port.tecr with
          diwp0en := i0, diwp1en := i1, diwp2en := i2, diwp3en := i3, dlw0en := l0, dlw1en := l1, vsync := vs } } }

/-- `DP.NOP` (rule R362): no state change; the extended opcode is ignored (R134). -/
def execDpNop (_x : BitVec 2) (s : State) : Result := .next s

/-- `DP.HRESET` (rule R363): the request goes to the environment, which may answer with `Input.reset` (D16). -/
def execDpHreset (_x : BitVec 2) (s : State) : Result := .next (s.emit (.resetRequest true))

/-- `DP.SRESET` (rule R364). -/
def execDpSreset (_x : BitVec 2) (s : State) : Result := .next (s.emit (.resetRequest false))

/-- `DP.STARTDL` (rules R365, R388): in debug mode the port begins to supply the loop, starting with the mfspr; an instruction
fetch that waits is answered at once. Ignored outside debug mode (D29). -/
def execDpStartdl (s : State) : Result :=
  .next
    (if s.dbg.inDebug && !s.port.downloadInProgress then
      let t := { s with port := { s.port with downloadInProgress := true, downloadStore := false } }
      if t.port.cpuWaiting = .instruction then t.startFetch else t
    else s)

/-- `DP.ENDDL` (rules R366, R390): marks a download in progress for ending; else nothing. -/
def execDpEnddl (s : State) : Result :=
  .next
    (if s.dbg.inDebug && s.port.downloadInProgress then { s with port := { s.port with endRequested := true } } else s)

/-- A reserved command: no state change, flagged (rules R138, R368, D3). -/
def State.reservedCommand (s : State) : State := { s with dbg := { s.dbg with reservedCommandSeen := true } }

/-- `DP.BRK nm m` (rule R367): the two breakpoint requests are levels held in TECR. In debug mode an asserting command is reserved
(R135) and flagged; the request is latched and recognised after the exit (U12). -/
def execDpBrk (nm m : Bool) (s : State) : Result :=
  let t := { s with port := { s.port with tecr := { s.port.tecr with nmbrk := nm, mbrk := m } } }
  .next (if s.dbg.inDebug && (nm || m) then t.reservedCommand else t)

/-- `0 x 00011` (rule R368). -/
def execRsv00011 (_x : Bool) (s : State) : Result := .next s.reservedCommand

/-- Major opcodes 00100 to 00111 (rule R368). -/
def execRsv001 (_x _y : BitVec 2) (s : State) : Result := .next s.reservedCommand

/-- Major opcodes 01000 to 01111 (rule R368). -/
def execRsv01 (_x : BitVec 2) (_y : BitVec 3) (s : State) : Result := .next s.reservedCommand

/-- Major opcodes 10000 to 10111 (rule R368). -/
def execRsv10 (_x : BitVec 2) (_y : BitVec 3) (s : State) : Result := .next s.reservedCommand

/-- Major opcodes 11000 to 11011 (rule R368). -/
def execRsv110 (_x _y : BitVec 2) (s : State) : Result := .next s.reservedCommand

/-- Major opcodes 11100 and 11101 (rule R368). -/
def execRsv1110 (_x : BitVec 2) (_y : Bool) (s : State) : Result := .next s.reservedCommand

/-- Major opcode 11110 (rule R368). -/
def execRsv11110 (_x : BitVec 2) (s : State) : Result := .next s.reservedCommand

end Sys2Proof.Machine
end

