-- ==== Sys2Proof/Machine/SprRead.lean ====
section
/-! DEFINITION. The meanings of the seventeen mfspr instructions (44_spr_access.md rules R430, R431, R433 and one rule each). -/

namespace Sys2Proof.Machine

/-- The read rule (R431, R433): in supervisor state rD receives the value and `after` is the read's side effect; in user state
the program exception is raised and nothing else happens. -/
def State.readSpr (s : State) (rD : Nat) (v : Word) (after : State → State) : State :=
  if s.supervisor then (after (s.setReg rD v)).complete .sequential .sequential else s.programException

/-- What a read of a counter delivers (rules R262, R107, U8): the live count, or a free count when the counter is active, no sync
has come before and the routine that runs is not that of its own expiry (R263); how long each counts is a DESIGN CHOICE, log entry 17. The reserved bits read 0. -/
def State.counterRead (s : State) (count : Word) (expired : Bool) : Word :=
  if counterActive count && !s.countersSettled && !expired then countWord (Config.freeCount s.draws) (cntc count)
  else countWord (cntv count) (cntc count)

/-- A read of a counter; each read takes a draw. -/
def State.readCounter (s : State) (rD : Nat) (count : Word) (expired : Bool) : State :=
  s.readSpr rD (s.counterRead count expired) fun t => { t with draws := t.draws + 1 }

/-- The clearing side effect of a read of ECR (rule R441). -/
def State.clearEcr (s : State) : State :=
  if s.ecrClears then { s with spr := { s.spr with ecr := 0 } } else s

/-- `mfspr rD, 144` (CMPA, rule R437). -/
def execMfsprCmpa (rD : Nat) (s : State) : Result := .next (s.readSpr rD (s.spr.cmpa &&& maskCmpI) id)

/-- `mfspr rD, 145` (CMPB, rule R439). -/
def execMfsprCmpb (rD : Nat) (s : State) : Result := .next (s.readSpr rD (s.spr.cmpb &&& maskCmpI) id)

/-- `mfspr rD, 146` (CMPC, rule R448). -/
def execMfsprCmpc (rD : Nat) (s : State) : Result := .next (s.readSpr rD (s.spr.cmpc &&& maskCmpI) id)

/-- `mfspr rD, 147` (CMPD, rule R450). -/
def execMfsprCmpd (rD : Nat) (s : State) : Result := .next (s.readSpr rD (s.spr.cmpd &&& maskCmpI) id)

/-- `mfspr rD, 148` (ECR, rule R441). -/
def execMfsprEcr (rD : Nat) (s : State) : Result := .next (s.readSpr rD (s.spr.ecr &&& maskEvents) State.clearEcr)

/-- `mfspr rD, 149` (DER, rule R443). -/
def execMfsprDer (rD : Nat) (s : State) : Result := .next (s.readSpr rD (s.spr.der &&& maskEvents) id)

/-- `mfspr rD, 150` (COUNTA, rule R452). -/
def execMfsprCounta (rD : Nat) (s : State) : Result := .next (s.readCounter rD s.spr.counta s.expired.a)

/-- `mfspr rD, 151` (COUNTB, rule R454). -/
def execMfsprCountb (rD : Nat) (s : State) : Result := .next (s.readCounter rD s.spr.countb s.expired.b)

/-- `mfspr rD, 152` (CMPE, rule R456). -/
def execMfsprCmpe (rD : Nat) (s : State) : Result := .next (s.readSpr rD (s.spr.cmpe) id)

/-- `mfspr rD, 153` (CMPF, rule R458). -/
def execMfsprCmpf (rD : Nat) (s : State) : Result := .next (s.readSpr rD (s.spr.cmpf) id)

/-- `mfspr rD, 154` (CMPG, rule R460). -/
def execMfsprCmpg (rD : Nat) (s : State) : Result := .next (s.readSpr rD (s.spr.cmpg) id)

/-- `mfspr rD, 155` (CMPH, rule R462). -/
def execMfsprCmph (rD : Nat) (s : State) : Result := .next (s.readSpr rD (s.spr.cmph) id)

/-- `mfspr rD, 156` (LCTRL1, rule R464). -/
def execMfsprLctrl1 (rD : Nat) (s : State) : Result := .next (s.readSpr rD (s.spr.lctrl1 &&& maskLctrl1) id)

/-- `mfspr rD, 157` (LCTRL2, rule R466). -/
def execMfsprLctrl2 (rD : Nat) (s : State) : Result := .next (s.readSpr rD (s.lctrl2View) id)

/-- `mfspr rD, 158` (ICTRL, rule R468). -/
def execMfsprIctrl (rD : Nat) (s : State) : Result := .next (s.readSpr rD (s.ictrlView) id)

/-- `mfspr rD, 159` (BAR, rule R470). -/
def execMfsprBar (rD : Nat) (s : State) : Result := .next (s.readSpr rD (s.spr.bar) id)

/-- `mfspr rD, 630` (DPDR, rule R446, R445). In debug mode the CPU waits for a data transmission; outside
it the value is indeterminate and the port is not disturbed. -/
def execMfsprDpdr (rD : Nat) (s : State) : Result :=
  .next
    (if s.dpdrLive then
      { s with port := { s.port with cpuWaiting := .data rD }, outcome := .stalled }
    else s.readSpr rD (Config.freeWord s.draws) fun t => { t with draws := t.draws + 1 })

end Sys2Proof.Machine
end

