-- ==== Sys2Proof/Machine/SprWrite.lean ====
section
/-! DEFINITION. The meanings of the seventeen mtspr instructions (44_spr_access.md rules R430, R431, R432, R435 and one rule
each). -/

namespace Sys2Proof.Machine

/-- The write rule (R431, R432): performed when `WriteEnabled`; not performed, without exception, in supervisor state otherwise;
in user state the program exception. `done` completes the instruction. -/
def State.writeSpr (s : State) (rS : Nat) (write : State → Word → State) (done : State → State) : State :=
  if s.supervisor then done (if s.writeEnabled then write s (s.reg rS) else s) else s.programException

/-- Completion of an instruction reported as sequential. -/
def State.completePlain (s : State) : State := s.complete .sequential .sequential

/-- The write of CMPA (rule R438). -/
def State.writeCmpa (s : State) (v : Word) : State := { s with spr := { s.spr with cmpa := v &&& maskCmpI } }

/-- `mtspr 144, rS` (CMPA, rule R438). -/
def execMtsprCmpa (rS : Nat) (s : State) : Result := .next (s.writeSpr rS State.writeCmpa State.completeMarked)

/-- The write of CMPB (rule R440). -/
def State.writeCmpb (s : State) (v : Word) : State := { s with spr := { s.spr with cmpb := v &&& maskCmpI } }

/-- `mtspr 145, rS` (CMPB, rule R440). -/
def execMtsprCmpb (rS : Nat) (s : State) : Result := .next (s.writeSpr rS State.writeCmpb State.completeMarked)

/-- The write of CMPC (rule R449). -/
def State.writeCmpc (s : State) (v : Word) : State := { s with spr := { s.spr with cmpc := v &&& maskCmpI } }

/-- `mtspr 146, rS` (CMPC, rule R449). -/
def execMtsprCmpc (rS : Nat) (s : State) : Result := .next (s.writeSpr rS State.writeCmpc State.completeMarked)

/-- The write of CMPD (rule R451). -/
def State.writeCmpd (s : State) (v : Word) : State := { s with spr := { s.spr with cmpd := v &&& maskCmpI } }

/-- `mtspr 147, rS` (CMPD, rule R451). -/
def execMtsprCmpd (rS : Nat) (s : State) : Result := .next (s.writeSpr rS State.writeCmpd State.completeMarked)

/-- `mtspr 148, rS` (ECR, rule R442). Writes are ignored. -/
def execMtsprEcr (rS : Nat) (s : State) : Result := .next (s.writeSpr rS (fun t _ => t) State.completeMarked)

/-- `DER <- v and 0x73E7540F`; the freeze logic uses the new value at once (rule R444). -/
def State.writeDer (s : State) (v : Word) : State :=
  State.updateFreeze { s with spr := { s.spr with der := v &&& maskEvents } }

/-- `mtspr 149, rS` (DER, rule R444). -/
def execMtsprDer (rS : Nat) (s : State) : Result := .next (s.writeSpr rS State.writeDer State.completeMarked)

/-- The write of COUNTA (rule R453). -/
def State.writeCounta (s : State) (v : Word) : State :=
  { s with spr := { s.spr with counta := countWord (cntv v) (cntc v) }, expired := { s.expired with a := false } }

/-- `mtspr 150, rS` (COUNTA, rule R453). -/
def execMtsprCounta (rS : Nat) (s : State) : Result := .next (s.writeSpr rS State.writeCounta State.completePlain)

/-- The write of COUNTB (rule R455). -/
def State.writeCountb (s : State) (v : Word) : State :=
  { s with spr := { s.spr with countb := countWord (cntv v) (cntc v) }, expired := { s.expired with b := false } }

/-- `mtspr 151, rS` (COUNTB, rule R455). -/
def execMtsprCountb (rS : Nat) (s : State) : Result := .next (s.writeSpr rS State.writeCountb State.completePlain)

/-- The write of CMPE (rule R457). -/
def State.writeCmpe (s : State) (v : Word) : State := { s with spr := { s.spr with cmpe := v } }

/-- `mtspr 152, rS` (CMPE, rule R457). -/
def execMtsprCmpe (rS : Nat) (s : State) : Result := .next (s.writeSpr rS State.writeCmpe State.completeMarked)

/-- The write of CMPF (rule R459). -/
def State.writeCmpf (s : State) (v : Word) : State := { s with spr := { s.spr with cmpf := v } }

/-- `mtspr 153, rS` (CMPF, rule R459). -/
def execMtsprCmpf (rS : Nat) (s : State) : Result := .next (s.writeSpr rS State.writeCmpf State.completeMarked)

/-- The write of CMPG (rule R461). -/
def State.writeCmpg (s : State) (v : Word) : State := { s with spr := { s.spr with cmpg := v } }

/-- `mtspr 154, rS` (CMPG, rule R461). -/
def execMtsprCmpg (rS : Nat) (s : State) : Result := .next (s.writeSpr rS State.writeCmpg State.completePlain)

/-- The write of CMPH (rule R463). -/
def State.writeCmph (s : State) (v : Word) : State := { s with spr := { s.spr with cmph := v } }

/-- `mtspr 155, rS` (CMPH, rule R463). -/
def execMtsprCmph (rS : Nat) (s : State) : Result := .next (s.writeSpr rS State.writeCmph State.completePlain)

/-- The write of LCTRL1 (rule R465). -/
def State.writeLctrl1 (s : State) (v : Word) : State := { s with spr := { s.spr with lctrl1 := v &&& maskLctrl1 } }

/-- `mtspr 156, rS` (LCTRL1, rule R465). -/
def execMtsprLctrl1 (rS : Nat) (s : State) : Result := .next (s.writeSpr rS State.writeLctrl1 State.completePlain)

/-- The write of LCTRL2 (rule R467). -/
def State.writeLctrl2 (s : State) (v : Word) : State := { s with spr := { s.spr with lctrl2 := v &&& maskLctrl2 } }

/-- `mtspr 157, rS` (LCTRL2, rule R467). -/
def execMtsprLctrl2 (rS : Nat) (s : State) : Result := .next (s.writeSpr rS State.writeLctrl2 State.completePlain)

/-- `ICTRL <- v and 0xFFFFFF0F` (rule R469). ISCT_SER takes effect from the second instruction after (R109): the next instruction is
fetched under the old setting; what was fetched ahead is fetched again, since the write serialises (D1; log entry 41). Code 100 is
flagged (D19). -/
def State.writeIctrl (s : State) (v : Word) : State :=
  { s with
    spr := { s.spr with ictrl := v &&& maskIctrl }
    inflight := []
    trace := { s.trace with isctHold := true, isctActive := fieldOf s.spr.ictrl 29 3 }
    dbg := { s.dbg with illegalProgramming := s.dbg.illegalProgramming || fieldOf v 29 3 == 0b100 } }

/-- `mtspr 158, rS` (ICTRL, rule R469). -/
def execMtsprIctrl (rS : Nat) (s : State) : Result := .next (s.writeSpr rS State.writeIctrl State.completeMarked)

/-- The write of BAR (rule R471). -/
def State.writeBar (s : State) (v : Word) : State := { s with spr := { s.spr with bar := v } }

/-- `mtspr 159, rS` (BAR, rule R471). -/
def execMtsprBar (rS : Nat) (s : State) : Result := .next (s.writeSpr rS State.writeBar State.completePlain)

/-- `DPSR.data <- v ; ValidData <- 1` (rules R374, R447). -/
def State.writeDpdr (s : State) (v : Word) : State :=
  { s with port := { (s.setDpsrData v).port with validData := true } }

/-- `mtspr 630, rS` (DPDR, rules R447, R445): live only in debug mode; ignored outside it. -/
def execMtsprDpdr (rS : Nat) (s : State) : Result :=
  .next (s.writeSpr rS (fun t v => if t.dpdrLive then t.writeDpdr v else t) State.completePlain)

end Sys2Proof.Machine
end

