-- ==== Sys2Proof/Machine/Dispatch.lean ====
section
/-! DEFINITION. The meaning of each instruction: one arm per constructor of Instr, each one direct call. -/

namespace Sys2Proof.Machine

def exec (i : Instr) (s : State) : Host.Outcome State Fault Refusal :=
  match i with
  | .dpInsn w => Sys2Proof.Machine.execDpInsn w s
  | .dpData w => Sys2Proof.Machine.execDpData w s
  | .dpTe i0 i1 i2 i3 l0 l1 vs => Sys2Proof.Machine.execDpTe i0 i1 i2 i3 l0 l1 vs s
  | .dpNop x => Sys2Proof.Machine.execDpNop x s
  | .dpHreset x => Sys2Proof.Machine.execDpHreset x s
  | .dpSreset x => Sys2Proof.Machine.execDpSreset x s
  | .dpStartdl => Sys2Proof.Machine.execDpStartdl s
  | .dpEnddl => Sys2Proof.Machine.execDpEnddl s
  | .dpBrk nm m => Sys2Proof.Machine.execDpBrk nm m s
  | .rsv00011 x => Sys2Proof.Machine.execRsv00011 x s
  | .rsv001 x y => Sys2Proof.Machine.execRsv001 x y s
  | .rsv01 x y => Sys2Proof.Machine.execRsv01 x y s
  | .rsv10 x y => Sys2Proof.Machine.execRsv10 x y s
  | .rsv110 x y => Sys2Proof.Machine.execRsv110 x y s
  | .rsv1110 x y => Sys2Proof.Machine.execRsv1110 x y s
  | .rsv11110 x => Sys2Proof.Machine.execRsv11110 x s
  | .mfsprCmpa rD => Sys2Proof.Machine.execMfsprCmpa rD s
  | .mtsprCmpa rS => Sys2Proof.Machine.execMtsprCmpa rS s
  | .mfsprCmpb rD => Sys2Proof.Machine.execMfsprCmpb rD s
  | .mtsprCmpb rS => Sys2Proof.Machine.execMtsprCmpb rS s
  | .mfsprCmpc rD => Sys2Proof.Machine.execMfsprCmpc rD s
  | .mtsprCmpc rS => Sys2Proof.Machine.execMtsprCmpc rS s
  | .mfsprCmpd rD => Sys2Proof.Machine.execMfsprCmpd rD s
  | .mtsprCmpd rS => Sys2Proof.Machine.execMtsprCmpd rS s
  | .mfsprEcr rD => Sys2Proof.Machine.execMfsprEcr rD s
  | .mtsprEcr rS => Sys2Proof.Machine.execMtsprEcr rS s
  | .mfsprDer rD => Sys2Proof.Machine.execMfsprDer rD s
  | .mtsprDer rS => Sys2Proof.Machine.execMtsprDer rS s
  | .mfsprCounta rD => Sys2Proof.Machine.execMfsprCounta rD s
  | .mtsprCounta rS => Sys2Proof.Machine.execMtsprCounta rS s
  | .mfsprCountb rD => Sys2Proof.Machine.execMfsprCountb rD s
  | .mtsprCountb rS => Sys2Proof.Machine.execMtsprCountb rS s
  | .mfsprCmpe rD => Sys2Proof.Machine.execMfsprCmpe rD s
  | .mtsprCmpe rS => Sys2Proof.Machine.execMtsprCmpe rS s
  | .mfsprCmpf rD => Sys2Proof.Machine.execMfsprCmpf rD s
  | .mtsprCmpf rS => Sys2Proof.Machine.execMtsprCmpf rS s
  | .mfsprCmpg rD => Sys2Proof.Machine.execMfsprCmpg rD s
  | .mtsprCmpg rS => Sys2Proof.Machine.execMtsprCmpg rS s
  | .mfsprCmph rD => Sys2Proof.Machine.execMfsprCmph rD s
  | .mtsprCmph rS => Sys2Proof.Machine.execMtsprCmph rS s
  | .mfsprLctrl1 rD => Sys2Proof.Machine.execMfsprLctrl1 rD s
  | .mtsprLctrl1 rS => Sys2Proof.Machine.execMtsprLctrl1 rS s
  | .mfsprLctrl2 rD => Sys2Proof.Machine.execMfsprLctrl2 rD s
  | .mtsprLctrl2 rS => Sys2Proof.Machine.execMtsprLctrl2 rS s
  | .mfsprIctrl rD => Sys2Proof.Machine.execMfsprIctrl rD s
  | .mtsprIctrl rS => Sys2Proof.Machine.execMtsprIctrl rS s
  | .mfsprBar rD => Sys2Proof.Machine.execMfsprBar rD s
  | .mtsprBar rS => Sys2Proof.Machine.execMtsprBar rS s
  | .mfsprDpdr rD => Sys2Proof.Machine.execMfsprDpdr rD s
  | .mtsprDpdr rS => Sys2Proof.Machine.execMtsprDpdr rS s
  | .rfi => Sys2Proof.Machine.execRfi s
  | .sync => Sys2Proof.Machine.execSync s
  | .isync => Sys2Proof.Machine.execIsync s
  | .mtmsr rS => Sys2Proof.Machine.execMtmsr rS s
  | .stwu => Sys2Proof.Machine.execStwu s

end Sys2Proof.Machine
end

