-- ==== Sys2Proof/Machine/Reset.lean ====
section
/-! DEFINITION. The reset event and the boundary order of events (70_reset_and_hazards.md rules R540 to R546; 60_exceptions.md
rules R485, R488, R489). -/

namespace Sys2Proof.Machine

/-- `Reset` (rules R541 to R546, R60): what reset clears is cleared, what it does not touch keeps its value, the pin samples are
latched, MSR[IP] is taken from the environment (R9, R483), and debug mode is entered at once if DSCK stays asserted. What the
environment owns (inputs, memory, the CPU model's effects, the levels of the request lines) is not touched. Show cycles not yet
made, types not yet reported and instructions in flight are discarded: DESIGN CHOICE, log entry 42. -/
def State.applyReset (s : State) (p : ResetPins) : State :=
  let base := State.reset
  let t : State :=
    { s with
      cpu := { s.cpu with msr := { base.cpu.msr with ip := p.ip }, pc := vectorBase p.ip + vectorOffset .systemReset }
      spr :=
        { s.spr with
          ictrl := 0, lctrl1 := 0, lctrl2 := 0, ecr := 0, der := 0x2002000F
          counta := s.spr.counta &&& 0xFFFF0000
          countb := s.spr.countb &&& 0xFFFF0000 }
      port :=
        { base.port with
          dpsr := s.port.dpsr
          clockMode := if p.dsdiAt8 then .syncSelfClock else .async
          scanHold := p.dsdiAt16 }
      dbg := { base.dbg with enable := p.dsckAtMinus3 }
      trace := base.trace
      lines := { base.lines with peripheral := s.lines.peripheral, external := s.lines.external }
      ir := none
      inflight := []
      cycles := []
      outcome := .completed
      traced := base.traced
      countersSettled := base.countersSettled
      expired := base.expired }
  if p.dsckAtMinus3 && p.dsckAt7 then
    State.enterDebug { t.recordEvent .devPortInterrupt with draws := t.draws + 1 } (Config.freeWord t.draws)
      (srr1Of .devPortInterrupt t.cpu.msr)
  else t

/-- The events that come before an instruction (rule R485, lines 1 to 3): the non-maskable breakpoint, the system reset
interrupt, machine check or check stop. A latched request is used up. -/
def State.highEvent (s : State) : Option State :=
  if s.port.tecr.nmbrk then some (s.takeAt .devPortInterrupt s.cpu.pc)
  else if s.lines.nmi then
    some (State.takeAt { s with lines := { s.lines with nmi := false } } .systemReset s.cpu.pc)
  else if s.lines.machineCheck then
    some (State.takeAt { s with lines := { s.lines with machineCheck := false } } (machineCheckEvent s.cpu.msr.me) s.cpu.pc)
  else none

/-- The events that come last (rule R485, lines 8 to 10): the maskable external breakpoint (R488), the external interrupt, the
decrementer. -/
def State.lowEvent (s : State) : State :=
  if (s.port.tecr.mbrk || s.lines.peripheral) && s.cpu.msr.ri then s.takeAt .externalBreakpoint s.cpu.pc
  else if s.lines.external && s.cpu.msr.ee then s.takeAt .externalInterrupt s.cpu.pc
  else if s.lines.decrementer && s.cpu.msr.ee then
    State.takeAt { s with lines := { s.lines with decrementer := false } } .decrementer s.cpu.pc
  else s

/-- The trace event of a completed instruction, if it is the traced one (rules R480, R482, R485 line 7); else what comes after. -/
def State.traceOr (s : State) (ia : WordAddr) (other : State) : State :=
  if s.traced.insn = some ia then State.takeAt { s with traced := { s.traced with insn := none } } .trace s.cpu.pc else other

/-- The events after an instruction has completed (rule R485, lines 6 to 10). A trace event that loses to the load/store
breakpoint stays with its instruction, for when that is executed again. -/
def State.afterEvents (s : State) (lbrk : Bool) (ia : WordAddr) : State :=
  if lbrk then s.takeAt .loadStoreBreakpoint s.cpu.pc else s.traceOr ia s.lowEvent

/-- An event delivered by the environment while the CPU is in debug mode is recognised there at once (rule R315): the system
reset interrupt, machine check, and the external interrupt and the decrementer if MSR[EE] has been set against R318. One event is
recorded a step, in the order of rule R485: DESIGN CHOICE, log entry 55. -/
def State.debugEvents (s : State) : State :=
  if s.lines.nmi then State.takeAt { s with lines := { s.lines with nmi := false } } .systemReset s.cpu.pc
  else if s.lines.machineCheck then
    State.takeAt { s with lines := { s.lines with machineCheck := false } } (machineCheckEvent s.cpu.msr.me) s.cpu.pc
  else if s.lines.external && s.cpu.msr.ee then s.takeAt .externalInterrupt s.cpu.pc
  else if s.lines.decrementer && s.cpu.msr.ee then
    State.takeAt { s with lines := { s.lines with decrementer := false } } .decrementer s.cpu.pc
  else s

end Sys2Proof.Machine
end

