-- ==== Sys2Proof/Machine/Run.lean ====
section
/-! DEFINITION. How the machine runs: fetching, executing and retiring instructions with their watchpoints, breakpoints and
counters (R106, R225, R245, R251 to R263, R485), and the events of the environment (R10, R11, R105). -/

namespace Sys2Proof.Machine

/-- The CPU executes a word: an instruction of the table, or another one. -/
def executeWord (w : Word) (s : State) : Result :=
  match decodeWord? w with
  | some i => exec i s
  | none => .next (s.runOther w)

/-- Pulse the pins of the instruction watchpoints (rule R224). -/
def State.reportIwp (s : State) (w : Iwp) : State :=
  { s with out := s.out
      ++ (if w.w0 then [.watchpoint .iwp0] else []) ++ (if w.w1 then [.watchpoint .iwp1] else [])
      ++ (if w.w2 then [.watchpoint .iwp2] else []) ++ (if w.w3 then [.watchpoint .iwp3] else []) }

/-- Pulse the pins of the load/store watchpoints, once each per instruction (rule R244). -/
def State.reportLwp (s : State) (l0 l1 : Bool) : State :=
  { s with out := s.out ++ (if l0 then [.watchpoint .lwp0] else []) ++ (if l1 then [.watchpoint .lwp1] else []) }

/-- The instruction is an mtspr to COUNTA or COUNTB (U8), whether or not its write is performed (DESIGN CHOICE, log entry 19). -/
def altersCounters (w : Word) : Bool :=
  match decodeWord? w with
  | some (.mtsprCounta _) => true
  | some (.mtsprCountb _) => true
  | _ => false

/-- The count after a counted instruction (rule R261); free if the instruction alters the counters (U8). -/
def countedValue (free : Bool) (draw : BitVec 16) (count : Word) : Word :=
  countWord (if free then draw else cntv count - 1) (cntc count)

/-- Counting at retirement (rules R260, R261): `pre` is the machine before the instruction, whose source selects and
recognition decide, also for an instruction that changes them (DEDUCED, log entry 59); at most one decrement a counter. -/
def State.count (s pre : State) (free : Bool) (w : Iwp) (l0 l1 : Bool) : State :=
  let hitA := pre.recognized && ((cntc pre.spr.counta == 0b01 && w.w0) || (cntc pre.spr.counta == 0b10 && l0))
  let hitB := pre.recognized && ((cntc pre.spr.countb == 0b01 && w.w1) || (cntc pre.spr.countb == 0b10 && l1))
  { s with
    draws := s.draws + 2
    expired := ⟨s.expired.a && !hitA, s.expired.b && !hitB⟩
    spr :=
      { s.spr with
        counta := if hitA then countedValue free (Config.freeCount s.draws) s.spr.counta else s.spr.counta
        countb := if hitB then countedValue free (Config.freeCount (s.draws + 1)) s.spr.countb else s.spr.countb } }

/-- What follows a completed instruction outside debug mode (rules R106, R244, R254, R259, R261, R485). -/
def State.retireDone (s pre : State) (e : InFlight) : State :=
  let l0 := lwpInsn pre.spr e.iwp 0 s.cycles
  let l1 := lwpInsn pre.spr e.iwp 1 s.cycles
  let lbrk := pre.lbrk e.iwp s.cycles
  let bar := pre.barAddr e.iwp s.cycles
  let s := (s.reportIwp e.iwp).reportLwp l0 l1
  let s := s.count pre (altersCounters e.word) e.iwp l0 l1
  let s := { s with dbg := { s.dbg with unalignedSeen := s.dbg.unalignedSeen || s.cycles.any fun c => !cycleAligned c } }
  if lbrk then
    (State.afterEvents { s with spr := { s.spr with bar := bar } } true e.addr).noteExpired
      (expiryL pre.spr.counta l0) (expiryL pre.spr.countb l1)
  else s.afterEvents false e.addr

/-- A breakpoint on an mtspr ICTRL while IFM is 1, or while its source has bit 28 set: unpredictable (rule R253, U7), whether or not
its write is performed, and also if its fetch was refused by protection (DESIGN CHOICE, log entry 18). -/
def State.unpredictable (s : State) (e : InFlight) : Bool :=
  match decodeWord? e.word with
  | some (.mtsprIctrl rS) => s.recognized && s.direct e.iwp && (s.ifm || bitOf (s.reg rS) 28)
  | _ => false

/-- Execution of an instruction whose breakpoint, if any, has not been taken; `ifm` is the drawn IFM of an unpredictable case, which
is not written if the instruction's fetch was refused (DESIGN CHOICE beside R253, log entry 18). -/
def State.retireRun (s : State) (e : InFlight) (ifm : Option Bool) : Result :=
  match e.fault with
  | some c => .next (s.takeSync c none)
  | none =>
    match executeWord e.word { s with cycles := [] } with
    | .next t =>
      let t :=
        match ifm with
        | some b => t.setIfm b
        | none => t
      .next (if t.outcome = .completed then t.retireDone s e else t)
    | .fault r => .fault r
    | .refused r => .refused r

/-- The instruction breakpoint is taken BEFORE the instruction executes (rules R251, R486); its watchpoints are reported and it
is not counted (D27). -/
def State.takeIbrk (s : State) (e : InFlight) : State :=
  ((s.reportIwp e.iwp).takeAt .instrBreakpoint s.cpu.pc).noteExpired
    (s.recognized && counterExpiryI s.spr.counta e.iwp.w0) (s.recognized && counterExpiryI s.spr.countb e.iwp.w1)

/-- One instruction at the head of the history buffer (rules R225, R251 to R253): a machine check of its fetch comes before its
instruction breakpoint (R485); an ignored first match clears IFM and lets the instruction execute. An instruction that takes its
breakpoint, or whose fetch was refused, has used up the delay of R109: DESIGN CHOICE, log entry 41. -/
def State.retire (s : State) (e : InFlight) : Result :=
  let s := s.beginInsn
  if e.fault = some .machineCheck then .next (s.takeSync .machineCheck none)
  else if s.unpredictable e then
    let t := { s with draws := s.draws + 2 }
    let ifm := Config.freeBool (s.draws + 1)
    if Config.freeBool s.draws || s.expiryI e.iwp then .next ((t.setIfm ifm).takeIbrk e) else t.retireRun e (some ifm)
  else
    let t := if s.recognized && s.direct e.iwp && s.ifm then s.setIfm false else s
    if s.ibrk e.iwp then .next (t.takeIbrk e) else t.retireRun e none

/-- A fetch outside debug mode (rules R92, R171, R222): the comparators see the address, the trace attributes are attached, the
word comes from memory. The CPU executes this word, also if a store changes memory at its address before it retires: DESIGN CHOICE
beside R111, log entry 64. -/
def State.fetchAt (s : State) (ia : WordAddr) (flow : Flow) : State × InFlight :=
  let a : Word := ia ++ (0 : BitVec 2)
  (s.traceFetch ia flow,
    ⟨ia, Memory.readWord s.mem a, iwpOf s.spr ia, s.accessFault .fetch a, s.fetchFlow flow, s.trace.fetches⟩)

/-- One step of the CPU. It is idle in the check stop state and while it waits for the port in debug mode. If the oldest
instruction in flight was fetched on a wrong path, or before an instruction that synchronizes, everything in flight is recovered,
reports nothing and is fetched again (rules R106, R180). -/
def cpuStep (s : State) : Result :=
  if s.dbg.checkStop || s.dbg.inDebug then .next s
  else
    match s.highEvent with
    | some t => .next t
    | none =>
      match s.inflight with
      | e :: rest => if s.usable e then State.retire { s with inflight := rest } e else .next { s with inflight := [] }
      | [] =>
        let (t, e) := s.fetchAt s.pcWord .sequential
        t.retire e

/-- The instruction the port delivered has ended, and its trace event with it: it is not executed again (rules R372, R482). -/
def State.endDelivered (s : State) : State := { s with traced := { s.traced with delivered := false } }

/-- The trace event of the delivered instruction that has completed, if it is traced; else what comes after (rules R315, R480). -/
def State.deliveredTraceOr (s : State) (other : State → State) : State :=
  let t := s.endDelivered
  if s.traced.delivered then t.takeAt .trace t.cpu.pc else other t

/-- After a delivered instruction has completed: in debug mode only its trace event remains (rules R315, R317, R495); if the
instruction has left debug mode, a request that is still asserted is recognised at once (R367, R485). -/
def State.afterDelivered (s : State) : State :=
  if s.dbg.inDebug then s.deliveredTraceOr id
  else
    match s.highEvent with
    | some u => u.endDelivered
    | none => s.deliveredTraceOr State.lowEvent

/-- What follows a delivered instruction: one that has not completed loses its trace event (R315, R482), one that waits for the port
has not ended. -/
def State.afterPort (s : State) : State :=
  match s.outcome with
  | .completed => s.afterDelivered
  | .excepted => s.endDelivered
  | .stalled => s

/-- The CPU executes the word a debug-mode fetch delivered; no watchpoint or breakpoint exists there (rule R256). -/
def debugStep (w : Word) (s : State) : Result :=
  match executeWord w { s.beginInsn with cycles := [] } with
  | .next t => .next t.afterPort
  | .fault r => .fault r
  | .refused r => .refused r

/-- The CPU waits for a data transmission, in an mfspr DPDR (rules R48, R373). -/
def State.waitsForData (s : State) : Bool :=
  match s.port.cpuWaiting with
  | .data _ => true
  | _ => false

/-- A transmission has been executed: if it has ended the CPU's wait for data, what follows the mfspr DPDR that waited (rules R373,
R383). -/
def State.afterFrame (t s : State) : State := if s.waitsForData && !t.waitsForData then t.afterPort else t

/-- A complete frame is processed, or ignored when its answer was an error status (rules R355, R385). -/
def finishFrame (f : Frame) (s : State) : Result :=
  if s.port.suppress then .next s
  else
    match exec (decodeFrame f) s with
    | .next t => .next (t.afterFrame s)
    | .fault r => .fault r
    | .refused r => .refused r

/-- A whole transmission (rule R355); ignored while the port is not ready (D23). -/
def transmit (f : Frame) (s : State) : Result := if s.ready then finishFrame f (s.exchange f) else .next s

/-- One serial clock (rule R356). -/
def serialStep (dsdi : Bool) (s : State) : Result :=
  match s.serialClock dsdi with
  | (t, some f) => finishFrame f t
  | (t, none) => .next t

/-- One event of the environment (rules R10, R11). A second trace input replaces a trace event that waits: DESIGN CHOICE, log entry
30. -/
def processInput (i : Input) (s : State) : Result :=
  match i with
  | .cpuStep => cpuStep s
  | .fetch ia flow =>
    if s.dbg.inDebug || s.dbg.checkStop then .next s
    else
      let (t, e) := s.fetchAt ia flow
      .next { t with inflight := t.inflight ++ [e] }
  | .cancel n => .next (s.dropFlight (s.inflight.length - n))
  | .clock r q h => .next (s.clock r q h)
  | .busGrant => .next s.busGrant
  | .frame f => transmit f s
  | .shift b => serialStep b s
  | .peripheral b => .next { s with lines := { s.lines with peripheral := b } }
  | .external b => .next { s with lines := { s.lines with external := b } }
  | .nmi => .next { s with lines := { s.lines with nmi := true } }
  | .machineCheck => .next { s with lines := { s.lines with machineCheck := true } }
  | .decrementer => .next { s with lines := { s.lines with decrementer := true } }
  | .trace =>
    .next { s with traced := if s.dbg.inDebug then { s.traced with delivered := true } else { s.traced with insn := some s.pcWord } }
  | .reset p => .next (s.applyReset p)

/-- The reset that is the next event, if it is one. -/
def State.nextReset (s : State) : Option ResetPins :=
  match s.inputs with
  | .reset p :: _ => some p
  | _ => none

/-- What happens at the start of every step: the outputs of the last one are gone; in debug mode an event that is recognised
there is recorded, the external interrupt again and again (rules R315, R318). -/
def State.beginStep (s : State) : State :=
  let t := { s with out := [] }
  if t.dbg.inDebug then t.debugEvents else t

/-- A step while the CPU has a delivered word to execute: with no event, and at its own event `cpuStep`, the CPU executes it; any
other event comes first (DESIGN CHOICE, log entry 14). The port is not ready then, so a transmission is ignored (R371, D23). -/
def wordStep (w : Word) (s : State) : Result :=
  match s.inputs with
  | [] => debugStep w { s with ir := none }
  | .cpuStep :: rest => debugStep w { s with ir := none, inputs := rest }
  | i :: rest => processInput i { s with inputs := rest }

/-- A step in which no reset comes: a pending debug mode entry (rule R305), else the word the port has delivered, else the next
event, else the CPU. -/
def runOn (s : State) : Result :=
  let t := s.beginStep
  if t.enterCondition then .next (t.enterDebug t.cpu.pc (srr1Of t.pendingCause t.cpu.msr))
  else
    match t.ir with
    | some w => wordStep w t
    | none =>
      match t.inputs with
      | i :: rest => processInput i { t with inputs := rest }
      | [] => if t.dbg.checkStop then .fault .checkStopped else cpuStep t

/-- One step: a reset that is the next event comes before all else, so nothing in progress delays it (rules R540, R546). -/
def runStep (s : State) : Result :=
  match s.nextReset with
  | some p => .next (State.applyReset { s with out := [], inputs := s.inputs.tail } p)
  | none => runOn s

end Sys2Proof.Machine
end

