-- ==== Sys2Proof/Machine/Step.lean ====
section
/-! DEFINITION. The step function, and how a test places an instruction where the next step runs it. -/

namespace Sys2Proof.Machine

/-- One step of the machine. -/
def step (s : State) : Host.Outcome State Fault Refusal := runStep s

/-- The machine with one opcode-table word where its next step fetches. A CPU instruction stands in memory at pc and the CPU
takes the next step; in debug mode it is the word the port has delivered, and the CPU takes the next step. A transmission (10 or 35 bits) is the next input,
and the port is ready for it. -/
def State.withFetchWord (s : State) (nbits w : Nat) : State :=
  if nbits = 32 then
    if s.dbg.inDebug then
      { s with ir := some (BitVec.ofNat 32 w), inputs := .cpuStep :: s.inputs, port := { s.port with cpuWaiting := .none } }
    else
      { s with
        mem := Memory.writeWord s.mem (s.pcWord ++ (0 : BitVec 2)) (BitVec.ofNat 32 w)
        ir := none
        inflight := []
        inputs := .cpuStep :: s.inputs }
  else
    match readFrame (natBits (if nbits ≤ 16 then 10 else 35) w) with
    | .ok (f, _) =>
      { s with
        ir := none
        inputs := .frame f :: s.inputs
        port :=
          { s.port with
            shifted := 0
            scanHold := false
            seqErrPending := false
            cpuIntPending := false
            cpuWaiting := if s.dbg.inDebug && s.port.cpuWaiting == .none then .instruction else s.port.cpuWaiting } }
    | .error _ => { s with ir := none, inputs := .cpuStep :: s.inputs }

end Sys2Proof.Machine
end

