-- ==== Sys2Proof/Machine/Recorder.lean ====
section
/-! DEFINITION. The external program-trace recorder, a pure observer of the pins and of the show cycles (40_program_trace.md
rules R172 to R175, R183, R187 to R189). It has no state in State. -/

namespace Sys2Proof.Machine

/-- What one VF value says (rules R172, R173). -/
inductive VfReading where
  | type (t : VfType)
  /-- VF = 011 in a type slot. -/
  | vsync
  | flush (n : Nat)
  /-- Flush code 110, never produced by the logic (U2). -/
  | reserved
deriving DecidableEq, Repr

/-- VF read as an instruction type (rule R172) and what the next clock holds. -/
def readType (vf : BitVec 3) : VfReading × SlotKind :=
  if vf = 0b000 then (.type .none, .type)
  else if vf = 0b001 then (.type .sequential, .type)
  else if vf = 0b010 then (.type .notTaken, .type)
  else if vf = 0b011 then (.vsync, .type)
  else if vf = 0b100 then (.type .exception, .flush)
  else if vf = 0b101 then (.type .indirect, .flush)
  else if vf = 0b110 then (.type .direct, .flush)
  else (.type .notTakenFlush, .flush)

/-- VF read as queue flush information (rule R173), with the special case VF = 111 (rule R174). The reserved code 110 is read as the
error of decoding that U2 asks for; what the recorder does after it is a DESIGN CHOICE, log entry 62. -/
def readFlush (vf : BitVec 3) : VfReading × SlotKind :=
  if vf = 0b111 then (.type .notTakenFlush, .flush)
  else if vf = 0b110 then (.reserved, .type)
  else (.flush vf.toNat, .type)

/-- Rule R174: the reading of a VF value in a slot, and the kind of the next slot. -/
def readSlot : SlotKind → BitVec 3 → VfReading × SlotKind
  | .type, vf => readType vf
  | .flush, vf => readFlush vf

/-- The kind of the slot after some VF values. -/
def slotAfterAll : SlotKind → List (BitVec 3) → SlotKind
  | k, [] => k
  | k, v :: rest => slotAfterAll (readSlot k v).2 rest

/-- The readings of a stream of VF values. -/
def readStream : SlotKind → List (BitVec 3) → List VfReading
  | _, [] => []
  | k, v :: rest => (readSlot k v).1 :: readStream (readSlot k v).2 rest

/-- The VF values among some outputs. -/
def vfReports (o : List Output) : List (BitVec 3) :=
  o.filterMap fun x =>
    match x with
    | .vf v => some v
    | _ => none

/-! ## What the recorder samples, and its compression (rule R188) -/

/-- The five bits the pins produce in a clock: VF[0:2], then VFLS[0:1] (rule R188). -/
def State.tracePins (s : State) : BitVec 5 := s.trace.vf ++ s.vfls

/-- The addresses of the show cycles made in a step, thirty bits each (rules R182, R188). -/
def State.tracedAddrs (s : State) : List (BitVec 30) :=
  s.out.filterMap fun x =>
    match x with
    | .showCycle a _ => some a
    | _ => none

/-- The number of bits recorded in some clocks with some show cycles (rule R188). -/
def traceVolume (clocks showCycles : Nat) : Nat := 5 * clocks + 30 * showCycles

/-- The reading reports an instruction (rule R172). -/
def VfReading.isInsn : VfReading → Bool
  | .type .sequential | .type .notTaken | .type .notTakenFlush | .type .direct | .type .indirect => true
  | .type .none | .type .exception | .vsync | .flush _ | .reserved => false

/-- Eliminate the n latest instruction reports, which were cancelled (rules R173, R175); the latest report comes first. -/
def dropInsns : Nat → List VfReading → List VfReading
  | 0, l => l
  | _, [] => []
  | n + 1, v :: rest => if v.isInsn then dropInsns n rest else v :: dropInsns (n + 1) rest

/-- One clock of the elimination: the pins, read in a slot, and the reports kept so far, the latest first. The reserved flush code
cancels nothing: DESIGN CHOICE beside U2, log entry 62. -/
def keepClock (kept : List VfReading × SlotKind) (pins : BitVec 5) : List VfReading × SlotKind :=
  let (v, k) := readSlot kept.2 (pins.extractLsb' 2 3)
  let l :=
    match v with
    | .flush n => dropInsns n kept.1
    | .type .none | .reserved => kept.1
    | .type _ | .vsync => v :: kept.1
  let vfls := pins.extractLsb' 0 2
  (if vfls = 0b11 then l else dropInsns vfls.toNat l, k)

/-- One report of the compressed trace: a branch taken or not, an indirect change of flow, an exception or a VSYNC, with the number
of sequential instructions since the one before it (rule R188). -/
structure FlowReport where
  sequential : Nat
  change : VfReading
deriving DecidableEq, Repr

/-- The reports of some readings, `n` sequential instructions after the last change of flow, and the sequential instructions left. -/
def flowReports : Nat → List VfReading → List FlowReport × Nat
  | n, [] => ([], n)
  | n, .type .sequential :: rest => flowReports (n + 1) rest
  | n, v :: rest =>
    let r := flowReports 0 rest
    (⟨n, v⟩ :: r.1, r.2)

/-- The compression of the stream of the pins (rule R188): cancelled instructions are eliminated, and only changes of flow and
counts of sequential instructions are reported. -/
def compressTrace (clocks : List (BitVec 5)) : List FlowReport × Nat :=
  flowReports 0 (clocks.foldl keepClock ([], .type)).1.reverse

/-! ## Reconstruction -/

/-- The start address of a trace window from the first two reports and the first two latched addresses (rule R183); `branch`
gives the target of the direct branch at an address. Other second reports are not in the table. -/
def windowStart (branch : Word → Word) (vf2 : BitVec 3) (t1 t2 : Word) : Option Word :=
  if vf2 = 0b001 then some t1
  else if vf2 = 0b110 then some (branch (t1 - 4))
  else if vf2 = 0b101 then some t2
  else none

/-- The recorder of rule R189: the addresses fetched, the latest first, the current address, the trace addresses left. -/
structure Recording where
  fetched : List Word
  addr : Word
  targets : List Word
  kind : SlotKind
deriving DecidableEq, Repr

/-- Go on at the next program trace address; with none left the address stays. -/
def Recording.jump (r : Recording) : Recording :=
  match r.targets with
  | [] => r
  | t :: rest => { r with addr := t, targets := rest }

/-- One reading of VF (rule R189). The reserved flush code, an error of decoding (U2), changes nothing: DESIGN CHOICE, log entry 62. -/
def Recording.read (branch : Word → Word) (r : Recording) : VfReading → Recording
  | .type .none => r
  | .type .sequential | .type .notTaken | .type .notTakenFlush =>
    { r with fetched := r.addr :: r.fetched, addr := r.addr + 4 }
  | .type .direct => { r with fetched := r.addr :: r.fetched, addr := branch r.addr }
  | .type .indirect => Recording.jump { r with fetched := r.addr :: r.fetched }
  | .type .exception => r.jump
  | .vsync => r.jump
  | .flush n => { r with fetched := r.fetched.drop n }
  | .reserved => r

/-- One clock: VF, then the history buffer flush count on VFLS; 11 is ignored (rules R175, R189). -/
def Recording.clock (branch : Word → Word) (r : Recording) (vf : BitVec 3) (vfls : BitVec 2) : Recording :=
  let (v, k) := readSlot r.kind vf
  let r := { r.read branch v with kind := k }
  if vfls = 0b11 then r else { r with fetched := r.fetched.drop vfls.toNat }

/-- The whole reconstruction: the addresses fetched, in order, without the last two (rules R187, R189). `kind` is the kind of slot of
the first clock: a type slot at reset (R174, R184) and after the second report VF = 001 of R183, a flush slot after 101 and 110.
R189 does not say where the stream begins; that the recorder says it is a DESIGN CHOICE, log entry 63. -/
def reconstruct (branch : Word → Word) (start : Word) (kind : SlotKind) (targets : List Word)
    (clocks : List (BitVec 3 × BitVec 2)) : List Word :=
  let first : Recording := ⟨[], start, targets, kind⟩
  let r := clocks.foldl (fun r c => Recording.clock branch r c.1 c.2) first
  (r.fetched.drop 2).reverse

end Sys2Proof.Machine
end

