-- ==== Sys2Proof/Safety.lean ====
section
/-! DEFINITION. The terms the statements use: the part of the machine that completing an instruction does not touch, the
invariant of every step, the sources of what stays constant, and what a well-behaved tool never causes. -/

namespace Sys2Proof.Machine

/-! ## Frames -/

/-- The machine without what the completion of any instruction may touch: the pc, the report and fetch attributes of the next
instruction, the start of the next fetch from the port, the model's own records of how the instruction ended and of which counters read exactly, and
the count of draws. Two machines equal under `kept` agree on every register, on memory, on the port's registers and status, and on the
outputs. -/
def State.kept (s : State) : State :=
  { s with
    cpu := { s.cpu with pc := 0 }
    port := { s.port with cpuWaiting := .none, downloadStore := false }
    trace := { s.trace with pending := [], nextFlow := .sequential }
    ir := none
    outcome := .completed
    countersSettled := false
    expired := ⟨false, false⟩
    draws := 0 }

/-- The pc after an instruction that is not a branch: the next word in memory, or unchanged in debug mode (rule R92). -/
def State.nextPc (s : State) : Word := if s.dbg.inDebug then s.cpu.pc else s.cpu.pc + 4

/-- The start of the next fetch: outside debug mode nothing waits on the port; in debug mode the CPU waits for an instruction,
or the port has supplied the next word of the download loop (rules R372, R388). -/
def State.fetching (s : State) : Prop :=
  s.dbg.inDebug = true →
    if s.port.downloadInProgress then s.port.cpuWaiting = .none ∧ (s.ir = some 0x97FE0004 ∨ s.ir = some 0x7FF69AA6)
    else s.port.cpuWaiting = .instruction

/-- The head of the inputs is not a reset. -/
def State.noReset (s : State) : Prop := ∀ p, s.inputs.head? ≠ some (.reset p)

/-- The byte of system memory at an address. -/
def State.byteAt (s : State) (a : Word) : Byte := Memory.read s.mem a.toNat

/-- The four bytes of a word store, wrapping at the top of the address space. -/
def inWord (base a : Word) : Prop := a = base ∨ a = base + 1 ∨ a = base + 2 ∨ a = base + 3

/-- `mask` if `b`, else 0: how the rules add a bit to a word. -/
def flagBit (b : Bool) (mask : Word) : Word := if b then mask else 0

/-- The rows of the table that stand for reserved debug port commands (rule R138). -/
def isReservedCommand : Instr → Bool
  | .rsv00011 _ | .rsv001 _ _ | .rsv01 _ _ | .rsv10 _ _ | .rsv110 _ _ | .rsv1110 _ _ | .rsv11110 _ => true
  | .dpInsn _ | .dpData _ | .dpTe _ _ _ _ _ _ _ | .dpNop _ | .dpHreset _ | .dpSreset _ | .dpStartdl | .dpEnddl
  | .dpBrk _ _ => false
  | .mfsprCmpa _ | .mfsprCmpb _ | .mfsprCmpc _ | .mfsprCmpd _ | .mfsprEcr _ | .mfsprDer _ | .mfsprCounta _
  | .mfsprCountb _ | .mfsprCmpe _ | .mfsprCmpf _ | .mfsprCmpg _ | .mfsprCmph _ | .mfsprLctrl1 _ | .mfsprLctrl2 _
  | .mfsprIctrl _ | .mfsprBar _ | .mfsprDpdr _ => false
  | .mtsprCmpa _ | .mtsprCmpb _ | .mtsprCmpc _ | .mtsprCmpd _ | .mtsprEcr _ | .mtsprDer _ | .mtsprCounta _
  | .mtsprCountb _ | .mtsprCmpe _ | .mtsprCmpf _ | .mtsprCmpg _ | .mtsprCmph _ | .mtsprLctrl1 _ | .mtsprLctrl2 _
  | .mtsprIctrl _ | .mtsprBar _ | .mtsprDpdr _ => false
  | .rfi | .sync | .isync | .mtmsr _ | .stwu => false

/-- The thirty-four accesses to the development-support registers, with their register number (rules R24, R143). -/
def sprAccesses (r : Nat) : List Instr :=
  [.mfsprCmpa r, .mtsprCmpa r, .mfsprCmpb r, .mtsprCmpb r, .mfsprCmpc r, .mtsprCmpc r, .mfsprCmpd r, .mtsprCmpd r,
    .mfsprEcr r, .mtsprEcr r, .mfsprDer r, .mtsprDer r, .mfsprCounta r, .mtsprCounta r, .mfsprCountb r, .mtsprCountb r,
    .mfsprCmpe r, .mtsprCmpe r, .mfsprCmpf r, .mtsprCmpf r, .mfsprCmpg r, .mtsprCmpg r, .mfsprCmph r, .mtsprCmph r,
    .mfsprLctrl1 r, .mtsprLctrl1 r, .mfsprLctrl2 r, .mtsprLctrl2 r, .mfsprIctrl r, .mtsprIctrl r, .mfsprBar r, .mtsprBar r,
    .mfsprDpdr r, .mtsprDpdr r]

/-- The seventeen mtspr instructions. -/
def sprWrites (r : Nat) : List Instr :=
  [.mtsprCmpa r, .mtsprCmpb r, .mtsprCmpc r, .mtsprCmpd r, .mtsprEcr r, .mtsprDer r, .mtsprCounta r, .mtsprCountb r,
    .mtsprCmpe r, .mtsprCmpf r, .mtsprCmpg r, .mtsprCmph r, .mtsprLctrl1 r, .mtsprLctrl2 r, .mtsprIctrl r, .mtsprBar r,
    .mtsprDpdr r]

/-! ## The invariant -/

/-- Reserved bits of the special purpose registers hold 0 (rule R435, D13). -/
def Sprs.reservedZero (r : Sprs) : Prop :=
  r.cmpa &&& maskCmpI = r.cmpa ∧ r.cmpb &&& maskCmpI = r.cmpb ∧ r.cmpc &&& maskCmpI = r.cmpc ∧ r.cmpd &&& maskCmpI = r.cmpd ∧
    r.ictrl &&& maskIctrl = r.ictrl ∧ r.lctrl1 &&& maskLctrl1 = r.lctrl1 ∧ r.lctrl2 &&& maskLctrl2 = r.lctrl2 ∧
    r.counta &&& maskCount = r.counta ∧ r.countb &&& maskCount = r.countb ∧
    r.ecr &&& maskEvents = r.ecr ∧ r.der &&& maskEvents = r.der

/-- Debug mode exists only when it is enabled (R43); in it freeze is asserted and VF shows 000 in a type slot (R177, R324); a fetch
or read of the port is outstanding only in it (R48), and only in it valid data or a CPU interrupt is to be reported (R380). -/
def State.debugConsistent (s : State) : Prop :=
  (s.dbg.inDebug = true →
      s.dbg.enable = true ∧ s.dbg.freeze = true ∧ s.trace.vf = 0 ∧ s.trace.prevKind = .type) ∧
    (s.dbg.inDebug = false →
      s.port.cpuWaiting = .none ∧ s.ir = none ∧ s.port.validData = false)

/-- Freeze is asserted while an enabled event is recorded (rule R324). -/
def State.freezeConsistent (s : State) : Prop := s.enabledEvent = true → s.dbg.freeze = true

/-- The ISCT_SER setting in force is the one in ICTRL, but for one instruction after a write (rule R109). -/
def State.isctConsistent (s : State) : Prop := s.trace.isctHold = false → s.trace.isctActive = fieldOf s.spr.ictrl 29 3

/-- What every step keeps. -/
structure State.Inv (s : State) : Prop where
  memory : Memory.wf s.mem = true
  reserved : s.spr.reservedZero
  debug : s.debugConsistent
  freeze : s.freezeConsistent
  isct : s.isctConsistent
  serial : s.port.shifted < 35

/-! ## Runs -/

/-- The serial clocks of some DSDI levels, stopping where the machine stops (rule R356). -/
def serialRun : List Bool → State → Result
  | [], s => .next s
  | b :: rest, s =>
    match serialStep b s with
    | .next t => serialRun rest t
    | .fault r => .fault r
    | .refused r => .refused r

/-- The levels DSDO shows at each of those clocks (rule R140). -/
def dsdoRun : List Bool → State → List Bool
  | [], _ => []
  | b :: rest, s => s.dsdo :: dsdoRun rest (s.serialClock b).1

/-- A transmission was made whose treatment or use the spec leaves outside well-behaved operation (U3, U5, U14, U16). -/
def State.flagged (s : State) : Bool :=
  s.dbg.reservedCommandSeen || s.dbg.illegalProgramming || s.dbg.unalignedSeen || s.dbg.nonRestartable

end Sys2Proof.Machine
end

