-- ==== Sys2Proof/Certificates/Slice0/Obligations.lean ====
section
/-! DEFINITION. The statements for the provers. Each is a proposition; OBLIGATIONS.json gives its tier, its rules and its reading.
A frame is said as an equation between machines under `State.kept`, which leaves out only what completing an instruction touches
(Safety.lean); equal machines have equal memory, so every byte reads as before. -/

open Sys2Proof Sys2Proof.Machine

/-! ## Encodings -/

/-- Decode and encode agree: the bits of every well-formed instruction, with anything after them on the same channel, decode to
the instruction and leave the rest. -/
def Obligations.DecodeInvertsEncode : Prop :=
  ∀ (i : Instr) (rest : List Bool), i.WellFormed →
    decodeBits (encode i).channel ((encode i).bits ++ rest) = .ok (i, rest)

/-- Encode and decode agree: a word that decodes to a row of the table, and every transmission, is the encoding of a well-formed
instruction, the one it decodes to; so no fixed bit is read as free. -/
def Obligations.DecodedBitsAreTheEncoding : Prop :=
  (∀ (w : Word) (i : Instr), decodeWord? w = some i → i.WellFormed ∧ encode i = .word w) ∧
    ∀ f : Frame, (decodeFrame f).WellFormed ∧ encode (decodeFrame f) = .frame f

/-- Words written out from the encoding tables (rules R133, R134, R144, R145, R146) decode to their instruction. -/
def Obligations.TableWordsDecode : Prop :=
  decodeTableWord 16 0x340 = some (.dpTe true false false false false false false) ∧
    decodeTableWord 16 0x3E3 = some .dpStartdl ∧
    decodeTableWord 16 0x3C3 = some .dpEnddl ∧
    decodeTableWord 16 0x3DF = some (.dpBrk true false) ∧
    decodeTableWord 40 0x47C1422A6 = some (.dpInsn 0x7C1422A6) ∧
    decodeTableWord 40 0x5DEADBEEF = some (.dpData 0xDEADBEEF) ∧
    decodeTableWord 32 0x7C1422A6 = some (.mfsprEcr 0) ∧
    decodeTableWord 32 0x7C769BA6 = some (.mtsprDpdr 3) ∧
    decodeTableWord 32 0x4C000064 = some .rfi ∧
    decodeTableWord 32 0x97FE0004 = some .stwu ∧
    decodeTableWord 32 0x60000000 = none ∧
    decodeTableWord 16 0x180 = none

/-- The commands without an effect of their own on the port's state. The reserved codes are exactly `0 x 00011` and the major opcodes
00100 to 11110, and change nothing but the model's flag (rules R138, R368; the flag is the spec's decision D3). DP.NOP changes
nothing (R362). The reset requests only emit themselves (R363, R364; the request to the environment is D16). -/
def Obligations.ReservedNopAndResetCommands : Prop :=
  (∀ (e : BitVec 2) (m : BitVec 5),
    isReservedCommand (decodeFrame (.short true (commandData e m))) =
      (decide (4 ≤ m.toNat ∧ m.toNat ≤ 30) || (m == 0b00011 && !e.msb))) ∧
    (∀ (i : Instr) (s : State), isReservedCommand i = true →
      exec i s = .next { s with dbg := { s.dbg with reservedCommandSeen := true } }) ∧
    ∀ (x : BitVec 2) (s : State),
      exec (.dpNop x) s = .next s ∧
        exec (.dpHreset x) s = .next { s with out := s.out ++ [.resetRequest true] } ∧
        exec (.dpSreset x) s = .next { s with out := s.out ++ [.resetRequest false] }

/-! ## Transmissions -/

/-- DP.TE writes the six trap enables and VSYNC and nothing else of TECR, remembers a change of VSYNC, in every mode; the new
enables are seen at once in ICTRL[24:27], LCTRL2[28:29] and in the trap conditions (rules R360, R361). -/
def Obligations.TrapEnableTransmission : Prop :=
  ∀ (i0 i1 i2 i3 l0 l1 vs : Bool) (s : State),
    ∃ t, exec (.dpTe i0 i1 i2 i3 l0 l1 vs) s = .next t ∧
      t = { s with
        port := { s.port with tecr := ⟨i0, i1, i2, i3, l0, l1, vs, s.port.tecr.nmbrk, s.port.tecr.mbrk⟩ }
        trace := { s.trace with vsyncChanged := s.trace.vsyncChanged || s.port.tecr.vsync != vs } } ∧
      bitOf t.ictrlView 24 = i0 ∧ bitOf t.ictrlView 25 = i1 ∧ bitOf t.ictrlView 26 = i2 ∧ bitOf t.ictrlView 27 = i3 ∧
      bitOf t.lctrl2View 28 = l0 ∧ bitOf t.lctrl2View 29 = l1 ∧
      t.trapI 0 = (bitOf s.spr.ictrl 20 || i0) ∧ t.trapI 1 = (bitOf s.spr.ictrl 21 || i1) ∧
      t.trapI 2 = (bitOf s.spr.ictrl 22 || i2) ∧ t.trapI 3 = (bitOf s.spr.ictrl 23 || i3) ∧
      t.trapL 0 = (bitOf s.spr.lctrl2 30 || l0) ∧ t.trapL 1 = (bitOf s.spr.lctrl2 31 || l1)

/-- DP.BRK sets the two request levels of TECR and nothing else; a command that asserts a request in debug mode is reserved
there and flagged too (rules R367, R135; latching it in debug mode is U12, log entry 28). -/
def Obligations.BreakpointRequestTransmission : Prop :=
  ∀ (nm m : Bool) (s : State),
    exec (.dpBrk nm m) s =
      .next
        { s with
          port := { s.port with tecr := { s.port.tecr with nmbrk := nm, mbrk := m } }
          dbg := { s.dbg with
            reservedCommandSeen := s.dbg.reservedCommandSeen || (s.dbg.inDebug && (nm || m)) } }

/-- DP.STARTDL in debug mode starts a download: a waiting instruction fetch is answered by the port with `mfspr r31, DPDR`.
DP.ENDDL marks a download in progress for ending. Neither changes anything else, and outside debug mode neither changes anything
(rules R365, R366, R388; the last is the spec's decision D29). Two clauses are the model's choice, log entry 35: a DP.STARTDL during
a download changes nothing, and one that finds no fetch waiting (the CPU waits for data) only starts the download. -/
def Obligations.DownloadCommands : Prop :=
  ∀ s : State,
    (s.dbg.inDebug = true → s.port.downloadInProgress = false → s.port.cpuWaiting = .instruction →
        ∃ t, exec .dpStartdl s = .next t ∧ t.port.downloadInProgress = true ∧ t.ir = some 0x7FF69AA6 ∧
          decodeWord? 0x7FF69AA6 = some (.mfsprDpdr 31) ∧ t.port.cpuWaiting = .none ∧
          t.kept = { s with port := { s.port with downloadInProgress := true } }.kept ∧ t.cpu.pc = s.cpu.pc) ∧
      (s.dbg.inDebug = true → s.port.downloadInProgress = false → s.port.cpuWaiting ≠ .instruction →
        exec .dpStartdl s = .next { s with port := { s.port with downloadInProgress := true, downloadStore := false } }) ∧
      (s.dbg.inDebug = true → s.port.downloadInProgress = true →
        exec .dpStartdl s = .next s ∧
          exec .dpEnddl s = .next { s with port := { s.port with endRequested := true } }) ∧
      (s.dbg.inDebug = true → s.port.downloadInProgress = false → exec .dpEnddl s = .next s) ∧
      (s.dbg.inDebug = false → exec .dpStartdl s = .next s ∧ exec .dpEnddl s = .next s)

/-- An instruction transmission completes the fetch the CPU waits in: the CPU will execute the word, and nothing else of the
machine changes (rule R372). -/
def Obligations.InstructionTransmissionDelivers : Prop :=
  ∀ (w : Word) (s : State), s.dbg.inDebug = true → s.port.cpuWaiting = .instruction →
    ∃ t, exec (.dpInsn w) s = .next t ∧ t.ir = some w ∧ t.port.cpuWaiting = .none ∧
      t.kept = s.kept ∧ t.cpu.pc = s.cpu.pc

/-- A data transmission completes the mfspr that waits: rD receives the word, the next fetch starts, and nothing else changes
(rule R373). The extra data word after DP.ENDDL goes to the waiting register only: no store is supplied, the download is over,
and the next fetch goes to the tool (rule R390; the moment the status bit negates is the spec's decision D29). -/
def Obligations.DataTransmissionCompletesRead : Prop :=
  ∀ (w : Word) (rD : Nat) (s : State), s.dbg.inDebug = true → s.port.cpuWaiting = .data rD → rD < 32 →
    ((s.port.downloadInProgress && s.port.endRequested) = false →
      ∃ t, exec (.dpData w) s = .next t ∧ t.reg rD = w ∧ t.kept = (s.setReg rD w).kept ∧ t.cpu.pc = s.cpu.pc ∧ t.fetching) ∧
      ((s.port.downloadInProgress && s.port.endRequested) = true → s.ir = none →
        ∃ t, exec (.dpData w) s = .next t ∧ t.reg rD = w ∧ t.ir = none ∧ t.port.cpuWaiting = .instruction ∧
          t.kept = State.kept
            { s.setReg rD w with port := { s.port with downloadInProgress := false, endRequested := false } } ∧
          t.cpu.pc = s.cpu.pc)

/-- Outside debug mode a 35-bit transmission is a sequencing error: the data are discarded and nothing else changes; the next answer,
unless it is valid data, is the status sequencing error (rule R382). -/
def Obligations.SequencingErrorOutsideDebug : Prop :=
  ∀ (w : Word) (s : State), s.dbg.inDebug = false →
    ∃ t, t = { s with port := { s.port with seqErrPending := true } } ∧
      exec (.dpInsn w) s = .next t ∧ exec (.dpData w) s = .next t ∧
      (s.port.validData = false → t.answer.port.txStatus = 0b01)

/-- In debug mode data sent to an instruction fetch, or an instruction sent to a data read, is a sequencing error: the word is
discarded, no register is written, the bus error sets the ECR bit of the open parameter PortBusErrorCause and pulses ECR_OR, and
the CPU goes on to the next fetch (rules R383, R494, D14; the case of data sent to a fetch is D14's). -/
def Obligations.SequencingErrorInDebug : Prop :=
  ∀ (w : Word) (rD : Nat) (s : State) (i : Instr), s.dbg.inDebug = true →
    (i = .dpData w ∧ s.port.cpuWaiting = .instruction ∨ i = .dpInsn w ∧ s.port.cpuWaiting = .data rD) →
    ∃ t, exec i s = .next t ∧
      t.kept = State.kept
        { s with
          spr := { s.spr with ecr := s.spr.ecr ||| eventMask Config.portBusErrorCause }
          port := { s.port with seqErrPending := true, cpuIntPending := true }
          out := s.out ++ [.ecrOr] } ∧
      t.cpu.pc = s.cpu.pc ∧ t.fetching

/-! ## The port between transmissions -/

/-- The answer by priority: valid data, sequencing error, CPU interrupt, null; each clears what it reports, and the two error
statuses suppress the frame that comes in (rules R380, R385). CPU interrupt status occurs in debug mode only, and so does valid
data where the invariant holds (R380); that the null answer ends a CPU interrupt still pending outside debug mode is the model's
choice (log entry 56). The data of the last three are freeze, not download in progress, then ones (rule R381; that all three carry
them is D7). -/
def Obligations.AnswerByPriority : Prop :=
  ∀ s : State,
    (s.port.validData = true → s.answer = { s with port := { s.port with
        txStatus := 0b00, txData := s.port.dpsr.extractLsb' 0 32, validData := false, suppress := false } }) ∧
      (s.port.validData = false → s.port.seqErrPending = true → s.answer = { s with port := { s.port with
        txStatus := 0b01, txData := s.statusData, seqErrPending := false, suppress := true } }) ∧
      (s.port.validData = false → s.port.seqErrPending = false → s.port.cpuIntPending = true → s.dbg.inDebug = true →
        s.answer = { s with port := { s.port with
          txStatus := 0b10, txData := s.statusData, cpuIntPending := false, suppress := true } }) ∧
      (s.port.validData = false → s.port.seqErrPending = false → s.port.cpuIntPending = false ∨ s.dbg.inDebug = false →
        s.answer = { s with port := { s.port with
          txStatus := 0b11, txData := s.statusData, cpuIntPending := false, suppress := false } }) ∧
      (s.Inv → s.dbg.inDebug = false → s.answer.port.txStatus = 0b01 ∨ s.answer.port.txStatus = 0b11) ∧
      ∀ k < 32, bitOf s.statusData k = if k = 0 then s.dbg.freeze else if k = 1 then !s.port.downloadInProgress else true

/-- A suppressed transmission, of any format, in either mode for a sequencing error and in debug mode for a CPU interrupt, changes
nothing but the port's shift register, the pending
status it reported, and the wait for DSDI to fall, which is over (rule R385; the last is log entry 33). -/
def Obligations.SuppressedTransmissionIgnored : Prop :=
  ∀ (f : Frame) (s : State), s.ready = true → s.port.validData = false →
    (s.port.seqErrPending = true ∨ s.port.cpuIntPending = true ∧ s.dbg.inDebug = true) →
    ∃ t, transmit f s = .next t ∧
      t = { s with port := { s.port with
        dpsr := t.port.dpsr
        txStatus := if s.port.seqErrPending then 0b01 else 0b10
        txData := s.statusData
        suppress := true
        scanHold := false
        seqErrPending := false
        cpuIntPending := s.port.seqErrPending && s.port.cpuIntPending } }

/-- Ready: outside debug mode whenever no transmission is in progress, so at the end of each transmission; in debug mode only while
the CPU also waits for the port. DSDO shows the most significant bit of the shift register (rules R40, R98); while idle that is the
ready bit, low exactly when ready, above the other 34 bits, which stand; a transmission sent while not ready is ignored (rules R370,
R371; the last is D23). -/
def Obligations.ReadyRule : Prop :=
  ∀ s : State,
    (s.ready = true ↔ s.port.shifted = 0 ∧ (s.dbg.inDebug = true → s.port.cpuWaiting ≠ .none)) ∧
      s.dsdo = s.shiftRegister.msb ∧
      (s.port.shifted = 0 → s.dsdo = !s.ready ∧ s.shiftRegister.extractLsb' 0 34 = s.port.dpsr.extractLsb' 0 34) ∧
      (s.port.shifted ≠ 0 → s.shiftRegister = s.port.dpsr) ∧
      (s.ready = false → ∀ f, transmit f s = .next s) ∧
      (s.dbg.inDebug = false → s.ready = true →
        ∀ f, ∃ t, transmit f s = .next t ∧ t.dbg.inDebug = false ∧ t.ready = true ∧ t.dsdo = false)

/-- Shifting the bits of a transmission in, one serial clock at a time, is the transmission, 35 or 10 clocks by its mode bit (rules
R355, R356, R131, R142); and during those clocks DSDO shows the answer's bits in order: ready, the two status bits, the data
from bit 0 on (rules R140, R141, R98; the alignment is the spec's decision D26). While DSDI has stayed high since a reset the port
does not scan: clocks change nothing until DSDI is low in one (rule R543). -/
def Obligations.SerialClocksMakeTheTransmission : Prop :=
  (∀ (f : Frame) (s : State), s.ready = true → s.port.scanHold = false →
    serialRun f.bits s = transmit f s ∧ dsdoRun f.bits s = (toBits s.answer.txBits).take f.bits.length) ∧
    ∀ s : State, s.port.shifted = 0 → s.port.scanHold = true →
      serialStep true s = .next s ∧ serialStep false s = .next { s with port := { s.port with scanHold := false } }

/-! ## Register accesses -/

/-- In supervisor state these mfspr instructions complete, deliver the register with its reserved bits 0 (ICTRL and LCTRL2 with the
port's trap enables in their read-only bits), and change nothing else (rules R433, R437, R439, R443, R448, R450, R456, R458, R460,
R462, R464, R466, R468, R470; reserved bits read 0 by D13). -/
def Obligations.ReadsDeliverTheRegister : Prop :=
  ∀ (s : State) (r : Nat) (i : Instr) (v : Word), s.supervisor = true → r < 32 →
    (i, v) ∈
      [(.mfsprCmpa r, s.spr.cmpa &&& 0xFFFFFFFC), (.mfsprCmpb r, s.spr.cmpb &&& 0xFFFFFFFC),
        (.mfsprCmpc r, s.spr.cmpc &&& 0xFFFFFFFC), (.mfsprCmpd r, s.spr.cmpd &&& 0xFFFFFFFC),
        (.mfsprDer r, s.spr.der &&& 0x73E7540F), (.mfsprCmpe r, s.spr.cmpe), (.mfsprCmpf r, s.spr.cmpf),
        (.mfsprCmpg r, s.spr.cmpg), (.mfsprCmph r, s.spr.cmph), (.mfsprLctrl1 r, s.spr.lctrl1 &&& 0xFFFFFFFC),
        (.mfsprLctrl2 r, (s.spr.lctrl2 &&& 0xFFFFF803) ||| flagBit s.port.tecr.dlw0en 8 ||| flagBit s.port.tecr.dlw1en 4),
        (.mfsprIctrl r, (s.spr.ictrl &&& 0xFFFFFF0F) ||| flagBit s.port.tecr.diwp0en 0x80 |||
          flagBit s.port.tecr.diwp1en 0x40 ||| flagBit s.port.tecr.diwp2en 0x20 ||| flagBit s.port.tecr.diwp3en 0x10),
        (.mfsprBar r, s.spr.bar)] →
    ∃ t, exec i s = .next t ∧ t.reg r = v ∧ t.kept = (s.setReg r v).kept ∧ t.cpu.pc = s.nextPc ∧ t.fetching

/-- mfspr ECR in supervisor state delivers ECR and then clears it, unless debug mode is enabled and the CPU is not in it; freeze
and everything else stay (rules R433, R434, R441). -/
def Obligations.EcrReadClears : Prop :=
  ∀ (s : State) (r : Nat), s.supervisor = true → r < 32 →
    ∃ t, exec (.mfsprEcr r) s = .next t ∧ t.reg r = s.spr.ecr &&& 0x73E7540F ∧
      t.kept = State.kept { s.setReg r (s.spr.ecr &&& 0x73E7540F) with
        spr := { s.spr with ecr := if s.dbg.enable && !s.dbg.inDebug then s.spr.ecr else 0 } } ∧
      t.cpu.pc = s.nextPc ∧ t.fetching

/-- mfspr of a counter delivers the live count in bits 0:15 and the source select in bits 30:31 with zeros between, exactly if the
counter is not active, the read is synchronised by sync, or the routine that runs was entered by the expiry of that counter; else the
count bits are free. Nothing else changes (rules R452, R454, R107, R262, R263, U8). Until when a sync or an expiry counts is the
model's choice, log entry 17; that the reserved source 11 counts nothing, so
that its count reads exactly, is the model's choice of an open point, U4 (rule R260): log entry 24. -/
def Obligations.CounterReads : Prop :=
  ∀ (s : State) (r : Nat) (i : Instr) (count : Word) (expired : Bool), s.supervisor = true → r < 32 →
    (i, count, expired) ∈ [(.mfsprCounta r, s.spr.counta, s.expired.a), (.mfsprCountb r, s.spr.countb, s.expired.b)] →
    ∃ t v, exec i s = .next t ∧ t.reg r = v ∧ v &&& 0x0000FFFF = count &&& 3 ∧
      (s.countersSettled = true ∨ expired = true ∨ count &&& 3 = 0 ∨ count &&& 3 = 3 → v = count &&& 0xFFFF0003) ∧
      t.kept = (s.setReg r v).kept ∧ t.cpu.pc = s.nextPc ∧ t.fetching

/-- mfspr DPDR outside debug mode completes at once with some value: the CPU does not wait and the port is not disturbed (rules R445,
R375, U9). In debug mode it waits for data without disturbing anything, and the next data transmission completes it (rules R446,
R373). mtspr DPDR in debug mode loads the data bits of the shift register and marks them valid; the CPU does not wait: the next
fetch starts, and the next answer is the word with status 00 (rules R447, R374, R380). Outside debug mode it completes and does
nothing (rules R445, R375). -/
def Obligations.DpdrAccesses : Prop :=
  (∀ (s : State) (r : Nat), s.supervisor = true → r < 32 →
    (s.dbg.inDebug = false → ∃ t v, exec (.mfsprDpdr r) s = .next t ∧ t.reg r = v ∧ t.kept = (s.setReg r v).kept ∧
        t.port = s.port ∧ t.cpu.pc = s.cpu.pc + 4) ∧
      (s.dbg.inDebug = true → (s.port.downloadInProgress && s.port.endRequested) = false → ∀ w,
        ∃ t, exec (.mfsprDpdr r) s = .next t ∧ t.port.cpuWaiting = .data r ∧ t.kept = s.kept ∧ t.cpu.pc = s.cpu.pc ∧
          ∃ u, exec (.dpData w) t = .next u ∧ u.reg r = w ∧ u.kept = (s.setReg r w).kept ∧ u.cpu.pc = s.cpu.pc ∧
            u.fetching)) ∧
    ∀ (s : State) (r : Nat), s.supervisor = true →
      (s.dbg.inDebug = true → ∃ t, exec (.mtsprDpdr r) s = .next t ∧
        t.kept = State.kept { s with port := { s.port with
          dpsr := s.port.dpsr.extractLsb' 32 3 ++ s.reg r, validData := true } } ∧
        t.cpu.pc = s.cpu.pc ∧ t.fetching ∧ t.answer.port.txStatus = 0b00 ∧ t.answer.port.txData = s.reg r) ∧
        (s.dbg.inDebug = false →
          ∃ t, exec (.mtsprDpdr r) s = .next t ∧ t.kept = s.kept ∧ t.port = s.port ∧ t.cpu.pc = s.cpu.pc + 4)

/-- Where writes are enabled (supervisor state, and debug mode disabled or entered) these mtspr instructions complete, store the
writable bits of rS and change nothing else; a write to ECR is ignored (rules R432, R435, R438, R440, R442, R449, R451, R453,
R455, R457, R459, R461, R463, R465, R467, R471; reserved bits are not stored by D13). -/
def Obligations.WritesStoreTheWritableBits : Prop :=
  ∀ (s : State) (r : Nat) (i : Instr) (p : Sprs), s.supervisor = true → (s.dbg.enable = false ∨ s.dbg.inDebug = true) →
    (i, p) ∈
      [(.mtsprCmpa r, { s.spr with cmpa := s.reg r &&& 0xFFFFFFFC }), (.mtsprCmpb r, { s.spr with cmpb := s.reg r &&& 0xFFFFFFFC }),
        (.mtsprCmpc r, { s.spr with cmpc := s.reg r &&& 0xFFFFFFFC }), (.mtsprCmpd r, { s.spr with cmpd := s.reg r &&& 0xFFFFFFFC }),
        (.mtsprEcr r, s.spr), (.mtsprCounta r, { s.spr with counta := s.reg r &&& 0xFFFF0003 }),
        (.mtsprCountb r, { s.spr with countb := s.reg r &&& 0xFFFF0003 }), (.mtsprCmpe r, { s.spr with cmpe := s.reg r }),
        (.mtsprCmpf r, { s.spr with cmpf := s.reg r }), (.mtsprCmpg r, { s.spr with cmpg := s.reg r }),
        (.mtsprCmph r, { s.spr with cmph := s.reg r }), (.mtsprLctrl1 r, { s.spr with lctrl1 := s.reg r &&& 0xFFFFFFFC }),
        (.mtsprLctrl2 r, { s.spr with lctrl2 := s.reg r &&& 0xFFFFF803 }), (.mtsprBar r, { s.spr with bar := s.reg r })] →
    ∃ t, exec i s = .next t ∧ t.kept = State.kept { s with spr := p } ∧ t.cpu.pc = s.nextPc ∧ t.fetching

/-- In supervisor state with debug mode enabled and not entered, no mtspr has any effect: each of the seventeen completes and raises
no exception (rule R432, third row). -/
def Obligations.WritesNotPerformedOutsideDebug : Prop :=
  ∀ (s : State) (r : Nat) (i : Instr), s.supervisor = true → s.dbg.enable = true → s.dbg.inDebug = false → i ∈ sprWrites r →
    ∃ t, exec i s = .next t ∧ t.kept = s.kept ∧ t.cpu.pc = s.cpu.pc + 4

/-- mtspr DER where writes are enabled stores the implemented bits, and freeze is asserted at once if an enabled event is recorded
(rule R444). -/
def Obligations.DerWriteActsAtOnce : Prop :=
  ∀ (s : State) (r : Nat), s.supervisor = true → (s.dbg.enable = false ∨ s.dbg.inDebug = true) →
    ∃ t, exec (.mtsprDer r) s = .next t ∧
      t.kept = State.kept { s with
        spr := { s.spr with der := s.reg r &&& 0x73E7540F }
        dbg := { s.dbg with
          freeze := s.dbg.freeze || s.dbg.inDebug || (s.spr.ecr &&& (s.reg r &&& 0x73E7540F)) != 0 } } ∧
      t.cpu.pc = s.nextPc ∧ t.fetching

/-- mtspr ICTRL where writes are enabled stores all bits but 24:27, which stay the port's; ISCT_SER 100 is flagged (rule R469;
the flag is D19). Outside debug mode the first instruction after it is fetched under the old show cycle setting, however often, and
what is fetched behind it or after it starts to execute under the new (rules R109, R193; that what was fetched ahead before the
write is fetched again is the model's choice: log entry 41). -/
def Obligations.IctrlWriteAndItsDelay : Prop :=
  ∀ (s : State) (r : Nat), s.supervisor = true → (s.dbg.enable = false ∨ s.dbg.inDebug = true) →
    ∃ t, exec (.mtsprIctrl r) s = .next t ∧
      t.kept = State.kept { s with
        spr := { s.spr with ictrl := s.reg r &&& 0xFFFFFF0F }
        inflight := []
        trace := { s.trace with isctHold := true, isctActive := fieldOf s.spr.ictrl 29 3 }
        dbg := { s.dbg with
          illegalProgramming := s.dbg.illegalProgramming || fieldOf (s.reg r) 29 3 == 0b100 } } ∧
      t.cpu.pc = s.nextPc ∧ t.fetching ∧
      (s.dbg.inDebug = false → ∀ (a : WordAddr) (f : Flow) (e : InFlight),
        t.isctInForce = fieldOf s.spr.ictrl 29 3 ∧
          (t.traceFetch a f).isctInForce = fieldOf s.spr.ictrl 29 3 ∧
          State.isctInForce { t.traceFetch a f with inflight := [e] } = fieldOf (s.reg r) 29 3 ∧
          t.beginInsn.isctInForce = fieldOf (s.reg r) 29 3)

/-- In user state each of the thirty-four accesses fails: no register is read or written, ECR is not cleared, ECR[PRE] is set, and
the program exception goes to its vector or, if DER enables it, to debug mode (rules R431, R487). -/
def Obligations.UserAccessRaisesProgramException : Prop :=
  ∀ (s : State) (r : Nat) (i : Instr), s.supervisor = false → i ∈ sprAccesses r →
    ∃ t, exec i s = .next t ∧ t.cpu.gpr = s.cpu.gpr ∧ t.mem = s.mem ∧
      t.spr = { s.spr with ecr := s.spr.ecr ||| 0x00800000 } ∧
      t.port.tecr = s.port.tecr ∧ t.port.dpsr = s.port.dpsr ∧ t.port.validData = s.port.validData ∧
      (s.dbg.inDebug = false →
        if s.dbg.enable = true ∧ bitOf s.spr.der 8 = true then t.dbg.inDebug = true ∧ t.cpu.msr.pr = false
        else t.dbg.inDebug = false ∧ t.cpu.pc = vectorBase s.cpu.msr.ip + 0x0700) ∧
      (s.dbg.inDebug = true → t.dbg.inDebug = true ∧ t.cpu.srr0 = s.cpu.srr0 ∧ t.cpu.srr1 = s.cpu.srr1 ∧
        t.port.cpuIntPending = true)

/-! ## The other CPU instructions -/

/-- sync, isync and mtmsr complete in every mode; that mtmsr does so in user state too, without a privilege check, is the model's
choice: log entry 9. sync makes a read of an active counter exact and does nothing else (R107); isync
and mtmsr outside debug mode are reported as VF = 101 and the next fetch is a program trace cycle (R180); mtmsr writes the MSR
with the bits rS stands for (their positions are not in the sources: log entry 7). -/
def Obligations.SyncIsyncMtmsr : Prop :=
  ∀ (s : State) (r : Nat),
    (∃ t, exec .sync s = .next t ∧ t.kept = s.kept ∧ t.countersSettled = true ∧ t.cpu.pc = s.nextPc ∧ t.fetching) ∧
      (∃ t, exec .isync s = .next t ∧ t.kept = s.kept ∧ t.cpu.pc = s.nextPc ∧ t.fetching ∧
        (s.dbg.inDebug = false →
          t.trace.pending = s.trace.pending ++ [.indirect] ∧ vfCode .indirect = 0b101 ∧ t.trace.nextFlow = .indirect)) ∧
      (∃ t, exec (.mtmsr r) s = .next t ∧
        t.kept = State.kept { s with cpu := { s.cpu with msr := Config.msrOfWord (s.reg r) } } ∧
        t.cpu.pc = s.nextPc ∧ t.fetching ∧
        (s.dbg.inDebug = false →
          t.trace.pending = s.trace.pending ++ [.indirect] ∧ vfCode .indirect = 0b101 ∧ t.trace.nextFlow = .indirect))

/-- `stwu rS, d(rA)` of any registers and displacement, of which the table's row is `stwu r31, 4(r30)`, completes if the memory system
accepts the store: the word rS stands at rA + d, most significant byte lowest, every other byte reads as before, rA is rA + d, and
it makes one word write cycle (rules R146, R388, R95). The sign extension of d is taken from the family (log entry 13), and a word
at the top of the address space goes on at address 0 (log entry 53). -/
def Obligations.StoreWithUpdate : Prop :=
  ∀ (s : State) (rS rA : Nat) (d : BitVec 16) (a : Word), rS < 32 → rA < 32 → Memory.wf s.mem = true →
    a = s.reg rA + d.signExtend 32 → s.accessFault .write a = none →
    ∃ t, executeWord (stwuWord rS rA d) s = .next t ∧ (rS = 31 → rA = 30 → d = 4 → exec .stwu s = .next t) ∧
      t.reg rA = a ∧ Memory.readWord t.mem a = s.reg rS ∧
      t.byteAt a = byteOf (s.reg rS) 0 ∧ t.byteAt (a + 1) = byteOf (s.reg rS) 1 ∧
      t.byteAt (a + 2) = byteOf (s.reg rS) 2 ∧ t.byteAt (a + 3) = byteOf (s.reg rS) 3 ∧
      (∀ b, ¬ inWord a b → t.byteAt b = s.byteAt b) ∧
      t.kept = State.kept { s.setReg rA a with mem := t.mem, cycles := [⟨a, .word, true, s.reg rS⟩] } ∧
      t.cpu.pc = s.nextPc ∧ t.fetching

/-- A refused store is an exception inside debug mode: no register and no byte changes, ECR records the cause, ECR_OR is pulsed, SRR0
and SRR1 keep their values, and the next fetch starts (rules R315, R316, R319; which accesses are refused is an input: log entry
39; the sign extension of d is log entry 13). -/
def Obligations.RefusedStoreInDebug : Prop :=
  ∀ (s : State) (c : SyncCause) (rS rA : Nat) (d : BitVec 16), s.dbg.inDebug = true →
    rS < 32 → rA < 32 → s.accessFault .write (s.reg rA + d.signExtend 32) = some c →
    ∃ t, executeWord (stwuWord rS rA d) s = .next t ∧ (rS = 31 → rA = 30 → d = 4 → exec .stwu s = .next t) ∧
      t.cpu.gpr = s.cpu.gpr ∧ t.mem = s.mem ∧
      t.spr = { s.spr with ecr := s.spr.ecr ||| eventMask (syncEvent s.cpu.msr.me c) } ∧
      t.cpu.srr0 = s.cpu.srr0 ∧ t.cpu.srr1 = s.cpu.srr1 ∧ t.cpu.pc = s.cpu.pc ∧ t.cpu.msr = s.cpu.msr ∧
      t.out = s.out ++ [.ecrOr] ∧ t.port.cpuIntPending = true ∧ t.dbg.inDebug = true ∧ t.fetching

/-- rfi outside debug mode restores MSR from SRR1 and continues at SRR0; with debug mode disabled it negates freeze exactly if no
enabled event is recorded, and with debug mode enabled it leaves freeze alone (rules R496, R325, R326, R180). That it completes in user state too, without a
privilege check, is the model's choice, log entry 9, and so is that bits 30:31 of SRR0 stand in the pc, log entry 61. -/
def Obligations.ReturnFromHandler : Prop :=
  ∀ s : State, s.dbg.inDebug = false →
    ∃ t, exec .rfi s = .next t ∧ t.cpu.pc = s.cpu.srr0 ∧
      t.kept = State.kept { s with
        cpu := { s.cpu with msr := s.cpu.srr1.msr }
        dbg := { s.dbg with
          freeze := if s.dbg.enable then s.dbg.freeze else (s.spr.ecr &&& s.spr.der) != 0 } } ∧
      t.trace.pending = s.trace.pending ++ [.indirect] ∧ t.trace.nextFlow = .indirect

/-- rfi in debug mode with no enabled event recorded leaves it: MSR from SRR1, the next fetch at SRR0 and shown as a program trace
cycle, nothing waiting on the port, freeze negated, VFLS no longer 11, first VF report 011 if VSYNC changed in debug mode and 101 if
not (rules R320, R325, R52, R179; that any change event counts is D22), and no valid data (R375). Four clauses are the model's
choice: a CPU interrupt not yet reported stays pending (log entry 56), the 011 of a negation does not wait for program trace cycles
not yet shown (log entry 58), rfi completes with MSR[PR] = 1 too (log entry 9), and bits 30:31 of SRR0 stand in the pc (log entry
61). With an enabled event still recorded it re-enters debug mode at once, before any fetch from memory: SRR0 and SRR1 hold the
state the rfi restored, ECR is not changed, freeze stays asserted (rule R321; freeze without a pulse is D5), and what is pending on
the port stays for the next transmission (R47). -/
def Obligations.ReturnFromDebugMode : Prop :=
  ∀ s : State, s.dbg.inDebug = true →
    (s.spr.ecr &&& s.spr.der = 0 →
      ∃ t, exec .rfi s = .next t ∧ t.dbg = { s.dbg with inDebug := false, freeze := false } ∧
        t.cpu = { s.cpu with msr := s.cpu.srr1.msr, pc := s.cpu.srr0 } ∧ t.spr = s.spr ∧ t.mem = s.mem ∧
        t.port = { s.port with cpuWaiting := .none, validData := false } ∧
        t.out = s.out ++ [.vf (if s.trace.vsyncChanged then 0b011 else 0b101)] ∧
        t.trace.vsyncChanged = false ∧ t.vfls.toNat ≤ 2 ∧
        ∀ a f, (t.traceFetch a f).trace.showQueue = s.trace.showQueue ++ [⟨a, .indirect, s.trace.fetches⟩]) ∧
      (s.spr.ecr &&& s.spr.der ≠ 0 → s.dbg.enable = true → s.port.downloadInProgress = false →
        ∃ t, exec .rfi s = .next t ∧ t.dbg = { s.dbg with inDebug := true, freeze := true } ∧
          t.port = { s.port with cpuWaiting := .instruction } ∧ t.cpu.srr0 = s.cpu.srr0 ∧ t.cpu.srr1 = s.cpu.srr1 ∧ t.cpu.gpr = s.cpu.gpr ∧
          t.spr = s.spr ∧ t.mem = s.mem ∧ t.cpu.msr.pr = false ∧ t.cpu.msr.ee = false)

/-! ## Events -/

/-- The event catalogue row by row: the ECR and DER bit of each of the eighteen events, its mask, and its vector under both bases
(rules R480, R483). Check stop has no vector, and that of the data protection error is an open parameter (R492). The masks together
are the implemented bits 0x73E7540F. -/
def Obligations.EventCatalogue : Prop :=
  (∀ (e : Event) (bit : Nat) (vector : Word),
    (e, bit, vector) ∈
      [(.systemReset, 1, 0x0100), (.machineCheck, 3, 0x0200), (.instrProtection, 19, 0x1300), (.externalInterrupt, 6, 0x0500),
        (.alignment, 7, 0x0600), (.program, 8, 0x0700), (.fpUnavailable, 9, 0x0800), (.fpAssist, 15, 0x0E00),
        (.decrementer, 10, 0x0900), (.systemCall, 13, 0x0C00), (.trace, 14, 0x0D00), (.softwareEmulation, 17, 0x1000),
        (.instrBreakpoint, 29, 0x1D00), (.loadStoreBreakpoint, 28, 0x1C00), (.externalBreakpoint, 30, 0x1E00),
        (.devPortInterrupt, 31, 0x1F00)] →
    eventBit e = bit ∧ vectorAddr false e = vector ∧ vectorAddr true e = 0xFFF00000 + vector) ∧
    eventBit .checkStop = 2 ∧ eventBit .dataProtection = 21 ∧
    (∀ e, eventMask e = 0x80000000#32 >>> eventBit e) ∧
    allEvents.length = 18 ∧ (∀ e, e ∈ allEvents) ∧ (∀ e f, eventBit e = eventBit f → e = f) ∧
    allEvents.foldl (fun acc e => acc ||| eventMask e) 0 = 0x73E7540F

/-- Outside debug mode every event sets its ECR bit and nothing else of the seventeen registers, and leaves DAR and DSISR, which are
written by the instruction's own access before the event is taken (R482); then it enters debug mode exactly if debug mode is enabled and its DER bit is set, and
freeze is asserted if its DER bit is set (rules R303, R481, R324). That freeze, once asserted, stays so through the event is the
spec's decision D5, a latch (log entry 46). Where the event does not enter debug mode, check stop halts the CPU, whose registers
keep their values (R312; log entry 38), and every other event is a regular interrupt: the return state is saved, MSR[RI] is
cleared, fetching goes to the event's vector under the base MSR[IP] selects (rules R484, R483), and the trace reports an exception
taken, an indirect change of flow (R171, R172). -/
def Obligations.EventRouting : Prop :=
  ∀ (s : State) (e : Event) (a : Word) (x : Srr1), s.dbg.inDebug = false →
    (s.takeEvent e a x).spr = { s.spr with ecr := s.spr.ecr ||| eventMask e } ∧
      ((s.takeEvent e a x).dbg.inDebug = true ↔ s.dbg.enable = true ∧ bitOf s.spr.der (eventBit e) = true) ∧
      (bitOf s.spr.der (eventBit e) = true → (s.takeEvent e a x).dbg.freeze = true) ∧
      (s.dbg.freeze = true → (s.takeEvent e a x).dbg.freeze = true) ∧
      (s.takeEvent e a x).mem = s.mem ∧ (s.takeEvent e a x).cpu.gpr = s.cpu.gpr ∧
      (s.takeEvent e a x).cpu.dar = s.cpu.dar ∧ (s.takeEvent e a x).cpu.dsisr = s.cpu.dsisr ∧
      (e = .checkStop → (s.dbg.enable = false ∨ bitOf s.spr.der (eventBit e) = false) →
        (s.takeEvent e a x).dbg.checkStop = true ∧ (s.takeEvent e a x).cpu = s.cpu) ∧
      (e ≠ .checkStop → (s.dbg.enable = false ∨ bitOf s.spr.der (eventBit e) = false) →
        (s.takeEvent e a x).cpu.srr0 = a ∧ (s.takeEvent e a x).cpu.srr1 = x ∧
          (s.takeEvent e a x).cpu.msr.ri = false ∧
          (s.takeEvent e a x).cpu.pc = (if s.cpu.msr.ip then 0xFFF00000 else 0) + vectorOffset e ∧
          (s.takeEvent e a x).dbg.checkStop = s.dbg.checkStop ∧
          (s.takeEvent e a x).trace.nextFlow = .indirect ∧
          (s.takeEvent e a x).trace.pending = s.trace.pending ++ [.exception])

/-- Debug mode entry saves the return state, clears MSR[PR] and MSR[EE], asserts freeze, starts the fetch from the port, reports VF
= 100 and then shows 000 with VFLS = 11, and makes a program trace cycle visible (rules R306, R308, R177; the values saved are the
arguments: which they are for each event is log entries 8 and 43). A flush slot still due is closed first by a count of 0 to 5
(rules R173, R174; log entry 32), and types not yet reported are dropped (the model's choice: log entry 54). -/
def Obligations.DebugModeEntry : Prop :=
  ∀ (s : State) (a : Word) (x : Srr1),
    (s.enterDebug a x).dbg = { s.dbg with inDebug := true, freeze := true } ∧
      (s.enterDebug a x).cpu.srr0 = a ∧ (s.enterDebug a x).cpu.srr1 = x ∧
      (s.enterDebug a x).cpu.msr.pr = false ∧ (s.enterDebug a x).cpu.msr.ee = false ∧
      (s.enterDebug a x).cpu.gpr = s.cpu.gpr ∧ (s.enterDebug a x).cpu.pc = s.cpu.pc ∧
      (s.enterDebug a x).cpu.dar = s.cpu.dar ∧ (s.enterDebug a x).cpu.dsisr = s.cpu.dsisr ∧
      (s.enterDebug a x).spr = s.spr ∧ (s.enterDebug a x).mem = s.mem ∧ (s.enterDebug a x).fetching ∧
      (s.port.downloadInProgress = false → (s.enterDebug a x).port = { s.port with cpuWaiting := .instruction }) ∧
      (∃ slot : List Output, (s.enterDebug a x).out = s.out ++ slot ++ [.vf 0b100, .vf 0b000] ∧
        (s.trace.prevKind = .type → slot = []) ∧
        (s.trace.prevKind = .flush → ∃ n : Nat, n ≤ 5 ∧ slot = [.vf (BitVec.ofNat 3 n)])) ∧
      (s.enterDebug a x).trace.vf = 0b000 ∧ (s.enterDebug a x).trace.prevKind = .type ∧ (s.enterDebug a x).vfls = 0b11 ∧
      (s.enterDebug a x).trace.pending = [] ∧ (s.enterDebug a x).inflight = [] ∧
      ∃ c, (s.enterDebug a x).trace.showQueue.getLast? = some c ∧ c.flow = .indirect

/-- Inside debug mode an event only sets its ECR bit and pulses ECR_OR, which the port will report as a CPU interrupt: SRR0, SRR1,
MSR and the pc do not change and execution continues in debug mode (rules R315, R316, R384, R481). -/
def Obligations.EventInsideDebugMode : Prop :=
  ∀ (s : State) (e : Event) (a : Word) (x : Srr1), s.dbg.inDebug = true →
    s.takeEvent e a x =
      { s with
        spr := { s.spr with ecr := s.spr.ecr ||| eventMask e }
        port := { s.port with cpuIntPending := true }
        dbg := { s.dbg with freeze := true }
        out := s.out ++ [.ecrOr]
        outcome := .excepted }

/-- The check stop table: a machine check detected while the CPU runs, with no higher event at the boundary, by MSR[ME], the debug
mode enable latch and the two DER bits (rules R311, R312; freeze by R324). -/
def Obligations.CheckStopTable : Prop :=
  ∀ s : State, s.dbg.inDebug = false → s.dbg.checkStop = false → s.enterCondition = false → s.ir = none → s.inputs = [] →
    s.port.tecr.nmbrk = false → s.lines.nmi = false → s.lines.machineCheck = true →
    ∃ t, step s = .next t ∧
      t.spr = { s.spr with ecr := s.spr.ecr ||| (if s.cpu.msr.me then 0x10000000 else 0x20000000) } ∧
      (s.cpu.msr.me = false → (s.dbg.enable = false ∨ bitOf s.spr.der 2 = false) →
        t.dbg.checkStop = true ∧ t.dbg.inDebug = false) ∧
      (s.cpu.msr.me = true → (s.dbg.enable = false ∨ bitOf s.spr.der 3 = false) →
        t.dbg.checkStop = false ∧ t.dbg.inDebug = false ∧ t.cpu.pc = vectorBase s.cpu.msr.ip + 0x0200) ∧
      (s.cpu.msr.me = false → s.dbg.enable = true → bitOf s.spr.der 2 = true → t.dbg.inDebug = true ∧ t.dbg.checkStop = false) ∧
      (s.cpu.msr.me = true → s.dbg.enable = true → bitOf s.spr.der 3 = true → t.dbg.inDebug = true ∧ t.dbg.checkStop = false) ∧
      t.dbg.freeze = (s.dbg.freeze || (t.spr.ecr &&& t.spr.der) != 0)

/-- The non-maskable development port breakpoint is recognised at the next instruction boundary outside debug mode whatever MSR[RI]
and MSR[EE] are; taken while MSR[RI] = 0 it leaves the non-restartable flag (rules R489, R310, R497). That SRR0 holds the address of the next instruction is read
from the spec by inference: log entry 8. -/
def Obligations.NonMaskableBreakpoint : Prop :=
  ∀ s : State, s.dbg.inDebug = false → s.dbg.checkStop = false → s.enterCondition = false → s.ir = none → s.inputs = [] →
    s.port.tecr.nmbrk = true →
    ∃ t, step s = .next t ∧ t.spr = { s.spr with ecr := s.spr.ecr ||| 0x00000001 } ∧
      t.cpu.srr0 = s.cpu.pc ∧ t.cpu.gpr = s.cpu.gpr ∧ t.mem = s.mem ∧ t.port.tecr = s.port.tecr ∧
      (if s.dbg.enable = true ∧ bitOf s.spr.der 31 = true then t.dbg.inDebug = true
        else t.dbg.inDebug = false ∧ t.cpu.pc = vectorBase s.cpu.msr.ip + 0x1F00) ∧
      t.dbg.nonRestartable = (s.dbg.nonRestartable || !s.cpu.msr.ri)

/-- The order of simultaneous events is the spec's decision D2 (rules R485, R488, R480). Before an instruction, and then instead of
it: the non-maskable breakpoint, the system reset interrupt, machine check or check stop; a machine check of the instruction's own fetch
before its instruction breakpoint. After a completed one: the load/store breakpoint, the trace event of the traced instruction, the maskable external breakpoint if it is requested and MSR[RI] = 1 (BRKNOMSK
plays no part), the external interrupt and then the decrementer if MSR[EE] = 1, else nothing. The return address is the model's
inference, log entry 8; where the requests are held and looked at around an instruction is its choice, log entry 30. -/
def Obligations.EventsByOrder : Prop :=
  ∀ (s : State) (ia : WordAddr),
    (s.port.tecr.nmbrk = true → s.highEvent = some (s.takeAt .devPortInterrupt s.cpu.pc)) ∧
      (s.port.tecr.nmbrk = false → s.lines.nmi = true →
        s.highEvent = some (State.takeAt { s with lines := { s.lines with nmi := false } } .systemReset s.cpu.pc)) ∧
      (s.port.tecr.nmbrk = false → s.lines.nmi = false → s.lines.machineCheck = true →
        s.highEvent =
          some (State.takeAt { s with lines := { s.lines with machineCheck := false } }
            (if s.cpu.msr.me then .machineCheck else .checkStop) s.cpu.pc)) ∧
      (s.highEvent = none ↔ s.port.tecr.nmbrk = false ∧ s.lines.nmi = false ∧ s.lines.machineCheck = false) ∧
      (∀ u, s.dbg.inDebug = false → s.dbg.checkStop = false → s.highEvent = some u → cpuStep s = .next u) ∧
      s.afterEvents true ia = s.takeAt .loadStoreBreakpoint s.cpu.pc ∧
      (∀ e, e.fault = some .machineCheck → s.retire e = .next (s.beginInsn.takeSync .machineCheck none)) ∧
      (s.traced.insn = some ia →
        s.afterEvents false ia = State.takeAt { s with traced := { s.traced with insn := none } } .trace s.cpu.pc) ∧
      (s.traced.insn ≠ some ia → s.afterEvents false ia = s.lowEvent) ∧
      ((s.port.tecr.mbrk = true ∨ s.lines.peripheral = true) → s.cpu.msr.ri = true →
        s.lowEvent = s.takeAt .externalBreakpoint s.cpu.pc) ∧
      ((s.port.tecr.mbrk = false ∧ s.lines.peripheral = false ∨ s.cpu.msr.ri = false) → s.cpu.msr.ee = true →
        (s.lines.external = true → s.lowEvent = s.takeAt .externalInterrupt s.cpu.pc) ∧
          (s.lines.external = false → s.lines.decrementer = true →
            s.lowEvent = State.takeAt { s with lines := { s.lines with decrementer := false } } .decrementer s.cpu.pc)) ∧
      ((s.port.tecr.mbrk = false ∧ s.lines.peripheral = false ∨ s.cpu.msr.ri = false) →
        (s.cpu.msr.ee = false ∨ s.lines.external = false ∧ s.lines.decrementer = false) → s.lowEvent = s)

/-! ## Watchpoints, breakpoints, counters -/

/-- The comparators. The six compare types, on the bus value against the register value (rule R221). An L-address comparator: the
low bits below the access size are masked on both sides, and the read/write qualifier is ANDed (rules R231 to R233; both are D18).
An L-data comparator without masked bytes: the units of its size, compared as unsigned or two's complement numbers, match if all
their byte lanes are valid (rules R235, R238, R239; the sign is D25, the indexing of the indications D11); a fully masked unit never
matches (R238); of a unit masked in part the unmasked bytes are compared, in order, and the sign is used only if the top byte is one
of them (R238, D12; log entry 27). G and H are those of their fields of LCTRL1, with the byte masks of rule R237. -/
def Obligations.ComparatorEvents : Prop :=
  (∀ eq lt : Bool,
    (∀ ct : BitVec 3, ct.msb = false → compareEvent ct eq lt = false) ∧
      compareEvent 0b100 eq lt = eq ∧ compareEvent 0b101 eq lt = lt ∧
      compareEvent 0b110 eq lt = (!eq && !lt) ∧ compareEvent 0b111 eq lt = !eq) ∧
    (∀ (ct : BitVec 3) (crw : BitVec 2) (cmp : Word) (c : LsCycle),
      lAddrEvent ct crw cmp c = true ↔
        (crw = 0b10 → c.write = false) ∧ (crw = 0b11 → c.write = true) ∧
          (ct = 0b100 ∧ c.addr.toNat / sizeBytes c.size = cmp.toNat / sizeBytes c.size ∨
            ct = 0b101 ∧ c.addr.toNat / sizeBytes c.size < cmp.toNat / sizeBytes c.size ∨
            ct = 0b110 ∧ cmp.toNat / sizeBytes c.size < c.addr.toNat / sizeBytes c.size ∨
            ct = 0b111 ∧ c.addr.toNat / sizeBytes c.size ≠ cmp.toNat / sizeBytes c.size)) ∧
    (∀ (r : Sprs) (c : LsCycle) (e f : Bool),
      e = lAddrEvent (fieldOf r.lctrl1 0 3) (fieldOf r.lctrl1 12 2) r.cmpe c →
      f = lAddrEvent (fieldOf r.lctrl1 3 3) (fieldOf r.lctrl1 14 2) r.cmpf c →
      lAddrSelect r 0b00 c = e ∧ lAddrSelect r 0b01 c = f ∧ lAddrSelect r 0b10 c = (e && f) ∧
        lAddrSelect r 0b11 c = (e || f)) ∧
    (∀ (ct : BitVec 3) (signed : Bool) (cmp : Word) (c : LsCycle) (k : Nat), k < 4 →
      dataMatch ct 0b01 signed (fun _ => false) cmp c k =
          (compareEvent ct (c.data == cmp) (if signed then c.data.slt cmp else c.data.ult cmp) &&
            (validLane c 0 && validLane c 1 && validLane c 2 && validLane c 3)) ∧
        (∀ (first : Nat) (d v : BitVec 16), first = (if k < 2 then 0 else 2) →
          d = fieldOf c.data (8 * first) 16 → v = fieldOf cmp (8 * first) 16 →
          dataMatch ct 0b10 signed (fun _ => false) cmp c k =
            (compareEvent ct (d == v) (if signed then d.slt v else d.ult v) &&
              (validLane c first && validLane c (first + 1)))) ∧
        (∀ d v : Byte, d = byteOf c.data k → v = byteOf cmp k →
          dataMatch ct 0b11 signed (fun _ => false) cmp c k =
            (compareEvent ct (d == v) (if signed then d.slt v else d.ult v) && validLane c k))) ∧
    (∀ (ct : BitVec 3) (cs : BitVec 2) (signed : Bool) (mask : Nat → Bool) (cmp : Word) (c : LsCycle) (k : Nat),
      (∀ j ∈ unitOf cs k, mask j = true) → dataMatch ct cs signed mask cmp c k = false) ∧
    (∀ (ct : BitVec 3) (signed : Bool) (mask : Nat → Bool) (cmp : Word) (c : LsCycle) (k : Nat) (cs : BitVec 2) (unit live : List Nat),
      k < 4 → (cs = 0b01 ∧ unit = [0, 1, 2, 3] ∨ cs = 0b10 ∧ unit = (if k < 2 then [0, 1] else [2, 3]) ∨ cs = 0b11 ∧ unit = [k]) →
      live = unit.filter (fun j => !mask j) → live ≠ [] →
      let num := fun (v : Word) => live.foldl (fun n j => 256 * n + (byteOf v j).toNat) 0
      let top := unit.headD 0
      dataMatch ct cs signed mask cmp c k =
        (compareEvent ct (live.all fun j => byteOf c.data j == byteOf cmp j)
          (if signed && !mask top && (byteOf c.data top).msb != (byteOf cmp top).msb then (byteOf c.data top).msb
            else decide (num c.data < num cmp)) &&
          unit.all (validLane c))) ∧
    ∀ (r : Sprs) (c : LsCycle) (k : Nat),
      gMatch r c k = dataMatch (fieldOf r.lctrl1 6 3) (fieldOf r.lctrl1 16 2) (bitOf r.lctrl1 20)
          (fun j => bitOf r.lctrl1 (22 + j)) r.cmpg c k ∧
        hMatch r c k = dataMatch (fieldOf r.lctrl1 9 3) (fieldOf r.lctrl1 18 2) (bitOf r.lctrl1 21)
          (fun j => bitOf r.lctrl1 (26 + j)) r.cmph c k

/-- The instruction watchpoint table (rules R222, R223): each watchpoint by each code of its field, from the events of the
comparators on unsigned 30-bit addresses (unsigned by D8). With A and B in the types "greater than" and "less than" the AND option
detects exactly the addresses strictly between the two registers, and in the reverse types the OR option exactly those below the
first or above the second. -/
def Obligations.InstructionRangeDetection : Prop :=
  ∀ (r : Sprs) (ia : WordAddr),
    (∀ a b c d : Bool,
      a = compareEvent (fieldOf r.ictrl 0 3) (ia.toNat == r.cmpa.toNat / 4) (decide (ia.toNat < r.cmpa.toNat / 4)) →
      b = compareEvent (fieldOf r.ictrl 3 3) (ia.toNat == r.cmpb.toNat / 4) (decide (ia.toNat < r.cmpb.toNat / 4)) →
      c = compareEvent (fieldOf r.ictrl 6 3) (ia.toNat == r.cmpc.toNat / 4) (decide (ia.toNat < r.cmpc.toNat / 4)) →
      d = compareEvent (fieldOf r.ictrl 9 3) (ia.toNat == r.cmpd.toNat / 4) (decide (ia.toNat < r.cmpd.toNat / 4)) →
      (fieldOf r.ictrl 12 2 = 0b10 → (iwpOf r ia).w0 = a) ∧ (fieldOf r.ictrl 12 2 = 0b11 → (iwpOf r ia).w0 = (a && b)) ∧
        (fieldOf r.ictrl 14 2 = 0b10 → (iwpOf r ia).w1 = b) ∧ (fieldOf r.ictrl 14 2 = 0b11 → (iwpOf r ia).w1 = (a || b)) ∧
        (fieldOf r.ictrl 16 2 = 0b10 → (iwpOf r ia).w2 = c) ∧ (fieldOf r.ictrl 16 2 = 0b11 → (iwpOf r ia).w2 = (c && d)) ∧
        (fieldOf r.ictrl 18 2 = 0b10 → (iwpOf r ia).w3 = d) ∧ (fieldOf r.ictrl 18 2 = 0b11 → (iwpOf r ia).w3 = (c || d))) ∧
      (fieldOf r.ictrl 0 3 = 0b110 → fieldOf r.ictrl 3 3 = 0b101 → fieldOf r.ictrl 12 2 = 0b11 →
        ((iwpOf r ia).w0 = true ↔ r.cmpa.toNat / 4 < ia.toNat ∧ ia.toNat < r.cmpb.toNat / 4)) ∧
      (fieldOf r.ictrl 0 3 = 0b101 → fieldOf r.ictrl 3 3 = 0b110 → fieldOf r.ictrl 14 2 = 0b11 →
        ((iwpOf r ia).w1 = true ↔ ia.toNat < r.cmpa.toNat / 4 ∨ r.cmpb.toNat / 4 < ia.toNat)) ∧
      (fieldOf r.ictrl 6 3 = 0b100 → (fieldOf r.ictrl 16 2 = 0b10) →
        ((iwpOf r ia).w2 = true ↔ ia.toNat = r.cmpc.toNat / 4)) ∧
      (fieldOf r.ictrl 9 3 = 0b111 → (fieldOf r.ictrl 18 2 = 0b10) →
        ((iwpOf r ia).w3 = true ↔ ia.toNat ≠ r.cmpd.toNat / 4)) ∧
      ((fieldOf r.ictrl 12 2).msb = false → (iwpOf r ia).w0 = false) ∧
      ((fieldOf r.ictrl 14 2).msb = false → (iwpOf r ia).w1 = false) ∧
      ((fieldOf r.ictrl 16 2).msb = false → (iwpOf r ia).w2 = false) ∧
      ((fieldOf r.ictrl 18 2).msb = false → (iwpOf r ia).w3 = false)

/-- The byte watch of the first worked example, for every aligned cycle: with its register values the first load/store watchpoint
is detected exactly if the cycle covers byte address 3 and the byte there is greater than 7 and less than 0xC, whatever the size
of the access (95_test_vectors.md A1; rules R232 to R242). -/
def Obligations.ByteWatchIsExact : Prop :=
  ∀ (r : Sprs) (w : Iwp) (c : LsCycle), cycleAligned c = true →
    r.cmpe = 0x00000003 → r.cmpg = 0x00000007 → r.cmph = 0x0000000C → r.lctrl1 = 0x8350F3B8 → r.lctrl2 = 0x83400002 →
    (lwpCycle r w 0 c = true ↔
      c.addr.toNat ≤ 3 ∧ 3 < c.addr.toNat + sizeBytes c.size ∧ 7 < (byteOf c.data 3).toNat ∧ (byteOf c.data 3).toNat < 0xC)

/-- An access smaller than the compare size gives no match indication, whatever the data and the mask: byte accesses against
half-word and word units, half-word accesses against word units (rule R239). That the reserved compare size 00 gives no match is
the model's choice of an open point, U6 (rule R235): log entry 24. -/
def Obligations.SmallAccessNeverMatches : Prop :=
  ∀ (ct : BitVec 3) (cs : BitVec 2) (signed : Bool) (mask : Nat → Bool) (cmp : Word) (c : LsCycle) (k : Nat),
    cycleAligned c = true → k < 4 →
    (cs = 0b01 ∧ c.size ≠ .word ∨ cs = 0b10 ∧ c.size = .byte ∨ cs = 0b00) →
    dataMatch ct cs signed mask cmp c k = false

/-- Which cycles a load/store watchpoint sees: with its enable bit set, those that meet its instruction, L-address and L-data
conditions, each ignored if its don't-care bit is 0 (rules R242, R243; LCTRL2[0:9] for the first watchpoint, [10:19] for the second),
with the instruction watchpoint and the L-data event that the two-bit codes select (R241, R242). None that is an unaligned word or
half-word: that is the model's choice of an open point, U14 (R100 allows it), log entry 25. The watchpoint is that of the
instruction if any of its cycles has it, so with no cycle at all there is none, and with all conditions ignored it is that of exactly
the load/store instructions (R243); at most one pulse of each is reported for an instruction (R244). -/
def Obligations.LoadStoreWatchpointScope : Prop :=
  ∀ (r : Sprs) (w : Iwp),
    (∀ c : LsCycle,
      (lwpCycle r w 0 c = true ↔ bitOf r.lctrl2 0 = true ∧ c.addr.toNat % sizeBytes c.size = 0 ∧
        (bitOf r.lctrl2 3 = true → w.select (fieldOf r.lctrl2 1 2) = true) ∧
        (bitOf r.lctrl2 6 = true → lAddrSelect r (fieldOf r.lctrl2 4 2) c = true) ∧
        (bitOf r.lctrl2 9 = true → lDataSelect r (fieldOf r.lctrl2 7 2) c = true)) ∧
      (lwpCycle r w 1 c = true ↔ bitOf r.lctrl2 10 = true ∧ c.addr.toNat % sizeBytes c.size = 0 ∧
        (bitOf r.lctrl2 13 = true → w.select (fieldOf r.lctrl2 11 2) = true) ∧
        (bitOf r.lctrl2 16 = true → lAddrSelect r (fieldOf r.lctrl2 14 2) c = true) ∧
        (bitOf r.lctrl2 19 = true → lDataSelect r (fieldOf r.lctrl2 17 2) c = true)) ∧
      (lDataSelect r 0b00 c = true ↔ ∃ k < 4, gMatch r c k = true) ∧
      (lDataSelect r 0b01 c = true ↔ ∃ k < 4, hMatch r c k = true) ∧
      (lDataSelect r 0b10 c = true ↔ ∃ k < 4, gMatch r c k = true ∧ hMatch r c k = true) ∧
      (lDataSelect r 0b11 c = true ↔ ∃ k < 4, gMatch r c k = true ∨ hMatch r c k = true)) ∧
      (w.select 0b00 = w.w0 ∧ w.select 0b01 = w.w1 ∧ w.select 0b10 = w.w2 ∧ w.select 0b11 = w.w3) ∧
      (∀ x cs, lwpInsn r w x cs = true ↔ ∃ c ∈ cs, lwpCycle r w x c = true) ∧
      (bitOf r.lctrl2 0 = true → bitOf r.lctrl2 3 = false → bitOf r.lctrl2 6 = false → bitOf r.lctrl2 9 = false →
        ∀ cs : List LsCycle, (∀ c ∈ cs, cycleAligned c = true) → (lwpInsn r w 0 cs = true ↔ cs ≠ [])) ∧
      (bitOf r.lctrl2 10 = true → bitOf r.lctrl2 13 = false → bitOf r.lctrl2 16 = false → bitOf r.lctrl2 19 = false →
        ∀ cs : List LsCycle, (∀ c ∈ cs, cycleAligned c = true) → (lwpInsn r w 1 cs = true ↔ cs ≠ [])) ∧
      ∀ (s : State) (l0 l1 : Bool), s.out = [] →
        (s.reportLwp l0 l1).out.count (.watchpoint .lwp0) = l0.toNat ∧
          (s.reportLwp l0 l1).out.count (.watchpoint .lwp1) = l1.toNat

/-- An instruction breakpoint is raised exactly if MSR[RI] or BRKNOMSK is 1 and either a detected watchpoint is trap-enabled, by ICTRL
or by TECR, with IFM = 0, or a counter whose watchpoint is detected holds 1 (rules R225, R250, R252, R255, R263). It is taken
before the instruction: no general register, no byte of memory and no counter changes, SRR0 is the address of the instruction,
ECR[IBRK] is set, and the event goes to debug mode or to its vector (rules R251, R263, R484, R486, R261; where the events stand
around an instruction, a machine check of its fetch among them, is D2 and log entry 30; that bits 30:31 of the pc are ignored by
the fetch and saved in SRR0 is log entry 61). -/
def Obligations.InstructionBreakpointBefore : Prop :=
  (∀ (s : State) (w : Iwp),
    s.ibrk w = true ↔
      (s.cpu.msr.ri = true ∨ bitOf s.spr.lctrl2 20 = true) ∧
        ((w.w0 = true ∧ (bitOf s.spr.ictrl 20 = true ∨ s.port.tecr.diwp0en = true) ∨
            w.w1 = true ∧ (bitOf s.spr.ictrl 21 = true ∨ s.port.tecr.diwp1en = true) ∨
            w.w2 = true ∧ (bitOf s.spr.ictrl 22 = true ∨ s.port.tecr.diwp2en = true) ∨
            w.w3 = true ∧ (bitOf s.spr.ictrl 23 = true ∨ s.port.tecr.diwp3en = true)) ∧ bitOf s.spr.ictrl 28 = false ∨
          w.w0 = true ∧ fieldOf s.spr.counta 30 2 = 0b01 ∧ fieldOf s.spr.counta 0 16 = 1 ∨
          w.w1 = true ∧ fieldOf s.spr.countb 30 2 = 0b01 ∧ fieldOf s.spr.countb 0 16 = 1)) ∧
  ∀ s : State, s.dbg.inDebug = false → s.dbg.checkStop = false → s.enterCondition = false → s.ir = none → s.inputs = [] →
    s.inflight = [] → s.highEvent = none → s.ibrk (iwpOf s.spr s.pcWord) = true →
    s.accessFault .fetch (s.pcWord ++ (0 : BitVec 2)) ≠ some .machineCheck →
    (∀ r, decodeWord? (Memory.readWord s.mem (s.pcWord ++ (0 : BitVec 2))) ≠ some (.mtsprIctrl r)) →
    ∃ t, step s = .next t ∧ t.cpu.gpr = s.cpu.gpr ∧ t.mem = s.mem ∧ t.cpu.srr0 = s.cpu.pc ∧
      t.spr.counta = s.spr.counta ∧ t.spr.countb = s.spr.countb ∧ t.spr.ecr = s.spr.ecr ||| 0x00000004 ∧
      t.spr.der = s.spr.der ∧ t.spr.bar = s.spr.bar ∧
      (if s.dbg.enable = true ∧ bitOf s.spr.der 29 = true then t.dbg.inDebug = true
        else t.dbg.inDebug = false ∧ t.cpu.pc = vectorBase s.cpu.msr.ip + 0x1D00)

/-- Ignore first match: with IFM = 1 a recognised trap-enabled match that expires no counter is swallowed: IFM is cleared, the other
bits of ICTRL stay, and the instruction is executed as if it did not match (rule R252; the reading is D6). -/
def Obligations.IgnoreFirstMatch : Prop :=
  ∀ (s : State) (e : InFlight), s.recognized = true → s.direct e.iwp = true → s.ifm = true → s.expiryI e.iwp = false →
    e.fault ≠ some .machineCheck → (∀ r, decodeWord? e.word ≠ some (.mtsprIctrl r)) →
    s.retire e = (s.beginInsn.setIfm false).retireRun e none ∧ (s.setIfm false).ifm = false ∧
      (s.setIfm false).spr = { s.spr with ictrl := s.spr.ictrl &&& 0xFFFFFFF7 } ∧
      (s.setIfm false).ibrk e.iwp = true

/-- At the end of a completed instruction each counter is decremented once, modulo 2^16, if its selected watchpoint was detected and,
before the instruction, MSR[RI] or BRKNOMSK was 1, and else keeps its value; its source select never changes (rules R244, R255,
R260, R261; the wrap is D9; that the state before the instruction decides is read by inference: log entry 59). -/
def Obligations.CountersCountAtRetirement : Prop :=
  ∀ (s pre : State) (e : InFlight), altersCounters e.word = false →
    s.spr.counta &&& 0xFFFF0003 = s.spr.counta → s.spr.countb &&& 0xFFFF0003 = s.spr.countb →
    let t := s.retireDone pre e
    let hitA := (pre.cpu.msr.ri || bitOf pre.spr.lctrl2 20) && (cntc pre.spr.counta == 0b01 && e.iwp.w0 ||
      cntc pre.spr.counta == 0b10 && lwpInsn pre.spr e.iwp 0 s.cycles)
    let hitB := (pre.cpu.msr.ri || bitOf pre.spr.lctrl2 20) && (cntc pre.spr.countb == 0b01 && e.iwp.w1 ||
      cntc pre.spr.countb == 0b10 && lwpInsn pre.spr e.iwp 1 s.cycles)
    cntv t.spr.counta = (if hitA then cntv s.spr.counta - 1 else cntv s.spr.counta) ∧ cntc t.spr.counta = cntc s.spr.counta ∧
      cntv t.spr.countb = (if hitB then cntv s.spr.countb - 1 else cntv s.spr.countb) ∧ cntc t.spr.countb = cntc s.spr.countb

/-- A load/store breakpoint is raised exactly if MSR[RI] or BRKNOMSK is 1 and a load/store watchpoint of the instruction is
trap-enabled, by LCTRL2 or by TECR, or counted by a counter that holds 1 (rules R245, R250, R255, R263). It is taken after the
instruction: its registers and its memory stand, BAR holds the address of its first
cycle that causes the breakpoint, DAR and DSISR do not change, SRR0 is the address of the next instruction, ECR[LBRK] is set; a
counter, COUNTA or COUNTB, that expired reads zero (rules R254, R259, R263, R484, R486; the first cycle is D28; that the
state before the instruction decides is log entry 59, and that bits 30:31 of the pc stand in SRR0 is log entry 61). -/
def Obligations.LoadStoreBreakpointAfter : Prop :=
  (∀ (s : State) (w : Iwp) (cs : List LsCycle),
    s.lbrk w cs = true ↔
      (s.cpu.msr.ri = true ∨ bitOf s.spr.lctrl2 20 = true) ∧
        ((∃ c ∈ cs, lwpCycle s.spr w 0 c = true) ∧ s.causesL 0 true = true ∨
          (∃ c ∈ cs, lwpCycle s.spr w 1 c = true) ∧ s.causesL 1 true = true)) ∧
  (∀ s : State,
    (s.causesL 0 true = true ↔ bitOf s.spr.lctrl2 30 = true ∨ s.port.tecr.dlw0en = true ∨
      fieldOf s.spr.counta 30 2 = 0b10 ∧ fieldOf s.spr.counta 0 16 = 1) ∧
    (s.causesL 1 true = true ↔ bitOf s.spr.lctrl2 31 = true ∨ s.port.tecr.dlw1en = true ∨
      fieldOf s.spr.countb 30 2 = 0b10 ∧ fieldOf s.spr.countb 0 16 = 1)) ∧
  ∀ (s pre : State) (e : InFlight), s.dbg.inDebug = false → pre.lbrk e.iwp s.cycles = true →
    (s.retireDone pre e).cpu.gpr = s.cpu.gpr ∧ (s.retireDone pre e).mem = s.mem ∧
      (∃ before c after, s.cycles = before ++ c :: after ∧ (s.retireDone pre e).spr.bar = c.addr ∧
        (lwpCycle pre.spr e.iwp 0 c = true ∧ pre.causesL 0 true = true ∨
          lwpCycle pre.spr e.iwp 1 c = true ∧ pre.causesL 1 true = true) ∧
        ∀ b ∈ before,
          ¬ (lwpCycle pre.spr e.iwp 0 b = true ∧ pre.causesL 0 true = true ∨
            lwpCycle pre.spr e.iwp 1 b = true ∧ pre.causesL 1 true = true)) ∧
      (s.retireDone pre e).cpu.dar = s.cpu.dar ∧ (s.retireDone pre e).cpu.dsisr = s.cpu.dsisr ∧
      (s.retireDone pre e).cpu.srr0 = s.cpu.pc ∧ (s.retireDone pre e).spr.ecr = s.spr.ecr ||| 0x00000008 ∧
      (altersCounters e.word = false → cntc pre.spr.counta = 0b10 → cntv s.spr.counta = 1 → cntv pre.spr.counta = 1 →
        lwpInsn pre.spr e.iwp 0 s.cycles = true → cntv (s.retireDone pre e).spr.counta = 0) ∧
      (altersCounters e.word = false → cntc pre.spr.countb = 0b10 → cntv s.spr.countb = 1 → cntv pre.spr.countb = 1 →
        lwpInsn pre.spr e.iwp 1 s.cycles = true → cntv (s.retireDone pre e).spr.countb = 0)

/-- Masked mode: while MSR[RI] = 0 and BRKNOMSK = 0 no internal breakpoint is raised and no counter counts, but every watchpoint is
reported on its pin when the instruction completes (rule R255; that the state before the instruction decides is log entry 59). -/
def Obligations.MaskedModeLosesBreakpoints : Prop :=
  ∀ (s pre : State) (e : InFlight), pre.cpu.msr.ri = false → bitOf pre.spr.lctrl2 20 = false →
    pre.ibrk e.iwp = false ∧ pre.lbrk e.iwp s.cycles = false ∧
      (s.retireDone pre e).spr.counta = s.spr.counta ∧ (s.retireDone pre e).spr.countb = s.spr.countb ∧
      (s.retireDone pre e).spr.bar = s.spr.bar ∧
      (e.iwp.w0 = true → .watchpoint .iwp0 ∈ (s.retireDone pre e).out) ∧
      (e.iwp.w1 = true → .watchpoint .iwp1 ∈ (s.retireDone pre e).out) ∧
      (e.iwp.w2 = true → .watchpoint .iwp2 ∈ (s.retireDone pre e).out) ∧
      (e.iwp.w3 = true → .watchpoint .iwp3 ∈ (s.retireDone pre e).out) ∧
      (lwpInsn pre.spr e.iwp 0 s.cycles = true → .watchpoint .lwp0 ∈ (s.retireDone pre e).out) ∧
      (lwpInsn pre.spr e.iwp 1 s.cycles = true → .watchpoint .lwp1 ∈ (s.retireDone pre e).out)

/-- In debug mode no step pulses a watchpoint pin, and unless the delivered word is an mtspr to them, or the event is a reset, the
counters and ICTRL with its IFM bit keep their values (rule R256). -/
def Obligations.NoWatchpointsInDebugMode : Prop :=
  ∀ s t : State, s.dbg.inDebug = true → s.noReset → step s = .next t →
    (∀ w, .watchpoint w ∉ t.out) ∧
      ((∀ w i r, s.ir = some w → decodeWord? w = some i → i ≠ .mtsprCounta r ∧ i ≠ .mtsprCountb r ∧ i ≠ .mtsprIctrl r) →
        t.spr.counta = s.spr.counta ∧ t.spr.countb = s.spr.countb ∧ t.spr.ictrl = s.spr.ictrl)

/-! ## What a step runs -/

/-- A step runs the decoded instruction. When the CPU runs with nothing pending, the word in memory at the pc decodes to `i`, its
fetch is not refused and it raises no instruction breakpoint nor uses up IFM, step is exec of `i` on the machine that has made the
fetch and begun the instruction, followed, if the instruction completed, by the retirement of the instruction with the watchpoints of its fetch (counting,
reporting, load/store breakpoint, the later events). That with no input left a step is a CPU step is the model's, log
entry 14, and so is that the fetch ignores bits 30:31 of the pc, log entry 61. -/
def Obligations.StepRunsTheFetchedInstruction : Prop :=
  ∀ (s : State) (i : Instr), s.dbg.inDebug = false → s.dbg.checkStop = false → s.enterCondition = false → s.ir = none →
    s.inputs = [] → s.inflight = [] → s.highEvent = none → s.accessFault .fetch (s.pcWord ++ (0 : BitVec 2)) = none →
    decodeWord? (Memory.readWord s.mem (s.pcWord ++ (0 : BitVec 2))) = some i →
    (s.recognized = false ∨ s.direct (iwpOf s.spr s.pcWord) = false ∧ s.expiryI (iwpOf s.spr s.pcWord) = false) →
    i.WellFormed ∧
    step s =
      match exec i { (State.traceFetch { s with out := [] } s.pcWord .sequential).beginInsn with cycles := [] } with
      | .next t =>
        .next
          (if t.outcome = .completed then
            t.retireDone (State.traceFetch { s with out := [] } s.pcWord .sequential).beginInsn
              ⟨s.pcWord, Memory.readWord s.mem (s.pcWord ++ (0 : BitVec 2)), iwpOf s.spr s.pcWord, none,
                joinFlow s.trace.nextFlow .sequential, s.trace.fetches⟩
          else t)
      | .fault r => .fault r
      | .refused r => .refused r

/-- A step runs what the port brings. A delivered word: in debug mode, with no event recognised at the start of the step, and with no
event of the environment or at the CPU's own event, step is exec of the decoded instruction; then the trace event of a traced
instruction that has completed is taken, inside debug mode too (R315, R480), and if the instruction leaves debug mode, a request
still asserted is recognised at once (rules R372, R367). A transmission that is the next input: while the port is not ready it is
ignored, also before a delivered word (rule R371 by D23); else the port answers and shifts, and unless the answer suppresses it the
decoded frame is executed, with what follows the instruction whose wait for data it has ended (rules R355, R385). How the trace event is bound to an
instruction is the model's choice, log entry 30, and so is which event comes before a delivered word, log entry 14. -/
def Obligations.StepRunsWhatThePortBrings : Prop :=
  (∀ (s : State) (w : Word) (i : Instr) (rest : List Input), s.dbg.inDebug = true → s.ir = some w → decodeWord? w = some i →
    s.lines.nmi = false → s.lines.machineCheck = false → s.cpu.msr.ee = false →
    (s.inputs = .cpuStep :: rest ∨ s.inputs = [] ∧ rest = []) →
    i.WellFormed ∧
      step s =
        match exec i { State.beginInsn { s with out := [], ir := none, inputs := rest } with cycles := [] } with
        | .next t =>
          .next
            (if t.outcome = .stalled then t
            else if t.outcome = .excepted then t.endDelivered
            else if t.dbg.inDebug = true then t.deliveredTraceOr id
            else ((t.highEvent).map State.endDelivered).getD (t.deliveredTraceOr State.lowEvent))
        | .fault r => .fault r
        | .refused r => .refused r) ∧
    (∀ (s : State) (other : State → State),
      s.endDelivered = { s with traced := { s.traced with delivered := false } } ∧
        (s.traced.delivered = true → s.deliveredTraceOr other = s.endDelivered.takeAt .trace s.cpu.pc) ∧
        (s.traced.delivered = false → s.deliveredTraceOr other = other s.endDelivered)) ∧
    ∀ (s : State) (f : Frame) (rest : List Input), s.enterCondition = false → s.inputs = .frame f :: rest →
      (s.dbg.inDebug = true → s.lines.nmi = false ∧ s.lines.machineCheck = false ∧ s.cpu.msr.ee = false) →
      (s.ready = false → step s = .next { s with out := [], inputs := rest }) ∧ (s.ready = true → step s =
        if s.port.validData = false ∧ (s.port.seqErrPending = true ∨ s.port.cpuIntPending = true ∧ s.dbg.inDebug = true) then
          .next (State.exchange { s with out := [], inputs := rest } f)
        else
          match exec (decodeFrame f) (State.exchange { s with out := [], inputs := rest } f) with
          | .next t => .next (if s.waitsForData = true ∧ t.waitsForData = false then t.afterPort else t)
          | .fault r => .fault r
          | .refused r => .refused r)

/-- In the check stop state nothing of the CPU moves until a reset: a CPU step or a fetch that the environment delivers changes
nothing but the list of inputs, and with no input left the machine stops (rule R312; that the development port still listens, and
the stop itself, are the model's choice: log entry 38). -/
def Obligations.CheckStopHaltsTheCpu : Prop :=
  ∀ s : State, s.dbg.checkStop = true → s.dbg.inDebug = false → s.enterCondition = false → s.ir = none →
    (s.inputs = [] → step s = .fault .checkStopped) ∧
      (∀ rest, s.inputs = .cpuStep :: rest → step s = .next { s with out := [], inputs := rest }) ∧
      ∀ a f rest, s.inputs = .fetch a f :: rest → step s = .next { s with out := [], inputs := rest }

/-! ## Invariants and rules of the whole machine -/

/-- The invariant holds right after reset (the values the spec does not give are the model's choice: log entries 2 to 5). -/
def Obligations.InvariantAtReset : Prop := State.reset.Inv

/-- Every step keeps the invariant: memory stays canonical, reserved register bits stay 0, debug mode exists only when enabled and
with freeze asserted and VF = 000, outside it no read of the port and no valid data is pending, freeze is asserted while an enabled event
is recorded, the ISCT_SER setting in force follows ICTRL, and a partial transmission stays shorter than 35 bits (rules R43, R48,
R109, R177, R324, R356, R375, R435; reserved bits by D13; the canonical form of memory is the model's: log entry 5). -/
def Obligations.EveryStepKeepsTheInvariant : Prop := ∀ s t : State, s.Inv → step s = .next t → t.Inv

/-- With debug mode enabled, code that runs outside debug mode cannot reprogram the debug support: no step but a reset changes DER, a
comparator, LCTRL1, LCTRL2, a counter's source select, or any bit of ICTRL but IFM (rules R302, R432, R444, R499). -/
def Obligations.RunningCodeCannotReprogram : Prop :=
  ∀ s t : State, s.dbg.enable = true → s.dbg.inDebug = false → s.noReset → step s = .next t →
    t.spr.der = s.spr.der ∧ t.spr.cmpa = s.spr.cmpa ∧ t.spr.cmpb = s.spr.cmpb ∧ t.spr.cmpc = s.spr.cmpc ∧
      t.spr.cmpd = s.spr.cmpd ∧ t.spr.cmpe = s.spr.cmpe ∧ t.spr.cmpf = s.spr.cmpf ∧ t.spr.cmpg = s.spr.cmpg ∧
      t.spr.cmph = s.spr.cmph ∧ t.spr.lctrl1 = s.spr.lctrl1 ∧ t.spr.lctrl2 = s.spr.lctrl2 ∧
      t.spr.ictrl &&& 0xFFFFFFF7 = s.spr.ictrl &&& 0xFFFFFFF7 ∧
      cntc t.spr.counta = cntc s.spr.counta ∧ cntc t.spr.countb = cntc s.spr.countb

/-- The debug mode enable latch and the clock mode are constant between resets, and a reset loads them from the pins sampled three
clocks before and eight clocks after the release of SRESET; while the latch is 0 the CPU never enters debug mode (rules R42, R45,
R300, R301, R541). -/
def Obligations.LatchesConstantBetweenResets : Prop :=
  (∀ s t : State, s.noReset → step s = .next t →
    t.dbg.enable = s.dbg.enable ∧ t.port.clockMode = s.port.clockMode ∧
      (s.dbg.enable = false → s.dbg.inDebug = false → t.dbg.inDebug = false)) ∧
    ∀ (s : State) (p : ResetPins),
      (s.applyReset p).dbg.enable = p.dsckAtMinus3 ∧
        ((s.applyReset p).port.clockMode = if p.dsdiAt8 then .syncSelfClock else .async) ∧
        (p.dsckAtMinus3 = false → (s.applyReset p).dbg.inDebug = false)

/-- Only `mfspr ECR` clears a bit of ECR, only DP.TE and DP.BRK change TECR, and only stwu, the store of the download loop, changes
memory, of all the rows of the opcode table (rules R33, R354, R481). -/
def Obligations.WhoChangesWhat : Prop :=
  ∀ (i : Instr) (s t : State), exec i s = .next t →
    ((∀ r, i ≠ .mfsprEcr r) → s.spr.ecr &&& t.spr.ecr = s.spr.ecr) ∧
      ((∀ a b c d e f g, i ≠ .dpTe a b c d e f g) → (∀ a b, i ≠ .dpBrk a b) → t.port.tecr = s.port.tecr) ∧
      (i ≠ .stwu → t.mem = s.mem)

/-- A step whose next event is a reset applies it, whatever is in progress: a transmission, a download, debug mode (rule R546). After it, from any state: the registers of the reset table have their values and the others keep theirs, TECR and the port's
status are clear, and debug mode is entered, with ECR[DPI] set, exactly if DSCK was asserted at both samples; else the CPU goes to the
reset vector under the base the environment's MSR[IP] selects (rules R545, R60, R541 to R543, R546, R9, R483; the values the sources do not print are D4's, and what a reset keeps of the port's shift register, memory and
the CPU is the model's choice: log entry 42). -/
def Obligations.ResetState : Prop :=
  (∀ (s : State) (p : ResetPins) (rest : List Input), s.inputs = .reset p :: rest →
    step s = .next (State.applyReset { s with out := [], inputs := rest } p)) ∧
    ∀ (s : State) (p : ResetPins),
      let t := s.applyReset p
      t.spr = { s.spr with
          ictrl := 0, lctrl1 := 0, lctrl2 := 0, der := 0x2002000F
          ecr := if p.dsckAtMinus3 && p.dsckAt7 then 1 else 0
          counta := s.spr.counta &&& 0xFFFF0000, countb := s.spr.countb &&& 0xFFFF0000 } ∧
        t.dbg.inDebug = (p.dsckAtMinus3 && p.dsckAt7) ∧ t.dbg.freeze = t.dbg.inDebug ∧ t.dbg.enable = p.dsckAtMinus3 ∧
        t.port = { State.reset.port with
          dpsr := s.port.dpsr
          clockMode := if p.dsdiAt8 then .syncSelfClock else .async
          scanHold := p.dsdiAt16
          cpuWaiting := if p.dsckAtMinus3 && p.dsckAt7 then .instruction else .none } ∧
        (t.dbg.inDebug = false →
          t.cpu.pc = (if p.ip then 0xFFF00000 else 0) + 0x0100 ∧ t.cpu.msr.ip = p.ip) ∧ t.mem = s.mem ∧
        t.cpu.gpr = s.cpu.gpr ∧ ∀ ia, iwpOf t.spr ia = ⟨false, false, false, false⟩

/-! ## Program trace -/

/-- The recorder never loses the slots: the VF values a step reports, read by rule R174 from the kind of slot before the step, leave
the kind of slot the machine has after it (rules R172 to R174, R176 to R179; which reports a step makes when several are due
is the model's choice: D31, log entries 15 and 32). -/
def Obligations.RecorderFollowsTheSlots : Prop :=
  ∀ s t : State, s.Inv → s.noReset → step s = .next t →
    slotAfterAll s.trace.prevKind (vfReports t.out) = t.trace.prevKind

/-- Outside debug mode a VSYNC change is reported in a clock with nothing else to report, in a type slot whose predecessor on the pins
was 000, 001 or 010, and for a negation when every program trace cycle has been fetched and shown; after another value 000 comes
first. A report is made in no other clock; it uses up the change, and the next fetch is then an indirect one shown in every setting
(rules R178, R181, D31). Two clauses are the model's choice: that the report of a negation also waits for an indirect target that is
due to be fetched, log entry 57, and that nothing is in flight after a report, so that what was fetched ahead is fetched again, log
entry 40 (the rule only says that the machine synchronizes). -/
def Obligations.VsyncReportPlacement : Prop :=
  ∀ (s : State) (r : ClockReport) (q : Fin 6) (h : Fin 3), s.dbg.inDebug = false → s.trace.vsyncChanged = true →
    (s.trace.prevKind = .type → (r = .stall ∨ r = .next ∨ r = .given .none) → s.trace.pending = [] →
      (s.port.tecr.vsync = false →
        (∀ c ∈ s.trace.showQueue, c.flow ≠ .indirect) ∧
          (s.trace.nextFlow = .indirect → ∃ e rest, s.inflight = e :: rest ∧ s.usable e = true)) →
      if s.trace.vf.toNat ≤ 2 then (s.clock r q h).trace.vsyncChanged = false ∧ (s.clock r q h).trace.vf = 0b011
      else (s.clock r q h).trace.vsyncChanged = true ∧ (s.clock r q h).trace.vf = 0b000 ∧ (s.clock r q h).trace.prevKind = .type) ∧
    ((s.clock r q h).trace.vsyncChanged = false →
      s.trace.prevKind = .type ∧ s.trace.vf.toNat ≤ 2 ∧ s.trace.pending = [] ∧ (s.clock r q h).trace.vf = 0b011 ∧
      (s.clock r q h).out = s.out ++ [.vf 0b011] ∧
      (s.port.tecr.vsync = false →
        (∀ c ∈ s.trace.showQueue, c.flow ≠ .indirect) ∧
          (s.trace.nextFlow = .indirect → ∃ e rest, s.inflight = e :: rest ∧ s.usable e = true)) ∧
      (s.clock r q h).inflight = [] ∧
      ∀ a f, ((s.clock r q h).traceFetch a f).trace.showQueue = s.trace.showQueue ++ [⟨a, .indirect, s.trace.fetches⟩])

/-- Show cycles. Which fetches are shown by ISCTL and VSYNC (rules R191, R192; code 100 shows what 000 shows by D19): exactly those
wait for the external bus, with their class, and nothing else changes (R182); with nothing fetched ahead a fetch takes the class and
the visibility due to the next instruction (R171, R178). VSYNC is the TECR bit, effective at the next event (R10, D1). The SIU makes them in their order, marking the program trace cycles (R187). -/
def Obligations.ShowCycles : Prop :=
  (∀ (ser : BitVec 1) (vsync : Bool) (f : Flow),
    shownFetch (ser ++ 0b00#2) vsync f = true ∧ (shownFetch (ser ++ 0b01#2) vsync f = true ↔ f = .direct ∨ f = .indirect) ∧
      (shownFetch (ser ++ 0b10#2) vsync f = true ↔ f = .indirect) ∧
      (shownFetch (ser ++ 0b11#2) vsync f = true ↔ vsync = true ∧ f = .indirect)) ∧
    (∀ (s : State) (ia : WordAddr) (f c : Flow),
      (s.inflight ≠ [] → c = f) → (s.inflight = [] → c = joinFlow s.trace.nextFlow f) →
      (s.inflight = [] ∧ s.trace.nextVisible = true ∨ shownFetch s.isctInForce s.port.tecr.vsync c = true →
        s.traceFetch ia f = { s with trace := { s.trace with
          fetches := s.trace.fetches + 1, showQueue := s.trace.showQueue ++ [⟨ia, c, s.trace.fetches⟩] } }) ∧
      ((s.inflight ≠ [] ∨ s.trace.nextVisible = false) → shownFetch s.isctInForce s.port.tecr.vsync c = false →
        s.traceFetch ia f = { s with trace := { s.trace with fetches := s.trace.fetches + 1 } })) ∧
    (∀ s : State,
      (s.inflight ≠ [] ∨ s.trace.isctHold = false → s.isctInForce = fieldOf s.spr.ictrl 29 3) ∧
      (s.serialized = true ↔ s.isctInForce.msb = false ∨ s.isctInForce = 0b100)) ∧
    (∀ f, joinFlow .sequential f = f ∧ joinFlow .indirect f = .indirect ∧ joinFlow f .indirect = .indirect ∧
      joinFlow .direct .sequential = .direct) ∧
    ∀ (s : State) (c : ShowCycle) (rest : List ShowCycle),
      (s.trace.showQueue = c :: rest →
        s.busGrant = { s with trace := { s.trace with showQueue := rest }, out := s.out ++ [.showCycle c.addr (decide (c.flow = .indirect))] }) ∧
        (s.trace.showQueue = [] → s.busGrant = s)

/-- In debug mode, from a start with nothing pending, a fast download of some words sends one data transmission a word, when the port is ready: three steps a
word, the transmission and two of the CPU, the last word answered with the null status, the words stored one after another from r30 + 4 on, r30 left at the last address
and r31 at the last word (rules R388, R389; that a word is three steps is the model's: log entry 14). -/
def Obligations.FastDownload : Prop :=
  ∀ (ws : List Word) (s : State), s.Inv → s.supervisor = true → s.dbg.inDebug = true → s.lines = ⟨false, false, false, false, false⟩ →
    s.cpu.msr.ee = false → s.faultMap = [] → s.traced.delivered = false → s.ir = none → s.port.shifted = 0 →
    s.port.validData = false → s.port.seqErrPending = false → s.port.cpuIntPending = false →
    s.port.downloadInProgress = true → s.port.endRequested = false → s.port.downloadStore = true →
    s.port.cpuWaiting = .data 31 → 
    s.inputs = ws.flatMap (fun w => [.frame (.long true w), .cpuStep, .cpuStep]) →
    ∃ t : State, Sys2Proof.core.run (3 * ws.length) s = .next t ∧
      t.reg 30 = s.reg 30 + 4 * BitVec.ofNat 32 ws.length ∧
      t.mem = (ws.zipIdx.foldl (fun m p => Memory.writeWord m (s.reg 30 + 4 + 4 * BitVec.ofNat 32 p.2) p.1) s.mem) ∧
      t.reg 31 = ws.getLastD (s.reg 31) ∧ t.spr = s.spr ∧ t.dbg = s.dbg ∧ t.inputs = [] ∧ t.ir = none ∧
      t.port.cpuWaiting = .data 31 ∧ t.port.downloadInProgress = true ∧
      (ws ≠ [] → t.port.txStatus = 0b11 ∧ t.port.txData = 0xBFFFFFFF)
end

