-- ==== Sys2Proof/Laws/Encoding.lean ====
section
/-! SUPPORT. The laws of the bit strings: lengths, reading back the bits of a value, and the words of
stwu. -/

namespace Sys2Proof

@[simp] theorem toBits_length {n : Nat} (x : BitVec n) : (toBits x).length = n := by simp [toBits]

@[simp] theorem Frame.bits_short_length (c : Bool) (d : BitVec 7) : (Frame.short c d).bits.length = 10 := by
  simp [Frame.bits]

@[simp] theorem Frame.bits_long_length (c : Bool) (d : Word) : (Frame.long c d).bits.length = 35 := by
  simp [Frame.bits]

/-- One more bit at the low end. -/
theorem natOfBits_append_one (l : List Bool) (b : Bool) : natOfBits (l ++ [b]) = 2 * natOfBits l + b.toNat := by
  simp [natOfBits, List.foldl_append]

/-- The number formed by the bits of a value is the value. -/
theorem natOfBits_toBits {n : Nat} (x : BitVec n) : natOfBits (toBits x) = x.toNat := by
  have key : ∀ k, k ≤ n → natOfBits ((List.range k).map fun i => x.getMsbD i) = x.toNat / 2 ^ (n - k) := by
    intro k
    induction k with
    | zero =>
      intro _
      simp [natOfBits, Nat.div_eq_of_lt x.isLt]
    | succ k ih =>
      intro hk
      rw [List.range_succ, List.map_append, List.map_singleton, natOfBits_append_one, ih (by omega)]
      have e : n - k = n - (k + 1) + 1 := by omega
      have hb : (x.getMsbD k).toNat = x.toNat / 2 ^ (n - (k + 1)) % 2 := by
        have : x.getMsbD k = x.getLsbD (n - (k + 1)) := by
          rw [BitVec.getMsbD_eq_getLsbD]
          have : n - 1 - k = n - (k + 1) := by omega
          simp [show k < n by omega, this]
        rw [this, BitVec.getLsbD, Nat.testBit_eq_decide_div_mod_eq]
        rcases Nat.mod_two_eq_zero_or_one (x.toNat / 2 ^ (n - (k + 1))) with h | h <;> simp [h]
      rw [e, Nat.pow_succ, ← Nat.div_div_eq_div_mul, hb]
      omega
  have := key n (Nat.le_refl n)
  simpa [toBits] using this

/-- The bits of a value read back. -/
@[simp] theorem ofBits_toBits {n : Nat} (x : BitVec n) : ofBits n (toBits x) = x := by
  simp [ofBits, natOfBits_toBits]

/-- A short transmission is read back from its bits, with whatever follows left over (rules R130, R131). -/
theorem readFrame_short (c : Bool) (d : BitVec 7) (rest : List Bool) :
    readFrame ((Frame.short c d).bits ++ rest) = .ok (.short c d, rest) := by
  have h : ((toBits d) ++ rest).length ≥ 7 := by simp
  have h1 : (toBits d ++ rest).take 7 = toBits d := by simp
  have h2 : (toBits d ++ rest).drop 7 = rest := by simp
  simp only [Frame.bits, List.cons_append, readFrame, h1, h2, ofBits_toBits]
  simp

/-- A long transmission is read back from its bits. -/
theorem readFrame_long (c : Bool) (d : Word) (rest : List Bool) :
    readFrame ((Frame.long c d).bits ++ rest) = .ok (.long c d, rest) := by
  have h1 : (toBits d ++ rest).take 32 = toBits d := by simp
  have h2 : (toBits d ++ rest).drop 32 = rest := by simp
  simp only [Frame.bits, List.cons_append, readFrame, h1, h2, ofBits_toBits]
  simp

/-- Every transmission is read back from its bits. -/
theorem readFrame_bits (f : Frame) (rest : List Bool) : readFrame (f.bits ++ rest) = .ok (f, rest) := by
  cases f with
  | short c d => exact readFrame_short c d rest
  | long c d => exact readFrame_long c d rest

/-- The value of a word of stwu (rule R146). -/
theorem stwuWord_toNat (rS rA : Nat) (d : BitVec 16) (hS : rS < 32) (hA : rA < 32) :
    (stwuWord rS rA d).toNat = 37 * 2 ^ 26 + rS * 2 ^ 21 + rA * 2 ^ 16 + d.toNat := by
  have := d.isLt
  rw [stwuWord, BitVec.toNat_ofNat, Nat.mod_eq_of_lt (by omega)]

/-- The fields of a word of stwu are those it was made of. -/
theorem stwuFields?_stwuWord (rS rA : Nat) (d : BitVec 16) (hS : rS < 32) (hA : rA < 32) :
    stwuFields? (stwuWord rS rA d) = some (rS, rA, d) := by
  have hd := d.isLt
  have e := stwuWord_toNat rS rA d hS hA
  simp only [stwuFields?, e]
  rw [if_pos (by omega)]
  refine congrArg some (Prod.ext ?_ (Prod.ext ?_ ?_))
  · simp only; omega
  · simp only; omega
  · apply BitVec.eq_of_toNat_eq
    simp only [BitVec.toNat_ofNat]; omega

/-- Of the words of stwu only that of the download loop is a row of the table. -/
theorem decodeWord?_stwuWord (rS rA : Nat) (d : BitVec 16) (hS : rS < 32) (hA : rA < 32) :
    decodeWord? (stwuWord rS rA d) = if rS = 31 ∧ rA = 30 ∧ d = 4 then some .stwu else none := by
  have hd := d.isLt
  have hd4 : d = 4 ↔ d.toNat = 4 := by rw [← BitVec.toNat_inj]; rfl
  have e := stwuWord_toNat rS rA d hS hA
  rw [decodeWord?]
  generalize (stwuWord rS rA d).toNat = n at e
  rw [if_neg (show ¬ n = 0x4C000064 by omega), if_neg (show ¬ n = 0x7C0004AC by omega),
    if_neg (show ¬ n = 0x4C00012C by omega), if_neg (show ¬ n / 2 ^ 26 = 31 by omega)]
  exact if_congr (by rw [hd4]; omega) rfl rfl

end Sys2Proof
end

