-- ==== Sys2Proof/Laws/State.lean ====
section
/-! SUPPORT. One lemma per field that an update or a shared operation leaves alone, so that no later proof unfolds a record
update: every lemma says that the field reads as before. -/

namespace Sys2Proof.Machine

/-! ### setReg -/

@[simp] theorem State.setReg_cpu_pc (s : State) (n : Nat) (v : Word) : (s.setReg n v).cpu.pc = s.cpu.pc := rfl
@[simp] theorem State.setReg_cpu_msr (s : State) (n : Nat) (v : Word) : (s.setReg n v).cpu.msr = s.cpu.msr := rfl
@[simp] theorem State.setReg_cpu_srr0 (s : State) (n : Nat) (v : Word) : (s.setReg n v).cpu.srr0 = s.cpu.srr0 := rfl
@[simp] theorem State.setReg_cpu_srr1 (s : State) (n : Nat) (v : Word) : (s.setReg n v).cpu.srr1 = s.cpu.srr1 := rfl
@[simp] theorem State.setReg_cpu_dar (s : State) (n : Nat) (v : Word) : (s.setReg n v).cpu.dar = s.cpu.dar := rfl
@[simp] theorem State.setReg_cpu_dsisr (s : State) (n : Nat) (v : Word) : (s.setReg n v).cpu.dsisr = s.cpu.dsisr := rfl
@[simp] theorem State.setReg_spr (s : State) (n : Nat) (v : Word) : (s.setReg n v).spr = s.spr := rfl
@[simp] theorem State.setReg_port (s : State) (n : Nat) (v : Word) : (s.setReg n v).port = s.port := rfl
@[simp] theorem State.setReg_dbg (s : State) (n : Nat) (v : Word) : (s.setReg n v).dbg = s.dbg := rfl
@[simp] theorem State.setReg_trace (s : State) (n : Nat) (v : Word) : (s.setReg n v).trace = s.trace := rfl
@[simp] theorem State.setReg_lines (s : State) (n : Nat) (v : Word) : (s.setReg n v).lines = s.lines := rfl
@[simp] theorem State.setReg_ir (s : State) (n : Nat) (v : Word) : (s.setReg n v).ir = s.ir := rfl
@[simp] theorem State.setReg_inflight (s : State) (n : Nat) (v : Word) : (s.setReg n v).inflight = s.inflight := rfl
@[simp] theorem State.setReg_cycles (s : State) (n : Nat) (v : Word) : (s.setReg n v).cycles = s.cycles := rfl
@[simp] theorem State.setReg_outcome (s : State) (n : Nat) (v : Word) : (s.setReg n v).outcome = s.outcome := rfl
@[simp] theorem State.setReg_traced (s : State) (n : Nat) (v : Word) : (s.setReg n v).traced = s.traced := rfl
@[simp] theorem State.setReg_countersSettled (s : State) (n : Nat) (v : Word) : (s.setReg n v).countersSettled = s.countersSettled := rfl
@[simp] theorem State.setReg_expired (s : State) (n : Nat) (v : Word) : (s.setReg n v).expired = s.expired := rfl
@[simp] theorem State.setReg_oracle (s : State) (n : Nat) (v : Word) : (s.setReg n v).oracle = s.oracle := rfl
@[simp] theorem State.setReg_faultMap (s : State) (n : Nat) (v : Word) : (s.setReg n v).faultMap = s.faultMap := rfl
@[simp] theorem State.setReg_mem (s : State) (n : Nat) (v : Word) : (s.setReg n v).mem = s.mem := rfl
@[simp] theorem State.setReg_inputs (s : State) (n : Nat) (v : Word) : (s.setReg n v).inputs = s.inputs := rfl
@[simp] theorem State.setReg_out (s : State) (n : Nat) (v : Word) : (s.setReg n v).out = s.out := rfl
@[simp] theorem State.setReg_draws (s : State) (n : Nat) (v : Word) : (s.setReg n v).draws = s.draws := rfl

/-! ### setIfm -/

@[simp] theorem State.setIfm_cpu (s : State) (b : Bool) : (s.setIfm b).cpu = s.cpu := rfl
@[simp] theorem State.setIfm_spr_cmpa (s : State) (b : Bool) : (s.setIfm b).spr.cmpa = s.spr.cmpa := rfl
@[simp] theorem State.setIfm_spr_cmpb (s : State) (b : Bool) : (s.setIfm b).spr.cmpb = s.spr.cmpb := rfl
@[simp] theorem State.setIfm_spr_cmpc (s : State) (b : Bool) : (s.setIfm b).spr.cmpc = s.spr.cmpc := rfl
@[simp] theorem State.setIfm_spr_cmpd (s : State) (b : Bool) : (s.setIfm b).spr.cmpd = s.spr.cmpd := rfl
@[simp] theorem State.setIfm_spr_cmpe (s : State) (b : Bool) : (s.setIfm b).spr.cmpe = s.spr.cmpe := rfl
@[simp] theorem State.setIfm_spr_cmpf (s : State) (b : Bool) : (s.setIfm b).spr.cmpf = s.spr.cmpf := rfl
@[simp] theorem State.setIfm_spr_cmpg (s : State) (b : Bool) : (s.setIfm b).spr.cmpg = s.spr.cmpg := rfl
@[simp] theorem State.setIfm_spr_cmph (s : State) (b : Bool) : (s.setIfm b).spr.cmph = s.spr.cmph := rfl
@[simp] theorem State.setIfm_spr_lctrl1 (s : State) (b : Bool) : (s.setIfm b).spr.lctrl1 = s.spr.lctrl1 := rfl
@[simp] theorem State.setIfm_spr_lctrl2 (s : State) (b : Bool) : (s.setIfm b).spr.lctrl2 = s.spr.lctrl2 := rfl
@[simp] theorem State.setIfm_spr_counta (s : State) (b : Bool) : (s.setIfm b).spr.counta = s.spr.counta := rfl
@[simp] theorem State.setIfm_spr_countb (s : State) (b : Bool) : (s.setIfm b).spr.countb = s.spr.countb := rfl
@[simp] theorem State.setIfm_spr_ecr (s : State) (b : Bool) : (s.setIfm b).spr.ecr = s.spr.ecr := rfl
@[simp] theorem State.setIfm_spr_der (s : State) (b : Bool) : (s.setIfm b).spr.der = s.spr.der := rfl
@[simp] theorem State.setIfm_spr_bar (s : State) (b : Bool) : (s.setIfm b).spr.bar = s.spr.bar := rfl
@[simp] theorem State.setIfm_port (s : State) (b : Bool) : (s.setIfm b).port = s.port := rfl
@[simp] theorem State.setIfm_dbg (s : State) (b : Bool) : (s.setIfm b).dbg = s.dbg := rfl
@[simp] theorem State.setIfm_trace (s : State) (b : Bool) : (s.setIfm b).trace = s.trace := rfl
@[simp] theorem State.setIfm_lines (s : State) (b : Bool) : (s.setIfm b).lines = s.lines := rfl
@[simp] theorem State.setIfm_ir (s : State) (b : Bool) : (s.setIfm b).ir = s.ir := rfl
@[simp] theorem State.setIfm_inflight (s : State) (b : Bool) : (s.setIfm b).inflight = s.inflight := rfl
@[simp] theorem State.setIfm_cycles (s : State) (b : Bool) : (s.setIfm b).cycles = s.cycles := rfl
@[simp] theorem State.setIfm_outcome (s : State) (b : Bool) : (s.setIfm b).outcome = s.outcome := rfl
@[simp] theorem State.setIfm_traced (s : State) (b : Bool) : (s.setIfm b).traced = s.traced := rfl
@[simp] theorem State.setIfm_countersSettled (s : State) (b : Bool) : (s.setIfm b).countersSettled = s.countersSettled := rfl
@[simp] theorem State.setIfm_expired (s : State) (b : Bool) : (s.setIfm b).expired = s.expired := rfl
@[simp] theorem State.setIfm_oracle (s : State) (b : Bool) : (s.setIfm b).oracle = s.oracle := rfl
@[simp] theorem State.setIfm_faultMap (s : State) (b : Bool) : (s.setIfm b).faultMap = s.faultMap := rfl
@[simp] theorem State.setIfm_mem (s : State) (b : Bool) : (s.setIfm b).mem = s.mem := rfl
@[simp] theorem State.setIfm_inputs (s : State) (b : Bool) : (s.setIfm b).inputs = s.inputs := rfl
@[simp] theorem State.setIfm_out (s : State) (b : Bool) : (s.setIfm b).out = s.out := rfl
@[simp] theorem State.setIfm_draws (s : State) (b : Bool) : (s.setIfm b).draws = s.draws := rfl

/-! ### emit -/

@[simp] theorem State.emit_cpu (s : State) (o : Output) : (s.emit o).cpu = s.cpu := rfl
@[simp] theorem State.emit_spr (s : State) (o : Output) : (s.emit o).spr = s.spr := rfl
@[simp] theorem State.emit_port (s : State) (o : Output) : (s.emit o).port = s.port := rfl
@[simp] theorem State.emit_dbg (s : State) (o : Output) : (s.emit o).dbg = s.dbg := rfl
@[simp] theorem State.emit_trace (s : State) (o : Output) : (s.emit o).trace = s.trace := rfl
@[simp] theorem State.emit_lines (s : State) (o : Output) : (s.emit o).lines = s.lines := rfl
@[simp] theorem State.emit_ir (s : State) (o : Output) : (s.emit o).ir = s.ir := rfl
@[simp] theorem State.emit_inflight (s : State) (o : Output) : (s.emit o).inflight = s.inflight := rfl
@[simp] theorem State.emit_cycles (s : State) (o : Output) : (s.emit o).cycles = s.cycles := rfl
@[simp] theorem State.emit_outcome (s : State) (o : Output) : (s.emit o).outcome = s.outcome := rfl
@[simp] theorem State.emit_traced (s : State) (o : Output) : (s.emit o).traced = s.traced := rfl
@[simp] theorem State.emit_countersSettled (s : State) (o : Output) : (s.emit o).countersSettled = s.countersSettled := rfl
@[simp] theorem State.emit_expired (s : State) (o : Output) : (s.emit o).expired = s.expired := rfl
@[simp] theorem State.emit_oracle (s : State) (o : Output) : (s.emit o).oracle = s.oracle := rfl
@[simp] theorem State.emit_faultMap (s : State) (o : Output) : (s.emit o).faultMap = s.faultMap := rfl
@[simp] theorem State.emit_mem (s : State) (o : Output) : (s.emit o).mem = s.mem := rfl
@[simp] theorem State.emit_inputs (s : State) (o : Output) : (s.emit o).inputs = s.inputs := rfl
@[simp] theorem State.emit_draws (s : State) (o : Output) : (s.emit o).draws = s.draws := rfl

/-! ### reportVf -/

@[simp] theorem State.reportVf_cpu (s : State) (v : BitVec 3) (k : SlotKind) : (s.reportVf v k).cpu = s.cpu := rfl
@[simp] theorem State.reportVf_spr (s : State) (v : BitVec 3) (k : SlotKind) : (s.reportVf v k).spr = s.spr := rfl
@[simp] theorem State.reportVf_port (s : State) (v : BitVec 3) (k : SlotKind) : (s.reportVf v k).port = s.port := rfl
@[simp] theorem State.reportVf_dbg (s : State) (v : BitVec 3) (k : SlotKind) : (s.reportVf v k).dbg = s.dbg := rfl
@[simp] theorem State.reportVf_trace_histFlush (s : State) (v : BitVec 3) (k : SlotKind) : (s.reportVf v k).trace.histFlush = s.trace.histFlush := rfl
@[simp] theorem State.reportVf_trace_vsyncChanged (s : State) (v : BitVec 3) (k : SlotKind) : (s.reportVf v k).trace.vsyncChanged = s.trace.vsyncChanged := rfl
@[simp] theorem State.reportVf_trace_lastReports (s : State) (v : BitVec 3) (k : SlotKind) : (s.reportVf v k).trace.lastReports = s.trace.lastReports := rfl
@[simp] theorem State.reportVf_trace_pending (s : State) (v : BitVec 3) (k : SlotKind) : (s.reportVf v k).trace.pending = s.trace.pending := rfl
@[simp] theorem State.reportVf_trace_nextFlow (s : State) (v : BitVec 3) (k : SlotKind) : (s.reportVf v k).trace.nextFlow = s.trace.nextFlow := rfl
@[simp] theorem State.reportVf_trace_nextVisible (s : State) (v : BitVec 3) (k : SlotKind) : (s.reportVf v k).trace.nextVisible = s.trace.nextVisible := rfl
@[simp] theorem State.reportVf_trace_isctActive (s : State) (v : BitVec 3) (k : SlotKind) : (s.reportVf v k).trace.isctActive = s.trace.isctActive := rfl
@[simp] theorem State.reportVf_trace_isctHold (s : State) (v : BitVec 3) (k : SlotKind) : (s.reportVf v k).trace.isctHold = s.trace.isctHold := rfl
@[simp] theorem State.reportVf_trace_showQueue (s : State) (v : BitVec 3) (k : SlotKind) : (s.reportVf v k).trace.showQueue = s.trace.showQueue := rfl
@[simp] theorem State.reportVf_trace_fetches (s : State) (v : BitVec 3) (k : SlotKind) : (s.reportVf v k).trace.fetches = s.trace.fetches := rfl
@[simp] theorem State.reportVf_lines (s : State) (v : BitVec 3) (k : SlotKind) : (s.reportVf v k).lines = s.lines := rfl
@[simp] theorem State.reportVf_ir (s : State) (v : BitVec 3) (k : SlotKind) : (s.reportVf v k).ir = s.ir := rfl
@[simp] theorem State.reportVf_inflight (s : State) (v : BitVec 3) (k : SlotKind) : (s.reportVf v k).inflight = s.inflight := rfl
@[simp] theorem State.reportVf_cycles (s : State) (v : BitVec 3) (k : SlotKind) : (s.reportVf v k).cycles = s.cycles := rfl
@[simp] theorem State.reportVf_outcome (s : State) (v : BitVec 3) (k : SlotKind) : (s.reportVf v k).outcome = s.outcome := rfl
@[simp] theorem State.reportVf_traced (s : State) (v : BitVec 3) (k : SlotKind) : (s.reportVf v k).traced = s.traced := rfl
@[simp] theorem State.reportVf_countersSettled (s : State) (v : BitVec 3) (k : SlotKind) : (s.reportVf v k).countersSettled = s.countersSettled := rfl
@[simp] theorem State.reportVf_expired (s : State) (v : BitVec 3) (k : SlotKind) : (s.reportVf v k).expired = s.expired := rfl
@[simp] theorem State.reportVf_oracle (s : State) (v : BitVec 3) (k : SlotKind) : (s.reportVf v k).oracle = s.oracle := rfl
@[simp] theorem State.reportVf_faultMap (s : State) (v : BitVec 3) (k : SlotKind) : (s.reportVf v k).faultMap = s.faultMap := rfl
@[simp] theorem State.reportVf_mem (s : State) (v : BitVec 3) (k : SlotKind) : (s.reportVf v k).mem = s.mem := rfl
@[simp] theorem State.reportVf_inputs (s : State) (v : BitVec 3) (k : SlotKind) : (s.reportVf v k).inputs = s.inputs := rfl
@[simp] theorem State.reportVf_draws (s : State) (v : BitVec 3) (k : SlotKind) : (s.reportVf v k).draws = s.draws := rfl

/-! ### reportType -/

@[simp] theorem State.reportType_cpu (s : State) (t : VfType) : (s.reportType t).cpu = s.cpu := rfl
@[simp] theorem State.reportType_spr (s : State) (t : VfType) : (s.reportType t).spr = s.spr := rfl
@[simp] theorem State.reportType_port (s : State) (t : VfType) : (s.reportType t).port = s.port := rfl
@[simp] theorem State.reportType_dbg (s : State) (t : VfType) : (s.reportType t).dbg = s.dbg := rfl
@[simp] theorem State.reportType_trace_histFlush (s : State) (t : VfType) : (s.reportType t).trace.histFlush = s.trace.histFlush := rfl
@[simp] theorem State.reportType_trace_vsyncChanged (s : State) (t : VfType) : (s.reportType t).trace.vsyncChanged = s.trace.vsyncChanged := rfl
@[simp] theorem State.reportType_trace_lastReports (s : State) (t : VfType) : (s.reportType t).trace.lastReports = s.trace.lastReports := rfl
@[simp] theorem State.reportType_trace_pending (s : State) (t : VfType) : (s.reportType t).trace.pending = s.trace.pending := rfl
@[simp] theorem State.reportType_trace_nextFlow (s : State) (t : VfType) : (s.reportType t).trace.nextFlow = s.trace.nextFlow := rfl
@[simp] theorem State.reportType_trace_nextVisible (s : State) (t : VfType) : (s.reportType t).trace.nextVisible = s.trace.nextVisible := rfl
@[simp] theorem State.reportType_trace_isctActive (s : State) (t : VfType) : (s.reportType t).trace.isctActive = s.trace.isctActive := rfl
@[simp] theorem State.reportType_trace_isctHold (s : State) (t : VfType) : (s.reportType t).trace.isctHold = s.trace.isctHold := rfl
@[simp] theorem State.reportType_trace_showQueue (s : State) (t : VfType) : (s.reportType t).trace.showQueue = s.trace.showQueue := rfl
@[simp] theorem State.reportType_trace_fetches (s : State) (t : VfType) : (s.reportType t).trace.fetches = s.trace.fetches := rfl
@[simp] theorem State.reportType_lines (s : State) (t : VfType) : (s.reportType t).lines = s.lines := rfl
@[simp] theorem State.reportType_ir (s : State) (t : VfType) : (s.reportType t).ir = s.ir := rfl
@[simp] theorem State.reportType_inflight (s : State) (t : VfType) : (s.reportType t).inflight = s.inflight := rfl
@[simp] theorem State.reportType_cycles (s : State) (t : VfType) : (s.reportType t).cycles = s.cycles := rfl
@[simp] theorem State.reportType_outcome (s : State) (t : VfType) : (s.reportType t).outcome = s.outcome := rfl
@[simp] theorem State.reportType_traced (s : State) (t : VfType) : (s.reportType t).traced = s.traced := rfl
@[simp] theorem State.reportType_countersSettled (s : State) (t : VfType) : (s.reportType t).countersSettled = s.countersSettled := rfl
@[simp] theorem State.reportType_expired (s : State) (t : VfType) : (s.reportType t).expired = s.expired := rfl
@[simp] theorem State.reportType_oracle (s : State) (t : VfType) : (s.reportType t).oracle = s.oracle := rfl
@[simp] theorem State.reportType_faultMap (s : State) (t : VfType) : (s.reportType t).faultMap = s.faultMap := rfl
@[simp] theorem State.reportType_mem (s : State) (t : VfType) : (s.reportType t).mem = s.mem := rfl
@[simp] theorem State.reportType_inputs (s : State) (t : VfType) : (s.reportType t).inputs = s.inputs := rfl
@[simp] theorem State.reportType_draws (s : State) (t : VfType) : (s.reportType t).draws = s.draws := rfl

/-! ### beginInsn -/

@[simp] theorem State.beginInsn_cpu (s : State) : (s.beginInsn).cpu = s.cpu := rfl
@[simp] theorem State.beginInsn_spr (s : State) : (s.beginInsn).spr = s.spr := rfl
@[simp] theorem State.beginInsn_port (s : State) : (s.beginInsn).port = s.port := rfl
@[simp] theorem State.beginInsn_dbg (s : State) : (s.beginInsn).dbg = s.dbg := rfl
@[simp] theorem State.beginInsn_trace_vf (s : State) : (s.beginInsn).trace.vf = s.trace.vf := rfl
@[simp] theorem State.beginInsn_trace_prevKind (s : State) : (s.beginInsn).trace.prevKind = s.trace.prevKind := rfl
@[simp] theorem State.beginInsn_trace_histFlush (s : State) : (s.beginInsn).trace.histFlush = s.trace.histFlush := rfl
@[simp] theorem State.beginInsn_trace_vsyncChanged (s : State) : (s.beginInsn).trace.vsyncChanged = s.trace.vsyncChanged := rfl
@[simp] theorem State.beginInsn_trace_lastReports (s : State) : (s.beginInsn).trace.lastReports = s.trace.lastReports := rfl
@[simp] theorem State.beginInsn_trace_pending (s : State) : (s.beginInsn).trace.pending = s.trace.pending := rfl
@[simp] theorem State.beginInsn_trace_showQueue (s : State) : (s.beginInsn).trace.showQueue = s.trace.showQueue := rfl
@[simp] theorem State.beginInsn_trace_fetches (s : State) : (s.beginInsn).trace.fetches = s.trace.fetches := rfl
@[simp] theorem State.beginInsn_lines (s : State) : (s.beginInsn).lines = s.lines := rfl
@[simp] theorem State.beginInsn_ir (s : State) : (s.beginInsn).ir = s.ir := rfl
@[simp] theorem State.beginInsn_inflight (s : State) : (s.beginInsn).inflight = s.inflight := rfl
@[simp] theorem State.beginInsn_cycles (s : State) : (s.beginInsn).cycles = s.cycles := rfl
@[simp] theorem State.beginInsn_outcome (s : State) : (s.beginInsn).outcome = s.outcome := rfl
@[simp] theorem State.beginInsn_traced (s : State) : (s.beginInsn).traced = s.traced := rfl
@[simp] theorem State.beginInsn_countersSettled (s : State) : (s.beginInsn).countersSettled = s.countersSettled := rfl
@[simp] theorem State.beginInsn_expired (s : State) : (s.beginInsn).expired = s.expired := rfl
@[simp] theorem State.beginInsn_oracle (s : State) : (s.beginInsn).oracle = s.oracle := rfl
@[simp] theorem State.beginInsn_faultMap (s : State) : (s.beginInsn).faultMap = s.faultMap := rfl
@[simp] theorem State.beginInsn_mem (s : State) : (s.beginInsn).mem = s.mem := rfl
@[simp] theorem State.beginInsn_inputs (s : State) : (s.beginInsn).inputs = s.inputs := rfl
@[simp] theorem State.beginInsn_out (s : State) : (s.beginInsn).out = s.out := rfl
@[simp] theorem State.beginInsn_draws (s : State) : (s.beginInsn).draws = s.draws := rfl

/-! ### traceFetch -/

@[simp] theorem State.traceFetch_cpu (s : State) (ia : WordAddr) (f : Flow) : (s.traceFetch ia f).cpu = s.cpu := by unfold State.traceFetch; simp
@[simp] theorem State.traceFetch_spr (s : State) (ia : WordAddr) (f : Flow) : (s.traceFetch ia f).spr = s.spr := by unfold State.traceFetch; simp
@[simp] theorem State.traceFetch_port (s : State) (ia : WordAddr) (f : Flow) : (s.traceFetch ia f).port = s.port := by unfold State.traceFetch; simp
@[simp] theorem State.traceFetch_dbg (s : State) (ia : WordAddr) (f : Flow) : (s.traceFetch ia f).dbg = s.dbg := by unfold State.traceFetch; simp
@[simp] theorem State.traceFetch_trace_vf (s : State) (ia : WordAddr) (f : Flow) : (s.traceFetch ia f).trace.vf = s.trace.vf := by unfold State.traceFetch; simp
@[simp] theorem State.traceFetch_trace_prevKind (s : State) (ia : WordAddr) (f : Flow) : (s.traceFetch ia f).trace.prevKind = s.trace.prevKind := by unfold State.traceFetch; simp
@[simp] theorem State.traceFetch_trace_histFlush (s : State) (ia : WordAddr) (f : Flow) : (s.traceFetch ia f).trace.histFlush = s.trace.histFlush := by unfold State.traceFetch; simp
@[simp] theorem State.traceFetch_trace_vsyncChanged (s : State) (ia : WordAddr) (f : Flow) : (s.traceFetch ia f).trace.vsyncChanged = s.trace.vsyncChanged := by unfold State.traceFetch; simp
@[simp] theorem State.traceFetch_trace_lastReports (s : State) (ia : WordAddr) (f : Flow) : (s.traceFetch ia f).trace.lastReports = s.trace.lastReports := by unfold State.traceFetch; simp
@[simp] theorem State.traceFetch_trace_pending (s : State) (ia : WordAddr) (f : Flow) : (s.traceFetch ia f).trace.pending = s.trace.pending := by unfold State.traceFetch; simp
@[simp] theorem State.traceFetch_trace_nextFlow (s : State) (ia : WordAddr) (f : Flow) : (s.traceFetch ia f).trace.nextFlow = s.trace.nextFlow := by unfold State.traceFetch; simp
@[simp] theorem State.traceFetch_trace_nextVisible (s : State) (ia : WordAddr) (f : Flow) : (s.traceFetch ia f).trace.nextVisible = s.trace.nextVisible := by unfold State.traceFetch; simp
@[simp] theorem State.traceFetch_trace_isctActive (s : State) (ia : WordAddr) (f : Flow) : (s.traceFetch ia f).trace.isctActive = s.trace.isctActive := by unfold State.traceFetch; simp
@[simp] theorem State.traceFetch_trace_isctHold (s : State) (ia : WordAddr) (f : Flow) : (s.traceFetch ia f).trace.isctHold = s.trace.isctHold := by unfold State.traceFetch; simp
@[simp] theorem State.traceFetch_lines (s : State) (ia : WordAddr) (f : Flow) : (s.traceFetch ia f).lines = s.lines := by unfold State.traceFetch; simp
@[simp] theorem State.traceFetch_ir (s : State) (ia : WordAddr) (f : Flow) : (s.traceFetch ia f).ir = s.ir := by unfold State.traceFetch; simp
@[simp] theorem State.traceFetch_inflight (s : State) (ia : WordAddr) (f : Flow) : (s.traceFetch ia f).inflight = s.inflight := by unfold State.traceFetch; simp
@[simp] theorem State.traceFetch_cycles (s : State) (ia : WordAddr) (f : Flow) : (s.traceFetch ia f).cycles = s.cycles := by unfold State.traceFetch; simp
@[simp] theorem State.traceFetch_outcome (s : State) (ia : WordAddr) (f : Flow) : (s.traceFetch ia f).outcome = s.outcome := by unfold State.traceFetch; simp
@[simp] theorem State.traceFetch_traced (s : State) (ia : WordAddr) (f : Flow) : (s.traceFetch ia f).traced = s.traced := by unfold State.traceFetch; simp
@[simp] theorem State.traceFetch_countersSettled (s : State) (ia : WordAddr) (f : Flow) : (s.traceFetch ia f).countersSettled = s.countersSettled := by unfold State.traceFetch; simp
@[simp] theorem State.traceFetch_expired (s : State) (ia : WordAddr) (f : Flow) : (s.traceFetch ia f).expired = s.expired := by unfold State.traceFetch; simp
@[simp] theorem State.traceFetch_oracle (s : State) (ia : WordAddr) (f : Flow) : (s.traceFetch ia f).oracle = s.oracle := by unfold State.traceFetch; simp
@[simp] theorem State.traceFetch_faultMap (s : State) (ia : WordAddr) (f : Flow) : (s.traceFetch ia f).faultMap = s.faultMap := by unfold State.traceFetch; simp
@[simp] theorem State.traceFetch_mem (s : State) (ia : WordAddr) (f : Flow) : (s.traceFetch ia f).mem = s.mem := by unfold State.traceFetch; simp
@[simp] theorem State.traceFetch_inputs (s : State) (ia : WordAddr) (f : Flow) : (s.traceFetch ia f).inputs = s.inputs := by unfold State.traceFetch; simp
@[simp] theorem State.traceFetch_out (s : State) (ia : WordAddr) (f : Flow) : (s.traceFetch ia f).out = s.out := by unfold State.traceFetch; simp
@[simp] theorem State.traceFetch_draws (s : State) (ia : WordAddr) (f : Flow) : (s.traceFetch ia f).draws = s.draws := by unfold State.traceFetch; simp

/-! ### reportVsync -/

@[simp] theorem State.reportVsync_cpu (s : State) : (s.reportVsync).cpu = s.cpu := rfl
@[simp] theorem State.reportVsync_spr (s : State) : (s.reportVsync).spr = s.spr := rfl
@[simp] theorem State.reportVsync_port (s : State) : (s.reportVsync).port = s.port := rfl
@[simp] theorem State.reportVsync_dbg (s : State) : (s.reportVsync).dbg = s.dbg := rfl
@[simp] theorem State.reportVsync_trace_histFlush (s : State) : (s.reportVsync).trace.histFlush = s.trace.histFlush := rfl
@[simp] theorem State.reportVsync_trace_pending (s : State) : (s.reportVsync).trace.pending = s.trace.pending := rfl
@[simp] theorem State.reportVsync_trace_lastReports (s : State) : (s.reportVsync).trace.lastReports = if s.port.tecr.vsync then s.trace.lastReports else 0 := rfl
@[simp] theorem State.reportVsync_trace_isctActive (s : State) : (s.reportVsync).trace.isctActive = s.trace.isctActive := rfl
@[simp] theorem State.reportVsync_trace_isctHold (s : State) : (s.reportVsync).trace.isctHold = s.trace.isctHold := rfl
@[simp] theorem State.reportVsync_trace_showQueue (s : State) : (s.reportVsync).trace.showQueue = s.trace.showQueue := rfl
@[simp] theorem State.reportVsync_trace_fetches (s : State) : (s.reportVsync).trace.fetches = s.trace.fetches := rfl
@[simp] theorem State.reportVsync_lines (s : State) : (s.reportVsync).lines = s.lines := rfl
@[simp] theorem State.reportVsync_ir (s : State) : (s.reportVsync).ir = s.ir := rfl
@[simp] theorem State.reportVsync_cycles (s : State) : (s.reportVsync).cycles = s.cycles := rfl
@[simp] theorem State.reportVsync_outcome (s : State) : (s.reportVsync).outcome = s.outcome := rfl
@[simp] theorem State.reportVsync_traced (s : State) : (s.reportVsync).traced = s.traced := rfl
@[simp] theorem State.reportVsync_countersSettled (s : State) : (s.reportVsync).countersSettled = s.countersSettled := rfl
@[simp] theorem State.reportVsync_expired (s : State) : (s.reportVsync).expired = s.expired := rfl
@[simp] theorem State.reportVsync_oracle (s : State) : (s.reportVsync).oracle = s.oracle := rfl
@[simp] theorem State.reportVsync_faultMap (s : State) : (s.reportVsync).faultMap = s.faultMap := rfl
@[simp] theorem State.reportVsync_mem (s : State) : (s.reportVsync).mem = s.mem := rfl
@[simp] theorem State.reportVsync_inputs (s : State) : (s.reportVsync).inputs = s.inputs := rfl
@[simp] theorem State.reportVsync_draws (s : State) : (s.reportVsync).draws = s.draws := rfl

/-! ### reportClock -/

@[simp] theorem State.reportClock_cpu (s : State) (r : ClockReport) (t : VfType) (l : List VfType) : (s.reportClock r t l).cpu = s.cpu := rfl
@[simp] theorem State.reportClock_spr (s : State) (r : ClockReport) (t : VfType) (l : List VfType) : (s.reportClock r t l).spr = s.spr := rfl
@[simp] theorem State.reportClock_port (s : State) (r : ClockReport) (t : VfType) (l : List VfType) : (s.reportClock r t l).port = s.port := rfl
@[simp] theorem State.reportClock_dbg (s : State) (r : ClockReport) (t : VfType) (l : List VfType) : (s.reportClock r t l).dbg = s.dbg := rfl
@[simp] theorem State.reportClock_trace_histFlush (s : State) (r : ClockReport) (t : VfType) (l : List VfType) : (s.reportClock r t l).trace.histFlush = s.trace.histFlush := rfl
@[simp] theorem State.reportClock_trace_vsyncChanged (s : State) (r : ClockReport) (t : VfType) (l : List VfType) : (s.reportClock r t l).trace.vsyncChanged = s.trace.vsyncChanged := rfl
@[simp] theorem State.reportClock_trace_nextFlow (s : State) (r : ClockReport) (t : VfType) (l : List VfType) : (s.reportClock r t l).trace.nextFlow = s.trace.nextFlow := rfl
@[simp] theorem State.reportClock_trace_nextVisible (s : State) (r : ClockReport) (t : VfType) (l : List VfType) : (s.reportClock r t l).trace.nextVisible = s.trace.nextVisible := rfl
@[simp] theorem State.reportClock_trace_isctActive (s : State) (r : ClockReport) (t : VfType) (l : List VfType) : (s.reportClock r t l).trace.isctActive = s.trace.isctActive := rfl
@[simp] theorem State.reportClock_trace_isctHold (s : State) (r : ClockReport) (t : VfType) (l : List VfType) : (s.reportClock r t l).trace.isctHold = s.trace.isctHold := rfl
@[simp] theorem State.reportClock_trace_showQueue (s : State) (r : ClockReport) (t : VfType) (l : List VfType) : (s.reportClock r t l).trace.showQueue = s.trace.showQueue := rfl
@[simp] theorem State.reportClock_trace_fetches (s : State) (r : ClockReport) (t : VfType) (l : List VfType) : (s.reportClock r t l).trace.fetches = s.trace.fetches := rfl
@[simp] theorem State.reportClock_lines (s : State) (r : ClockReport) (t : VfType) (l : List VfType) : (s.reportClock r t l).lines = s.lines := rfl
@[simp] theorem State.reportClock_ir (s : State) (r : ClockReport) (t : VfType) (l : List VfType) : (s.reportClock r t l).ir = s.ir := rfl
@[simp] theorem State.reportClock_inflight (s : State) (r : ClockReport) (t : VfType) (l : List VfType) : (s.reportClock r t l).inflight = s.inflight := rfl
@[simp] theorem State.reportClock_cycles (s : State) (r : ClockReport) (t : VfType) (l : List VfType) : (s.reportClock r t l).cycles = s.cycles := rfl
@[simp] theorem State.reportClock_outcome (s : State) (r : ClockReport) (t : VfType) (l : List VfType) : (s.reportClock r t l).outcome = s.outcome := rfl
@[simp] theorem State.reportClock_traced (s : State) (r : ClockReport) (t : VfType) (l : List VfType) : (s.reportClock r t l).traced = s.traced := rfl
@[simp] theorem State.reportClock_countersSettled (s : State) (r : ClockReport) (t : VfType) (l : List VfType) : (s.reportClock r t l).countersSettled = s.countersSettled := rfl
@[simp] theorem State.reportClock_expired (s : State) (r : ClockReport) (t : VfType) (l : List VfType) : (s.reportClock r t l).expired = s.expired := rfl
@[simp] theorem State.reportClock_oracle (s : State) (r : ClockReport) (t : VfType) (l : List VfType) : (s.reportClock r t l).oracle = s.oracle := rfl
@[simp] theorem State.reportClock_faultMap (s : State) (r : ClockReport) (t : VfType) (l : List VfType) : (s.reportClock r t l).faultMap = s.faultMap := rfl
@[simp] theorem State.reportClock_mem (s : State) (r : ClockReport) (t : VfType) (l : List VfType) : (s.reportClock r t l).mem = s.mem := rfl
@[simp] theorem State.reportClock_inputs (s : State) (r : ClockReport) (t : VfType) (l : List VfType) : (s.reportClock r t l).inputs = s.inputs := rfl
@[simp] theorem State.reportClock_draws (s : State) (r : ClockReport) (t : VfType) (l : List VfType) : (s.reportClock r t l).draws = s.draws := rfl
@[simp] theorem State.reportClock_trace_pending (s : State) (r : ClockReport) (t : VfType) (l : List VfType) : (s.reportClock r t l).trace.pending = l := rfl
@[simp] theorem State.reportClock_trace_lastReports (s : State) (r : ClockReport) (t : VfType) (l : List VfType) : (s.reportClock r t l).trace.lastReports = s.lastReportsAfter r t l := rfl

/-! ### clock -/

@[simp] theorem State.clock_cpu (s : State) (r : ClockReport) (q : Fin 6) (h : Fin 3) : (s.clock r q h).cpu = s.cpu := by unfold State.clock; simp only []; (repeat' split) <;> simp
@[simp] theorem State.clock_spr (s : State) (r : ClockReport) (q : Fin 6) (h : Fin 3) : (s.clock r q h).spr = s.spr := by unfold State.clock; simp only []; (repeat' split) <;> simp
@[simp] theorem State.clock_port (s : State) (r : ClockReport) (q : Fin 6) (h : Fin 3) : (s.clock r q h).port = s.port := by unfold State.clock; simp only []; (repeat' split) <;> simp
@[simp] theorem State.clock_dbg (s : State) (r : ClockReport) (q : Fin 6) (h : Fin 3) : (s.clock r q h).dbg = s.dbg := by unfold State.clock; simp only []; (repeat' split) <;> simp
@[simp] theorem State.clock_trace_isctActive (s : State) (r : ClockReport) (q : Fin 6) (h : Fin 3) : (s.clock r q h).trace.isctActive = s.trace.isctActive := by unfold State.clock; simp only []; (repeat' split) <;> simp
@[simp] theorem State.clock_trace_isctHold (s : State) (r : ClockReport) (q : Fin 6) (h : Fin 3) : (s.clock r q h).trace.isctHold = s.trace.isctHold := by unfold State.clock; simp only []; (repeat' split) <;> simp
@[simp] theorem State.clock_trace_showQueue (s : State) (r : ClockReport) (q : Fin 6) (h : Fin 3) : (s.clock r q h).trace.showQueue = s.trace.showQueue := by unfold State.clock; simp only []; (repeat' split) <;> simp
@[simp] theorem State.clock_trace_fetches (s : State) (r : ClockReport) (q : Fin 6) (h : Fin 3) : (s.clock r q h).trace.fetches = s.trace.fetches := by unfold State.clock; simp only []; (repeat' split) <;> simp
@[simp] theorem State.clock_lines (s : State) (r : ClockReport) (q : Fin 6) (h : Fin 3) : (s.clock r q h).lines = s.lines := by unfold State.clock; simp only []; (repeat' split) <;> simp
@[simp] theorem State.clock_ir (s : State) (r : ClockReport) (q : Fin 6) (h : Fin 3) : (s.clock r q h).ir = s.ir := by unfold State.clock; simp only []; (repeat' split) <;> simp
@[simp] theorem State.clock_cycles (s : State) (r : ClockReport) (q : Fin 6) (h : Fin 3) : (s.clock r q h).cycles = s.cycles := by unfold State.clock; simp only []; (repeat' split) <;> simp
@[simp] theorem State.clock_outcome (s : State) (r : ClockReport) (q : Fin 6) (h : Fin 3) : (s.clock r q h).outcome = s.outcome := by unfold State.clock; simp only []; (repeat' split) <;> simp
@[simp] theorem State.clock_traced (s : State) (r : ClockReport) (q : Fin 6) (h : Fin 3) : (s.clock r q h).traced = s.traced := by unfold State.clock; simp only []; (repeat' split) <;> simp
@[simp] theorem State.clock_countersSettled (s : State) (r : ClockReport) (q : Fin 6) (h : Fin 3) : (s.clock r q h).countersSettled = s.countersSettled := by unfold State.clock; simp only []; (repeat' split) <;> simp
@[simp] theorem State.clock_expired (s : State) (r : ClockReport) (q : Fin 6) (h : Fin 3) : (s.clock r q h).expired = s.expired := by unfold State.clock; simp only []; (repeat' split) <;> simp
@[simp] theorem State.clock_oracle (s : State) (r : ClockReport) (q : Fin 6) (h : Fin 3) : (s.clock r q h).oracle = s.oracle := by unfold State.clock; simp only []; (repeat' split) <;> simp
@[simp] theorem State.clock_faultMap (s : State) (r : ClockReport) (q : Fin 6) (h : Fin 3) : (s.clock r q h).faultMap = s.faultMap := by unfold State.clock; simp only []; (repeat' split) <;> simp
@[simp] theorem State.clock_mem (s : State) (r : ClockReport) (q : Fin 6) (h : Fin 3) : (s.clock r q h).mem = s.mem := by unfold State.clock; simp only []; (repeat' split) <;> simp
@[simp] theorem State.clock_inputs (s : State) (r : ClockReport) (q : Fin 6) (h : Fin 3) : (s.clock r q h).inputs = s.inputs := by unfold State.clock; simp only []; (repeat' split) <;> simp
@[simp] theorem State.clock_draws (s : State) (r : ClockReport) (q : Fin 6) (h : Fin 3) : (s.clock r q h).draws = s.draws := by unfold State.clock; simp only []; (repeat' split) <;> simp

/-! ### busGrant -/

@[simp] theorem State.busGrant_cpu (s : State) : (s.busGrant).cpu = s.cpu := by unfold State.busGrant; split <;> simp
@[simp] theorem State.busGrant_spr (s : State) : (s.busGrant).spr = s.spr := by unfold State.busGrant; split <;> simp
@[simp] theorem State.busGrant_port (s : State) : (s.busGrant).port = s.port := by unfold State.busGrant; split <;> simp
@[simp] theorem State.busGrant_dbg (s : State) : (s.busGrant).dbg = s.dbg := by unfold State.busGrant; split <;> simp
@[simp] theorem State.busGrant_trace_vf (s : State) : (s.busGrant).trace.vf = s.trace.vf := by unfold State.busGrant; split <;> simp
@[simp] theorem State.busGrant_trace_prevKind (s : State) : (s.busGrant).trace.prevKind = s.trace.prevKind := by unfold State.busGrant; split <;> simp
@[simp] theorem State.busGrant_trace_histFlush (s : State) : (s.busGrant).trace.histFlush = s.trace.histFlush := by unfold State.busGrant; split <;> simp
@[simp] theorem State.busGrant_trace_vsyncChanged (s : State) : (s.busGrant).trace.vsyncChanged = s.trace.vsyncChanged := by unfold State.busGrant; split <;> simp
@[simp] theorem State.busGrant_trace_lastReports (s : State) : (s.busGrant).trace.lastReports = s.trace.lastReports := by unfold State.busGrant; split <;> simp
@[simp] theorem State.busGrant_trace_pending (s : State) : (s.busGrant).trace.pending = s.trace.pending := by unfold State.busGrant; split <;> simp
@[simp] theorem State.busGrant_trace_nextFlow (s : State) : (s.busGrant).trace.nextFlow = s.trace.nextFlow := by unfold State.busGrant; split <;> simp
@[simp] theorem State.busGrant_trace_nextVisible (s : State) : (s.busGrant).trace.nextVisible = s.trace.nextVisible := by unfold State.busGrant; split <;> simp
@[simp] theorem State.busGrant_trace_isctActive (s : State) : (s.busGrant).trace.isctActive = s.trace.isctActive := by unfold State.busGrant; split <;> simp
@[simp] theorem State.busGrant_trace_isctHold (s : State) : (s.busGrant).trace.isctHold = s.trace.isctHold := by unfold State.busGrant; split <;> simp
@[simp] theorem State.busGrant_trace_fetches (s : State) : (s.busGrant).trace.fetches = s.trace.fetches := by unfold State.busGrant; split <;> simp
@[simp] theorem State.busGrant_lines (s : State) : (s.busGrant).lines = s.lines := by unfold State.busGrant; split <;> simp
@[simp] theorem State.busGrant_ir (s : State) : (s.busGrant).ir = s.ir := by unfold State.busGrant; split <;> simp
@[simp] theorem State.busGrant_inflight (s : State) : (s.busGrant).inflight = s.inflight := by unfold State.busGrant; split <;> simp
@[simp] theorem State.busGrant_cycles (s : State) : (s.busGrant).cycles = s.cycles := by unfold State.busGrant; split <;> simp
@[simp] theorem State.busGrant_outcome (s : State) : (s.busGrant).outcome = s.outcome := by unfold State.busGrant; split <;> simp
@[simp] theorem State.busGrant_traced (s : State) : (s.busGrant).traced = s.traced := by unfold State.busGrant; split <;> simp
@[simp] theorem State.busGrant_countersSettled (s : State) : (s.busGrant).countersSettled = s.countersSettled := by unfold State.busGrant; split <;> simp
@[simp] theorem State.busGrant_expired (s : State) : (s.busGrant).expired = s.expired := by unfold State.busGrant; split <;> simp
@[simp] theorem State.busGrant_oracle (s : State) : (s.busGrant).oracle = s.oracle := by unfold State.busGrant; split <;> simp
@[simp] theorem State.busGrant_faultMap (s : State) : (s.busGrant).faultMap = s.faultMap := by unfold State.busGrant; split <;> simp
@[simp] theorem State.busGrant_mem (s : State) : (s.busGrant).mem = s.mem := by unfold State.busGrant; split <;> simp
@[simp] theorem State.busGrant_inputs (s : State) : (s.busGrant).inputs = s.inputs := by unfold State.busGrant; split <;> simp
@[simp] theorem State.busGrant_draws (s : State) : (s.busGrant).draws = s.draws := by unfold State.busGrant; split <;> simp

/-! ### deliver -/

@[simp] theorem State.deliver_cpu (s : State) (w : Word) : (s.deliver w).cpu = s.cpu := by unfold State.deliver; simp
@[simp] theorem State.deliver_spr (s : State) (w : Word) : (s.deliver w).spr = s.spr := by unfold State.deliver; simp
@[simp] theorem State.deliver_port_dpsr (s : State) (w : Word) : (s.deliver w).port.dpsr = s.port.dpsr := by unfold State.deliver; simp
@[simp] theorem State.deliver_port_tecr (s : State) (w : Word) : (s.deliver w).port.tecr = s.port.tecr := by unfold State.deliver; simp
@[simp] theorem State.deliver_port_clockMode (s : State) (w : Word) : (s.deliver w).port.clockMode = s.port.clockMode := by unfold State.deliver; simp
@[simp] theorem State.deliver_port_downloadInProgress (s : State) (w : Word) : (s.deliver w).port.downloadInProgress = s.port.downloadInProgress := by unfold State.deliver; simp
@[simp] theorem State.deliver_port_endRequested (s : State) (w : Word) : (s.deliver w).port.endRequested = s.port.endRequested := by unfold State.deliver; simp
@[simp] theorem State.deliver_port_downloadStore (s : State) (w : Word) : (s.deliver w).port.downloadStore = s.port.downloadStore := by unfold State.deliver; simp
@[simp] theorem State.deliver_port_validData (s : State) (w : Word) : (s.deliver w).port.validData = s.port.validData := by unfold State.deliver; simp
@[simp] theorem State.deliver_port_seqErrPending (s : State) (w : Word) : (s.deliver w).port.seqErrPending = s.port.seqErrPending := by unfold State.deliver; simp
@[simp] theorem State.deliver_port_cpuIntPending (s : State) (w : Word) : (s.deliver w).port.cpuIntPending = s.port.cpuIntPending := by unfold State.deliver; simp
@[simp] theorem State.deliver_port_shifted (s : State) (w : Word) : (s.deliver w).port.shifted = s.port.shifted := by unfold State.deliver; simp
@[simp] theorem State.deliver_port_suppress (s : State) (w : Word) : (s.deliver w).port.suppress = s.port.suppress := by unfold State.deliver; simp
@[simp] theorem State.deliver_port_scanHold (s : State) (w : Word) : (s.deliver w).port.scanHold = s.port.scanHold := by unfold State.deliver; simp
@[simp] theorem State.deliver_port_txStatus (s : State) (w : Word) : (s.deliver w).port.txStatus = s.port.txStatus := by unfold State.deliver; simp
@[simp] theorem State.deliver_port_txData (s : State) (w : Word) : (s.deliver w).port.txData = s.port.txData := by unfold State.deliver; simp
@[simp] theorem State.deliver_dbg (s : State) (w : Word) : (s.deliver w).dbg = s.dbg := by unfold State.deliver; simp
@[simp] theorem State.deliver_trace (s : State) (w : Word) : (s.deliver w).trace = s.trace := by unfold State.deliver; simp
@[simp] theorem State.deliver_lines (s : State) (w : Word) : (s.deliver w).lines = s.lines := by unfold State.deliver; simp
@[simp] theorem State.deliver_inflight (s : State) (w : Word) : (s.deliver w).inflight = s.inflight := by unfold State.deliver; simp
@[simp] theorem State.deliver_cycles (s : State) (w : Word) : (s.deliver w).cycles = s.cycles := by unfold State.deliver; simp
@[simp] theorem State.deliver_outcome (s : State) (w : Word) : (s.deliver w).outcome = s.outcome := by unfold State.deliver; simp
@[simp] theorem State.deliver_traced (s : State) (w : Word) : (s.deliver w).traced = s.traced := by unfold State.deliver; simp
@[simp] theorem State.deliver_countersSettled (s : State) (w : Word) : (s.deliver w).countersSettled = s.countersSettled := by unfold State.deliver; simp
@[simp] theorem State.deliver_expired (s : State) (w : Word) : (s.deliver w).expired = s.expired := by unfold State.deliver; simp
@[simp] theorem State.deliver_oracle (s : State) (w : Word) : (s.deliver w).oracle = s.oracle := by unfold State.deliver; simp
@[simp] theorem State.deliver_faultMap (s : State) (w : Word) : (s.deliver w).faultMap = s.faultMap := by unfold State.deliver; simp
@[simp] theorem State.deliver_mem (s : State) (w : Word) : (s.deliver w).mem = s.mem := by unfold State.deliver; simp
@[simp] theorem State.deliver_inputs (s : State) (w : Word) : (s.deliver w).inputs = s.inputs := by unfold State.deliver; simp
@[simp] theorem State.deliver_out (s : State) (w : Word) : (s.deliver w).out = s.out := by unfold State.deliver; simp
@[simp] theorem State.deliver_draws (s : State) (w : Word) : (s.deliver w).draws = s.draws := by unfold State.deliver; simp

/-! ### startFetch -/

@[simp] theorem State.startFetch_cpu (s : State) : (s.startFetch).cpu = s.cpu := by unfold State.startFetch; split <;> simp
@[simp] theorem State.startFetch_spr (s : State) : (s.startFetch).spr = s.spr := by unfold State.startFetch; split <;> simp
@[simp] theorem State.startFetch_port_dpsr (s : State) : (s.startFetch).port.dpsr = s.port.dpsr := by unfold State.startFetch; split <;> simp
@[simp] theorem State.startFetch_port_tecr (s : State) : (s.startFetch).port.tecr = s.port.tecr := by unfold State.startFetch; split <;> simp
@[simp] theorem State.startFetch_port_clockMode (s : State) : (s.startFetch).port.clockMode = s.port.clockMode := by unfold State.startFetch; split <;> simp
@[simp] theorem State.startFetch_port_downloadInProgress (s : State) : (s.startFetch).port.downloadInProgress = s.port.downloadInProgress := by unfold State.startFetch; split <;> simp
@[simp] theorem State.startFetch_port_endRequested (s : State) : (s.startFetch).port.endRequested = s.port.endRequested := by unfold State.startFetch; split <;> simp
@[simp] theorem State.startFetch_port_validData (s : State) : (s.startFetch).port.validData = s.port.validData := by unfold State.startFetch; split <;> simp
@[simp] theorem State.startFetch_port_seqErrPending (s : State) : (s.startFetch).port.seqErrPending = s.port.seqErrPending := by unfold State.startFetch; split <;> simp
@[simp] theorem State.startFetch_port_cpuIntPending (s : State) : (s.startFetch).port.cpuIntPending = s.port.cpuIntPending := by unfold State.startFetch; split <;> simp
@[simp] theorem State.startFetch_port_shifted (s : State) : (s.startFetch).port.shifted = s.port.shifted := by unfold State.startFetch; split <;> simp
@[simp] theorem State.startFetch_port_suppress (s : State) : (s.startFetch).port.suppress = s.port.suppress := by unfold State.startFetch; split <;> simp
@[simp] theorem State.startFetch_port_scanHold (s : State) : (s.startFetch).port.scanHold = s.port.scanHold := by unfold State.startFetch; split <;> simp
@[simp] theorem State.startFetch_port_txStatus (s : State) : (s.startFetch).port.txStatus = s.port.txStatus := by unfold State.startFetch; split <;> simp
@[simp] theorem State.startFetch_port_txData (s : State) : (s.startFetch).port.txData = s.port.txData := by unfold State.startFetch; split <;> simp
@[simp] theorem State.startFetch_dbg (s : State) : (s.startFetch).dbg = s.dbg := by unfold State.startFetch; split <;> simp
@[simp] theorem State.startFetch_trace (s : State) : (s.startFetch).trace = s.trace := by unfold State.startFetch; split <;> simp
@[simp] theorem State.startFetch_lines (s : State) : (s.startFetch).lines = s.lines := by unfold State.startFetch; split <;> simp
@[simp] theorem State.startFetch_inflight (s : State) : (s.startFetch).inflight = s.inflight := by unfold State.startFetch; split <;> simp
@[simp] theorem State.startFetch_cycles (s : State) : (s.startFetch).cycles = s.cycles := by unfold State.startFetch; split <;> simp
@[simp] theorem State.startFetch_outcome (s : State) : (s.startFetch).outcome = s.outcome := by unfold State.startFetch; split <;> simp
@[simp] theorem State.startFetch_traced (s : State) : (s.startFetch).traced = s.traced := by unfold State.startFetch; split <;> simp
@[simp] theorem State.startFetch_countersSettled (s : State) : (s.startFetch).countersSettled = s.countersSettled := by unfold State.startFetch; split <;> simp
@[simp] theorem State.startFetch_expired (s : State) : (s.startFetch).expired = s.expired := by unfold State.startFetch; split <;> simp
@[simp] theorem State.startFetch_oracle (s : State) : (s.startFetch).oracle = s.oracle := by unfold State.startFetch; split <;> simp
@[simp] theorem State.startFetch_faultMap (s : State) : (s.startFetch).faultMap = s.faultMap := by unfold State.startFetch; split <;> simp
@[simp] theorem State.startFetch_mem (s : State) : (s.startFetch).mem = s.mem := by unfold State.startFetch; split <;> simp
@[simp] theorem State.startFetch_inputs (s : State) : (s.startFetch).inputs = s.inputs := by unfold State.startFetch; split <;> simp
@[simp] theorem State.startFetch_out (s : State) : (s.startFetch).out = s.out := by unfold State.startFetch; split <;> simp
@[simp] theorem State.startFetch_draws (s : State) : (s.startFetch).draws = s.draws := by unfold State.startFetch; split <;> simp

/-! ### finish -/

@[simp] theorem State.finish_cpu (s : State) (t : VfType) (f : Flow) : (s.finish t f).cpu = s.cpu := by unfold State.finish; split <;> simp
@[simp] theorem State.finish_spr (s : State) (t : VfType) (f : Flow) : (s.finish t f).spr = s.spr := by unfold State.finish; split <;> simp
@[simp] theorem State.finish_port_dpsr (s : State) (t : VfType) (f : Flow) : (s.finish t f).port.dpsr = s.port.dpsr := by unfold State.finish; split <;> simp
@[simp] theorem State.finish_port_tecr (s : State) (t : VfType) (f : Flow) : (s.finish t f).port.tecr = s.port.tecr := by unfold State.finish; split <;> simp
@[simp] theorem State.finish_port_clockMode (s : State) (t : VfType) (f : Flow) : (s.finish t f).port.clockMode = s.port.clockMode := by unfold State.finish; split <;> simp
@[simp] theorem State.finish_port_downloadInProgress (s : State) (t : VfType) (f : Flow) : (s.finish t f).port.downloadInProgress = s.port.downloadInProgress := by unfold State.finish; split <;> simp
@[simp] theorem State.finish_port_endRequested (s : State) (t : VfType) (f : Flow) : (s.finish t f).port.endRequested = s.port.endRequested := by unfold State.finish; split <;> simp
@[simp] theorem State.finish_port_validData (s : State) (t : VfType) (f : Flow) : (s.finish t f).port.validData = s.port.validData := by unfold State.finish; split <;> simp
@[simp] theorem State.finish_port_seqErrPending (s : State) (t : VfType) (f : Flow) : (s.finish t f).port.seqErrPending = s.port.seqErrPending := by unfold State.finish; split <;> simp
@[simp] theorem State.finish_port_cpuIntPending (s : State) (t : VfType) (f : Flow) : (s.finish t f).port.cpuIntPending = s.port.cpuIntPending := by unfold State.finish; split <;> simp
@[simp] theorem State.finish_port_shifted (s : State) (t : VfType) (f : Flow) : (s.finish t f).port.shifted = s.port.shifted := by unfold State.finish; split <;> simp
@[simp] theorem State.finish_port_suppress (s : State) (t : VfType) (f : Flow) : (s.finish t f).port.suppress = s.port.suppress := by unfold State.finish; split <;> simp
@[simp] theorem State.finish_port_scanHold (s : State) (t : VfType) (f : Flow) : (s.finish t f).port.scanHold = s.port.scanHold := by unfold State.finish; split <;> simp
@[simp] theorem State.finish_port_txStatus (s : State) (t : VfType) (f : Flow) : (s.finish t f).port.txStatus = s.port.txStatus := by unfold State.finish; split <;> simp
@[simp] theorem State.finish_port_txData (s : State) (t : VfType) (f : Flow) : (s.finish t f).port.txData = s.port.txData := by unfold State.finish; split <;> simp
@[simp] theorem State.finish_dbg (s : State) (t : VfType) (f : Flow) : (s.finish t f).dbg = s.dbg := by unfold State.finish; split <;> simp
@[simp] theorem State.finish_trace_vf (s : State) (t : VfType) (f : Flow) : (s.finish t f).trace.vf = s.trace.vf := by unfold State.finish; split <;> simp
@[simp] theorem State.finish_trace_prevKind (s : State) (t : VfType) (f : Flow) : (s.finish t f).trace.prevKind = s.trace.prevKind := by unfold State.finish; split <;> simp
@[simp] theorem State.finish_trace_histFlush (s : State) (t : VfType) (f : Flow) : (s.finish t f).trace.histFlush = s.trace.histFlush := by unfold State.finish; split <;> simp
@[simp] theorem State.finish_trace_vsyncChanged (s : State) (t : VfType) (f : Flow) : (s.finish t f).trace.vsyncChanged = s.trace.vsyncChanged := by unfold State.finish; split <;> simp
@[simp] theorem State.finish_trace_lastReports (s : State) (t : VfType) (f : Flow) : (s.finish t f).trace.lastReports = s.trace.lastReports := by unfold State.finish; split <;> simp
@[simp] theorem State.finish_trace_nextVisible (s : State) (t : VfType) (f : Flow) : (s.finish t f).trace.nextVisible = s.trace.nextVisible := by unfold State.finish; split <;> simp
@[simp] theorem State.finish_trace_isctActive (s : State) (t : VfType) (f : Flow) : (s.finish t f).trace.isctActive = s.trace.isctActive := by unfold State.finish; split <;> simp
@[simp] theorem State.finish_trace_isctHold (s : State) (t : VfType) (f : Flow) : (s.finish t f).trace.isctHold = s.trace.isctHold := by unfold State.finish; split <;> simp
@[simp] theorem State.finish_trace_showQueue (s : State) (t : VfType) (f : Flow) : (s.finish t f).trace.showQueue = s.trace.showQueue := by unfold State.finish; split <;> simp
@[simp] theorem State.finish_trace_fetches (s : State) (t : VfType) (f : Flow) : (s.finish t f).trace.fetches = s.trace.fetches := by unfold State.finish; split <;> simp
@[simp] theorem State.finish_lines (s : State) (t : VfType) (f : Flow) : (s.finish t f).lines = s.lines := by unfold State.finish; split <;> simp
@[simp] theorem State.finish_inflight (s : State) (t : VfType) (f : Flow) : (s.finish t f).inflight = s.inflight := by unfold State.finish; split <;> simp
@[simp] theorem State.finish_cycles (s : State) (t : VfType) (f : Flow) : (s.finish t f).cycles = s.cycles := by unfold State.finish; split <;> simp
@[simp] theorem State.finish_traced (s : State) (t : VfType) (f : Flow) : (s.finish t f).traced = s.traced := by unfold State.finish; split <;> simp
@[simp] theorem State.finish_expired (s : State) (t : VfType) (f : Flow) : (s.finish t f).expired = s.expired := by unfold State.finish; split <;> simp
@[simp] theorem State.finish_oracle (s : State) (t : VfType) (f : Flow) : (s.finish t f).oracle = s.oracle := by unfold State.finish; split <;> simp
@[simp] theorem State.finish_faultMap (s : State) (t : VfType) (f : Flow) : (s.finish t f).faultMap = s.faultMap := by unfold State.finish; split <;> simp
@[simp] theorem State.finish_mem (s : State) (t : VfType) (f : Flow) : (s.finish t f).mem = s.mem := by unfold State.finish; split <;> simp
@[simp] theorem State.finish_inputs (s : State) (t : VfType) (f : Flow) : (s.finish t f).inputs = s.inputs := by unfold State.finish; split <;> simp
@[simp] theorem State.finish_out (s : State) (t : VfType) (f : Flow) : (s.finish t f).out = s.out := by unfold State.finish; split <;> simp
@[simp] theorem State.finish_draws (s : State) (t : VfType) (f : Flow) : (s.finish t f).draws = s.draws := by unfold State.finish; split <;> simp

/-! ### complete -/

@[simp] theorem State.complete_cpu_gpr (s : State) (t : VfType) (f : Flow) : (s.complete t f).cpu.gpr = s.cpu.gpr := by unfold State.complete; split <;> simp
@[simp] theorem State.complete_cpu_msr (s : State) (t : VfType) (f : Flow) : (s.complete t f).cpu.msr = s.cpu.msr := by unfold State.complete; split <;> simp
@[simp] theorem State.complete_cpu_srr0 (s : State) (t : VfType) (f : Flow) : (s.complete t f).cpu.srr0 = s.cpu.srr0 := by unfold State.complete; split <;> simp
@[simp] theorem State.complete_cpu_srr1 (s : State) (t : VfType) (f : Flow) : (s.complete t f).cpu.srr1 = s.cpu.srr1 := by unfold State.complete; split <;> simp
@[simp] theorem State.complete_cpu_dar (s : State) (t : VfType) (f : Flow) : (s.complete t f).cpu.dar = s.cpu.dar := by unfold State.complete; split <;> simp
@[simp] theorem State.complete_cpu_dsisr (s : State) (t : VfType) (f : Flow) : (s.complete t f).cpu.dsisr = s.cpu.dsisr := by unfold State.complete; split <;> simp
@[simp] theorem State.complete_spr (s : State) (t : VfType) (f : Flow) : (s.complete t f).spr = s.spr := by unfold State.complete; split <;> simp
@[simp] theorem State.complete_port_dpsr (s : State) (t : VfType) (f : Flow) : (s.complete t f).port.dpsr = s.port.dpsr := by unfold State.complete; split <;> simp
@[simp] theorem State.complete_port_tecr (s : State) (t : VfType) (f : Flow) : (s.complete t f).port.tecr = s.port.tecr := by unfold State.complete; split <;> simp
@[simp] theorem State.complete_port_clockMode (s : State) (t : VfType) (f : Flow) : (s.complete t f).port.clockMode = s.port.clockMode := by unfold State.complete; split <;> simp
@[simp] theorem State.complete_port_downloadInProgress (s : State) (t : VfType) (f : Flow) : (s.complete t f).port.downloadInProgress = s.port.downloadInProgress := by unfold State.complete; split <;> simp
@[simp] theorem State.complete_port_endRequested (s : State) (t : VfType) (f : Flow) : (s.complete t f).port.endRequested = s.port.endRequested := by unfold State.complete; split <;> simp
@[simp] theorem State.complete_port_validData (s : State) (t : VfType) (f : Flow) : (s.complete t f).port.validData = s.port.validData := by unfold State.complete; split <;> simp
@[simp] theorem State.complete_port_seqErrPending (s : State) (t : VfType) (f : Flow) : (s.complete t f).port.seqErrPending = s.port.seqErrPending := by unfold State.complete; split <;> simp
@[simp] theorem State.complete_port_cpuIntPending (s : State) (t : VfType) (f : Flow) : (s.complete t f).port.cpuIntPending = s.port.cpuIntPending := by unfold State.complete; split <;> simp
@[simp] theorem State.complete_port_shifted (s : State) (t : VfType) (f : Flow) : (s.complete t f).port.shifted = s.port.shifted := by unfold State.complete; split <;> simp
@[simp] theorem State.complete_port_suppress (s : State) (t : VfType) (f : Flow) : (s.complete t f).port.suppress = s.port.suppress := by unfold State.complete; split <;> simp
@[simp] theorem State.complete_port_scanHold (s : State) (t : VfType) (f : Flow) : (s.complete t f).port.scanHold = s.port.scanHold := by unfold State.complete; split <;> simp
@[simp] theorem State.complete_port_txStatus (s : State) (t : VfType) (f : Flow) : (s.complete t f).port.txStatus = s.port.txStatus := by unfold State.complete; split <;> simp
@[simp] theorem State.complete_port_txData (s : State) (t : VfType) (f : Flow) : (s.complete t f).port.txData = s.port.txData := by unfold State.complete; split <;> simp
@[simp] theorem State.complete_dbg (s : State) (t : VfType) (f : Flow) : (s.complete t f).dbg = s.dbg := by unfold State.complete; split <;> simp
@[simp] theorem State.complete_trace_vf (s : State) (t : VfType) (f : Flow) : (s.complete t f).trace.vf = s.trace.vf := by unfold State.complete; split <;> simp
@[simp] theorem State.complete_trace_prevKind (s : State) (t : VfType) (f : Flow) : (s.complete t f).trace.prevKind = s.trace.prevKind := by unfold State.complete; split <;> simp
@[simp] theorem State.complete_trace_histFlush (s : State) (t : VfType) (f : Flow) : (s.complete t f).trace.histFlush = s.trace.histFlush := by unfold State.complete; split <;> simp
@[simp] theorem State.complete_trace_vsyncChanged (s : State) (t : VfType) (f : Flow) : (s.complete t f).trace.vsyncChanged = s.trace.vsyncChanged := by unfold State.complete; split <;> simp
@[simp] theorem State.complete_trace_lastReports (s : State) (t : VfType) (f : Flow) : (s.complete t f).trace.lastReports = s.trace.lastReports := by unfold State.complete; split <;> simp
@[simp] theorem State.complete_trace_nextVisible (s : State) (t : VfType) (f : Flow) : (s.complete t f).trace.nextVisible = s.trace.nextVisible := by unfold State.complete; split <;> simp
@[simp] theorem State.complete_trace_isctActive (s : State) (t : VfType) (f : Flow) : (s.complete t f).trace.isctActive = s.trace.isctActive := by unfold State.complete; split <;> simp
@[simp] theorem State.complete_trace_isctHold (s : State) (t : VfType) (f : Flow) : (s.complete t f).trace.isctHold = s.trace.isctHold := by unfold State.complete; split <;> simp
@[simp] theorem State.complete_trace_showQueue (s : State) (t : VfType) (f : Flow) : (s.complete t f).trace.showQueue = s.trace.showQueue := by unfold State.complete; split <;> simp
@[simp] theorem State.complete_trace_fetches (s : State) (t : VfType) (f : Flow) : (s.complete t f).trace.fetches = s.trace.fetches := by unfold State.complete; split <;> simp
@[simp] theorem State.complete_lines (s : State) (t : VfType) (f : Flow) : (s.complete t f).lines = s.lines := by unfold State.complete; split <;> simp
@[simp] theorem State.complete_inflight (s : State) (t : VfType) (f : Flow) : (s.complete t f).inflight = s.inflight := by unfold State.complete; split <;> simp
@[simp] theorem State.complete_cycles (s : State) (t : VfType) (f : Flow) : (s.complete t f).cycles = s.cycles := by unfold State.complete; split <;> simp
@[simp] theorem State.complete_traced (s : State) (t : VfType) (f : Flow) : (s.complete t f).traced = s.traced := by unfold State.complete; split <;> simp
@[simp] theorem State.complete_expired (s : State) (t : VfType) (f : Flow) : (s.complete t f).expired = s.expired := by unfold State.complete; split <;> simp
@[simp] theorem State.complete_oracle (s : State) (t : VfType) (f : Flow) : (s.complete t f).oracle = s.oracle := by unfold State.complete; split <;> simp
@[simp] theorem State.complete_faultMap (s : State) (t : VfType) (f : Flow) : (s.complete t f).faultMap = s.faultMap := by unfold State.complete; split <;> simp
@[simp] theorem State.complete_mem (s : State) (t : VfType) (f : Flow) : (s.complete t f).mem = s.mem := by unfold State.complete; split <;> simp
@[simp] theorem State.complete_inputs (s : State) (t : VfType) (f : Flow) : (s.complete t f).inputs = s.inputs := by unfold State.complete; split <;> simp
@[simp] theorem State.complete_out (s : State) (t : VfType) (f : Flow) : (s.complete t f).out = s.out := by unfold State.complete; split <;> simp
@[simp] theorem State.complete_draws (s : State) (t : VfType) (f : Flow) : (s.complete t f).draws = s.draws := by unfold State.complete; split <;> simp

/-! ### completeMarked -/

@[simp] theorem State.completeMarked_cpu_gpr (s : State) : (s.completeMarked).cpu.gpr = s.cpu.gpr := by unfold State.completeMarked; split <;> simp
@[simp] theorem State.completeMarked_cpu_msr (s : State) : (s.completeMarked).cpu.msr = s.cpu.msr := by unfold State.completeMarked; split <;> simp
@[simp] theorem State.completeMarked_cpu_srr0 (s : State) : (s.completeMarked).cpu.srr0 = s.cpu.srr0 := by unfold State.completeMarked; split <;> simp
@[simp] theorem State.completeMarked_cpu_srr1 (s : State) : (s.completeMarked).cpu.srr1 = s.cpu.srr1 := by unfold State.completeMarked; split <;> simp
@[simp] theorem State.completeMarked_cpu_dar (s : State) : (s.completeMarked).cpu.dar = s.cpu.dar := by unfold State.completeMarked; split <;> simp
@[simp] theorem State.completeMarked_cpu_dsisr (s : State) : (s.completeMarked).cpu.dsisr = s.cpu.dsisr := by unfold State.completeMarked; split <;> simp
@[simp] theorem State.completeMarked_spr (s : State) : (s.completeMarked).spr = s.spr := by unfold State.completeMarked; split <;> simp
@[simp] theorem State.completeMarked_port_dpsr (s : State) : (s.completeMarked).port.dpsr = s.port.dpsr := by unfold State.completeMarked; split <;> simp
@[simp] theorem State.completeMarked_port_tecr (s : State) : (s.completeMarked).port.tecr = s.port.tecr := by unfold State.completeMarked; split <;> simp
@[simp] theorem State.completeMarked_port_clockMode (s : State) : (s.completeMarked).port.clockMode = s.port.clockMode := by unfold State.completeMarked; split <;> simp
@[simp] theorem State.completeMarked_port_downloadInProgress (s : State) : (s.completeMarked).port.downloadInProgress = s.port.downloadInProgress := by unfold State.completeMarked; split <;> simp
@[simp] theorem State.completeMarked_port_endRequested (s : State) : (s.completeMarked).port.endRequested = s.port.endRequested := by unfold State.completeMarked; split <;> simp
@[simp] theorem State.completeMarked_port_validData (s : State) : (s.completeMarked).port.validData = s.port.validData := by unfold State.completeMarked; split <;> simp
@[simp] theorem State.completeMarked_port_seqErrPending (s : State) : (s.completeMarked).port.seqErrPending = s.port.seqErrPending := by unfold State.completeMarked; split <;> simp
@[simp] theorem State.completeMarked_port_cpuIntPending (s : State) : (s.completeMarked).port.cpuIntPending = s.port.cpuIntPending := by unfold State.completeMarked; split <;> simp
@[simp] theorem State.completeMarked_port_shifted (s : State) : (s.completeMarked).port.shifted = s.port.shifted := by unfold State.completeMarked; split <;> simp
@[simp] theorem State.completeMarked_port_suppress (s : State) : (s.completeMarked).port.suppress = s.port.suppress := by unfold State.completeMarked; split <;> simp
@[simp] theorem State.completeMarked_port_scanHold (s : State) : (s.completeMarked).port.scanHold = s.port.scanHold := by unfold State.completeMarked; split <;> simp
@[simp] theorem State.completeMarked_port_txStatus (s : State) : (s.completeMarked).port.txStatus = s.port.txStatus := by unfold State.completeMarked; split <;> simp
@[simp] theorem State.completeMarked_port_txData (s : State) : (s.completeMarked).port.txData = s.port.txData := by unfold State.completeMarked; split <;> simp
@[simp] theorem State.completeMarked_dbg (s : State) : (s.completeMarked).dbg = s.dbg := by unfold State.completeMarked; split <;> simp
@[simp] theorem State.completeMarked_trace_vf (s : State) : (s.completeMarked).trace.vf = s.trace.vf := by unfold State.completeMarked; split <;> simp
@[simp] theorem State.completeMarked_trace_prevKind (s : State) : (s.completeMarked).trace.prevKind = s.trace.prevKind := by unfold State.completeMarked; split <;> simp
@[simp] theorem State.completeMarked_trace_histFlush (s : State) : (s.completeMarked).trace.histFlush = s.trace.histFlush := by unfold State.completeMarked; split <;> simp
@[simp] theorem State.completeMarked_trace_vsyncChanged (s : State) : (s.completeMarked).trace.vsyncChanged = s.trace.vsyncChanged := by unfold State.completeMarked; split <;> simp
@[simp] theorem State.completeMarked_trace_lastReports (s : State) : (s.completeMarked).trace.lastReports = s.trace.lastReports := by unfold State.completeMarked; split <;> simp
@[simp] theorem State.completeMarked_trace_nextVisible (s : State) : (s.completeMarked).trace.nextVisible = s.trace.nextVisible := by unfold State.completeMarked; split <;> simp
@[simp] theorem State.completeMarked_trace_isctActive (s : State) : (s.completeMarked).trace.isctActive = s.trace.isctActive := by unfold State.completeMarked; split <;> simp
@[simp] theorem State.completeMarked_trace_isctHold (s : State) : (s.completeMarked).trace.isctHold = s.trace.isctHold := by unfold State.completeMarked; split <;> simp
@[simp] theorem State.completeMarked_trace_showQueue (s : State) : (s.completeMarked).trace.showQueue = s.trace.showQueue := by unfold State.completeMarked; split <;> simp
@[simp] theorem State.completeMarked_trace_fetches (s : State) : (s.completeMarked).trace.fetches = s.trace.fetches := by unfold State.completeMarked; split <;> simp
@[simp] theorem State.completeMarked_lines (s : State) : (s.completeMarked).lines = s.lines := by unfold State.completeMarked; split <;> simp
@[simp] theorem State.completeMarked_inflight (s : State) : (s.completeMarked).inflight = s.inflight := by unfold State.completeMarked; split <;> simp
@[simp] theorem State.completeMarked_cycles (s : State) : (s.completeMarked).cycles = s.cycles := by unfold State.completeMarked; split <;> simp
@[simp] theorem State.completeMarked_traced (s : State) : (s.completeMarked).traced = s.traced := by unfold State.completeMarked; split <;> simp
@[simp] theorem State.completeMarked_expired (s : State) : (s.completeMarked).expired = s.expired := by unfold State.completeMarked; split <;> simp
@[simp] theorem State.completeMarked_oracle (s : State) : (s.completeMarked).oracle = s.oracle := by unfold State.completeMarked; split <;> simp
@[simp] theorem State.completeMarked_faultMap (s : State) : (s.completeMarked).faultMap = s.faultMap := by unfold State.completeMarked; split <;> simp
@[simp] theorem State.completeMarked_mem (s : State) : (s.completeMarked).mem = s.mem := by unfold State.completeMarked; split <;> simp
@[simp] theorem State.completeMarked_inputs (s : State) : (s.completeMarked).inputs = s.inputs := by unfold State.completeMarked; split <;> simp
@[simp] theorem State.completeMarked_out (s : State) : (s.completeMarked).out = s.out := by unfold State.completeMarked; split <;> simp

/-! ### recordEvent -/

@[simp] theorem State.recordEvent_cpu (s : State) (e : Event) : (s.recordEvent e).cpu = s.cpu := rfl
@[simp] theorem State.recordEvent_spr_cmpa (s : State) (e : Event) : (s.recordEvent e).spr.cmpa = s.spr.cmpa := rfl
@[simp] theorem State.recordEvent_spr_cmpb (s : State) (e : Event) : (s.recordEvent e).spr.cmpb = s.spr.cmpb := rfl
@[simp] theorem State.recordEvent_spr_cmpc (s : State) (e : Event) : (s.recordEvent e).spr.cmpc = s.spr.cmpc := rfl
@[simp] theorem State.recordEvent_spr_cmpd (s : State) (e : Event) : (s.recordEvent e).spr.cmpd = s.spr.cmpd := rfl
@[simp] theorem State.recordEvent_spr_cmpe (s : State) (e : Event) : (s.recordEvent e).spr.cmpe = s.spr.cmpe := rfl
@[simp] theorem State.recordEvent_spr_cmpf (s : State) (e : Event) : (s.recordEvent e).spr.cmpf = s.spr.cmpf := rfl
@[simp] theorem State.recordEvent_spr_cmpg (s : State) (e : Event) : (s.recordEvent e).spr.cmpg = s.spr.cmpg := rfl
@[simp] theorem State.recordEvent_spr_cmph (s : State) (e : Event) : (s.recordEvent e).spr.cmph = s.spr.cmph := rfl
@[simp] theorem State.recordEvent_spr_ictrl (s : State) (e : Event) : (s.recordEvent e).spr.ictrl = s.spr.ictrl := rfl
@[simp] theorem State.recordEvent_spr_lctrl1 (s : State) (e : Event) : (s.recordEvent e).spr.lctrl1 = s.spr.lctrl1 := rfl
@[simp] theorem State.recordEvent_spr_lctrl2 (s : State) (e : Event) : (s.recordEvent e).spr.lctrl2 = s.spr.lctrl2 := rfl
@[simp] theorem State.recordEvent_spr_counta (s : State) (e : Event) : (s.recordEvent e).spr.counta = s.spr.counta := rfl
@[simp] theorem State.recordEvent_spr_countb (s : State) (e : Event) : (s.recordEvent e).spr.countb = s.spr.countb := rfl
@[simp] theorem State.recordEvent_spr_der (s : State) (e : Event) : (s.recordEvent e).spr.der = s.spr.der := rfl
@[simp] theorem State.recordEvent_spr_bar (s : State) (e : Event) : (s.recordEvent e).spr.bar = s.spr.bar := rfl
@[simp] theorem State.recordEvent_port (s : State) (e : Event) : (s.recordEvent e).port = s.port := rfl
@[simp] theorem State.recordEvent_dbg (s : State) (e : Event) : (s.recordEvent e).dbg = s.dbg := rfl
@[simp] theorem State.recordEvent_trace (s : State) (e : Event) : (s.recordEvent e).trace = s.trace := rfl
@[simp] theorem State.recordEvent_lines (s : State) (e : Event) : (s.recordEvent e).lines = s.lines := rfl
@[simp] theorem State.recordEvent_ir (s : State) (e : Event) : (s.recordEvent e).ir = s.ir := rfl
@[simp] theorem State.recordEvent_inflight (s : State) (e : Event) : (s.recordEvent e).inflight = s.inflight := rfl
@[simp] theorem State.recordEvent_cycles (s : State) (e : Event) : (s.recordEvent e).cycles = s.cycles := rfl
@[simp] theorem State.recordEvent_outcome (s : State) (e : Event) : (s.recordEvent e).outcome = s.outcome := rfl
@[simp] theorem State.recordEvent_traced (s : State) (e : Event) : (s.recordEvent e).traced = s.traced := rfl
@[simp] theorem State.recordEvent_countersSettled (s : State) (e : Event) : (s.recordEvent e).countersSettled = s.countersSettled := rfl
@[simp] theorem State.recordEvent_expired (s : State) (e : Event) : (s.recordEvent e).expired = s.expired := rfl
@[simp] theorem State.recordEvent_oracle (s : State) (e : Event) : (s.recordEvent e).oracle = s.oracle := rfl
@[simp] theorem State.recordEvent_faultMap (s : State) (e : Event) : (s.recordEvent e).faultMap = s.faultMap := rfl
@[simp] theorem State.recordEvent_mem (s : State) (e : Event) : (s.recordEvent e).mem = s.mem := rfl
@[simp] theorem State.recordEvent_inputs (s : State) (e : Event) : (s.recordEvent e).inputs = s.inputs := rfl
@[simp] theorem State.recordEvent_out (s : State) (e : Event) : (s.recordEvent e).out = s.out := rfl
@[simp] theorem State.recordEvent_draws (s : State) (e : Event) : (s.recordEvent e).draws = s.draws := rfl

/-! ### updateFreeze -/

@[simp] theorem State.updateFreeze_cpu (s : State) : (s.updateFreeze).cpu = s.cpu := by unfold State.updateFreeze; split <;> simp
@[simp] theorem State.updateFreeze_spr (s : State) : (s.updateFreeze).spr = s.spr := by unfold State.updateFreeze; split <;> simp
@[simp] theorem State.updateFreeze_port (s : State) : (s.updateFreeze).port = s.port := by unfold State.updateFreeze; split <;> simp
@[simp] theorem State.updateFreeze_dbg_enable (s : State) : (s.updateFreeze).dbg.enable = s.dbg.enable := by unfold State.updateFreeze; split <;> simp
@[simp] theorem State.updateFreeze_dbg_inDebug (s : State) : (s.updateFreeze).dbg.inDebug = s.dbg.inDebug := by unfold State.updateFreeze; split <;> simp
@[simp] theorem State.updateFreeze_dbg_checkStop (s : State) : (s.updateFreeze).dbg.checkStop = s.dbg.checkStop := by unfold State.updateFreeze; split <;> simp
@[simp] theorem State.updateFreeze_dbg_nonRestartable (s : State) : (s.updateFreeze).dbg.nonRestartable = s.dbg.nonRestartable := by unfold State.updateFreeze; split <;> simp
@[simp] theorem State.updateFreeze_dbg_reservedCommandSeen (s : State) : (s.updateFreeze).dbg.reservedCommandSeen = s.dbg.reservedCommandSeen := by unfold State.updateFreeze; split <;> simp
@[simp] theorem State.updateFreeze_dbg_illegalProgramming (s : State) : (s.updateFreeze).dbg.illegalProgramming = s.dbg.illegalProgramming := by unfold State.updateFreeze; split <;> simp
@[simp] theorem State.updateFreeze_dbg_unalignedSeen (s : State) : (s.updateFreeze).dbg.unalignedSeen = s.dbg.unalignedSeen := by unfold State.updateFreeze; split <;> simp
@[simp] theorem State.updateFreeze_trace (s : State) : (s.updateFreeze).trace = s.trace := by unfold State.updateFreeze; split <;> simp
@[simp] theorem State.updateFreeze_lines (s : State) : (s.updateFreeze).lines = s.lines := by unfold State.updateFreeze; split <;> simp
@[simp] theorem State.updateFreeze_ir (s : State) : (s.updateFreeze).ir = s.ir := by unfold State.updateFreeze; split <;> simp
@[simp] theorem State.updateFreeze_inflight (s : State) : (s.updateFreeze).inflight = s.inflight := by unfold State.updateFreeze; split <;> simp
@[simp] theorem State.updateFreeze_cycles (s : State) : (s.updateFreeze).cycles = s.cycles := by unfold State.updateFreeze; split <;> simp
@[simp] theorem State.updateFreeze_outcome (s : State) : (s.updateFreeze).outcome = s.outcome := by unfold State.updateFreeze; split <;> simp
@[simp] theorem State.updateFreeze_traced (s : State) : (s.updateFreeze).traced = s.traced := by unfold State.updateFreeze; split <;> simp
@[simp] theorem State.updateFreeze_countersSettled (s : State) : (s.updateFreeze).countersSettled = s.countersSettled := by unfold State.updateFreeze; split <;> simp
@[simp] theorem State.updateFreeze_expired (s : State) : (s.updateFreeze).expired = s.expired := by unfold State.updateFreeze; split <;> simp
@[simp] theorem State.updateFreeze_oracle (s : State) : (s.updateFreeze).oracle = s.oracle := by unfold State.updateFreeze; split <;> simp
@[simp] theorem State.updateFreeze_faultMap (s : State) : (s.updateFreeze).faultMap = s.faultMap := by unfold State.updateFreeze; split <;> simp
@[simp] theorem State.updateFreeze_mem (s : State) : (s.updateFreeze).mem = s.mem := by unfold State.updateFreeze; split <;> simp
@[simp] theorem State.updateFreeze_inputs (s : State) : (s.updateFreeze).inputs = s.inputs := by unfold State.updateFreeze; split <;> simp
@[simp] theorem State.updateFreeze_out (s : State) : (s.updateFreeze).out = s.out := by unfold State.updateFreeze; split <;> simp
@[simp] theorem State.updateFreeze_draws (s : State) : (s.updateFreeze).draws = s.draws := by unfold State.updateFreeze; split <;> simp

/-! ### pulseEcrOr -/

@[simp] theorem State.pulseEcrOr_cpu (s : State) : (s.pulseEcrOr).cpu = s.cpu := rfl
@[simp] theorem State.pulseEcrOr_spr (s : State) : (s.pulseEcrOr).spr = s.spr := rfl
@[simp] theorem State.pulseEcrOr_port_dpsr (s : State) : (s.pulseEcrOr).port.dpsr = s.port.dpsr := rfl
@[simp] theorem State.pulseEcrOr_port_tecr (s : State) : (s.pulseEcrOr).port.tecr = s.port.tecr := rfl
@[simp] theorem State.pulseEcrOr_port_clockMode (s : State) : (s.pulseEcrOr).port.clockMode = s.port.clockMode := rfl
@[simp] theorem State.pulseEcrOr_port_downloadInProgress (s : State) : (s.pulseEcrOr).port.downloadInProgress = s.port.downloadInProgress := rfl
@[simp] theorem State.pulseEcrOr_port_endRequested (s : State) : (s.pulseEcrOr).port.endRequested = s.port.endRequested := rfl
@[simp] theorem State.pulseEcrOr_port_downloadStore (s : State) : (s.pulseEcrOr).port.downloadStore = s.port.downloadStore := rfl
@[simp] theorem State.pulseEcrOr_port_validData (s : State) : (s.pulseEcrOr).port.validData = s.port.validData := rfl
@[simp] theorem State.pulseEcrOr_port_seqErrPending (s : State) : (s.pulseEcrOr).port.seqErrPending = s.port.seqErrPending := rfl
@[simp] theorem State.pulseEcrOr_port_cpuWaiting (s : State) : (s.pulseEcrOr).port.cpuWaiting = s.port.cpuWaiting := rfl
@[simp] theorem State.pulseEcrOr_port_shifted (s : State) : (s.pulseEcrOr).port.shifted = s.port.shifted := rfl
@[simp] theorem State.pulseEcrOr_port_suppress (s : State) : (s.pulseEcrOr).port.suppress = s.port.suppress := rfl
@[simp] theorem State.pulseEcrOr_port_scanHold (s : State) : (s.pulseEcrOr).port.scanHold = s.port.scanHold := rfl
@[simp] theorem State.pulseEcrOr_port_txStatus (s : State) : (s.pulseEcrOr).port.txStatus = s.port.txStatus := rfl
@[simp] theorem State.pulseEcrOr_port_txData (s : State) : (s.pulseEcrOr).port.txData = s.port.txData := rfl
@[simp] theorem State.pulseEcrOr_dbg (s : State) : (s.pulseEcrOr).dbg = s.dbg := rfl
@[simp] theorem State.pulseEcrOr_trace (s : State) : (s.pulseEcrOr).trace = s.trace := rfl
@[simp] theorem State.pulseEcrOr_lines (s : State) : (s.pulseEcrOr).lines = s.lines := rfl
@[simp] theorem State.pulseEcrOr_ir (s : State) : (s.pulseEcrOr).ir = s.ir := rfl
@[simp] theorem State.pulseEcrOr_inflight (s : State) : (s.pulseEcrOr).inflight = s.inflight := rfl
@[simp] theorem State.pulseEcrOr_cycles (s : State) : (s.pulseEcrOr).cycles = s.cycles := rfl
@[simp] theorem State.pulseEcrOr_outcome (s : State) : (s.pulseEcrOr).outcome = s.outcome := rfl
@[simp] theorem State.pulseEcrOr_traced (s : State) : (s.pulseEcrOr).traced = s.traced := rfl
@[simp] theorem State.pulseEcrOr_countersSettled (s : State) : (s.pulseEcrOr).countersSettled = s.countersSettled := rfl
@[simp] theorem State.pulseEcrOr_expired (s : State) : (s.pulseEcrOr).expired = s.expired := rfl
@[simp] theorem State.pulseEcrOr_oracle (s : State) : (s.pulseEcrOr).oracle = s.oracle := rfl
@[simp] theorem State.pulseEcrOr_faultMap (s : State) : (s.pulseEcrOr).faultMap = s.faultMap := rfl
@[simp] theorem State.pulseEcrOr_mem (s : State) : (s.pulseEcrOr).mem = s.mem := rfl
@[simp] theorem State.pulseEcrOr_inputs (s : State) : (s.pulseEcrOr).inputs = s.inputs := rfl
@[simp] theorem State.pulseEcrOr_draws (s : State) : (s.pulseEcrOr).draws = s.draws := rfl

/-! ### dropFlight -/

@[simp] theorem State.dropFlight_cpu (s : State) (k : Nat) : (s.dropFlight k).cpu = s.cpu := rfl
@[simp] theorem State.dropFlight_spr (s : State) (k : Nat) : (s.dropFlight k).spr = s.spr := rfl
@[simp] theorem State.dropFlight_port (s : State) (k : Nat) : (s.dropFlight k).port = s.port := rfl
@[simp] theorem State.dropFlight_dbg (s : State) (k : Nat) : (s.dropFlight k).dbg = s.dbg := rfl
@[simp] theorem State.dropFlight_trace_vf (s : State) (k : Nat) : (s.dropFlight k).trace.vf = s.trace.vf := rfl
@[simp] theorem State.dropFlight_trace_prevKind (s : State) (k : Nat) : (s.dropFlight k).trace.prevKind = s.trace.prevKind := rfl
@[simp] theorem State.dropFlight_trace_histFlush (s : State) (k : Nat) : (s.dropFlight k).trace.histFlush = s.trace.histFlush := rfl
@[simp] theorem State.dropFlight_trace_vsyncChanged (s : State) (k : Nat) : (s.dropFlight k).trace.vsyncChanged = s.trace.vsyncChanged := rfl
@[simp] theorem State.dropFlight_trace_lastReports (s : State) (k : Nat) : (s.dropFlight k).trace.lastReports = s.trace.lastReports := rfl
@[simp] theorem State.dropFlight_trace_pending (s : State) (k : Nat) : (s.dropFlight k).trace.pending = s.trace.pending := rfl
@[simp] theorem State.dropFlight_trace_nextFlow (s : State) (k : Nat) : (s.dropFlight k).trace.nextFlow = s.trace.nextFlow := rfl
@[simp] theorem State.dropFlight_trace_nextVisible (s : State) (k : Nat) : (s.dropFlight k).trace.nextVisible = s.trace.nextVisible := rfl
@[simp] theorem State.dropFlight_trace_isctActive (s : State) (k : Nat) : (s.dropFlight k).trace.isctActive = s.trace.isctActive := rfl
@[simp] theorem State.dropFlight_trace_isctHold (s : State) (k : Nat) : (s.dropFlight k).trace.isctHold = s.trace.isctHold := rfl
@[simp] theorem State.dropFlight_trace_fetches (s : State) (k : Nat) : (s.dropFlight k).trace.fetches = s.trace.fetches := rfl
@[simp] theorem State.dropFlight_lines (s : State) (k : Nat) : (s.dropFlight k).lines = s.lines := rfl
@[simp] theorem State.dropFlight_ir (s : State) (k : Nat) : (s.dropFlight k).ir = s.ir := rfl
@[simp] theorem State.dropFlight_cycles (s : State) (k : Nat) : (s.dropFlight k).cycles = s.cycles := rfl
@[simp] theorem State.dropFlight_outcome (s : State) (k : Nat) : (s.dropFlight k).outcome = s.outcome := rfl
@[simp] theorem State.dropFlight_traced (s : State) (k : Nat) : (s.dropFlight k).traced = s.traced := rfl
@[simp] theorem State.dropFlight_countersSettled (s : State) (k : Nat) : (s.dropFlight k).countersSettled = s.countersSettled := rfl
@[simp] theorem State.dropFlight_expired (s : State) (k : Nat) : (s.dropFlight k).expired = s.expired := rfl
@[simp] theorem State.dropFlight_oracle (s : State) (k : Nat) : (s.dropFlight k).oracle = s.oracle := rfl
@[simp] theorem State.dropFlight_faultMap (s : State) (k : Nat) : (s.dropFlight k).faultMap = s.faultMap := rfl
@[simp] theorem State.dropFlight_mem (s : State) (k : Nat) : (s.dropFlight k).mem = s.mem := rfl
@[simp] theorem State.dropFlight_inputs (s : State) (k : Nat) : (s.dropFlight k).inputs = s.inputs := rfl
@[simp] theorem State.dropFlight_out (s : State) (k : Nat) : (s.dropFlight k).out = s.out := rfl

/-! ### cancelFlight -/

@[simp] theorem State.cancelFlight_cpu (s : State) : (s.cancelFlight).cpu = s.cpu := rfl
@[simp] theorem State.cancelFlight_spr (s : State) : (s.cancelFlight).spr = s.spr := rfl
@[simp] theorem State.cancelFlight_port (s : State) : (s.cancelFlight).port = s.port := rfl
@[simp] theorem State.cancelFlight_dbg (s : State) : (s.cancelFlight).dbg = s.dbg := rfl
@[simp] theorem State.cancelFlight_trace_vf (s : State) : (s.cancelFlight).trace.vf = s.trace.vf := rfl
@[simp] theorem State.cancelFlight_trace_prevKind (s : State) : (s.cancelFlight).trace.prevKind = s.trace.prevKind := rfl
@[simp] theorem State.cancelFlight_trace_histFlush (s : State) : (s.cancelFlight).trace.histFlush = s.trace.histFlush := rfl
@[simp] theorem State.cancelFlight_trace_vsyncChanged (s : State) : (s.cancelFlight).trace.vsyncChanged = s.trace.vsyncChanged := rfl
@[simp] theorem State.cancelFlight_trace_lastReports (s : State) : (s.cancelFlight).trace.lastReports = s.trace.lastReports := rfl
@[simp] theorem State.cancelFlight_trace_pending (s : State) : (s.cancelFlight).trace.pending = s.trace.pending := rfl
@[simp] theorem State.cancelFlight_trace_nextFlow (s : State) : (s.cancelFlight).trace.nextFlow = s.trace.nextFlow := rfl
@[simp] theorem State.cancelFlight_trace_nextVisible (s : State) : (s.cancelFlight).trace.nextVisible = s.trace.nextVisible := rfl
@[simp] theorem State.cancelFlight_trace_isctActive (s : State) : (s.cancelFlight).trace.isctActive = s.trace.isctActive := rfl
@[simp] theorem State.cancelFlight_trace_isctHold (s : State) : (s.cancelFlight).trace.isctHold = s.trace.isctHold := rfl
@[simp] theorem State.cancelFlight_trace_fetches (s : State) : (s.cancelFlight).trace.fetches = s.trace.fetches := rfl
@[simp] theorem State.cancelFlight_lines (s : State) : (s.cancelFlight).lines = s.lines := rfl
@[simp] theorem State.cancelFlight_ir (s : State) : (s.cancelFlight).ir = s.ir := rfl
@[simp] theorem State.cancelFlight_cycles (s : State) : (s.cancelFlight).cycles = s.cycles := rfl
@[simp] theorem State.cancelFlight_outcome (s : State) : (s.cancelFlight).outcome = s.outcome := rfl
@[simp] theorem State.cancelFlight_traced (s : State) : (s.cancelFlight).traced = s.traced := rfl
@[simp] theorem State.cancelFlight_countersSettled (s : State) : (s.cancelFlight).countersSettled = s.countersSettled := rfl
@[simp] theorem State.cancelFlight_expired (s : State) : (s.cancelFlight).expired = s.expired := rfl
@[simp] theorem State.cancelFlight_oracle (s : State) : (s.cancelFlight).oracle = s.oracle := rfl
@[simp] theorem State.cancelFlight_faultMap (s : State) : (s.cancelFlight).faultMap = s.faultMap := rfl
@[simp] theorem State.cancelFlight_mem (s : State) : (s.cancelFlight).mem = s.mem := rfl
@[simp] theorem State.cancelFlight_inputs (s : State) : (s.cancelFlight).inputs = s.inputs := rfl
@[simp] theorem State.cancelFlight_out (s : State) : (s.cancelFlight).out = s.out := rfl

/-! ### closeSlot -/

@[simp] theorem State.closeSlot_cpu (s : State) : (s.closeSlot).cpu = s.cpu := by unfold State.closeSlot; split <;> simp
@[simp] theorem State.closeSlot_spr (s : State) : (s.closeSlot).spr = s.spr := by unfold State.closeSlot; split <;> simp
@[simp] theorem State.closeSlot_port (s : State) : (s.closeSlot).port = s.port := by unfold State.closeSlot; split <;> simp
@[simp] theorem State.closeSlot_dbg (s : State) : (s.closeSlot).dbg = s.dbg := by unfold State.closeSlot; split <;> simp
@[simp] theorem State.closeSlot_trace_histFlush (s : State) : (s.closeSlot).trace.histFlush = s.trace.histFlush := by unfold State.closeSlot; split <;> simp
@[simp] theorem State.closeSlot_trace_vsyncChanged (s : State) : (s.closeSlot).trace.vsyncChanged = s.trace.vsyncChanged := by unfold State.closeSlot; split <;> simp
@[simp] theorem State.closeSlot_trace_lastReports (s : State) : (s.closeSlot).trace.lastReports = s.trace.lastReports := by unfold State.closeSlot; split <;> simp
@[simp] theorem State.closeSlot_trace_pending (s : State) : (s.closeSlot).trace.pending = s.trace.pending := by unfold State.closeSlot; split <;> simp
@[simp] theorem State.closeSlot_trace_nextFlow (s : State) : (s.closeSlot).trace.nextFlow = s.trace.nextFlow := by unfold State.closeSlot; split <;> simp
@[simp] theorem State.closeSlot_trace_nextVisible (s : State) : (s.closeSlot).trace.nextVisible = s.trace.nextVisible := by unfold State.closeSlot; split <;> simp
@[simp] theorem State.closeSlot_trace_isctActive (s : State) : (s.closeSlot).trace.isctActive = s.trace.isctActive := by unfold State.closeSlot; split <;> simp
@[simp] theorem State.closeSlot_trace_isctHold (s : State) : (s.closeSlot).trace.isctHold = s.trace.isctHold := by unfold State.closeSlot; split <;> simp
@[simp] theorem State.closeSlot_trace_showQueue (s : State) : (s.closeSlot).trace.showQueue = s.trace.showQueue := by unfold State.closeSlot; split <;> simp
@[simp] theorem State.closeSlot_trace_fetches (s : State) : (s.closeSlot).trace.fetches = s.trace.fetches := by unfold State.closeSlot; split <;> simp
@[simp] theorem State.closeSlot_lines (s : State) : (s.closeSlot).lines = s.lines := by unfold State.closeSlot; split <;> simp
@[simp] theorem State.closeSlot_ir (s : State) : (s.closeSlot).ir = s.ir := by unfold State.closeSlot; split <;> simp
@[simp] theorem State.closeSlot_inflight (s : State) : (s.closeSlot).inflight = s.inflight := by unfold State.closeSlot; split <;> simp
@[simp] theorem State.closeSlot_cycles (s : State) : (s.closeSlot).cycles = s.cycles := by unfold State.closeSlot; split <;> simp
@[simp] theorem State.closeSlot_outcome (s : State) : (s.closeSlot).outcome = s.outcome := by unfold State.closeSlot; split <;> simp
@[simp] theorem State.closeSlot_traced (s : State) : (s.closeSlot).traced = s.traced := by unfold State.closeSlot; split <;> simp
@[simp] theorem State.closeSlot_countersSettled (s : State) : (s.closeSlot).countersSettled = s.countersSettled := by unfold State.closeSlot; split <;> simp
@[simp] theorem State.closeSlot_expired (s : State) : (s.closeSlot).expired = s.expired := by unfold State.closeSlot; split <;> simp
@[simp] theorem State.closeSlot_oracle (s : State) : (s.closeSlot).oracle = s.oracle := by unfold State.closeSlot; split <;> simp
@[simp] theorem State.closeSlot_faultMap (s : State) : (s.closeSlot).faultMap = s.faultMap := by unfold State.closeSlot; split <;> simp
@[simp] theorem State.closeSlot_mem (s : State) : (s.closeSlot).mem = s.mem := by unfold State.closeSlot; split <;> simp
@[simp] theorem State.closeSlot_inputs (s : State) : (s.closeSlot).inputs = s.inputs := by unfold State.closeSlot; split <;> simp

/-! ### enterDebug -/

@[simp] theorem State.enterDebug_cpu_gpr (s : State) (r : Word) (x : Srr1) : (s.enterDebug r x).cpu.gpr = s.cpu.gpr := by unfold State.enterDebug; simp
@[simp] theorem State.enterDebug_cpu_pc (s : State) (r : Word) (x : Srr1) : (s.enterDebug r x).cpu.pc = s.cpu.pc := by unfold State.enterDebug; simp
@[simp] theorem State.enterDebug_cpu_dar (s : State) (r : Word) (x : Srr1) : (s.enterDebug r x).cpu.dar = s.cpu.dar := by unfold State.enterDebug; simp
@[simp] theorem State.enterDebug_cpu_dsisr (s : State) (r : Word) (x : Srr1) : (s.enterDebug r x).cpu.dsisr = s.cpu.dsisr := by unfold State.enterDebug; simp
@[simp] theorem State.enterDebug_spr (s : State) (r : Word) (x : Srr1) : (s.enterDebug r x).spr = s.spr := by unfold State.enterDebug; simp
@[simp] theorem State.enterDebug_port_dpsr (s : State) (r : Word) (x : Srr1) : (s.enterDebug r x).port.dpsr = s.port.dpsr := by unfold State.enterDebug; simp
@[simp] theorem State.enterDebug_port_tecr (s : State) (r : Word) (x : Srr1) : (s.enterDebug r x).port.tecr = s.port.tecr := by unfold State.enterDebug; simp
@[simp] theorem State.enterDebug_port_clockMode (s : State) (r : Word) (x : Srr1) : (s.enterDebug r x).port.clockMode = s.port.clockMode := by unfold State.enterDebug; simp
@[simp] theorem State.enterDebug_port_downloadInProgress (s : State) (r : Word) (x : Srr1) : (s.enterDebug r x).port.downloadInProgress = s.port.downloadInProgress := by unfold State.enterDebug; simp
@[simp] theorem State.enterDebug_port_endRequested (s : State) (r : Word) (x : Srr1) : (s.enterDebug r x).port.endRequested = s.port.endRequested := by unfold State.enterDebug; simp
@[simp] theorem State.enterDebug_port_validData (s : State) (r : Word) (x : Srr1) : (s.enterDebug r x).port.validData = s.port.validData := by unfold State.enterDebug; simp
@[simp] theorem State.enterDebug_port_seqErrPending (s : State) (r : Word) (x : Srr1) : (s.enterDebug r x).port.seqErrPending = s.port.seqErrPending := by unfold State.enterDebug; simp
@[simp] theorem State.enterDebug_port_cpuIntPending (s : State) (r : Word) (x : Srr1) : (s.enterDebug r x).port.cpuIntPending = s.port.cpuIntPending := by unfold State.enterDebug; simp
@[simp] theorem State.enterDebug_port_shifted (s : State) (r : Word) (x : Srr1) : (s.enterDebug r x).port.shifted = s.port.shifted := by unfold State.enterDebug; simp
@[simp] theorem State.enterDebug_port_suppress (s : State) (r : Word) (x : Srr1) : (s.enterDebug r x).port.suppress = s.port.suppress := by unfold State.enterDebug; simp
@[simp] theorem State.enterDebug_port_scanHold (s : State) (r : Word) (x : Srr1) : (s.enterDebug r x).port.scanHold = s.port.scanHold := by unfold State.enterDebug; simp
@[simp] theorem State.enterDebug_port_txStatus (s : State) (r : Word) (x : Srr1) : (s.enterDebug r x).port.txStatus = s.port.txStatus := by unfold State.enterDebug; simp
@[simp] theorem State.enterDebug_port_txData (s : State) (r : Word) (x : Srr1) : (s.enterDebug r x).port.txData = s.port.txData := by unfold State.enterDebug; simp
@[simp] theorem State.enterDebug_dbg_enable (s : State) (r : Word) (x : Srr1) : (s.enterDebug r x).dbg.enable = s.dbg.enable := by unfold State.enterDebug; simp
@[simp] theorem State.enterDebug_dbg_checkStop (s : State) (r : Word) (x : Srr1) : (s.enterDebug r x).dbg.checkStop = s.dbg.checkStop := by unfold State.enterDebug; simp
@[simp] theorem State.enterDebug_dbg_nonRestartable (s : State) (r : Word) (x : Srr1) : (s.enterDebug r x).dbg.nonRestartable = s.dbg.nonRestartable := by unfold State.enterDebug; simp
@[simp] theorem State.enterDebug_dbg_reservedCommandSeen (s : State) (r : Word) (x : Srr1) : (s.enterDebug r x).dbg.reservedCommandSeen = s.dbg.reservedCommandSeen := by unfold State.enterDebug; simp
@[simp] theorem State.enterDebug_dbg_illegalProgramming (s : State) (r : Word) (x : Srr1) : (s.enterDebug r x).dbg.illegalProgramming = s.dbg.illegalProgramming := by unfold State.enterDebug; simp
@[simp] theorem State.enterDebug_dbg_unalignedSeen (s : State) (r : Word) (x : Srr1) : (s.enterDebug r x).dbg.unalignedSeen = s.dbg.unalignedSeen := by unfold State.enterDebug; simp
@[simp] theorem State.enterDebug_trace_histFlush (s : State) (r : Word) (x : Srr1) : (s.enterDebug r x).trace.histFlush = s.trace.histFlush := by unfold State.enterDebug; simp
@[simp] theorem State.enterDebug_trace_vsyncChanged (s : State) (r : Word) (x : Srr1) : (s.enterDebug r x).trace.vsyncChanged = s.trace.vsyncChanged := by unfold State.enterDebug; simp
@[simp] theorem State.enterDebug_trace_lastReports (s : State) (r : Word) (x : Srr1) : (s.enterDebug r x).trace.lastReports = 0 := by unfold State.enterDebug; simp
@[simp] theorem State.enterDebug_trace_nextFlow (s : State) (r : Word) (x : Srr1) : (s.enterDebug r x).trace.nextFlow = s.trace.nextFlow := by unfold State.enterDebug; simp
@[simp] theorem State.enterDebug_trace_nextVisible (s : State) (r : Word) (x : Srr1) : (s.enterDebug r x).trace.nextVisible = s.trace.nextVisible := by unfold State.enterDebug; simp
@[simp] theorem State.enterDebug_trace_isctActive (s : State) (r : Word) (x : Srr1) : (s.enterDebug r x).trace.isctActive = s.trace.isctActive := by unfold State.enterDebug; simp
@[simp] theorem State.enterDebug_trace_isctHold (s : State) (r : Word) (x : Srr1) : (s.enterDebug r x).trace.isctHold = s.trace.isctHold := by unfold State.enterDebug; simp
@[simp] theorem State.enterDebug_lines (s : State) (r : Word) (x : Srr1) : (s.enterDebug r x).lines = s.lines := by unfold State.enterDebug; simp
@[simp] theorem State.enterDebug_cycles (s : State) (r : Word) (x : Srr1) : (s.enterDebug r x).cycles = s.cycles := by unfold State.enterDebug; simp
@[simp] theorem State.enterDebug_outcome (s : State) (r : Word) (x : Srr1) : (s.enterDebug r x).outcome = s.outcome := by unfold State.enterDebug; simp
@[simp] theorem State.enterDebug_traced (s : State) (r : Word) (x : Srr1) : (s.enterDebug r x).traced = s.traced := by unfold State.enterDebug; simp
@[simp] theorem State.enterDebug_oracle (s : State) (r : Word) (x : Srr1) : (s.enterDebug r x).oracle = s.oracle := by unfold State.enterDebug; simp
@[simp] theorem State.enterDebug_faultMap (s : State) (r : Word) (x : Srr1) : (s.enterDebug r x).faultMap = s.faultMap := by unfold State.enterDebug; simp
@[simp] theorem State.enterDebug_mem (s : State) (r : Word) (x : Srr1) : (s.enterDebug r x).mem = s.mem := by unfold State.enterDebug; simp
@[simp] theorem State.enterDebug_inputs (s : State) (r : Word) (x : Srr1) : (s.enterDebug r x).inputs = s.inputs := by unfold State.enterDebug; simp

/-! ### regularEntry -/

@[simp] theorem State.regularEntry_cpu_gpr (s : State) (e : Event) (r : Word) (x : Srr1) : (s.regularEntry e r x).cpu.gpr = s.cpu.gpr := rfl
@[simp] theorem State.regularEntry_cpu_dar (s : State) (e : Event) (r : Word) (x : Srr1) : (s.regularEntry e r x).cpu.dar = s.cpu.dar := rfl
@[simp] theorem State.regularEntry_cpu_dsisr (s : State) (e : Event) (r : Word) (x : Srr1) : (s.regularEntry e r x).cpu.dsisr = s.cpu.dsisr := rfl
@[simp] theorem State.regularEntry_spr (s : State) (e : Event) (r : Word) (x : Srr1) : (s.regularEntry e r x).spr = s.spr := rfl
@[simp] theorem State.regularEntry_port (s : State) (e : Event) (r : Word) (x : Srr1) : (s.regularEntry e r x).port = s.port := rfl
@[simp] theorem State.regularEntry_dbg (s : State) (e : Event) (r : Word) (x : Srr1) : (s.regularEntry e r x).dbg = s.dbg := rfl
@[simp] theorem State.regularEntry_trace_vf (s : State) (e : Event) (r : Word) (x : Srr1) : (s.regularEntry e r x).trace.vf = s.trace.vf := rfl
@[simp] theorem State.regularEntry_trace_prevKind (s : State) (e : Event) (r : Word) (x : Srr1) : (s.regularEntry e r x).trace.prevKind = s.trace.prevKind := rfl
@[simp] theorem State.regularEntry_trace_histFlush (s : State) (e : Event) (r : Word) (x : Srr1) : (s.regularEntry e r x).trace.histFlush = s.trace.histFlush := rfl
@[simp] theorem State.regularEntry_trace_vsyncChanged (s : State) (e : Event) (r : Word) (x : Srr1) : (s.regularEntry e r x).trace.vsyncChanged = s.trace.vsyncChanged := rfl
@[simp] theorem State.regularEntry_trace_lastReports (s : State) (e : Event) (r : Word) (x : Srr1) : (s.regularEntry e r x).trace.lastReports = s.trace.lastReports := rfl
@[simp] theorem State.regularEntry_trace_nextVisible (s : State) (e : Event) (r : Word) (x : Srr1) : (s.regularEntry e r x).trace.nextVisible = s.trace.nextVisible := rfl
@[simp] theorem State.regularEntry_trace_isctActive (s : State) (e : Event) (r : Word) (x : Srr1) : (s.regularEntry e r x).trace.isctActive = s.trace.isctActive := rfl
@[simp] theorem State.regularEntry_trace_isctHold (s : State) (e : Event) (r : Word) (x : Srr1) : (s.regularEntry e r x).trace.isctHold = s.trace.isctHold := rfl
@[simp] theorem State.regularEntry_trace_fetches (s : State) (e : Event) (r : Word) (x : Srr1) : (s.regularEntry e r x).trace.fetches = s.trace.fetches := rfl
@[simp] theorem State.regularEntry_lines (s : State) (e : Event) (r : Word) (x : Srr1) : (s.regularEntry e r x).lines = s.lines := rfl
@[simp] theorem State.regularEntry_ir (s : State) (e : Event) (r : Word) (x : Srr1) : (s.regularEntry e r x).ir = s.ir := rfl
@[simp] theorem State.regularEntry_cycles (s : State) (e : Event) (r : Word) (x : Srr1) : (s.regularEntry e r x).cycles = s.cycles := rfl
@[simp] theorem State.regularEntry_outcome (s : State) (e : Event) (r : Word) (x : Srr1) : (s.regularEntry e r x).outcome = s.outcome := rfl
@[simp] theorem State.regularEntry_traced (s : State) (e : Event) (r : Word) (x : Srr1) : (s.regularEntry e r x).traced = s.traced := rfl
@[simp] theorem State.regularEntry_oracle (s : State) (e : Event) (r : Word) (x : Srr1) : (s.regularEntry e r x).oracle = s.oracle := rfl
@[simp] theorem State.regularEntry_faultMap (s : State) (e : Event) (r : Word) (x : Srr1) : (s.regularEntry e r x).faultMap = s.faultMap := rfl
@[simp] theorem State.regularEntry_mem (s : State) (e : Event) (r : Word) (x : Srr1) : (s.regularEntry e r x).mem = s.mem := rfl
@[simp] theorem State.regularEntry_inputs (s : State) (e : Event) (r : Word) (x : Srr1) : (s.regularEntry e r x).inputs = s.inputs := rfl
@[simp] theorem State.regularEntry_out (s : State) (e : Event) (r : Word) (x : Srr1) : (s.regularEntry e r x).out = s.out := rfl

/-! ### enterCheckStop -/

@[simp] theorem State.enterCheckStop_cpu (s : State) : (s.enterCheckStop).cpu = s.cpu := rfl
@[simp] theorem State.enterCheckStop_spr (s : State) : (s.enterCheckStop).spr = s.spr := rfl
@[simp] theorem State.enterCheckStop_port (s : State) : (s.enterCheckStop).port = s.port := rfl
@[simp] theorem State.enterCheckStop_dbg_enable (s : State) : (s.enterCheckStop).dbg.enable = s.dbg.enable := rfl
@[simp] theorem State.enterCheckStop_dbg_inDebug (s : State) : (s.enterCheckStop).dbg.inDebug = s.dbg.inDebug := rfl
@[simp] theorem State.enterCheckStop_dbg_freeze (s : State) : (s.enterCheckStop).dbg.freeze = s.dbg.freeze := rfl
@[simp] theorem State.enterCheckStop_dbg_nonRestartable (s : State) : (s.enterCheckStop).dbg.nonRestartable = s.dbg.nonRestartable := rfl
@[simp] theorem State.enterCheckStop_dbg_reservedCommandSeen (s : State) : (s.enterCheckStop).dbg.reservedCommandSeen = s.dbg.reservedCommandSeen := rfl
@[simp] theorem State.enterCheckStop_dbg_illegalProgramming (s : State) : (s.enterCheckStop).dbg.illegalProgramming = s.dbg.illegalProgramming := rfl
@[simp] theorem State.enterCheckStop_dbg_unalignedSeen (s : State) : (s.enterCheckStop).dbg.unalignedSeen = s.dbg.unalignedSeen := rfl
@[simp] theorem State.enterCheckStop_trace_vf (s : State) : (s.enterCheckStop).trace.vf = s.trace.vf := rfl
@[simp] theorem State.enterCheckStop_trace_prevKind (s : State) : (s.enterCheckStop).trace.prevKind = s.trace.prevKind := rfl
@[simp] theorem State.enterCheckStop_trace_histFlush (s : State) : (s.enterCheckStop).trace.histFlush = s.trace.histFlush := rfl
@[simp] theorem State.enterCheckStop_trace_vsyncChanged (s : State) : (s.enterCheckStop).trace.vsyncChanged = s.trace.vsyncChanged := rfl
@[simp] theorem State.enterCheckStop_trace_lastReports (s : State) : (s.enterCheckStop).trace.lastReports = s.trace.lastReports := rfl
@[simp] theorem State.enterCheckStop_trace_pending (s : State) : (s.enterCheckStop).trace.pending = s.trace.pending := rfl
@[simp] theorem State.enterCheckStop_trace_nextFlow (s : State) : (s.enterCheckStop).trace.nextFlow = s.trace.nextFlow := rfl
@[simp] theorem State.enterCheckStop_trace_nextVisible (s : State) : (s.enterCheckStop).trace.nextVisible = s.trace.nextVisible := rfl
@[simp] theorem State.enterCheckStop_trace_isctActive (s : State) : (s.enterCheckStop).trace.isctActive = s.trace.isctActive := rfl
@[simp] theorem State.enterCheckStop_trace_isctHold (s : State) : (s.enterCheckStop).trace.isctHold = s.trace.isctHold := rfl
@[simp] theorem State.enterCheckStop_trace_fetches (s : State) : (s.enterCheckStop).trace.fetches = s.trace.fetches := rfl
@[simp] theorem State.enterCheckStop_lines (s : State) : (s.enterCheckStop).lines = s.lines := rfl
@[simp] theorem State.enterCheckStop_ir (s : State) : (s.enterCheckStop).ir = s.ir := rfl
@[simp] theorem State.enterCheckStop_cycles (s : State) : (s.enterCheckStop).cycles = s.cycles := rfl
@[simp] theorem State.enterCheckStop_outcome (s : State) : (s.enterCheckStop).outcome = s.outcome := rfl
@[simp] theorem State.enterCheckStop_traced (s : State) : (s.enterCheckStop).traced = s.traced := rfl
@[simp] theorem State.enterCheckStop_countersSettled (s : State) : (s.enterCheckStop).countersSettled = s.countersSettled := rfl
@[simp] theorem State.enterCheckStop_expired (s : State) : (s.enterCheckStop).expired = s.expired := rfl
@[simp] theorem State.enterCheckStop_oracle (s : State) : (s.enterCheckStop).oracle = s.oracle := rfl
@[simp] theorem State.enterCheckStop_faultMap (s : State) : (s.enterCheckStop).faultMap = s.faultMap := rfl
@[simp] theorem State.enterCheckStop_mem (s : State) : (s.enterCheckStop).mem = s.mem := rfl
@[simp] theorem State.enterCheckStop_inputs (s : State) : (s.enterCheckStop).inputs = s.inputs := rfl
@[simp] theorem State.enterCheckStop_out (s : State) : (s.enterCheckStop).out = s.out := rfl

/-! ### routeEvent -/

@[simp] theorem State.routeEvent_cpu_gpr (s : State) (e : Event) (r : Word) (x : Srr1) : (s.routeEvent e r x).cpu.gpr = s.cpu.gpr := by unfold State.routeEvent; (repeat' split) <;> simp
@[simp] theorem State.routeEvent_cpu_dar (s : State) (e : Event) (r : Word) (x : Srr1) : (s.routeEvent e r x).cpu.dar = s.cpu.dar := by unfold State.routeEvent; (repeat' split) <;> simp
@[simp] theorem State.routeEvent_cpu_dsisr (s : State) (e : Event) (r : Word) (x : Srr1) : (s.routeEvent e r x).cpu.dsisr = s.cpu.dsisr := by unfold State.routeEvent; (repeat' split) <;> simp
@[simp] theorem State.routeEvent_spr (s : State) (e : Event) (r : Word) (x : Srr1) : (s.routeEvent e r x).spr = s.spr := by unfold State.routeEvent; (repeat' split) <;> simp
@[simp] theorem State.routeEvent_port_dpsr (s : State) (e : Event) (r : Word) (x : Srr1) : (s.routeEvent e r x).port.dpsr = s.port.dpsr := by unfold State.routeEvent; (repeat' split) <;> simp
@[simp] theorem State.routeEvent_port_tecr (s : State) (e : Event) (r : Word) (x : Srr1) : (s.routeEvent e r x).port.tecr = s.port.tecr := by unfold State.routeEvent; (repeat' split) <;> simp
@[simp] theorem State.routeEvent_port_clockMode (s : State) (e : Event) (r : Word) (x : Srr1) : (s.routeEvent e r x).port.clockMode = s.port.clockMode := by unfold State.routeEvent; (repeat' split) <;> simp
@[simp] theorem State.routeEvent_port_downloadInProgress (s : State) (e : Event) (r : Word) (x : Srr1) : (s.routeEvent e r x).port.downloadInProgress = s.port.downloadInProgress := by unfold State.routeEvent; (repeat' split) <;> simp
@[simp] theorem State.routeEvent_port_endRequested (s : State) (e : Event) (r : Word) (x : Srr1) : (s.routeEvent e r x).port.endRequested = s.port.endRequested := by unfold State.routeEvent; (repeat' split) <;> simp
@[simp] theorem State.routeEvent_port_validData (s : State) (e : Event) (r : Word) (x : Srr1) : (s.routeEvent e r x).port.validData = s.port.validData := by unfold State.routeEvent; (repeat' split) <;> simp
@[simp] theorem State.routeEvent_port_seqErrPending (s : State) (e : Event) (r : Word) (x : Srr1) : (s.routeEvent e r x).port.seqErrPending = s.port.seqErrPending := by unfold State.routeEvent; (repeat' split) <;> simp
@[simp] theorem State.routeEvent_port_cpuIntPending (s : State) (e : Event) (r : Word) (x : Srr1) : (s.routeEvent e r x).port.cpuIntPending = s.port.cpuIntPending := by unfold State.routeEvent; (repeat' split) <;> simp
@[simp] theorem State.routeEvent_port_shifted (s : State) (e : Event) (r : Word) (x : Srr1) : (s.routeEvent e r x).port.shifted = s.port.shifted := by unfold State.routeEvent; (repeat' split) <;> simp
@[simp] theorem State.routeEvent_port_suppress (s : State) (e : Event) (r : Word) (x : Srr1) : (s.routeEvent e r x).port.suppress = s.port.suppress := by unfold State.routeEvent; (repeat' split) <;> simp
@[simp] theorem State.routeEvent_port_scanHold (s : State) (e : Event) (r : Word) (x : Srr1) : (s.routeEvent e r x).port.scanHold = s.port.scanHold := by unfold State.routeEvent; (repeat' split) <;> simp
@[simp] theorem State.routeEvent_port_txStatus (s : State) (e : Event) (r : Word) (x : Srr1) : (s.routeEvent e r x).port.txStatus = s.port.txStatus := by unfold State.routeEvent; (repeat' split) <;> simp
@[simp] theorem State.routeEvent_port_txData (s : State) (e : Event) (r : Word) (x : Srr1) : (s.routeEvent e r x).port.txData = s.port.txData := by unfold State.routeEvent; (repeat' split) <;> simp
@[simp] theorem State.routeEvent_dbg_enable (s : State) (e : Event) (r : Word) (x : Srr1) : (s.routeEvent e r x).dbg.enable = s.dbg.enable := by unfold State.routeEvent; (repeat' split) <;> simp
@[simp] theorem State.routeEvent_dbg_nonRestartable (s : State) (e : Event) (r : Word) (x : Srr1) : (s.routeEvent e r x).dbg.nonRestartable = s.dbg.nonRestartable := by unfold State.routeEvent; (repeat' split) <;> simp
@[simp] theorem State.routeEvent_dbg_reservedCommandSeen (s : State) (e : Event) (r : Word) (x : Srr1) : (s.routeEvent e r x).dbg.reservedCommandSeen = s.dbg.reservedCommandSeen := by unfold State.routeEvent; (repeat' split) <;> simp
@[simp] theorem State.routeEvent_dbg_illegalProgramming (s : State) (e : Event) (r : Word) (x : Srr1) : (s.routeEvent e r x).dbg.illegalProgramming = s.dbg.illegalProgramming := by unfold State.routeEvent; (repeat' split) <;> simp
@[simp] theorem State.routeEvent_dbg_unalignedSeen (s : State) (e : Event) (r : Word) (x : Srr1) : (s.routeEvent e r x).dbg.unalignedSeen = s.dbg.unalignedSeen := by unfold State.routeEvent; (repeat' split) <;> simp
@[simp] theorem State.routeEvent_trace_histFlush (s : State) (e : Event) (r : Word) (x : Srr1) : (s.routeEvent e r x).trace.histFlush = s.trace.histFlush := by unfold State.routeEvent; (repeat' split) <;> simp
@[simp] theorem State.routeEvent_trace_vsyncChanged (s : State) (e : Event) (r : Word) (x : Srr1) : (s.routeEvent e r x).trace.vsyncChanged = s.trace.vsyncChanged := by unfold State.routeEvent; (repeat' split) <;> simp
@[simp] theorem State.routeEvent_trace_nextVisible (s : State) (e : Event) (r : Word) (x : Srr1) : (s.routeEvent e r x).trace.nextVisible = s.trace.nextVisible := by unfold State.routeEvent; (repeat' split) <;> simp
@[simp] theorem State.routeEvent_trace_isctActive (s : State) (e : Event) (r : Word) (x : Srr1) : (s.routeEvent e r x).trace.isctActive = s.trace.isctActive := by unfold State.routeEvent; (repeat' split) <;> simp
@[simp] theorem State.routeEvent_trace_isctHold (s : State) (e : Event) (r : Word) (x : Srr1) : (s.routeEvent e r x).trace.isctHold = s.trace.isctHold := by unfold State.routeEvent; (repeat' split) <;> simp
@[simp] theorem State.routeEvent_lines (s : State) (e : Event) (r : Word) (x : Srr1) : (s.routeEvent e r x).lines = s.lines := by unfold State.routeEvent; (repeat' split) <;> simp
@[simp] theorem State.routeEvent_cycles (s : State) (e : Event) (r : Word) (x : Srr1) : (s.routeEvent e r x).cycles = s.cycles := by unfold State.routeEvent; (repeat' split) <;> simp
@[simp] theorem State.routeEvent_outcome (s : State) (e : Event) (r : Word) (x : Srr1) : (s.routeEvent e r x).outcome = s.outcome := by unfold State.routeEvent; (repeat' split) <;> simp
@[simp] theorem State.routeEvent_traced (s : State) (e : Event) (r : Word) (x : Srr1) : (s.routeEvent e r x).traced = s.traced := by unfold State.routeEvent; (repeat' split) <;> simp
@[simp] theorem State.routeEvent_oracle (s : State) (e : Event) (r : Word) (x : Srr1) : (s.routeEvent e r x).oracle = s.oracle := by unfold State.routeEvent; (repeat' split) <;> simp
@[simp] theorem State.routeEvent_faultMap (s : State) (e : Event) (r : Word) (x : Srr1) : (s.routeEvent e r x).faultMap = s.faultMap := by unfold State.routeEvent; (repeat' split) <;> simp
@[simp] theorem State.routeEvent_mem (s : State) (e : Event) (r : Word) (x : Srr1) : (s.routeEvent e r x).mem = s.mem := by unfold State.routeEvent; (repeat' split) <;> simp
@[simp] theorem State.routeEvent_inputs (s : State) (e : Event) (r : Word) (x : Srr1) : (s.routeEvent e r x).inputs = s.inputs := by unfold State.routeEvent; (repeat' split) <;> simp

/-! ### portBusError -/

@[simp] theorem State.portBusError_cpu (s : State) : (s.portBusError).cpu = s.cpu := by unfold State.portBusError; simp
@[simp] theorem State.portBusError_spr_cmpa (s : State) : (s.portBusError).spr.cmpa = s.spr.cmpa := by unfold State.portBusError; simp
@[simp] theorem State.portBusError_spr_cmpb (s : State) : (s.portBusError).spr.cmpb = s.spr.cmpb := by unfold State.portBusError; simp
@[simp] theorem State.portBusError_spr_cmpc (s : State) : (s.portBusError).spr.cmpc = s.spr.cmpc := by unfold State.portBusError; simp
@[simp] theorem State.portBusError_spr_cmpd (s : State) : (s.portBusError).spr.cmpd = s.spr.cmpd := by unfold State.portBusError; simp
@[simp] theorem State.portBusError_spr_cmpe (s : State) : (s.portBusError).spr.cmpe = s.spr.cmpe := by unfold State.portBusError; simp
@[simp] theorem State.portBusError_spr_cmpf (s : State) : (s.portBusError).spr.cmpf = s.spr.cmpf := by unfold State.portBusError; simp
@[simp] theorem State.portBusError_spr_cmpg (s : State) : (s.portBusError).spr.cmpg = s.spr.cmpg := by unfold State.portBusError; simp
@[simp] theorem State.portBusError_spr_cmph (s : State) : (s.portBusError).spr.cmph = s.spr.cmph := by unfold State.portBusError; simp
@[simp] theorem State.portBusError_spr_ictrl (s : State) : (s.portBusError).spr.ictrl = s.spr.ictrl := by unfold State.portBusError; simp
@[simp] theorem State.portBusError_spr_lctrl1 (s : State) : (s.portBusError).spr.lctrl1 = s.spr.lctrl1 := by unfold State.portBusError; simp
@[simp] theorem State.portBusError_spr_lctrl2 (s : State) : (s.portBusError).spr.lctrl2 = s.spr.lctrl2 := by unfold State.portBusError; simp
@[simp] theorem State.portBusError_spr_counta (s : State) : (s.portBusError).spr.counta = s.spr.counta := by unfold State.portBusError; simp
@[simp] theorem State.portBusError_spr_countb (s : State) : (s.portBusError).spr.countb = s.spr.countb := by unfold State.portBusError; simp
@[simp] theorem State.portBusError_spr_der (s : State) : (s.portBusError).spr.der = s.spr.der := by unfold State.portBusError; simp
@[simp] theorem State.portBusError_spr_bar (s : State) : (s.portBusError).spr.bar = s.spr.bar := by unfold State.portBusError; simp
@[simp] theorem State.portBusError_port_dpsr (s : State) : (s.portBusError).port.dpsr = s.port.dpsr := by unfold State.portBusError; simp
@[simp] theorem State.portBusError_port_tecr (s : State) : (s.portBusError).port.tecr = s.port.tecr := by unfold State.portBusError; simp
@[simp] theorem State.portBusError_port_clockMode (s : State) : (s.portBusError).port.clockMode = s.port.clockMode := by unfold State.portBusError; simp
@[simp] theorem State.portBusError_port_downloadInProgress (s : State) : (s.portBusError).port.downloadInProgress = s.port.downloadInProgress := by unfold State.portBusError; simp
@[simp] theorem State.portBusError_port_endRequested (s : State) : (s.portBusError).port.endRequested = s.port.endRequested := by unfold State.portBusError; simp
@[simp] theorem State.portBusError_port_validData (s : State) : (s.portBusError).port.validData = s.port.validData := by unfold State.portBusError; simp
@[simp] theorem State.portBusError_port_seqErrPending (s : State) : (s.portBusError).port.seqErrPending = s.port.seqErrPending := by unfold State.portBusError; simp
@[simp] theorem State.portBusError_port_shifted (s : State) : (s.portBusError).port.shifted = s.port.shifted := by unfold State.portBusError; simp
@[simp] theorem State.portBusError_port_suppress (s : State) : (s.portBusError).port.suppress = s.port.suppress := by unfold State.portBusError; simp
@[simp] theorem State.portBusError_port_scanHold (s : State) : (s.portBusError).port.scanHold = s.port.scanHold := by unfold State.portBusError; simp
@[simp] theorem State.portBusError_port_txStatus (s : State) : (s.portBusError).port.txStatus = s.port.txStatus := by unfold State.portBusError; simp
@[simp] theorem State.portBusError_port_txData (s : State) : (s.portBusError).port.txData = s.port.txData := by unfold State.portBusError; simp
@[simp] theorem State.portBusError_dbg (s : State) : (s.portBusError).dbg = s.dbg := by unfold State.portBusError; simp
@[simp] theorem State.portBusError_trace (s : State) : (s.portBusError).trace = s.trace := by unfold State.portBusError; simp
@[simp] theorem State.portBusError_lines (s : State) : (s.portBusError).lines = s.lines := by unfold State.portBusError; simp
@[simp] theorem State.portBusError_inflight (s : State) : (s.portBusError).inflight = s.inflight := by unfold State.portBusError; simp
@[simp] theorem State.portBusError_cycles (s : State) : (s.portBusError).cycles = s.cycles := by unfold State.portBusError; simp
@[simp] theorem State.portBusError_traced (s : State) : (s.portBusError).traced = s.traced := by unfold State.portBusError; simp
@[simp] theorem State.portBusError_countersSettled (s : State) : (s.portBusError).countersSettled = s.countersSettled := by unfold State.portBusError; simp
@[simp] theorem State.portBusError_expired (s : State) : (s.portBusError).expired = s.expired := by unfold State.portBusError; simp
@[simp] theorem State.portBusError_oracle (s : State) : (s.portBusError).oracle = s.oracle := by unfold State.portBusError; simp
@[simp] theorem State.portBusError_faultMap (s : State) : (s.portBusError).faultMap = s.faultMap := by unfold State.portBusError; simp
@[simp] theorem State.portBusError_mem (s : State) : (s.portBusError).mem = s.mem := by unfold State.portBusError; simp
@[simp] theorem State.portBusError_inputs (s : State) : (s.portBusError).inputs = s.inputs := by unfold State.portBusError; simp
@[simp] theorem State.portBusError_draws (s : State) : (s.portBusError).draws = s.draws := by unfold State.portBusError; simp

/-! ### setDpsrData -/

@[simp] theorem State.setDpsrData_cpu (s : State) (v : Word) : (s.setDpsrData v).cpu = s.cpu := rfl
@[simp] theorem State.setDpsrData_spr (s : State) (v : Word) : (s.setDpsrData v).spr = s.spr := rfl
@[simp] theorem State.setDpsrData_port_tecr (s : State) (v : Word) : (s.setDpsrData v).port.tecr = s.port.tecr := rfl
@[simp] theorem State.setDpsrData_port_clockMode (s : State) (v : Word) : (s.setDpsrData v).port.clockMode = s.port.clockMode := rfl
@[simp] theorem State.setDpsrData_port_downloadInProgress (s : State) (v : Word) : (s.setDpsrData v).port.downloadInProgress = s.port.downloadInProgress := rfl
@[simp] theorem State.setDpsrData_port_endRequested (s : State) (v : Word) : (s.setDpsrData v).port.endRequested = s.port.endRequested := rfl
@[simp] theorem State.setDpsrData_port_downloadStore (s : State) (v : Word) : (s.setDpsrData v).port.downloadStore = s.port.downloadStore := rfl
@[simp] theorem State.setDpsrData_port_validData (s : State) (v : Word) : (s.setDpsrData v).port.validData = s.port.validData := rfl
@[simp] theorem State.setDpsrData_port_seqErrPending (s : State) (v : Word) : (s.setDpsrData v).port.seqErrPending = s.port.seqErrPending := rfl
@[simp] theorem State.setDpsrData_port_cpuIntPending (s : State) (v : Word) : (s.setDpsrData v).port.cpuIntPending = s.port.cpuIntPending := rfl
@[simp] theorem State.setDpsrData_port_cpuWaiting (s : State) (v : Word) : (s.setDpsrData v).port.cpuWaiting = s.port.cpuWaiting := rfl
@[simp] theorem State.setDpsrData_port_shifted (s : State) (v : Word) : (s.setDpsrData v).port.shifted = s.port.shifted := rfl
@[simp] theorem State.setDpsrData_port_suppress (s : State) (v : Word) : (s.setDpsrData v).port.suppress = s.port.suppress := rfl
@[simp] theorem State.setDpsrData_port_scanHold (s : State) (v : Word) : (s.setDpsrData v).port.scanHold = s.port.scanHold := rfl
@[simp] theorem State.setDpsrData_port_txStatus (s : State) (v : Word) : (s.setDpsrData v).port.txStatus = s.port.txStatus := rfl
@[simp] theorem State.setDpsrData_port_txData (s : State) (v : Word) : (s.setDpsrData v).port.txData = s.port.txData := rfl
@[simp] theorem State.setDpsrData_dbg (s : State) (v : Word) : (s.setDpsrData v).dbg = s.dbg := rfl
@[simp] theorem State.setDpsrData_trace (s : State) (v : Word) : (s.setDpsrData v).trace = s.trace := rfl
@[simp] theorem State.setDpsrData_lines (s : State) (v : Word) : (s.setDpsrData v).lines = s.lines := rfl
@[simp] theorem State.setDpsrData_ir (s : State) (v : Word) : (s.setDpsrData v).ir = s.ir := rfl
@[simp] theorem State.setDpsrData_inflight (s : State) (v : Word) : (s.setDpsrData v).inflight = s.inflight := rfl
@[simp] theorem State.setDpsrData_cycles (s : State) (v : Word) : (s.setDpsrData v).cycles = s.cycles := rfl
@[simp] theorem State.setDpsrData_outcome (s : State) (v : Word) : (s.setDpsrData v).outcome = s.outcome := rfl
@[simp] theorem State.setDpsrData_traced (s : State) (v : Word) : (s.setDpsrData v).traced = s.traced := rfl
@[simp] theorem State.setDpsrData_countersSettled (s : State) (v : Word) : (s.setDpsrData v).countersSettled = s.countersSettled := rfl
@[simp] theorem State.setDpsrData_expired (s : State) (v : Word) : (s.setDpsrData v).expired = s.expired := rfl
@[simp] theorem State.setDpsrData_oracle (s : State) (v : Word) : (s.setDpsrData v).oracle = s.oracle := rfl
@[simp] theorem State.setDpsrData_faultMap (s : State) (v : Word) : (s.setDpsrData v).faultMap = s.faultMap := rfl
@[simp] theorem State.setDpsrData_mem (s : State) (v : Word) : (s.setDpsrData v).mem = s.mem := rfl
@[simp] theorem State.setDpsrData_inputs (s : State) (v : Word) : (s.setDpsrData v).inputs = s.inputs := rfl
@[simp] theorem State.setDpsrData_out (s : State) (v : Word) : (s.setDpsrData v).out = s.out := rfl
@[simp] theorem State.setDpsrData_draws (s : State) (v : Word) : (s.setDpsrData v).draws = s.draws := rfl

/-! ### seqErrorRunning -/

@[simp] theorem State.seqErrorRunning_cpu (s : State) : (s.seqErrorRunning).cpu = s.cpu := rfl
@[simp] theorem State.seqErrorRunning_spr (s : State) : (s.seqErrorRunning).spr = s.spr := rfl
@[simp] theorem State.seqErrorRunning_port_dpsr (s : State) : (s.seqErrorRunning).port.dpsr = s.port.dpsr := rfl
@[simp] theorem State.seqErrorRunning_port_tecr (s : State) : (s.seqErrorRunning).port.tecr = s.port.tecr := rfl
@[simp] theorem State.seqErrorRunning_port_clockMode (s : State) : (s.seqErrorRunning).port.clockMode = s.port.clockMode := rfl
@[simp] theorem State.seqErrorRunning_port_downloadInProgress (s : State) : (s.seqErrorRunning).port.downloadInProgress = s.port.downloadInProgress := rfl
@[simp] theorem State.seqErrorRunning_port_endRequested (s : State) : (s.seqErrorRunning).port.endRequested = s.port.endRequested := rfl
@[simp] theorem State.seqErrorRunning_port_downloadStore (s : State) : (s.seqErrorRunning).port.downloadStore = s.port.downloadStore := rfl
@[simp] theorem State.seqErrorRunning_port_validData (s : State) : (s.seqErrorRunning).port.validData = s.port.validData := rfl
@[simp] theorem State.seqErrorRunning_port_cpuIntPending (s : State) : (s.seqErrorRunning).port.cpuIntPending = s.port.cpuIntPending := rfl
@[simp] theorem State.seqErrorRunning_port_cpuWaiting (s : State) : (s.seqErrorRunning).port.cpuWaiting = s.port.cpuWaiting := rfl
@[simp] theorem State.seqErrorRunning_port_shifted (s : State) : (s.seqErrorRunning).port.shifted = s.port.shifted := rfl
@[simp] theorem State.seqErrorRunning_port_suppress (s : State) : (s.seqErrorRunning).port.suppress = s.port.suppress := rfl
@[simp] theorem State.seqErrorRunning_port_scanHold (s : State) : (s.seqErrorRunning).port.scanHold = s.port.scanHold := rfl
@[simp] theorem State.seqErrorRunning_port_txStatus (s : State) : (s.seqErrorRunning).port.txStatus = s.port.txStatus := rfl
@[simp] theorem State.seqErrorRunning_port_txData (s : State) : (s.seqErrorRunning).port.txData = s.port.txData := rfl
@[simp] theorem State.seqErrorRunning_dbg (s : State) : (s.seqErrorRunning).dbg = s.dbg := rfl
@[simp] theorem State.seqErrorRunning_trace (s : State) : (s.seqErrorRunning).trace = s.trace := rfl
@[simp] theorem State.seqErrorRunning_lines (s : State) : (s.seqErrorRunning).lines = s.lines := rfl
@[simp] theorem State.seqErrorRunning_ir (s : State) : (s.seqErrorRunning).ir = s.ir := rfl
@[simp] theorem State.seqErrorRunning_inflight (s : State) : (s.seqErrorRunning).inflight = s.inflight := rfl
@[simp] theorem State.seqErrorRunning_cycles (s : State) : (s.seqErrorRunning).cycles = s.cycles := rfl
@[simp] theorem State.seqErrorRunning_outcome (s : State) : (s.seqErrorRunning).outcome = s.outcome := rfl
@[simp] theorem State.seqErrorRunning_traced (s : State) : (s.seqErrorRunning).traced = s.traced := rfl
@[simp] theorem State.seqErrorRunning_countersSettled (s : State) : (s.seqErrorRunning).countersSettled = s.countersSettled := rfl
@[simp] theorem State.seqErrorRunning_expired (s : State) : (s.seqErrorRunning).expired = s.expired := rfl
@[simp] theorem State.seqErrorRunning_oracle (s : State) : (s.seqErrorRunning).oracle = s.oracle := rfl
@[simp] theorem State.seqErrorRunning_faultMap (s : State) : (s.seqErrorRunning).faultMap = s.faultMap := rfl
@[simp] theorem State.seqErrorRunning_mem (s : State) : (s.seqErrorRunning).mem = s.mem := rfl
@[simp] theorem State.seqErrorRunning_inputs (s : State) : (s.seqErrorRunning).inputs = s.inputs := rfl
@[simp] theorem State.seqErrorRunning_out (s : State) : (s.seqErrorRunning).out = s.out := rfl
@[simp] theorem State.seqErrorRunning_draws (s : State) : (s.seqErrorRunning).draws = s.draws := rfl

/-! ### seqErrorDebug -/

@[simp] theorem State.seqErrorDebug_cpu (s : State) : (s.seqErrorDebug).cpu = s.cpu := by unfold State.seqErrorDebug; simp
@[simp] theorem State.seqErrorDebug_spr_cmpa (s : State) : (s.seqErrorDebug).spr.cmpa = s.spr.cmpa := by unfold State.seqErrorDebug; simp
@[simp] theorem State.seqErrorDebug_spr_cmpb (s : State) : (s.seqErrorDebug).spr.cmpb = s.spr.cmpb := by unfold State.seqErrorDebug; simp
@[simp] theorem State.seqErrorDebug_spr_cmpc (s : State) : (s.seqErrorDebug).spr.cmpc = s.spr.cmpc := by unfold State.seqErrorDebug; simp
@[simp] theorem State.seqErrorDebug_spr_cmpd (s : State) : (s.seqErrorDebug).spr.cmpd = s.spr.cmpd := by unfold State.seqErrorDebug; simp
@[simp] theorem State.seqErrorDebug_spr_cmpe (s : State) : (s.seqErrorDebug).spr.cmpe = s.spr.cmpe := by unfold State.seqErrorDebug; simp
@[simp] theorem State.seqErrorDebug_spr_cmpf (s : State) : (s.seqErrorDebug).spr.cmpf = s.spr.cmpf := by unfold State.seqErrorDebug; simp
@[simp] theorem State.seqErrorDebug_spr_cmpg (s : State) : (s.seqErrorDebug).spr.cmpg = s.spr.cmpg := by unfold State.seqErrorDebug; simp
@[simp] theorem State.seqErrorDebug_spr_cmph (s : State) : (s.seqErrorDebug).spr.cmph = s.spr.cmph := by unfold State.seqErrorDebug; simp
@[simp] theorem State.seqErrorDebug_spr_ictrl (s : State) : (s.seqErrorDebug).spr.ictrl = s.spr.ictrl := by unfold State.seqErrorDebug; simp
@[simp] theorem State.seqErrorDebug_spr_lctrl1 (s : State) : (s.seqErrorDebug).spr.lctrl1 = s.spr.lctrl1 := by unfold State.seqErrorDebug; simp
@[simp] theorem State.seqErrorDebug_spr_lctrl2 (s : State) : (s.seqErrorDebug).spr.lctrl2 = s.spr.lctrl2 := by unfold State.seqErrorDebug; simp
@[simp] theorem State.seqErrorDebug_spr_counta (s : State) : (s.seqErrorDebug).spr.counta = s.spr.counta := by unfold State.seqErrorDebug; simp
@[simp] theorem State.seqErrorDebug_spr_countb (s : State) : (s.seqErrorDebug).spr.countb = s.spr.countb := by unfold State.seqErrorDebug; simp
@[simp] theorem State.seqErrorDebug_spr_der (s : State) : (s.seqErrorDebug).spr.der = s.spr.der := by unfold State.seqErrorDebug; simp
@[simp] theorem State.seqErrorDebug_spr_bar (s : State) : (s.seqErrorDebug).spr.bar = s.spr.bar := by unfold State.seqErrorDebug; simp
@[simp] theorem State.seqErrorDebug_port_dpsr (s : State) : (s.seqErrorDebug).port.dpsr = s.port.dpsr := by unfold State.seqErrorDebug; simp
@[simp] theorem State.seqErrorDebug_port_tecr (s : State) : (s.seqErrorDebug).port.tecr = s.port.tecr := by unfold State.seqErrorDebug; simp
@[simp] theorem State.seqErrorDebug_port_clockMode (s : State) : (s.seqErrorDebug).port.clockMode = s.port.clockMode := by unfold State.seqErrorDebug; simp
@[simp] theorem State.seqErrorDebug_port_downloadInProgress (s : State) : (s.seqErrorDebug).port.downloadInProgress = s.port.downloadInProgress := by unfold State.seqErrorDebug; simp
@[simp] theorem State.seqErrorDebug_port_endRequested (s : State) : (s.seqErrorDebug).port.endRequested = s.port.endRequested := by unfold State.seqErrorDebug; simp
@[simp] theorem State.seqErrorDebug_port_validData (s : State) : (s.seqErrorDebug).port.validData = s.port.validData := by unfold State.seqErrorDebug; simp
@[simp] theorem State.seqErrorDebug_port_shifted (s : State) : (s.seqErrorDebug).port.shifted = s.port.shifted := by unfold State.seqErrorDebug; simp
@[simp] theorem State.seqErrorDebug_port_suppress (s : State) : (s.seqErrorDebug).port.suppress = s.port.suppress := by unfold State.seqErrorDebug; simp
@[simp] theorem State.seqErrorDebug_port_scanHold (s : State) : (s.seqErrorDebug).port.scanHold = s.port.scanHold := by unfold State.seqErrorDebug; simp
@[simp] theorem State.seqErrorDebug_port_txStatus (s : State) : (s.seqErrorDebug).port.txStatus = s.port.txStatus := by unfold State.seqErrorDebug; simp
@[simp] theorem State.seqErrorDebug_port_txData (s : State) : (s.seqErrorDebug).port.txData = s.port.txData := by unfold State.seqErrorDebug; simp
@[simp] theorem State.seqErrorDebug_dbg (s : State) : (s.seqErrorDebug).dbg = s.dbg := by unfold State.seqErrorDebug; simp
@[simp] theorem State.seqErrorDebug_trace (s : State) : (s.seqErrorDebug).trace = s.trace := by unfold State.seqErrorDebug; simp
@[simp] theorem State.seqErrorDebug_lines (s : State) : (s.seqErrorDebug).lines = s.lines := by unfold State.seqErrorDebug; simp
@[simp] theorem State.seqErrorDebug_inflight (s : State) : (s.seqErrorDebug).inflight = s.inflight := by unfold State.seqErrorDebug; simp
@[simp] theorem State.seqErrorDebug_cycles (s : State) : (s.seqErrorDebug).cycles = s.cycles := by unfold State.seqErrorDebug; simp
@[simp] theorem State.seqErrorDebug_traced (s : State) : (s.seqErrorDebug).traced = s.traced := by unfold State.seqErrorDebug; simp
@[simp] theorem State.seqErrorDebug_countersSettled (s : State) : (s.seqErrorDebug).countersSettled = s.countersSettled := by unfold State.seqErrorDebug; simp
@[simp] theorem State.seqErrorDebug_expired (s : State) : (s.seqErrorDebug).expired = s.expired := by unfold State.seqErrorDebug; simp
@[simp] theorem State.seqErrorDebug_oracle (s : State) : (s.seqErrorDebug).oracle = s.oracle := by unfold State.seqErrorDebug; simp
@[simp] theorem State.seqErrorDebug_faultMap (s : State) : (s.seqErrorDebug).faultMap = s.faultMap := by unfold State.seqErrorDebug; simp
@[simp] theorem State.seqErrorDebug_mem (s : State) : (s.seqErrorDebug).mem = s.mem := by unfold State.seqErrorDebug; simp
@[simp] theorem State.seqErrorDebug_inputs (s : State) : (s.seqErrorDebug).inputs = s.inputs := by unfold State.seqErrorDebug; simp
@[simp] theorem State.seqErrorDebug_draws (s : State) : (s.seqErrorDebug).draws = s.draws := by unfold State.seqErrorDebug; simp

/-! ### reservedCommand -/

@[simp] theorem State.reservedCommand_cpu (s : State) : (s.reservedCommand).cpu = s.cpu := rfl
@[simp] theorem State.reservedCommand_spr (s : State) : (s.reservedCommand).spr = s.spr := rfl
@[simp] theorem State.reservedCommand_port (s : State) : (s.reservedCommand).port = s.port := rfl
@[simp] theorem State.reservedCommand_dbg_enable (s : State) : (s.reservedCommand).dbg.enable = s.dbg.enable := rfl
@[simp] theorem State.reservedCommand_dbg_inDebug (s : State) : (s.reservedCommand).dbg.inDebug = s.dbg.inDebug := rfl
@[simp] theorem State.reservedCommand_dbg_freeze (s : State) : (s.reservedCommand).dbg.freeze = s.dbg.freeze := rfl
@[simp] theorem State.reservedCommand_dbg_checkStop (s : State) : (s.reservedCommand).dbg.checkStop = s.dbg.checkStop := rfl
@[simp] theorem State.reservedCommand_dbg_nonRestartable (s : State) : (s.reservedCommand).dbg.nonRestartable = s.dbg.nonRestartable := rfl
@[simp] theorem State.reservedCommand_dbg_illegalProgramming (s : State) : (s.reservedCommand).dbg.illegalProgramming = s.dbg.illegalProgramming := rfl
@[simp] theorem State.reservedCommand_dbg_unalignedSeen (s : State) : (s.reservedCommand).dbg.unalignedSeen = s.dbg.unalignedSeen := rfl
@[simp] theorem State.reservedCommand_trace (s : State) : (s.reservedCommand).trace = s.trace := rfl
@[simp] theorem State.reservedCommand_lines (s : State) : (s.reservedCommand).lines = s.lines := rfl
@[simp] theorem State.reservedCommand_ir (s : State) : (s.reservedCommand).ir = s.ir := rfl
@[simp] theorem State.reservedCommand_inflight (s : State) : (s.reservedCommand).inflight = s.inflight := rfl
@[simp] theorem State.reservedCommand_cycles (s : State) : (s.reservedCommand).cycles = s.cycles := rfl
@[simp] theorem State.reservedCommand_outcome (s : State) : (s.reservedCommand).outcome = s.outcome := rfl
@[simp] theorem State.reservedCommand_traced (s : State) : (s.reservedCommand).traced = s.traced := rfl
@[simp] theorem State.reservedCommand_countersSettled (s : State) : (s.reservedCommand).countersSettled = s.countersSettled := rfl
@[simp] theorem State.reservedCommand_expired (s : State) : (s.reservedCommand).expired = s.expired := rfl
@[simp] theorem State.reservedCommand_oracle (s : State) : (s.reservedCommand).oracle = s.oracle := rfl
@[simp] theorem State.reservedCommand_faultMap (s : State) : (s.reservedCommand).faultMap = s.faultMap := rfl
@[simp] theorem State.reservedCommand_mem (s : State) : (s.reservedCommand).mem = s.mem := rfl
@[simp] theorem State.reservedCommand_inputs (s : State) : (s.reservedCommand).inputs = s.inputs := rfl
@[simp] theorem State.reservedCommand_out (s : State) : (s.reservedCommand).out = s.out := rfl
@[simp] theorem State.reservedCommand_draws (s : State) : (s.reservedCommand).draws = s.draws := rfl

/-! ### completePlain -/

@[simp] theorem State.completePlain_cpu_gpr (s : State) : (s.completePlain).cpu.gpr = s.cpu.gpr := by unfold State.completePlain; simp
@[simp] theorem State.completePlain_cpu_msr (s : State) : (s.completePlain).cpu.msr = s.cpu.msr := by unfold State.completePlain; simp
@[simp] theorem State.completePlain_cpu_srr0 (s : State) : (s.completePlain).cpu.srr0 = s.cpu.srr0 := by unfold State.completePlain; simp
@[simp] theorem State.completePlain_cpu_srr1 (s : State) : (s.completePlain).cpu.srr1 = s.cpu.srr1 := by unfold State.completePlain; simp
@[simp] theorem State.completePlain_cpu_dar (s : State) : (s.completePlain).cpu.dar = s.cpu.dar := by unfold State.completePlain; simp
@[simp] theorem State.completePlain_cpu_dsisr (s : State) : (s.completePlain).cpu.dsisr = s.cpu.dsisr := by unfold State.completePlain; simp
@[simp] theorem State.completePlain_spr (s : State) : (s.completePlain).spr = s.spr := by unfold State.completePlain; simp
@[simp] theorem State.completePlain_port_dpsr (s : State) : (s.completePlain).port.dpsr = s.port.dpsr := by unfold State.completePlain; simp
@[simp] theorem State.completePlain_port_tecr (s : State) : (s.completePlain).port.tecr = s.port.tecr := by unfold State.completePlain; simp
@[simp] theorem State.completePlain_port_clockMode (s : State) : (s.completePlain).port.clockMode = s.port.clockMode := by unfold State.completePlain; simp
@[simp] theorem State.completePlain_port_downloadInProgress (s : State) : (s.completePlain).port.downloadInProgress = s.port.downloadInProgress := by unfold State.completePlain; simp
@[simp] theorem State.completePlain_port_endRequested (s : State) : (s.completePlain).port.endRequested = s.port.endRequested := by unfold State.completePlain; simp
@[simp] theorem State.completePlain_port_validData (s : State) : (s.completePlain).port.validData = s.port.validData := by unfold State.completePlain; simp
@[simp] theorem State.completePlain_port_seqErrPending (s : State) : (s.completePlain).port.seqErrPending = s.port.seqErrPending := by unfold State.completePlain; simp
@[simp] theorem State.completePlain_port_cpuIntPending (s : State) : (s.completePlain).port.cpuIntPending = s.port.cpuIntPending := by unfold State.completePlain; simp
@[simp] theorem State.completePlain_port_shifted (s : State) : (s.completePlain).port.shifted = s.port.shifted := by unfold State.completePlain; simp
@[simp] theorem State.completePlain_port_suppress (s : State) : (s.completePlain).port.suppress = s.port.suppress := by unfold State.completePlain; simp
@[simp] theorem State.completePlain_port_scanHold (s : State) : (s.completePlain).port.scanHold = s.port.scanHold := by unfold State.completePlain; simp
@[simp] theorem State.completePlain_port_txStatus (s : State) : (s.completePlain).port.txStatus = s.port.txStatus := by unfold State.completePlain; simp
@[simp] theorem State.completePlain_port_txData (s : State) : (s.completePlain).port.txData = s.port.txData := by unfold State.completePlain; simp
@[simp] theorem State.completePlain_dbg (s : State) : (s.completePlain).dbg = s.dbg := by unfold State.completePlain; simp
@[simp] theorem State.completePlain_trace_vf (s : State) : (s.completePlain).trace.vf = s.trace.vf := by unfold State.completePlain; simp
@[simp] theorem State.completePlain_trace_prevKind (s : State) : (s.completePlain).trace.prevKind = s.trace.prevKind := by unfold State.completePlain; simp
@[simp] theorem State.completePlain_trace_histFlush (s : State) : (s.completePlain).trace.histFlush = s.trace.histFlush := by unfold State.completePlain; simp
@[simp] theorem State.completePlain_trace_vsyncChanged (s : State) : (s.completePlain).trace.vsyncChanged = s.trace.vsyncChanged := by unfold State.completePlain; simp
@[simp] theorem State.completePlain_trace_lastReports (s : State) : (s.completePlain).trace.lastReports = s.trace.lastReports := by unfold State.completePlain; simp
@[simp] theorem State.completePlain_trace_nextVisible (s : State) : (s.completePlain).trace.nextVisible = s.trace.nextVisible := by unfold State.completePlain; simp
@[simp] theorem State.completePlain_trace_isctActive (s : State) : (s.completePlain).trace.isctActive = s.trace.isctActive := by unfold State.completePlain; simp
@[simp] theorem State.completePlain_trace_isctHold (s : State) : (s.completePlain).trace.isctHold = s.trace.isctHold := by unfold State.completePlain; simp
@[simp] theorem State.completePlain_trace_showQueue (s : State) : (s.completePlain).trace.showQueue = s.trace.showQueue := by unfold State.completePlain; simp
@[simp] theorem State.completePlain_trace_fetches (s : State) : (s.completePlain).trace.fetches = s.trace.fetches := by unfold State.completePlain; simp
@[simp] theorem State.completePlain_lines (s : State) : (s.completePlain).lines = s.lines := by unfold State.completePlain; simp
@[simp] theorem State.completePlain_inflight (s : State) : (s.completePlain).inflight = s.inflight := by unfold State.completePlain; simp
@[simp] theorem State.completePlain_cycles (s : State) : (s.completePlain).cycles = s.cycles := by unfold State.completePlain; simp
@[simp] theorem State.completePlain_traced (s : State) : (s.completePlain).traced = s.traced := by unfold State.completePlain; simp
@[simp] theorem State.completePlain_expired (s : State) : (s.completePlain).expired = s.expired := by unfold State.completePlain; simp
@[simp] theorem State.completePlain_oracle (s : State) : (s.completePlain).oracle = s.oracle := by unfold State.completePlain; simp
@[simp] theorem State.completePlain_faultMap (s : State) : (s.completePlain).faultMap = s.faultMap := by unfold State.completePlain; simp
@[simp] theorem State.completePlain_mem (s : State) : (s.completePlain).mem = s.mem := by unfold State.completePlain; simp
@[simp] theorem State.completePlain_inputs (s : State) : (s.completePlain).inputs = s.inputs := by unfold State.completePlain; simp
@[simp] theorem State.completePlain_out (s : State) : (s.completePlain).out = s.out := by unfold State.completePlain; simp
@[simp] theorem State.completePlain_draws (s : State) : (s.completePlain).draws = s.draws := by unfold State.completePlain; simp

/-! ### writeCmpa -/

@[simp] theorem State.writeCmpa_cpu (s : State) (v : Word) : (s.writeCmpa v).cpu = s.cpu := rfl
@[simp] theorem State.writeCmpa_spr_cmpb (s : State) (v : Word) : (s.writeCmpa v).spr.cmpb = s.spr.cmpb := rfl
@[simp] theorem State.writeCmpa_spr_cmpc (s : State) (v : Word) : (s.writeCmpa v).spr.cmpc = s.spr.cmpc := rfl
@[simp] theorem State.writeCmpa_spr_cmpd (s : State) (v : Word) : (s.writeCmpa v).spr.cmpd = s.spr.cmpd := rfl
@[simp] theorem State.writeCmpa_spr_cmpe (s : State) (v : Word) : (s.writeCmpa v).spr.cmpe = s.spr.cmpe := rfl
@[simp] theorem State.writeCmpa_spr_cmpf (s : State) (v : Word) : (s.writeCmpa v).spr.cmpf = s.spr.cmpf := rfl
@[simp] theorem State.writeCmpa_spr_cmpg (s : State) (v : Word) : (s.writeCmpa v).spr.cmpg = s.spr.cmpg := rfl
@[simp] theorem State.writeCmpa_spr_cmph (s : State) (v : Word) : (s.writeCmpa v).spr.cmph = s.spr.cmph := rfl
@[simp] theorem State.writeCmpa_spr_ictrl (s : State) (v : Word) : (s.writeCmpa v).spr.ictrl = s.spr.ictrl := rfl
@[simp] theorem State.writeCmpa_spr_lctrl1 (s : State) (v : Word) : (s.writeCmpa v).spr.lctrl1 = s.spr.lctrl1 := rfl
@[simp] theorem State.writeCmpa_spr_lctrl2 (s : State) (v : Word) : (s.writeCmpa v).spr.lctrl2 = s.spr.lctrl2 := rfl
@[simp] theorem State.writeCmpa_spr_counta (s : State) (v : Word) : (s.writeCmpa v).spr.counta = s.spr.counta := rfl
@[simp] theorem State.writeCmpa_spr_countb (s : State) (v : Word) : (s.writeCmpa v).spr.countb = s.spr.countb := rfl
@[simp] theorem State.writeCmpa_spr_ecr (s : State) (v : Word) : (s.writeCmpa v).spr.ecr = s.spr.ecr := rfl
@[simp] theorem State.writeCmpa_spr_der (s : State) (v : Word) : (s.writeCmpa v).spr.der = s.spr.der := rfl
@[simp] theorem State.writeCmpa_spr_bar (s : State) (v : Word) : (s.writeCmpa v).spr.bar = s.spr.bar := rfl
@[simp] theorem State.writeCmpa_port (s : State) (v : Word) : (s.writeCmpa v).port = s.port := rfl
@[simp] theorem State.writeCmpa_dbg (s : State) (v : Word) : (s.writeCmpa v).dbg = s.dbg := rfl
@[simp] theorem State.writeCmpa_trace (s : State) (v : Word) : (s.writeCmpa v).trace = s.trace := rfl
@[simp] theorem State.writeCmpa_lines (s : State) (v : Word) : (s.writeCmpa v).lines = s.lines := rfl
@[simp] theorem State.writeCmpa_ir (s : State) (v : Word) : (s.writeCmpa v).ir = s.ir := rfl
@[simp] theorem State.writeCmpa_inflight (s : State) (v : Word) : (s.writeCmpa v).inflight = s.inflight := rfl
@[simp] theorem State.writeCmpa_cycles (s : State) (v : Word) : (s.writeCmpa v).cycles = s.cycles := rfl
@[simp] theorem State.writeCmpa_outcome (s : State) (v : Word) : (s.writeCmpa v).outcome = s.outcome := rfl
@[simp] theorem State.writeCmpa_traced (s : State) (v : Word) : (s.writeCmpa v).traced = s.traced := rfl
@[simp] theorem State.writeCmpa_countersSettled (s : State) (v : Word) : (s.writeCmpa v).countersSettled = s.countersSettled := rfl
@[simp] theorem State.writeCmpa_expired (s : State) (v : Word) : (s.writeCmpa v).expired = s.expired := rfl
@[simp] theorem State.writeCmpa_oracle (s : State) (v : Word) : (s.writeCmpa v).oracle = s.oracle := rfl
@[simp] theorem State.writeCmpa_faultMap (s : State) (v : Word) : (s.writeCmpa v).faultMap = s.faultMap := rfl
@[simp] theorem State.writeCmpa_mem (s : State) (v : Word) : (s.writeCmpa v).mem = s.mem := rfl
@[simp] theorem State.writeCmpa_inputs (s : State) (v : Word) : (s.writeCmpa v).inputs = s.inputs := rfl
@[simp] theorem State.writeCmpa_out (s : State) (v : Word) : (s.writeCmpa v).out = s.out := rfl
@[simp] theorem State.writeCmpa_draws (s : State) (v : Word) : (s.writeCmpa v).draws = s.draws := rfl

/-! ### writeCmpb -/

@[simp] theorem State.writeCmpb_cpu (s : State) (v : Word) : (s.writeCmpb v).cpu = s.cpu := rfl
@[simp] theorem State.writeCmpb_spr_cmpa (s : State) (v : Word) : (s.writeCmpb v).spr.cmpa = s.spr.cmpa := rfl
@[simp] theorem State.writeCmpb_spr_cmpc (s : State) (v : Word) : (s.writeCmpb v).spr.cmpc = s.spr.cmpc := rfl
@[simp] theorem State.writeCmpb_spr_cmpd (s : State) (v : Word) : (s.writeCmpb v).spr.cmpd = s.spr.cmpd := rfl
@[simp] theorem State.writeCmpb_spr_cmpe (s : State) (v : Word) : (s.writeCmpb v).spr.cmpe = s.spr.cmpe := rfl
@[simp] theorem State.writeCmpb_spr_cmpf (s : State) (v : Word) : (s.writeCmpb v).spr.cmpf = s.spr.cmpf := rfl
@[simp] theorem State.writeCmpb_spr_cmpg (s : State) (v : Word) : (s.writeCmpb v).spr.cmpg = s.spr.cmpg := rfl
@[simp] theorem State.writeCmpb_spr_cmph (s : State) (v : Word) : (s.writeCmpb v).spr.cmph = s.spr.cmph := rfl
@[simp] theorem State.writeCmpb_spr_ictrl (s : State) (v : Word) : (s.writeCmpb v).spr.ictrl = s.spr.ictrl := rfl
@[simp] theorem State.writeCmpb_spr_lctrl1 (s : State) (v : Word) : (s.writeCmpb v).spr.lctrl1 = s.spr.lctrl1 := rfl
@[simp] theorem State.writeCmpb_spr_lctrl2 (s : State) (v : Word) : (s.writeCmpb v).spr.lctrl2 = s.spr.lctrl2 := rfl
@[simp] theorem State.writeCmpb_spr_counta (s : State) (v : Word) : (s.writeCmpb v).spr.counta = s.spr.counta := rfl
@[simp] theorem State.writeCmpb_spr_countb (s : State) (v : Word) : (s.writeCmpb v).spr.countb = s.spr.countb := rfl
@[simp] theorem State.writeCmpb_spr_ecr (s : State) (v : Word) : (s.writeCmpb v).spr.ecr = s.spr.ecr := rfl
@[simp] theorem State.writeCmpb_spr_der (s : State) (v : Word) : (s.writeCmpb v).spr.der = s.spr.der := rfl
@[simp] theorem State.writeCmpb_spr_bar (s : State) (v : Word) : (s.writeCmpb v).spr.bar = s.spr.bar := rfl
@[simp] theorem State.writeCmpb_port (s : State) (v : Word) : (s.writeCmpb v).port = s.port := rfl
@[simp] theorem State.writeCmpb_dbg (s : State) (v : Word) : (s.writeCmpb v).dbg = s.dbg := rfl
@[simp] theorem State.writeCmpb_trace (s : State) (v : Word) : (s.writeCmpb v).trace = s.trace := rfl
@[simp] theorem State.writeCmpb_lines (s : State) (v : Word) : (s.writeCmpb v).lines = s.lines := rfl
@[simp] theorem State.writeCmpb_ir (s : State) (v : Word) : (s.writeCmpb v).ir = s.ir := rfl
@[simp] theorem State.writeCmpb_inflight (s : State) (v : Word) : (s.writeCmpb v).inflight = s.inflight := rfl
@[simp] theorem State.writeCmpb_cycles (s : State) (v : Word) : (s.writeCmpb v).cycles = s.cycles := rfl
@[simp] theorem State.writeCmpb_outcome (s : State) (v : Word) : (s.writeCmpb v).outcome = s.outcome := rfl
@[simp] theorem State.writeCmpb_traced (s : State) (v : Word) : (s.writeCmpb v).traced = s.traced := rfl
@[simp] theorem State.writeCmpb_countersSettled (s : State) (v : Word) : (s.writeCmpb v).countersSettled = s.countersSettled := rfl
@[simp] theorem State.writeCmpb_expired (s : State) (v : Word) : (s.writeCmpb v).expired = s.expired := rfl
@[simp] theorem State.writeCmpb_oracle (s : State) (v : Word) : (s.writeCmpb v).oracle = s.oracle := rfl
@[simp] theorem State.writeCmpb_faultMap (s : State) (v : Word) : (s.writeCmpb v).faultMap = s.faultMap := rfl
@[simp] theorem State.writeCmpb_mem (s : State) (v : Word) : (s.writeCmpb v).mem = s.mem := rfl
@[simp] theorem State.writeCmpb_inputs (s : State) (v : Word) : (s.writeCmpb v).inputs = s.inputs := rfl
@[simp] theorem State.writeCmpb_out (s : State) (v : Word) : (s.writeCmpb v).out = s.out := rfl
@[simp] theorem State.writeCmpb_draws (s : State) (v : Word) : (s.writeCmpb v).draws = s.draws := rfl

/-! ### writeCmpc -/

@[simp] theorem State.writeCmpc_cpu (s : State) (v : Word) : (s.writeCmpc v).cpu = s.cpu := rfl
@[simp] theorem State.writeCmpc_spr_cmpa (s : State) (v : Word) : (s.writeCmpc v).spr.cmpa = s.spr.cmpa := rfl
@[simp] theorem State.writeCmpc_spr_cmpb (s : State) (v : Word) : (s.writeCmpc v).spr.cmpb = s.spr.cmpb := rfl
@[simp] theorem State.writeCmpc_spr_cmpd (s : State) (v : Word) : (s.writeCmpc v).spr.cmpd = s.spr.cmpd := rfl
@[simp] theorem State.writeCmpc_spr_cmpe (s : State) (v : Word) : (s.writeCmpc v).spr.cmpe = s.spr.cmpe := rfl
@[simp] theorem State.writeCmpc_spr_cmpf (s : State) (v : Word) : (s.writeCmpc v).spr.cmpf = s.spr.cmpf := rfl
@[simp] theorem State.writeCmpc_spr_cmpg (s : State) (v : Word) : (s.writeCmpc v).spr.cmpg = s.spr.cmpg := rfl
@[simp] theorem State.writeCmpc_spr_cmph (s : State) (v : Word) : (s.writeCmpc v).spr.cmph = s.spr.cmph := rfl
@[simp] theorem State.writeCmpc_spr_ictrl (s : State) (v : Word) : (s.writeCmpc v).spr.ictrl = s.spr.ictrl := rfl
@[simp] theorem State.writeCmpc_spr_lctrl1 (s : State) (v : Word) : (s.writeCmpc v).spr.lctrl1 = s.spr.lctrl1 := rfl
@[simp] theorem State.writeCmpc_spr_lctrl2 (s : State) (v : Word) : (s.writeCmpc v).spr.lctrl2 = s.spr.lctrl2 := rfl
@[simp] theorem State.writeCmpc_spr_counta (s : State) (v : Word) : (s.writeCmpc v).spr.counta = s.spr.counta := rfl
@[simp] theorem State.writeCmpc_spr_countb (s : State) (v : Word) : (s.writeCmpc v).spr.countb = s.spr.countb := rfl
@[simp] theorem State.writeCmpc_spr_ecr (s : State) (v : Word) : (s.writeCmpc v).spr.ecr = s.spr.ecr := rfl
@[simp] theorem State.writeCmpc_spr_der (s : State) (v : Word) : (s.writeCmpc v).spr.der = s.spr.der := rfl
@[simp] theorem State.writeCmpc_spr_bar (s : State) (v : Word) : (s.writeCmpc v).spr.bar = s.spr.bar := rfl
@[simp] theorem State.writeCmpc_port (s : State) (v : Word) : (s.writeCmpc v).port = s.port := rfl
@[simp] theorem State.writeCmpc_dbg (s : State) (v : Word) : (s.writeCmpc v).dbg = s.dbg := rfl
@[simp] theorem State.writeCmpc_trace (s : State) (v : Word) : (s.writeCmpc v).trace = s.trace := rfl
@[simp] theorem State.writeCmpc_lines (s : State) (v : Word) : (s.writeCmpc v).lines = s.lines := rfl
@[simp] theorem State.writeCmpc_ir (s : State) (v : Word) : (s.writeCmpc v).ir = s.ir := rfl
@[simp] theorem State.writeCmpc_inflight (s : State) (v : Word) : (s.writeCmpc v).inflight = s.inflight := rfl
@[simp] theorem State.writeCmpc_cycles (s : State) (v : Word) : (s.writeCmpc v).cycles = s.cycles := rfl
@[simp] theorem State.writeCmpc_outcome (s : State) (v : Word) : (s.writeCmpc v).outcome = s.outcome := rfl
@[simp] theorem State.writeCmpc_traced (s : State) (v : Word) : (s.writeCmpc v).traced = s.traced := rfl
@[simp] theorem State.writeCmpc_countersSettled (s : State) (v : Word) : (s.writeCmpc v).countersSettled = s.countersSettled := rfl
@[simp] theorem State.writeCmpc_expired (s : State) (v : Word) : (s.writeCmpc v).expired = s.expired := rfl
@[simp] theorem State.writeCmpc_oracle (s : State) (v : Word) : (s.writeCmpc v).oracle = s.oracle := rfl
@[simp] theorem State.writeCmpc_faultMap (s : State) (v : Word) : (s.writeCmpc v).faultMap = s.faultMap := rfl
@[simp] theorem State.writeCmpc_mem (s : State) (v : Word) : (s.writeCmpc v).mem = s.mem := rfl
@[simp] theorem State.writeCmpc_inputs (s : State) (v : Word) : (s.writeCmpc v).inputs = s.inputs := rfl
@[simp] theorem State.writeCmpc_out (s : State) (v : Word) : (s.writeCmpc v).out = s.out := rfl
@[simp] theorem State.writeCmpc_draws (s : State) (v : Word) : (s.writeCmpc v).draws = s.draws := rfl

/-! ### writeCmpd -/

@[simp] theorem State.writeCmpd_cpu (s : State) (v : Word) : (s.writeCmpd v).cpu = s.cpu := rfl
@[simp] theorem State.writeCmpd_spr_cmpa (s : State) (v : Word) : (s.writeCmpd v).spr.cmpa = s.spr.cmpa := rfl
@[simp] theorem State.writeCmpd_spr_cmpb (s : State) (v : Word) : (s.writeCmpd v).spr.cmpb = s.spr.cmpb := rfl
@[simp] theorem State.writeCmpd_spr_cmpc (s : State) (v : Word) : (s.writeCmpd v).spr.cmpc = s.spr.cmpc := rfl
@[simp] theorem State.writeCmpd_spr_cmpe (s : State) (v : Word) : (s.writeCmpd v).spr.cmpe = s.spr.cmpe := rfl
@[simp] theorem State.writeCmpd_spr_cmpf (s : State) (v : Word) : (s.writeCmpd v).spr.cmpf = s.spr.cmpf := rfl
@[simp] theorem State.writeCmpd_spr_cmpg (s : State) (v : Word) : (s.writeCmpd v).spr.cmpg = s.spr.cmpg := rfl
@[simp] theorem State.writeCmpd_spr_cmph (s : State) (v : Word) : (s.writeCmpd v).spr.cmph = s.spr.cmph := rfl
@[simp] theorem State.writeCmpd_spr_ictrl (s : State) (v : Word) : (s.writeCmpd v).spr.ictrl = s.spr.ictrl := rfl
@[simp] theorem State.writeCmpd_spr_lctrl1 (s : State) (v : Word) : (s.writeCmpd v).spr.lctrl1 = s.spr.lctrl1 := rfl
@[simp] theorem State.writeCmpd_spr_lctrl2 (s : State) (v : Word) : (s.writeCmpd v).spr.lctrl2 = s.spr.lctrl2 := rfl
@[simp] theorem State.writeCmpd_spr_counta (s : State) (v : Word) : (s.writeCmpd v).spr.counta = s.spr.counta := rfl
@[simp] theorem State.writeCmpd_spr_countb (s : State) (v : Word) : (s.writeCmpd v).spr.countb = s.spr.countb := rfl
@[simp] theorem State.writeCmpd_spr_ecr (s : State) (v : Word) : (s.writeCmpd v).spr.ecr = s.spr.ecr := rfl
@[simp] theorem State.writeCmpd_spr_der (s : State) (v : Word) : (s.writeCmpd v).spr.der = s.spr.der := rfl
@[simp] theorem State.writeCmpd_spr_bar (s : State) (v : Word) : (s.writeCmpd v).spr.bar = s.spr.bar := rfl
@[simp] theorem State.writeCmpd_port (s : State) (v : Word) : (s.writeCmpd v).port = s.port := rfl
@[simp] theorem State.writeCmpd_dbg (s : State) (v : Word) : (s.writeCmpd v).dbg = s.dbg := rfl
@[simp] theorem State.writeCmpd_trace (s : State) (v : Word) : (s.writeCmpd v).trace = s.trace := rfl
@[simp] theorem State.writeCmpd_lines (s : State) (v : Word) : (s.writeCmpd v).lines = s.lines := rfl
@[simp] theorem State.writeCmpd_ir (s : State) (v : Word) : (s.writeCmpd v).ir = s.ir := rfl
@[simp] theorem State.writeCmpd_inflight (s : State) (v : Word) : (s.writeCmpd v).inflight = s.inflight := rfl
@[simp] theorem State.writeCmpd_cycles (s : State) (v : Word) : (s.writeCmpd v).cycles = s.cycles := rfl
@[simp] theorem State.writeCmpd_outcome (s : State) (v : Word) : (s.writeCmpd v).outcome = s.outcome := rfl
@[simp] theorem State.writeCmpd_traced (s : State) (v : Word) : (s.writeCmpd v).traced = s.traced := rfl
@[simp] theorem State.writeCmpd_countersSettled (s : State) (v : Word) : (s.writeCmpd v).countersSettled = s.countersSettled := rfl
@[simp] theorem State.writeCmpd_expired (s : State) (v : Word) : (s.writeCmpd v).expired = s.expired := rfl
@[simp] theorem State.writeCmpd_oracle (s : State) (v : Word) : (s.writeCmpd v).oracle = s.oracle := rfl
@[simp] theorem State.writeCmpd_faultMap (s : State) (v : Word) : (s.writeCmpd v).faultMap = s.faultMap := rfl
@[simp] theorem State.writeCmpd_mem (s : State) (v : Word) : (s.writeCmpd v).mem = s.mem := rfl
@[simp] theorem State.writeCmpd_inputs (s : State) (v : Word) : (s.writeCmpd v).inputs = s.inputs := rfl
@[simp] theorem State.writeCmpd_out (s : State) (v : Word) : (s.writeCmpd v).out = s.out := rfl
@[simp] theorem State.writeCmpd_draws (s : State) (v : Word) : (s.writeCmpd v).draws = s.draws := rfl

/-! ### writeDer -/

@[simp] theorem State.writeDer_cpu (s : State) (v : Word) : (s.writeDer v).cpu = s.cpu := by unfold State.writeDer; simp
@[simp] theorem State.writeDer_spr_cmpa (s : State) (v : Word) : (s.writeDer v).spr.cmpa = s.spr.cmpa := by unfold State.writeDer; simp
@[simp] theorem State.writeDer_spr_cmpb (s : State) (v : Word) : (s.writeDer v).spr.cmpb = s.spr.cmpb := by unfold State.writeDer; simp
@[simp] theorem State.writeDer_spr_cmpc (s : State) (v : Word) : (s.writeDer v).spr.cmpc = s.spr.cmpc := by unfold State.writeDer; simp
@[simp] theorem State.writeDer_spr_cmpd (s : State) (v : Word) : (s.writeDer v).spr.cmpd = s.spr.cmpd := by unfold State.writeDer; simp
@[simp] theorem State.writeDer_spr_cmpe (s : State) (v : Word) : (s.writeDer v).spr.cmpe = s.spr.cmpe := by unfold State.writeDer; simp
@[simp] theorem State.writeDer_spr_cmpf (s : State) (v : Word) : (s.writeDer v).spr.cmpf = s.spr.cmpf := by unfold State.writeDer; simp
@[simp] theorem State.writeDer_spr_cmpg (s : State) (v : Word) : (s.writeDer v).spr.cmpg = s.spr.cmpg := by unfold State.writeDer; simp
@[simp] theorem State.writeDer_spr_cmph (s : State) (v : Word) : (s.writeDer v).spr.cmph = s.spr.cmph := by unfold State.writeDer; simp
@[simp] theorem State.writeDer_spr_ictrl (s : State) (v : Word) : (s.writeDer v).spr.ictrl = s.spr.ictrl := by unfold State.writeDer; simp
@[simp] theorem State.writeDer_spr_lctrl1 (s : State) (v : Word) : (s.writeDer v).spr.lctrl1 = s.spr.lctrl1 := by unfold State.writeDer; simp
@[simp] theorem State.writeDer_spr_lctrl2 (s : State) (v : Word) : (s.writeDer v).spr.lctrl2 = s.spr.lctrl2 := by unfold State.writeDer; simp
@[simp] theorem State.writeDer_spr_counta (s : State) (v : Word) : (s.writeDer v).spr.counta = s.spr.counta := by unfold State.writeDer; simp
@[simp] theorem State.writeDer_spr_countb (s : State) (v : Word) : (s.writeDer v).spr.countb = s.spr.countb := by unfold State.writeDer; simp
@[simp] theorem State.writeDer_spr_ecr (s : State) (v : Word) : (s.writeDer v).spr.ecr = s.spr.ecr := by unfold State.writeDer; simp
@[simp] theorem State.writeDer_spr_bar (s : State) (v : Word) : (s.writeDer v).spr.bar = s.spr.bar := by unfold State.writeDer; simp
@[simp] theorem State.writeDer_port (s : State) (v : Word) : (s.writeDer v).port = s.port := by unfold State.writeDer; simp
@[simp] theorem State.writeDer_dbg_enable (s : State) (v : Word) : (s.writeDer v).dbg.enable = s.dbg.enable := by unfold State.writeDer; simp
@[simp] theorem State.writeDer_dbg_inDebug (s : State) (v : Word) : (s.writeDer v).dbg.inDebug = s.dbg.inDebug := by unfold State.writeDer; simp
@[simp] theorem State.writeDer_dbg_checkStop (s : State) (v : Word) : (s.writeDer v).dbg.checkStop = s.dbg.checkStop := by unfold State.writeDer; simp
@[simp] theorem State.writeDer_dbg_nonRestartable (s : State) (v : Word) : (s.writeDer v).dbg.nonRestartable = s.dbg.nonRestartable := by unfold State.writeDer; simp
@[simp] theorem State.writeDer_dbg_reservedCommandSeen (s : State) (v : Word) : (s.writeDer v).dbg.reservedCommandSeen = s.dbg.reservedCommandSeen := by unfold State.writeDer; simp
@[simp] theorem State.writeDer_dbg_illegalProgramming (s : State) (v : Word) : (s.writeDer v).dbg.illegalProgramming = s.dbg.illegalProgramming := by unfold State.writeDer; simp
@[simp] theorem State.writeDer_dbg_unalignedSeen (s : State) (v : Word) : (s.writeDer v).dbg.unalignedSeen = s.dbg.unalignedSeen := by unfold State.writeDer; simp
@[simp] theorem State.writeDer_trace (s : State) (v : Word) : (s.writeDer v).trace = s.trace := by unfold State.writeDer; simp
@[simp] theorem State.writeDer_lines (s : State) (v : Word) : (s.writeDer v).lines = s.lines := by unfold State.writeDer; simp
@[simp] theorem State.writeDer_ir (s : State) (v : Word) : (s.writeDer v).ir = s.ir := by unfold State.writeDer; simp
@[simp] theorem State.writeDer_inflight (s : State) (v : Word) : (s.writeDer v).inflight = s.inflight := by unfold State.writeDer; simp
@[simp] theorem State.writeDer_cycles (s : State) (v : Word) : (s.writeDer v).cycles = s.cycles := by unfold State.writeDer; simp
@[simp] theorem State.writeDer_outcome (s : State) (v : Word) : (s.writeDer v).outcome = s.outcome := by unfold State.writeDer; simp
@[simp] theorem State.writeDer_traced (s : State) (v : Word) : (s.writeDer v).traced = s.traced := by unfold State.writeDer; simp
@[simp] theorem State.writeDer_countersSettled (s : State) (v : Word) : (s.writeDer v).countersSettled = s.countersSettled := by unfold State.writeDer; simp
@[simp] theorem State.writeDer_expired (s : State) (v : Word) : (s.writeDer v).expired = s.expired := by unfold State.writeDer; simp
@[simp] theorem State.writeDer_oracle (s : State) (v : Word) : (s.writeDer v).oracle = s.oracle := by unfold State.writeDer; simp
@[simp] theorem State.writeDer_faultMap (s : State) (v : Word) : (s.writeDer v).faultMap = s.faultMap := by unfold State.writeDer; simp
@[simp] theorem State.writeDer_mem (s : State) (v : Word) : (s.writeDer v).mem = s.mem := by unfold State.writeDer; simp
@[simp] theorem State.writeDer_inputs (s : State) (v : Word) : (s.writeDer v).inputs = s.inputs := by unfold State.writeDer; simp
@[simp] theorem State.writeDer_out (s : State) (v : Word) : (s.writeDer v).out = s.out := by unfold State.writeDer; simp
@[simp] theorem State.writeDer_draws (s : State) (v : Word) : (s.writeDer v).draws = s.draws := by unfold State.writeDer; simp

/-! ### writeCounta -/

@[simp] theorem State.writeCounta_cpu (s : State) (v : Word) : (s.writeCounta v).cpu = s.cpu := rfl
@[simp] theorem State.writeCounta_spr_cmpa (s : State) (v : Word) : (s.writeCounta v).spr.cmpa = s.spr.cmpa := rfl
@[simp] theorem State.writeCounta_spr_cmpb (s : State) (v : Word) : (s.writeCounta v).spr.cmpb = s.spr.cmpb := rfl
@[simp] theorem State.writeCounta_spr_cmpc (s : State) (v : Word) : (s.writeCounta v).spr.cmpc = s.spr.cmpc := rfl
@[simp] theorem State.writeCounta_spr_cmpd (s : State) (v : Word) : (s.writeCounta v).spr.cmpd = s.spr.cmpd := rfl
@[simp] theorem State.writeCounta_spr_cmpe (s : State) (v : Word) : (s.writeCounta v).spr.cmpe = s.spr.cmpe := rfl
@[simp] theorem State.writeCounta_spr_cmpf (s : State) (v : Word) : (s.writeCounta v).spr.cmpf = s.spr.cmpf := rfl
@[simp] theorem State.writeCounta_spr_cmpg (s : State) (v : Word) : (s.writeCounta v).spr.cmpg = s.spr.cmpg := rfl
@[simp] theorem State.writeCounta_spr_cmph (s : State) (v : Word) : (s.writeCounta v).spr.cmph = s.spr.cmph := rfl
@[simp] theorem State.writeCounta_spr_ictrl (s : State) (v : Word) : (s.writeCounta v).spr.ictrl = s.spr.ictrl := rfl
@[simp] theorem State.writeCounta_spr_lctrl1 (s : State) (v : Word) : (s.writeCounta v).spr.lctrl1 = s.spr.lctrl1 := rfl
@[simp] theorem State.writeCounta_spr_lctrl2 (s : State) (v : Word) : (s.writeCounta v).spr.lctrl2 = s.spr.lctrl2 := rfl
@[simp] theorem State.writeCounta_spr_countb (s : State) (v : Word) : (s.writeCounta v).spr.countb = s.spr.countb := rfl
@[simp] theorem State.writeCounta_spr_ecr (s : State) (v : Word) : (s.writeCounta v).spr.ecr = s.spr.ecr := rfl
@[simp] theorem State.writeCounta_spr_der (s : State) (v : Word) : (s.writeCounta v).spr.der = s.spr.der := rfl
@[simp] theorem State.writeCounta_spr_bar (s : State) (v : Word) : (s.writeCounta v).spr.bar = s.spr.bar := rfl
@[simp] theorem State.writeCounta_port (s : State) (v : Word) : (s.writeCounta v).port = s.port := rfl
@[simp] theorem State.writeCounta_dbg (s : State) (v : Word) : (s.writeCounta v).dbg = s.dbg := rfl
@[simp] theorem State.writeCounta_trace (s : State) (v : Word) : (s.writeCounta v).trace = s.trace := rfl
@[simp] theorem State.writeCounta_lines (s : State) (v : Word) : (s.writeCounta v).lines = s.lines := rfl
@[simp] theorem State.writeCounta_ir (s : State) (v : Word) : (s.writeCounta v).ir = s.ir := rfl
@[simp] theorem State.writeCounta_inflight (s : State) (v : Word) : (s.writeCounta v).inflight = s.inflight := rfl
@[simp] theorem State.writeCounta_cycles (s : State) (v : Word) : (s.writeCounta v).cycles = s.cycles := rfl
@[simp] theorem State.writeCounta_outcome (s : State) (v : Word) : (s.writeCounta v).outcome = s.outcome := rfl
@[simp] theorem State.writeCounta_traced (s : State) (v : Word) : (s.writeCounta v).traced = s.traced := rfl
@[simp] theorem State.writeCounta_countersSettled (s : State) (v : Word) : (s.writeCounta v).countersSettled = s.countersSettled := rfl
@[simp] theorem State.writeCounta_oracle (s : State) (v : Word) : (s.writeCounta v).oracle = s.oracle := rfl
@[simp] theorem State.writeCounta_faultMap (s : State) (v : Word) : (s.writeCounta v).faultMap = s.faultMap := rfl
@[simp] theorem State.writeCounta_mem (s : State) (v : Word) : (s.writeCounta v).mem = s.mem := rfl
@[simp] theorem State.writeCounta_inputs (s : State) (v : Word) : (s.writeCounta v).inputs = s.inputs := rfl
@[simp] theorem State.writeCounta_out (s : State) (v : Word) : (s.writeCounta v).out = s.out := rfl
@[simp] theorem State.writeCounta_draws (s : State) (v : Word) : (s.writeCounta v).draws = s.draws := rfl

/-! ### writeCountb -/

@[simp] theorem State.writeCountb_cpu (s : State) (v : Word) : (s.writeCountb v).cpu = s.cpu := rfl
@[simp] theorem State.writeCountb_spr_cmpa (s : State) (v : Word) : (s.writeCountb v).spr.cmpa = s.spr.cmpa := rfl
@[simp] theorem State.writeCountb_spr_cmpb (s : State) (v : Word) : (s.writeCountb v).spr.cmpb = s.spr.cmpb := rfl
@[simp] theorem State.writeCountb_spr_cmpc (s : State) (v : Word) : (s.writeCountb v).spr.cmpc = s.spr.cmpc := rfl
@[simp] theorem State.writeCountb_spr_cmpd (s : State) (v : Word) : (s.writeCountb v).spr.cmpd = s.spr.cmpd := rfl
@[simp] theorem State.writeCountb_spr_cmpe (s : State) (v : Word) : (s.writeCountb v).spr.cmpe = s.spr.cmpe := rfl
@[simp] theorem State.writeCountb_spr_cmpf (s : State) (v : Word) : (s.writeCountb v).spr.cmpf = s.spr.cmpf := rfl
@[simp] theorem State.writeCountb_spr_cmpg (s : State) (v : Word) : (s.writeCountb v).spr.cmpg = s.spr.cmpg := rfl
@[simp] theorem State.writeCountb_spr_cmph (s : State) (v : Word) : (s.writeCountb v).spr.cmph = s.spr.cmph := rfl
@[simp] theorem State.writeCountb_spr_ictrl (s : State) (v : Word) : (s.writeCountb v).spr.ictrl = s.spr.ictrl := rfl
@[simp] theorem State.writeCountb_spr_lctrl1 (s : State) (v : Word) : (s.writeCountb v).spr.lctrl1 = s.spr.lctrl1 := rfl
@[simp] theorem State.writeCountb_spr_lctrl2 (s : State) (v : Word) : (s.writeCountb v).spr.lctrl2 = s.spr.lctrl2 := rfl
@[simp] theorem State.writeCountb_spr_counta (s : State) (v : Word) : (s.writeCountb v).spr.counta = s.spr.counta := rfl
@[simp] theorem State.writeCountb_spr_ecr (s : State) (v : Word) : (s.writeCountb v).spr.ecr = s.spr.ecr := rfl
@[simp] theorem State.writeCountb_spr_der (s : State) (v : Word) : (s.writeCountb v).spr.der = s.spr.der := rfl
@[simp] theorem State.writeCountb_spr_bar (s : State) (v : Word) : (s.writeCountb v).spr.bar = s.spr.bar := rfl
@[simp] theorem State.writeCountb_port (s : State) (v : Word) : (s.writeCountb v).port = s.port := rfl
@[simp] theorem State.writeCountb_dbg (s : State) (v : Word) : (s.writeCountb v).dbg = s.dbg := rfl
@[simp] theorem State.writeCountb_trace (s : State) (v : Word) : (s.writeCountb v).trace = s.trace := rfl
@[simp] theorem State.writeCountb_lines (s : State) (v : Word) : (s.writeCountb v).lines = s.lines := rfl
@[simp] theorem State.writeCountb_ir (s : State) (v : Word) : (s.writeCountb v).ir = s.ir := rfl
@[simp] theorem State.writeCountb_inflight (s : State) (v : Word) : (s.writeCountb v).inflight = s.inflight := rfl
@[simp] theorem State.writeCountb_cycles (s : State) (v : Word) : (s.writeCountb v).cycles = s.cycles := rfl
@[simp] theorem State.writeCountb_outcome (s : State) (v : Word) : (s.writeCountb v).outcome = s.outcome := rfl
@[simp] theorem State.writeCountb_traced (s : State) (v : Word) : (s.writeCountb v).traced = s.traced := rfl
@[simp] theorem State.writeCountb_countersSettled (s : State) (v : Word) : (s.writeCountb v).countersSettled = s.countersSettled := rfl
@[simp] theorem State.writeCountb_oracle (s : State) (v : Word) : (s.writeCountb v).oracle = s.oracle := rfl
@[simp] theorem State.writeCountb_faultMap (s : State) (v : Word) : (s.writeCountb v).faultMap = s.faultMap := rfl
@[simp] theorem State.writeCountb_mem (s : State) (v : Word) : (s.writeCountb v).mem = s.mem := rfl
@[simp] theorem State.writeCountb_inputs (s : State) (v : Word) : (s.writeCountb v).inputs = s.inputs := rfl
@[simp] theorem State.writeCountb_out (s : State) (v : Word) : (s.writeCountb v).out = s.out := rfl
@[simp] theorem State.writeCountb_draws (s : State) (v : Word) : (s.writeCountb v).draws = s.draws := rfl

/-! ### writeCmpe -/

@[simp] theorem State.writeCmpe_cpu (s : State) (v : Word) : (s.writeCmpe v).cpu = s.cpu := rfl
@[simp] theorem State.writeCmpe_spr_cmpa (s : State) (v : Word) : (s.writeCmpe v).spr.cmpa = s.spr.cmpa := rfl
@[simp] theorem State.writeCmpe_spr_cmpb (s : State) (v : Word) : (s.writeCmpe v).spr.cmpb = s.spr.cmpb := rfl
@[simp] theorem State.writeCmpe_spr_cmpc (s : State) (v : Word) : (s.writeCmpe v).spr.cmpc = s.spr.cmpc := rfl
@[simp] theorem State.writeCmpe_spr_cmpd (s : State) (v : Word) : (s.writeCmpe v).spr.cmpd = s.spr.cmpd := rfl
@[simp] theorem State.writeCmpe_spr_cmpf (s : State) (v : Word) : (s.writeCmpe v).spr.cmpf = s.spr.cmpf := rfl
@[simp] theorem State.writeCmpe_spr_cmpg (s : State) (v : Word) : (s.writeCmpe v).spr.cmpg = s.spr.cmpg := rfl
@[simp] theorem State.writeCmpe_spr_cmph (s : State) (v : Word) : (s.writeCmpe v).spr.cmph = s.spr.cmph := rfl
@[simp] theorem State.writeCmpe_spr_ictrl (s : State) (v : Word) : (s.writeCmpe v).spr.ictrl = s.spr.ictrl := rfl
@[simp] theorem State.writeCmpe_spr_lctrl1 (s : State) (v : Word) : (s.writeCmpe v).spr.lctrl1 = s.spr.lctrl1 := rfl
@[simp] theorem State.writeCmpe_spr_lctrl2 (s : State) (v : Word) : (s.writeCmpe v).spr.lctrl2 = s.spr.lctrl2 := rfl
@[simp] theorem State.writeCmpe_spr_counta (s : State) (v : Word) : (s.writeCmpe v).spr.counta = s.spr.counta := rfl
@[simp] theorem State.writeCmpe_spr_countb (s : State) (v : Word) : (s.writeCmpe v).spr.countb = s.spr.countb := rfl
@[simp] theorem State.writeCmpe_spr_ecr (s : State) (v : Word) : (s.writeCmpe v).spr.ecr = s.spr.ecr := rfl
@[simp] theorem State.writeCmpe_spr_der (s : State) (v : Word) : (s.writeCmpe v).spr.der = s.spr.der := rfl
@[simp] theorem State.writeCmpe_spr_bar (s : State) (v : Word) : (s.writeCmpe v).spr.bar = s.spr.bar := rfl
@[simp] theorem State.writeCmpe_port (s : State) (v : Word) : (s.writeCmpe v).port = s.port := rfl
@[simp] theorem State.writeCmpe_dbg (s : State) (v : Word) : (s.writeCmpe v).dbg = s.dbg := rfl
@[simp] theorem State.writeCmpe_trace (s : State) (v : Word) : (s.writeCmpe v).trace = s.trace := rfl
@[simp] theorem State.writeCmpe_lines (s : State) (v : Word) : (s.writeCmpe v).lines = s.lines := rfl
@[simp] theorem State.writeCmpe_ir (s : State) (v : Word) : (s.writeCmpe v).ir = s.ir := rfl
@[simp] theorem State.writeCmpe_inflight (s : State) (v : Word) : (s.writeCmpe v).inflight = s.inflight := rfl
@[simp] theorem State.writeCmpe_cycles (s : State) (v : Word) : (s.writeCmpe v).cycles = s.cycles := rfl
@[simp] theorem State.writeCmpe_outcome (s : State) (v : Word) : (s.writeCmpe v).outcome = s.outcome := rfl
@[simp] theorem State.writeCmpe_traced (s : State) (v : Word) : (s.writeCmpe v).traced = s.traced := rfl
@[simp] theorem State.writeCmpe_countersSettled (s : State) (v : Word) : (s.writeCmpe v).countersSettled = s.countersSettled := rfl
@[simp] theorem State.writeCmpe_expired (s : State) (v : Word) : (s.writeCmpe v).expired = s.expired := rfl
@[simp] theorem State.writeCmpe_oracle (s : State) (v : Word) : (s.writeCmpe v).oracle = s.oracle := rfl
@[simp] theorem State.writeCmpe_faultMap (s : State) (v : Word) : (s.writeCmpe v).faultMap = s.faultMap := rfl
@[simp] theorem State.writeCmpe_mem (s : State) (v : Word) : (s.writeCmpe v).mem = s.mem := rfl
@[simp] theorem State.writeCmpe_inputs (s : State) (v : Word) : (s.writeCmpe v).inputs = s.inputs := rfl
@[simp] theorem State.writeCmpe_out (s : State) (v : Word) : (s.writeCmpe v).out = s.out := rfl
@[simp] theorem State.writeCmpe_draws (s : State) (v : Word) : (s.writeCmpe v).draws = s.draws := rfl

/-! ### writeCmpf -/

@[simp] theorem State.writeCmpf_cpu (s : State) (v : Word) : (s.writeCmpf v).cpu = s.cpu := rfl
@[simp] theorem State.writeCmpf_spr_cmpa (s : State) (v : Word) : (s.writeCmpf v).spr.cmpa = s.spr.cmpa := rfl
@[simp] theorem State.writeCmpf_spr_cmpb (s : State) (v : Word) : (s.writeCmpf v).spr.cmpb = s.spr.cmpb := rfl
@[simp] theorem State.writeCmpf_spr_cmpc (s : State) (v : Word) : (s.writeCmpf v).spr.cmpc = s.spr.cmpc := rfl
@[simp] theorem State.writeCmpf_spr_cmpd (s : State) (v : Word) : (s.writeCmpf v).spr.cmpd = s.spr.cmpd := rfl
@[simp] theorem State.writeCmpf_spr_cmpe (s : State) (v : Word) : (s.writeCmpf v).spr.cmpe = s.spr.cmpe := rfl
@[simp] theorem State.writeCmpf_spr_cmpg (s : State) (v : Word) : (s.writeCmpf v).spr.cmpg = s.spr.cmpg := rfl
@[simp] theorem State.writeCmpf_spr_cmph (s : State) (v : Word) : (s.writeCmpf v).spr.cmph = s.spr.cmph := rfl
@[simp] theorem State.writeCmpf_spr_ictrl (s : State) (v : Word) : (s.writeCmpf v).spr.ictrl = s.spr.ictrl := rfl
@[simp] theorem State.writeCmpf_spr_lctrl1 (s : State) (v : Word) : (s.writeCmpf v).spr.lctrl1 = s.spr.lctrl1 := rfl
@[simp] theorem State.writeCmpf_spr_lctrl2 (s : State) (v : Word) : (s.writeCmpf v).spr.lctrl2 = s.spr.lctrl2 := rfl
@[simp] theorem State.writeCmpf_spr_counta (s : State) (v : Word) : (s.writeCmpf v).spr.counta = s.spr.counta := rfl
@[simp] theorem State.writeCmpf_spr_countb (s : State) (v : Word) : (s.writeCmpf v).spr.countb = s.spr.countb := rfl
@[simp] theorem State.writeCmpf_spr_ecr (s : State) (v : Word) : (s.writeCmpf v).spr.ecr = s.spr.ecr := rfl
@[simp] theorem State.writeCmpf_spr_der (s : State) (v : Word) : (s.writeCmpf v).spr.der = s.spr.der := rfl
@[simp] theorem State.writeCmpf_spr_bar (s : State) (v : Word) : (s.writeCmpf v).spr.bar = s.spr.bar := rfl
@[simp] theorem State.writeCmpf_port (s : State) (v : Word) : (s.writeCmpf v).port = s.port := rfl
@[simp] theorem State.writeCmpf_dbg (s : State) (v : Word) : (s.writeCmpf v).dbg = s.dbg := rfl
@[simp] theorem State.writeCmpf_trace (s : State) (v : Word) : (s.writeCmpf v).trace = s.trace := rfl
@[simp] theorem State.writeCmpf_lines (s : State) (v : Word) : (s.writeCmpf v).lines = s.lines := rfl
@[simp] theorem State.writeCmpf_ir (s : State) (v : Word) : (s.writeCmpf v).ir = s.ir := rfl
@[simp] theorem State.writeCmpf_inflight (s : State) (v : Word) : (s.writeCmpf v).inflight = s.inflight := rfl
@[simp] theorem State.writeCmpf_cycles (s : State) (v : Word) : (s.writeCmpf v).cycles = s.cycles := rfl
@[simp] theorem State.writeCmpf_outcome (s : State) (v : Word) : (s.writeCmpf v).outcome = s.outcome := rfl
@[simp] theorem State.writeCmpf_traced (s : State) (v : Word) : (s.writeCmpf v).traced = s.traced := rfl
@[simp] theorem State.writeCmpf_countersSettled (s : State) (v : Word) : (s.writeCmpf v).countersSettled = s.countersSettled := rfl
@[simp] theorem State.writeCmpf_expired (s : State) (v : Word) : (s.writeCmpf v).expired = s.expired := rfl
@[simp] theorem State.writeCmpf_oracle (s : State) (v : Word) : (s.writeCmpf v).oracle = s.oracle := rfl
@[simp] theorem State.writeCmpf_faultMap (s : State) (v : Word) : (s.writeCmpf v).faultMap = s.faultMap := rfl
@[simp] theorem State.writeCmpf_mem (s : State) (v : Word) : (s.writeCmpf v).mem = s.mem := rfl
@[simp] theorem State.writeCmpf_inputs (s : State) (v : Word) : (s.writeCmpf v).inputs = s.inputs := rfl
@[simp] theorem State.writeCmpf_out (s : State) (v : Word) : (s.writeCmpf v).out = s.out := rfl
@[simp] theorem State.writeCmpf_draws (s : State) (v : Word) : (s.writeCmpf v).draws = s.draws := rfl

/-! ### writeCmpg -/

@[simp] theorem State.writeCmpg_cpu (s : State) (v : Word) : (s.writeCmpg v).cpu = s.cpu := rfl
@[simp] theorem State.writeCmpg_spr_cmpa (s : State) (v : Word) : (s.writeCmpg v).spr.cmpa = s.spr.cmpa := rfl
@[simp] theorem State.writeCmpg_spr_cmpb (s : State) (v : Word) : (s.writeCmpg v).spr.cmpb = s.spr.cmpb := rfl
@[simp] theorem State.writeCmpg_spr_cmpc (s : State) (v : Word) : (s.writeCmpg v).spr.cmpc = s.spr.cmpc := rfl
@[simp] theorem State.writeCmpg_spr_cmpd (s : State) (v : Word) : (s.writeCmpg v).spr.cmpd = s.spr.cmpd := rfl
@[simp] theorem State.writeCmpg_spr_cmpe (s : State) (v : Word) : (s.writeCmpg v).spr.cmpe = s.spr.cmpe := rfl
@[simp] theorem State.writeCmpg_spr_cmpf (s : State) (v : Word) : (s.writeCmpg v).spr.cmpf = s.spr.cmpf := rfl
@[simp] theorem State.writeCmpg_spr_cmph (s : State) (v : Word) : (s.writeCmpg v).spr.cmph = s.spr.cmph := rfl
@[simp] theorem State.writeCmpg_spr_ictrl (s : State) (v : Word) : (s.writeCmpg v).spr.ictrl = s.spr.ictrl := rfl
@[simp] theorem State.writeCmpg_spr_lctrl1 (s : State) (v : Word) : (s.writeCmpg v).spr.lctrl1 = s.spr.lctrl1 := rfl
@[simp] theorem State.writeCmpg_spr_lctrl2 (s : State) (v : Word) : (s.writeCmpg v).spr.lctrl2 = s.spr.lctrl2 := rfl
@[simp] theorem State.writeCmpg_spr_counta (s : State) (v : Word) : (s.writeCmpg v).spr.counta = s.spr.counta := rfl
@[simp] theorem State.writeCmpg_spr_countb (s : State) (v : Word) : (s.writeCmpg v).spr.countb = s.spr.countb := rfl
@[simp] theorem State.writeCmpg_spr_ecr (s : State) (v : Word) : (s.writeCmpg v).spr.ecr = s.spr.ecr := rfl
@[simp] theorem State.writeCmpg_spr_der (s : State) (v : Word) : (s.writeCmpg v).spr.der = s.spr.der := rfl
@[simp] theorem State.writeCmpg_spr_bar (s : State) (v : Word) : (s.writeCmpg v).spr.bar = s.spr.bar := rfl
@[simp] theorem State.writeCmpg_port (s : State) (v : Word) : (s.writeCmpg v).port = s.port := rfl
@[simp] theorem State.writeCmpg_dbg (s : State) (v : Word) : (s.writeCmpg v).dbg = s.dbg := rfl
@[simp] theorem State.writeCmpg_trace (s : State) (v : Word) : (s.writeCmpg v).trace = s.trace := rfl
@[simp] theorem State.writeCmpg_lines (s : State) (v : Word) : (s.writeCmpg v).lines = s.lines := rfl
@[simp] theorem State.writeCmpg_ir (s : State) (v : Word) : (s.writeCmpg v).ir = s.ir := rfl
@[simp] theorem State.writeCmpg_inflight (s : State) (v : Word) : (s.writeCmpg v).inflight = s.inflight := rfl
@[simp] theorem State.writeCmpg_cycles (s : State) (v : Word) : (s.writeCmpg v).cycles = s.cycles := rfl
@[simp] theorem State.writeCmpg_outcome (s : State) (v : Word) : (s.writeCmpg v).outcome = s.outcome := rfl
@[simp] theorem State.writeCmpg_traced (s : State) (v : Word) : (s.writeCmpg v).traced = s.traced := rfl
@[simp] theorem State.writeCmpg_countersSettled (s : State) (v : Word) : (s.writeCmpg v).countersSettled = s.countersSettled := rfl
@[simp] theorem State.writeCmpg_expired (s : State) (v : Word) : (s.writeCmpg v).expired = s.expired := rfl
@[simp] theorem State.writeCmpg_oracle (s : State) (v : Word) : (s.writeCmpg v).oracle = s.oracle := rfl
@[simp] theorem State.writeCmpg_faultMap (s : State) (v : Word) : (s.writeCmpg v).faultMap = s.faultMap := rfl
@[simp] theorem State.writeCmpg_mem (s : State) (v : Word) : (s.writeCmpg v).mem = s.mem := rfl
@[simp] theorem State.writeCmpg_inputs (s : State) (v : Word) : (s.writeCmpg v).inputs = s.inputs := rfl
@[simp] theorem State.writeCmpg_out (s : State) (v : Word) : (s.writeCmpg v).out = s.out := rfl
@[simp] theorem State.writeCmpg_draws (s : State) (v : Word) : (s.writeCmpg v).draws = s.draws := rfl

/-! ### writeCmph -/

@[simp] theorem State.writeCmph_cpu (s : State) (v : Word) : (s.writeCmph v).cpu = s.cpu := rfl
@[simp] theorem State.writeCmph_spr_cmpa (s : State) (v : Word) : (s.writeCmph v).spr.cmpa = s.spr.cmpa := rfl
@[simp] theorem State.writeCmph_spr_cmpb (s : State) (v : Word) : (s.writeCmph v).spr.cmpb = s.spr.cmpb := rfl
@[simp] theorem State.writeCmph_spr_cmpc (s : State) (v : Word) : (s.writeCmph v).spr.cmpc = s.spr.cmpc := rfl
@[simp] theorem State.writeCmph_spr_cmpd (s : State) (v : Word) : (s.writeCmph v).spr.cmpd = s.spr.cmpd := rfl
@[simp] theorem State.writeCmph_spr_cmpe (s : State) (v : Word) : (s.writeCmph v).spr.cmpe = s.spr.cmpe := rfl
@[simp] theorem State.writeCmph_spr_cmpf (s : State) (v : Word) : (s.writeCmph v).spr.cmpf = s.spr.cmpf := rfl
@[simp] theorem State.writeCmph_spr_cmpg (s : State) (v : Word) : (s.writeCmph v).spr.cmpg = s.spr.cmpg := rfl
@[simp] theorem State.writeCmph_spr_ictrl (s : State) (v : Word) : (s.writeCmph v).spr.ictrl = s.spr.ictrl := rfl
@[simp] theorem State.writeCmph_spr_lctrl1 (s : State) (v : Word) : (s.writeCmph v).spr.lctrl1 = s.spr.lctrl1 := rfl
@[simp] theorem State.writeCmph_spr_lctrl2 (s : State) (v : Word) : (s.writeCmph v).spr.lctrl2 = s.spr.lctrl2 := rfl
@[simp] theorem State.writeCmph_spr_counta (s : State) (v : Word) : (s.writeCmph v).spr.counta = s.spr.counta := rfl
@[simp] theorem State.writeCmph_spr_countb (s : State) (v : Word) : (s.writeCmph v).spr.countb = s.spr.countb := rfl
@[simp] theorem State.writeCmph_spr_ecr (s : State) (v : Word) : (s.writeCmph v).spr.ecr = s.spr.ecr := rfl
@[simp] theorem State.writeCmph_spr_der (s : State) (v : Word) : (s.writeCmph v).spr.der = s.spr.der := rfl
@[simp] theorem State.writeCmph_spr_bar (s : State) (v : Word) : (s.writeCmph v).spr.bar = s.spr.bar := rfl
@[simp] theorem State.writeCmph_port (s : State) (v : Word) : (s.writeCmph v).port = s.port := rfl
@[simp] theorem State.writeCmph_dbg (s : State) (v : Word) : (s.writeCmph v).dbg = s.dbg := rfl
@[simp] theorem State.writeCmph_trace (s : State) (v : Word) : (s.writeCmph v).trace = s.trace := rfl
@[simp] theorem State.writeCmph_lines (s : State) (v : Word) : (s.writeCmph v).lines = s.lines := rfl
@[simp] theorem State.writeCmph_ir (s : State) (v : Word) : (s.writeCmph v).ir = s.ir := rfl
@[simp] theorem State.writeCmph_inflight (s : State) (v : Word) : (s.writeCmph v).inflight = s.inflight := rfl
@[simp] theorem State.writeCmph_cycles (s : State) (v : Word) : (s.writeCmph v).cycles = s.cycles := rfl
@[simp] theorem State.writeCmph_outcome (s : State) (v : Word) : (s.writeCmph v).outcome = s.outcome := rfl
@[simp] theorem State.writeCmph_traced (s : State) (v : Word) : (s.writeCmph v).traced = s.traced := rfl
@[simp] theorem State.writeCmph_countersSettled (s : State) (v : Word) : (s.writeCmph v).countersSettled = s.countersSettled := rfl
@[simp] theorem State.writeCmph_expired (s : State) (v : Word) : (s.writeCmph v).expired = s.expired := rfl
@[simp] theorem State.writeCmph_oracle (s : State) (v : Word) : (s.writeCmph v).oracle = s.oracle := rfl
@[simp] theorem State.writeCmph_faultMap (s : State) (v : Word) : (s.writeCmph v).faultMap = s.faultMap := rfl
@[simp] theorem State.writeCmph_mem (s : State) (v : Word) : (s.writeCmph v).mem = s.mem := rfl
@[simp] theorem State.writeCmph_inputs (s : State) (v : Word) : (s.writeCmph v).inputs = s.inputs := rfl
@[simp] theorem State.writeCmph_out (s : State) (v : Word) : (s.writeCmph v).out = s.out := rfl
@[simp] theorem State.writeCmph_draws (s : State) (v : Word) : (s.writeCmph v).draws = s.draws := rfl

/-! ### writeLctrl1 -/

@[simp] theorem State.writeLctrl1_cpu (s : State) (v : Word) : (s.writeLctrl1 v).cpu = s.cpu := rfl
@[simp] theorem State.writeLctrl1_spr_cmpa (s : State) (v : Word) : (s.writeLctrl1 v).spr.cmpa = s.spr.cmpa := rfl
@[simp] theorem State.writeLctrl1_spr_cmpb (s : State) (v : Word) : (s.writeLctrl1 v).spr.cmpb = s.spr.cmpb := rfl
@[simp] theorem State.writeLctrl1_spr_cmpc (s : State) (v : Word) : (s.writeLctrl1 v).spr.cmpc = s.spr.cmpc := rfl
@[simp] theorem State.writeLctrl1_spr_cmpd (s : State) (v : Word) : (s.writeLctrl1 v).spr.cmpd = s.spr.cmpd := rfl
@[simp] theorem State.writeLctrl1_spr_cmpe (s : State) (v : Word) : (s.writeLctrl1 v).spr.cmpe = s.spr.cmpe := rfl
@[simp] theorem State.writeLctrl1_spr_cmpf (s : State) (v : Word) : (s.writeLctrl1 v).spr.cmpf = s.spr.cmpf := rfl
@[simp] theorem State.writeLctrl1_spr_cmpg (s : State) (v : Word) : (s.writeLctrl1 v).spr.cmpg = s.spr.cmpg := rfl
@[simp] theorem State.writeLctrl1_spr_cmph (s : State) (v : Word) : (s.writeLctrl1 v).spr.cmph = s.spr.cmph := rfl
@[simp] theorem State.writeLctrl1_spr_ictrl (s : State) (v : Word) : (s.writeLctrl1 v).spr.ictrl = s.spr.ictrl := rfl
@[simp] theorem State.writeLctrl1_spr_lctrl2 (s : State) (v : Word) : (s.writeLctrl1 v).spr.lctrl2 = s.spr.lctrl2 := rfl
@[simp] theorem State.writeLctrl1_spr_counta (s : State) (v : Word) : (s.writeLctrl1 v).spr.counta = s.spr.counta := rfl
@[simp] theorem State.writeLctrl1_spr_countb (s : State) (v : Word) : (s.writeLctrl1 v).spr.countb = s.spr.countb := rfl
@[simp] theorem State.writeLctrl1_spr_ecr (s : State) (v : Word) : (s.writeLctrl1 v).spr.ecr = s.spr.ecr := rfl
@[simp] theorem State.writeLctrl1_spr_der (s : State) (v : Word) : (s.writeLctrl1 v).spr.der = s.spr.der := rfl
@[simp] theorem State.writeLctrl1_spr_bar (s : State) (v : Word) : (s.writeLctrl1 v).spr.bar = s.spr.bar := rfl
@[simp] theorem State.writeLctrl1_port (s : State) (v : Word) : (s.writeLctrl1 v).port = s.port := rfl
@[simp] theorem State.writeLctrl1_dbg (s : State) (v : Word) : (s.writeLctrl1 v).dbg = s.dbg := rfl
@[simp] theorem State.writeLctrl1_trace (s : State) (v : Word) : (s.writeLctrl1 v).trace = s.trace := rfl
@[simp] theorem State.writeLctrl1_lines (s : State) (v : Word) : (s.writeLctrl1 v).lines = s.lines := rfl
@[simp] theorem State.writeLctrl1_ir (s : State) (v : Word) : (s.writeLctrl1 v).ir = s.ir := rfl
@[simp] theorem State.writeLctrl1_inflight (s : State) (v : Word) : (s.writeLctrl1 v).inflight = s.inflight := rfl
@[simp] theorem State.writeLctrl1_cycles (s : State) (v : Word) : (s.writeLctrl1 v).cycles = s.cycles := rfl
@[simp] theorem State.writeLctrl1_outcome (s : State) (v : Word) : (s.writeLctrl1 v).outcome = s.outcome := rfl
@[simp] theorem State.writeLctrl1_traced (s : State) (v : Word) : (s.writeLctrl1 v).traced = s.traced := rfl
@[simp] theorem State.writeLctrl1_countersSettled (s : State) (v : Word) : (s.writeLctrl1 v).countersSettled = s.countersSettled := rfl
@[simp] theorem State.writeLctrl1_expired (s : State) (v : Word) : (s.writeLctrl1 v).expired = s.expired := rfl
@[simp] theorem State.writeLctrl1_oracle (s : State) (v : Word) : (s.writeLctrl1 v).oracle = s.oracle := rfl
@[simp] theorem State.writeLctrl1_faultMap (s : State) (v : Word) : (s.writeLctrl1 v).faultMap = s.faultMap := rfl
@[simp] theorem State.writeLctrl1_mem (s : State) (v : Word) : (s.writeLctrl1 v).mem = s.mem := rfl
@[simp] theorem State.writeLctrl1_inputs (s : State) (v : Word) : (s.writeLctrl1 v).inputs = s.inputs := rfl
@[simp] theorem State.writeLctrl1_out (s : State) (v : Word) : (s.writeLctrl1 v).out = s.out := rfl
@[simp] theorem State.writeLctrl1_draws (s : State) (v : Word) : (s.writeLctrl1 v).draws = s.draws := rfl

/-! ### writeLctrl2 -/

@[simp] theorem State.writeLctrl2_cpu (s : State) (v : Word) : (s.writeLctrl2 v).cpu = s.cpu := rfl
@[simp] theorem State.writeLctrl2_spr_cmpa (s : State) (v : Word) : (s.writeLctrl2 v).spr.cmpa = s.spr.cmpa := rfl
@[simp] theorem State.writeLctrl2_spr_cmpb (s : State) (v : Word) : (s.writeLctrl2 v).spr.cmpb = s.spr.cmpb := rfl
@[simp] theorem State.writeLctrl2_spr_cmpc (s : State) (v : Word) : (s.writeLctrl2 v).spr.cmpc = s.spr.cmpc := rfl
@[simp] theorem State.writeLctrl2_spr_cmpd (s : State) (v : Word) : (s.writeLctrl2 v).spr.cmpd = s.spr.cmpd := rfl
@[simp] theorem State.writeLctrl2_spr_cmpe (s : State) (v : Word) : (s.writeLctrl2 v).spr.cmpe = s.spr.cmpe := rfl
@[simp] theorem State.writeLctrl2_spr_cmpf (s : State) (v : Word) : (s.writeLctrl2 v).spr.cmpf = s.spr.cmpf := rfl
@[simp] theorem State.writeLctrl2_spr_cmpg (s : State) (v : Word) : (s.writeLctrl2 v).spr.cmpg = s.spr.cmpg := rfl
@[simp] theorem State.writeLctrl2_spr_cmph (s : State) (v : Word) : (s.writeLctrl2 v).spr.cmph = s.spr.cmph := rfl
@[simp] theorem State.writeLctrl2_spr_ictrl (s : State) (v : Word) : (s.writeLctrl2 v).spr.ictrl = s.spr.ictrl := rfl
@[simp] theorem State.writeLctrl2_spr_lctrl1 (s : State) (v : Word) : (s.writeLctrl2 v).spr.lctrl1 = s.spr.lctrl1 := rfl
@[simp] theorem State.writeLctrl2_spr_counta (s : State) (v : Word) : (s.writeLctrl2 v).spr.counta = s.spr.counta := rfl
@[simp] theorem State.writeLctrl2_spr_countb (s : State) (v : Word) : (s.writeLctrl2 v).spr.countb = s.spr.countb := rfl
@[simp] theorem State.writeLctrl2_spr_ecr (s : State) (v : Word) : (s.writeLctrl2 v).spr.ecr = s.spr.ecr := rfl
@[simp] theorem State.writeLctrl2_spr_der (s : State) (v : Word) : (s.writeLctrl2 v).spr.der = s.spr.der := rfl
@[simp] theorem State.writeLctrl2_spr_bar (s : State) (v : Word) : (s.writeLctrl2 v).spr.bar = s.spr.bar := rfl
@[simp] theorem State.writeLctrl2_port (s : State) (v : Word) : (s.writeLctrl2 v).port = s.port := rfl
@[simp] theorem State.writeLctrl2_dbg (s : State) (v : Word) : (s.writeLctrl2 v).dbg = s.dbg := rfl
@[simp] theorem State.writeLctrl2_trace (s : State) (v : Word) : (s.writeLctrl2 v).trace = s.trace := rfl
@[simp] theorem State.writeLctrl2_lines (s : State) (v : Word) : (s.writeLctrl2 v).lines = s.lines := rfl
@[simp] theorem State.writeLctrl2_ir (s : State) (v : Word) : (s.writeLctrl2 v).ir = s.ir := rfl
@[simp] theorem State.writeLctrl2_inflight (s : State) (v : Word) : (s.writeLctrl2 v).inflight = s.inflight := rfl
@[simp] theorem State.writeLctrl2_cycles (s : State) (v : Word) : (s.writeLctrl2 v).cycles = s.cycles := rfl
@[simp] theorem State.writeLctrl2_outcome (s : State) (v : Word) : (s.writeLctrl2 v).outcome = s.outcome := rfl
@[simp] theorem State.writeLctrl2_traced (s : State) (v : Word) : (s.writeLctrl2 v).traced = s.traced := rfl
@[simp] theorem State.writeLctrl2_countersSettled (s : State) (v : Word) : (s.writeLctrl2 v).countersSettled = s.countersSettled := rfl
@[simp] theorem State.writeLctrl2_expired (s : State) (v : Word) : (s.writeLctrl2 v).expired = s.expired := rfl
@[simp] theorem State.writeLctrl2_oracle (s : State) (v : Word) : (s.writeLctrl2 v).oracle = s.oracle := rfl
@[simp] theorem State.writeLctrl2_faultMap (s : State) (v : Word) : (s.writeLctrl2 v).faultMap = s.faultMap := rfl
@[simp] theorem State.writeLctrl2_mem (s : State) (v : Word) : (s.writeLctrl2 v).mem = s.mem := rfl
@[simp] theorem State.writeLctrl2_inputs (s : State) (v : Word) : (s.writeLctrl2 v).inputs = s.inputs := rfl
@[simp] theorem State.writeLctrl2_out (s : State) (v : Word) : (s.writeLctrl2 v).out = s.out := rfl
@[simp] theorem State.writeLctrl2_draws (s : State) (v : Word) : (s.writeLctrl2 v).draws = s.draws := rfl

/-! ### writeIctrl -/

@[simp] theorem State.writeIctrl_cpu (s : State) (v : Word) : (s.writeIctrl v).cpu = s.cpu := rfl
@[simp] theorem State.writeIctrl_spr_cmpa (s : State) (v : Word) : (s.writeIctrl v).spr.cmpa = s.spr.cmpa := rfl
@[simp] theorem State.writeIctrl_spr_cmpb (s : State) (v : Word) : (s.writeIctrl v).spr.cmpb = s.spr.cmpb := rfl
@[simp] theorem State.writeIctrl_spr_cmpc (s : State) (v : Word) : (s.writeIctrl v).spr.cmpc = s.spr.cmpc := rfl
@[simp] theorem State.writeIctrl_spr_cmpd (s : State) (v : Word) : (s.writeIctrl v).spr.cmpd = s.spr.cmpd := rfl
@[simp] theorem State.writeIctrl_spr_cmpe (s : State) (v : Word) : (s.writeIctrl v).spr.cmpe = s.spr.cmpe := rfl
@[simp] theorem State.writeIctrl_spr_cmpf (s : State) (v : Word) : (s.writeIctrl v).spr.cmpf = s.spr.cmpf := rfl
@[simp] theorem State.writeIctrl_spr_cmpg (s : State) (v : Word) : (s.writeIctrl v).spr.cmpg = s.spr.cmpg := rfl
@[simp] theorem State.writeIctrl_spr_cmph (s : State) (v : Word) : (s.writeIctrl v).spr.cmph = s.spr.cmph := rfl
@[simp] theorem State.writeIctrl_spr_lctrl1 (s : State) (v : Word) : (s.writeIctrl v).spr.lctrl1 = s.spr.lctrl1 := rfl
@[simp] theorem State.writeIctrl_spr_lctrl2 (s : State) (v : Word) : (s.writeIctrl v).spr.lctrl2 = s.spr.lctrl2 := rfl
@[simp] theorem State.writeIctrl_spr_counta (s : State) (v : Word) : (s.writeIctrl v).spr.counta = s.spr.counta := rfl
@[simp] theorem State.writeIctrl_spr_countb (s : State) (v : Word) : (s.writeIctrl v).spr.countb = s.spr.countb := rfl
@[simp] theorem State.writeIctrl_spr_ecr (s : State) (v : Word) : (s.writeIctrl v).spr.ecr = s.spr.ecr := rfl
@[simp] theorem State.writeIctrl_spr_der (s : State) (v : Word) : (s.writeIctrl v).spr.der = s.spr.der := rfl
@[simp] theorem State.writeIctrl_spr_bar (s : State) (v : Word) : (s.writeIctrl v).spr.bar = s.spr.bar := rfl
@[simp] theorem State.writeIctrl_port (s : State) (v : Word) : (s.writeIctrl v).port = s.port := rfl
@[simp] theorem State.writeIctrl_dbg_enable (s : State) (v : Word) : (s.writeIctrl v).dbg.enable = s.dbg.enable := rfl
@[simp] theorem State.writeIctrl_dbg_inDebug (s : State) (v : Word) : (s.writeIctrl v).dbg.inDebug = s.dbg.inDebug := rfl
@[simp] theorem State.writeIctrl_dbg_freeze (s : State) (v : Word) : (s.writeIctrl v).dbg.freeze = s.dbg.freeze := rfl
@[simp] theorem State.writeIctrl_dbg_checkStop (s : State) (v : Word) : (s.writeIctrl v).dbg.checkStop = s.dbg.checkStop := rfl
@[simp] theorem State.writeIctrl_dbg_nonRestartable (s : State) (v : Word) : (s.writeIctrl v).dbg.nonRestartable = s.dbg.nonRestartable := rfl
@[simp] theorem State.writeIctrl_dbg_reservedCommandSeen (s : State) (v : Word) : (s.writeIctrl v).dbg.reservedCommandSeen = s.dbg.reservedCommandSeen := rfl
@[simp] theorem State.writeIctrl_dbg_unalignedSeen (s : State) (v : Word) : (s.writeIctrl v).dbg.unalignedSeen = s.dbg.unalignedSeen := rfl
@[simp] theorem State.writeIctrl_trace_vf (s : State) (v : Word) : (s.writeIctrl v).trace.vf = s.trace.vf := rfl
@[simp] theorem State.writeIctrl_trace_prevKind (s : State) (v : Word) : (s.writeIctrl v).trace.prevKind = s.trace.prevKind := rfl
@[simp] theorem State.writeIctrl_trace_histFlush (s : State) (v : Word) : (s.writeIctrl v).trace.histFlush = s.trace.histFlush := rfl
@[simp] theorem State.writeIctrl_trace_vsyncChanged (s : State) (v : Word) : (s.writeIctrl v).trace.vsyncChanged = s.trace.vsyncChanged := rfl
@[simp] theorem State.writeIctrl_trace_lastReports (s : State) (v : Word) : (s.writeIctrl v).trace.lastReports = s.trace.lastReports := rfl
@[simp] theorem State.writeIctrl_trace_pending (s : State) (v : Word) : (s.writeIctrl v).trace.pending = s.trace.pending := rfl
@[simp] theorem State.writeIctrl_trace_nextFlow (s : State) (v : Word) : (s.writeIctrl v).trace.nextFlow = s.trace.nextFlow := rfl
@[simp] theorem State.writeIctrl_trace_nextVisible (s : State) (v : Word) : (s.writeIctrl v).trace.nextVisible = s.trace.nextVisible := rfl
@[simp] theorem State.writeIctrl_trace_showQueue (s : State) (v : Word) : (s.writeIctrl v).trace.showQueue = s.trace.showQueue := rfl
@[simp] theorem State.writeIctrl_trace_fetches (s : State) (v : Word) : (s.writeIctrl v).trace.fetches = s.trace.fetches := rfl
@[simp] theorem State.writeIctrl_lines (s : State) (v : Word) : (s.writeIctrl v).lines = s.lines := rfl
@[simp] theorem State.writeIctrl_ir (s : State) (v : Word) : (s.writeIctrl v).ir = s.ir := rfl
@[simp] theorem State.writeIctrl_cycles (s : State) (v : Word) : (s.writeIctrl v).cycles = s.cycles := rfl
@[simp] theorem State.writeIctrl_outcome (s : State) (v : Word) : (s.writeIctrl v).outcome = s.outcome := rfl
@[simp] theorem State.writeIctrl_traced (s : State) (v : Word) : (s.writeIctrl v).traced = s.traced := rfl
@[simp] theorem State.writeIctrl_countersSettled (s : State) (v : Word) : (s.writeIctrl v).countersSettled = s.countersSettled := rfl
@[simp] theorem State.writeIctrl_expired (s : State) (v : Word) : (s.writeIctrl v).expired = s.expired := rfl
@[simp] theorem State.writeIctrl_oracle (s : State) (v : Word) : (s.writeIctrl v).oracle = s.oracle := rfl
@[simp] theorem State.writeIctrl_faultMap (s : State) (v : Word) : (s.writeIctrl v).faultMap = s.faultMap := rfl
@[simp] theorem State.writeIctrl_mem (s : State) (v : Word) : (s.writeIctrl v).mem = s.mem := rfl
@[simp] theorem State.writeIctrl_inputs (s : State) (v : Word) : (s.writeIctrl v).inputs = s.inputs := rfl
@[simp] theorem State.writeIctrl_out (s : State) (v : Word) : (s.writeIctrl v).out = s.out := rfl
@[simp] theorem State.writeIctrl_draws (s : State) (v : Word) : (s.writeIctrl v).draws = s.draws := rfl

/-! ### writeBar -/

@[simp] theorem State.writeBar_cpu (s : State) (v : Word) : (s.writeBar v).cpu = s.cpu := rfl
@[simp] theorem State.writeBar_spr_cmpa (s : State) (v : Word) : (s.writeBar v).spr.cmpa = s.spr.cmpa := rfl
@[simp] theorem State.writeBar_spr_cmpb (s : State) (v : Word) : (s.writeBar v).spr.cmpb = s.spr.cmpb := rfl
@[simp] theorem State.writeBar_spr_cmpc (s : State) (v : Word) : (s.writeBar v).spr.cmpc = s.spr.cmpc := rfl
@[simp] theorem State.writeBar_spr_cmpd (s : State) (v : Word) : (s.writeBar v).spr.cmpd = s.spr.cmpd := rfl
@[simp] theorem State.writeBar_spr_cmpe (s : State) (v : Word) : (s.writeBar v).spr.cmpe = s.spr.cmpe := rfl
@[simp] theorem State.writeBar_spr_cmpf (s : State) (v : Word) : (s.writeBar v).spr.cmpf = s.spr.cmpf := rfl
@[simp] theorem State.writeBar_spr_cmpg (s : State) (v : Word) : (s.writeBar v).spr.cmpg = s.spr.cmpg := rfl
@[simp] theorem State.writeBar_spr_cmph (s : State) (v : Word) : (s.writeBar v).spr.cmph = s.spr.cmph := rfl
@[simp] theorem State.writeBar_spr_ictrl (s : State) (v : Word) : (s.writeBar v).spr.ictrl = s.spr.ictrl := rfl
@[simp] theorem State.writeBar_spr_lctrl1 (s : State) (v : Word) : (s.writeBar v).spr.lctrl1 = s.spr.lctrl1 := rfl
@[simp] theorem State.writeBar_spr_lctrl2 (s : State) (v : Word) : (s.writeBar v).spr.lctrl2 = s.spr.lctrl2 := rfl
@[simp] theorem State.writeBar_spr_counta (s : State) (v : Word) : (s.writeBar v).spr.counta = s.spr.counta := rfl
@[simp] theorem State.writeBar_spr_countb (s : State) (v : Word) : (s.writeBar v).spr.countb = s.spr.countb := rfl
@[simp] theorem State.writeBar_spr_ecr (s : State) (v : Word) : (s.writeBar v).spr.ecr = s.spr.ecr := rfl
@[simp] theorem State.writeBar_spr_der (s : State) (v : Word) : (s.writeBar v).spr.der = s.spr.der := rfl
@[simp] theorem State.writeBar_port (s : State) (v : Word) : (s.writeBar v).port = s.port := rfl
@[simp] theorem State.writeBar_dbg (s : State) (v : Word) : (s.writeBar v).dbg = s.dbg := rfl
@[simp] theorem State.writeBar_trace (s : State) (v : Word) : (s.writeBar v).trace = s.trace := rfl
@[simp] theorem State.writeBar_lines (s : State) (v : Word) : (s.writeBar v).lines = s.lines := rfl
@[simp] theorem State.writeBar_ir (s : State) (v : Word) : (s.writeBar v).ir = s.ir := rfl
@[simp] theorem State.writeBar_inflight (s : State) (v : Word) : (s.writeBar v).inflight = s.inflight := rfl
@[simp] theorem State.writeBar_cycles (s : State) (v : Word) : (s.writeBar v).cycles = s.cycles := rfl
@[simp] theorem State.writeBar_outcome (s : State) (v : Word) : (s.writeBar v).outcome = s.outcome := rfl
@[simp] theorem State.writeBar_traced (s : State) (v : Word) : (s.writeBar v).traced = s.traced := rfl
@[simp] theorem State.writeBar_countersSettled (s : State) (v : Word) : (s.writeBar v).countersSettled = s.countersSettled := rfl
@[simp] theorem State.writeBar_expired (s : State) (v : Word) : (s.writeBar v).expired = s.expired := rfl
@[simp] theorem State.writeBar_oracle (s : State) (v : Word) : (s.writeBar v).oracle = s.oracle := rfl
@[simp] theorem State.writeBar_faultMap (s : State) (v : Word) : (s.writeBar v).faultMap = s.faultMap := rfl
@[simp] theorem State.writeBar_mem (s : State) (v : Word) : (s.writeBar v).mem = s.mem := rfl
@[simp] theorem State.writeBar_inputs (s : State) (v : Word) : (s.writeBar v).inputs = s.inputs := rfl
@[simp] theorem State.writeBar_out (s : State) (v : Word) : (s.writeBar v).out = s.out := rfl
@[simp] theorem State.writeBar_draws (s : State) (v : Word) : (s.writeBar v).draws = s.draws := rfl

/-! ### writeDpdr -/

@[simp] theorem State.writeDpdr_cpu (s : State) (v : Word) : (s.writeDpdr v).cpu = s.cpu := rfl
@[simp] theorem State.writeDpdr_spr (s : State) (v : Word) : (s.writeDpdr v).spr = s.spr := rfl
@[simp] theorem State.writeDpdr_port_tecr (s : State) (v : Word) : (s.writeDpdr v).port.tecr = s.port.tecr := rfl
@[simp] theorem State.writeDpdr_port_clockMode (s : State) (v : Word) : (s.writeDpdr v).port.clockMode = s.port.clockMode := rfl
@[simp] theorem State.writeDpdr_port_downloadInProgress (s : State) (v : Word) : (s.writeDpdr v).port.downloadInProgress = s.port.downloadInProgress := rfl
@[simp] theorem State.writeDpdr_port_endRequested (s : State) (v : Word) : (s.writeDpdr v).port.endRequested = s.port.endRequested := rfl
@[simp] theorem State.writeDpdr_port_downloadStore (s : State) (v : Word) : (s.writeDpdr v).port.downloadStore = s.port.downloadStore := rfl
@[simp] theorem State.writeDpdr_port_seqErrPending (s : State) (v : Word) : (s.writeDpdr v).port.seqErrPending = s.port.seqErrPending := rfl
@[simp] theorem State.writeDpdr_port_cpuIntPending (s : State) (v : Word) : (s.writeDpdr v).port.cpuIntPending = s.port.cpuIntPending := rfl
@[simp] theorem State.writeDpdr_port_cpuWaiting (s : State) (v : Word) : (s.writeDpdr v).port.cpuWaiting = s.port.cpuWaiting := rfl
@[simp] theorem State.writeDpdr_port_shifted (s : State) (v : Word) : (s.writeDpdr v).port.shifted = s.port.shifted := rfl
@[simp] theorem State.writeDpdr_port_suppress (s : State) (v : Word) : (s.writeDpdr v).port.suppress = s.port.suppress := rfl
@[simp] theorem State.writeDpdr_port_scanHold (s : State) (v : Word) : (s.writeDpdr v).port.scanHold = s.port.scanHold := rfl
@[simp] theorem State.writeDpdr_port_txStatus (s : State) (v : Word) : (s.writeDpdr v).port.txStatus = s.port.txStatus := rfl
@[simp] theorem State.writeDpdr_port_txData (s : State) (v : Word) : (s.writeDpdr v).port.txData = s.port.txData := rfl
@[simp] theorem State.writeDpdr_dbg (s : State) (v : Word) : (s.writeDpdr v).dbg = s.dbg := rfl
@[simp] theorem State.writeDpdr_trace (s : State) (v : Word) : (s.writeDpdr v).trace = s.trace := rfl
@[simp] theorem State.writeDpdr_lines (s : State) (v : Word) : (s.writeDpdr v).lines = s.lines := rfl
@[simp] theorem State.writeDpdr_ir (s : State) (v : Word) : (s.writeDpdr v).ir = s.ir := rfl
@[simp] theorem State.writeDpdr_inflight (s : State) (v : Word) : (s.writeDpdr v).inflight = s.inflight := rfl
@[simp] theorem State.writeDpdr_cycles (s : State) (v : Word) : (s.writeDpdr v).cycles = s.cycles := rfl
@[simp] theorem State.writeDpdr_outcome (s : State) (v : Word) : (s.writeDpdr v).outcome = s.outcome := rfl
@[simp] theorem State.writeDpdr_traced (s : State) (v : Word) : (s.writeDpdr v).traced = s.traced := rfl
@[simp] theorem State.writeDpdr_countersSettled (s : State) (v : Word) : (s.writeDpdr v).countersSettled = s.countersSettled := rfl
@[simp] theorem State.writeDpdr_expired (s : State) (v : Word) : (s.writeDpdr v).expired = s.expired := rfl
@[simp] theorem State.writeDpdr_oracle (s : State) (v : Word) : (s.writeDpdr v).oracle = s.oracle := rfl
@[simp] theorem State.writeDpdr_faultMap (s : State) (v : Word) : (s.writeDpdr v).faultMap = s.faultMap := rfl
@[simp] theorem State.writeDpdr_mem (s : State) (v : Word) : (s.writeDpdr v).mem = s.mem := rfl
@[simp] theorem State.writeDpdr_inputs (s : State) (v : Word) : (s.writeDpdr v).inputs = s.inputs := rfl
@[simp] theorem State.writeDpdr_out (s : State) (v : Word) : (s.writeDpdr v).out = s.out := rfl
@[simp] theorem State.writeDpdr_draws (s : State) (v : Word) : (s.writeDpdr v).draws = s.draws := rfl

/-! ### reportIwp -/

@[simp] theorem State.reportIwp_cpu (s : State) (w : Iwp) : (s.reportIwp w).cpu = s.cpu := rfl
@[simp] theorem State.reportIwp_spr (s : State) (w : Iwp) : (s.reportIwp w).spr = s.spr := rfl
@[simp] theorem State.reportIwp_port (s : State) (w : Iwp) : (s.reportIwp w).port = s.port := rfl
@[simp] theorem State.reportIwp_dbg (s : State) (w : Iwp) : (s.reportIwp w).dbg = s.dbg := rfl
@[simp] theorem State.reportIwp_trace (s : State) (w : Iwp) : (s.reportIwp w).trace = s.trace := rfl
@[simp] theorem State.reportIwp_lines (s : State) (w : Iwp) : (s.reportIwp w).lines = s.lines := rfl
@[simp] theorem State.reportIwp_ir (s : State) (w : Iwp) : (s.reportIwp w).ir = s.ir := rfl
@[simp] theorem State.reportIwp_inflight (s : State) (w : Iwp) : (s.reportIwp w).inflight = s.inflight := rfl
@[simp] theorem State.reportIwp_cycles (s : State) (w : Iwp) : (s.reportIwp w).cycles = s.cycles := rfl
@[simp] theorem State.reportIwp_outcome (s : State) (w : Iwp) : (s.reportIwp w).outcome = s.outcome := rfl
@[simp] theorem State.reportIwp_traced (s : State) (w : Iwp) : (s.reportIwp w).traced = s.traced := rfl
@[simp] theorem State.reportIwp_countersSettled (s : State) (w : Iwp) : (s.reportIwp w).countersSettled = s.countersSettled := rfl
@[simp] theorem State.reportIwp_expired (s : State) (w : Iwp) : (s.reportIwp w).expired = s.expired := rfl
@[simp] theorem State.reportIwp_oracle (s : State) (w : Iwp) : (s.reportIwp w).oracle = s.oracle := rfl
@[simp] theorem State.reportIwp_faultMap (s : State) (w : Iwp) : (s.reportIwp w).faultMap = s.faultMap := rfl
@[simp] theorem State.reportIwp_mem (s : State) (w : Iwp) : (s.reportIwp w).mem = s.mem := rfl
@[simp] theorem State.reportIwp_inputs (s : State) (w : Iwp) : (s.reportIwp w).inputs = s.inputs := rfl
@[simp] theorem State.reportIwp_draws (s : State) (w : Iwp) : (s.reportIwp w).draws = s.draws := rfl

/-! ### reportLwp -/

@[simp] theorem State.reportLwp_cpu (s : State) (a b : Bool) : (s.reportLwp a b).cpu = s.cpu := rfl
@[simp] theorem State.reportLwp_spr (s : State) (a b : Bool) : (s.reportLwp a b).spr = s.spr := rfl
@[simp] theorem State.reportLwp_port (s : State) (a b : Bool) : (s.reportLwp a b).port = s.port := rfl
@[simp] theorem State.reportLwp_dbg (s : State) (a b : Bool) : (s.reportLwp a b).dbg = s.dbg := rfl
@[simp] theorem State.reportLwp_trace (s : State) (a b : Bool) : (s.reportLwp a b).trace = s.trace := rfl
@[simp] theorem State.reportLwp_lines (s : State) (a b : Bool) : (s.reportLwp a b).lines = s.lines := rfl
@[simp] theorem State.reportLwp_ir (s : State) (a b : Bool) : (s.reportLwp a b).ir = s.ir := rfl
@[simp] theorem State.reportLwp_inflight (s : State) (a b : Bool) : (s.reportLwp a b).inflight = s.inflight := rfl
@[simp] theorem State.reportLwp_cycles (s : State) (a b : Bool) : (s.reportLwp a b).cycles = s.cycles := rfl
@[simp] theorem State.reportLwp_outcome (s : State) (a b : Bool) : (s.reportLwp a b).outcome = s.outcome := rfl
@[simp] theorem State.reportLwp_traced (s : State) (a b : Bool) : (s.reportLwp a b).traced = s.traced := rfl
@[simp] theorem State.reportLwp_countersSettled (s : State) (a b : Bool) : (s.reportLwp a b).countersSettled = s.countersSettled := rfl
@[simp] theorem State.reportLwp_expired (s : State) (a b : Bool) : (s.reportLwp a b).expired = s.expired := rfl
@[simp] theorem State.reportLwp_oracle (s : State) (a b : Bool) : (s.reportLwp a b).oracle = s.oracle := rfl
@[simp] theorem State.reportLwp_faultMap (s : State) (a b : Bool) : (s.reportLwp a b).faultMap = s.faultMap := rfl
@[simp] theorem State.reportLwp_mem (s : State) (a b : Bool) : (s.reportLwp a b).mem = s.mem := rfl
@[simp] theorem State.reportLwp_inputs (s : State) (a b : Bool) : (s.reportLwp a b).inputs = s.inputs := rfl
@[simp] theorem State.reportLwp_draws (s : State) (a b : Bool) : (s.reportLwp a b).draws = s.draws := rfl

/-! ### count -/

@[simp] theorem State.count_cpu (s : State) (p : State) (f : Bool) (w : Iwp) (a b : Bool) : (s.count p f w a b).cpu = s.cpu := rfl
@[simp] theorem State.count_spr_cmpa (s : State) (p : State) (f : Bool) (w : Iwp) (a b : Bool) : (s.count p f w a b).spr.cmpa = s.spr.cmpa := rfl
@[simp] theorem State.count_spr_cmpb (s : State) (p : State) (f : Bool) (w : Iwp) (a b : Bool) : (s.count p f w a b).spr.cmpb = s.spr.cmpb := rfl
@[simp] theorem State.count_spr_cmpc (s : State) (p : State) (f : Bool) (w : Iwp) (a b : Bool) : (s.count p f w a b).spr.cmpc = s.spr.cmpc := rfl
@[simp] theorem State.count_spr_cmpd (s : State) (p : State) (f : Bool) (w : Iwp) (a b : Bool) : (s.count p f w a b).spr.cmpd = s.spr.cmpd := rfl
@[simp] theorem State.count_spr_cmpe (s : State) (p : State) (f : Bool) (w : Iwp) (a b : Bool) : (s.count p f w a b).spr.cmpe = s.spr.cmpe := rfl
@[simp] theorem State.count_spr_cmpf (s : State) (p : State) (f : Bool) (w : Iwp) (a b : Bool) : (s.count p f w a b).spr.cmpf = s.spr.cmpf := rfl
@[simp] theorem State.count_spr_cmpg (s : State) (p : State) (f : Bool) (w : Iwp) (a b : Bool) : (s.count p f w a b).spr.cmpg = s.spr.cmpg := rfl
@[simp] theorem State.count_spr_cmph (s : State) (p : State) (f : Bool) (w : Iwp) (a b : Bool) : (s.count p f w a b).spr.cmph = s.spr.cmph := rfl
@[simp] theorem State.count_spr_ictrl (s : State) (p : State) (f : Bool) (w : Iwp) (a b : Bool) : (s.count p f w a b).spr.ictrl = s.spr.ictrl := rfl
@[simp] theorem State.count_spr_lctrl1 (s : State) (p : State) (f : Bool) (w : Iwp) (a b : Bool) : (s.count p f w a b).spr.lctrl1 = s.spr.lctrl1 := rfl
@[simp] theorem State.count_spr_lctrl2 (s : State) (p : State) (f : Bool) (w : Iwp) (a b : Bool) : (s.count p f w a b).spr.lctrl2 = s.spr.lctrl2 := rfl
@[simp] theorem State.count_spr_ecr (s : State) (p : State) (f : Bool) (w : Iwp) (a b : Bool) : (s.count p f w a b).spr.ecr = s.spr.ecr := rfl
@[simp] theorem State.count_spr_der (s : State) (p : State) (f : Bool) (w : Iwp) (a b : Bool) : (s.count p f w a b).spr.der = s.spr.der := rfl
@[simp] theorem State.count_spr_bar (s : State) (p : State) (f : Bool) (w : Iwp) (a b : Bool) : (s.count p f w a b).spr.bar = s.spr.bar := rfl
@[simp] theorem State.count_port (s : State) (p : State) (f : Bool) (w : Iwp) (a b : Bool) : (s.count p f w a b).port = s.port := rfl
@[simp] theorem State.count_dbg (s : State) (p : State) (f : Bool) (w : Iwp) (a b : Bool) : (s.count p f w a b).dbg = s.dbg := rfl
@[simp] theorem State.count_trace (s : State) (p : State) (f : Bool) (w : Iwp) (a b : Bool) : (s.count p f w a b).trace = s.trace := rfl
@[simp] theorem State.count_lines (s : State) (p : State) (f : Bool) (w : Iwp) (a b : Bool) : (s.count p f w a b).lines = s.lines := rfl
@[simp] theorem State.count_ir (s : State) (p : State) (f : Bool) (w : Iwp) (a b : Bool) : (s.count p f w a b).ir = s.ir := rfl
@[simp] theorem State.count_inflight (s : State) (p : State) (f : Bool) (w : Iwp) (a b : Bool) : (s.count p f w a b).inflight = s.inflight := rfl
@[simp] theorem State.count_cycles (s : State) (p : State) (f : Bool) (w : Iwp) (a b : Bool) : (s.count p f w a b).cycles = s.cycles := rfl
@[simp] theorem State.count_outcome (s : State) (p : State) (f : Bool) (w : Iwp) (a b : Bool) : (s.count p f w a b).outcome = s.outcome := rfl
@[simp] theorem State.count_traced (s : State) (p : State) (f : Bool) (w : Iwp) (a b : Bool) : (s.count p f w a b).traced = s.traced := rfl
@[simp] theorem State.count_countersSettled (s : State) (p : State) (f : Bool) (w : Iwp) (a b : Bool) : (s.count p f w a b).countersSettled = s.countersSettled := rfl
@[simp] theorem State.count_oracle (s : State) (p : State) (f : Bool) (w : Iwp) (a b : Bool) : (s.count p f w a b).oracle = s.oracle := rfl
@[simp] theorem State.count_faultMap (s : State) (p : State) (f : Bool) (w : Iwp) (a b : Bool) : (s.count p f w a b).faultMap = s.faultMap := rfl
@[simp] theorem State.count_mem (s : State) (p : State) (f : Bool) (w : Iwp) (a b : Bool) : (s.count p f w a b).mem = s.mem := rfl
@[simp] theorem State.count_inputs (s : State) (p : State) (f : Bool) (w : Iwp) (a b : Bool) : (s.count p f w a b).inputs = s.inputs := rfl
@[simp] theorem State.count_out (s : State) (p : State) (f : Bool) (w : Iwp) (a b : Bool) : (s.count p f w a b).out = s.out := rfl

/-! ### noteExpired -/

@[simp] theorem State.noteExpired_cpu (s : State) (a b : Bool) : (s.noteExpired a b).cpu = s.cpu := by unfold State.noteExpired; split <;> rfl
@[simp] theorem State.noteExpired_spr (s : State) (a b : Bool) : (s.noteExpired a b).spr = s.spr := by unfold State.noteExpired; split <;> rfl
@[simp] theorem State.noteExpired_port (s : State) (a b : Bool) : (s.noteExpired a b).port = s.port := by unfold State.noteExpired; split <;> rfl
@[simp] theorem State.noteExpired_dbg (s : State) (a b : Bool) : (s.noteExpired a b).dbg = s.dbg := by unfold State.noteExpired; split <;> rfl
@[simp] theorem State.noteExpired_trace (s : State) (a b : Bool) : (s.noteExpired a b).trace = s.trace := by unfold State.noteExpired; split <;> rfl
@[simp] theorem State.noteExpired_lines (s : State) (a b : Bool) : (s.noteExpired a b).lines = s.lines := by unfold State.noteExpired; split <;> rfl
@[simp] theorem State.noteExpired_ir (s : State) (a b : Bool) : (s.noteExpired a b).ir = s.ir := by unfold State.noteExpired; split <;> rfl
@[simp] theorem State.noteExpired_inflight (s : State) (a b : Bool) : (s.noteExpired a b).inflight = s.inflight := by unfold State.noteExpired; split <;> rfl
@[simp] theorem State.noteExpired_cycles (s : State) (a b : Bool) : (s.noteExpired a b).cycles = s.cycles := by unfold State.noteExpired; split <;> rfl
@[simp] theorem State.noteExpired_outcome (s : State) (a b : Bool) : (s.noteExpired a b).outcome = s.outcome := by unfold State.noteExpired; split <;> rfl
@[simp] theorem State.noteExpired_traced (s : State) (a b : Bool) : (s.noteExpired a b).traced = s.traced := by unfold State.noteExpired; split <;> rfl
@[simp] theorem State.noteExpired_countersSettled (s : State) (a b : Bool) : (s.noteExpired a b).countersSettled = s.countersSettled := by unfold State.noteExpired; split <;> rfl
@[simp] theorem State.noteExpired_oracle (s : State) (a b : Bool) : (s.noteExpired a b).oracle = s.oracle := by unfold State.noteExpired; split <;> rfl
@[simp] theorem State.noteExpired_faultMap (s : State) (a b : Bool) : (s.noteExpired a b).faultMap = s.faultMap := by unfold State.noteExpired; split <;> rfl
@[simp] theorem State.noteExpired_mem (s : State) (a b : Bool) : (s.noteExpired a b).mem = s.mem := by unfold State.noteExpired; split <;> rfl
@[simp] theorem State.noteExpired_inputs (s : State) (a b : Bool) : (s.noteExpired a b).inputs = s.inputs := by unfold State.noteExpired; split <;> rfl
@[simp] theorem State.noteExpired_draws (s : State) (a b : Bool) : (s.noteExpired a b).draws = s.draws := by unfold State.noteExpired; split <;> rfl
@[simp] theorem State.noteExpired_out (s : State) (a b : Bool) : (s.noteExpired a b).out = s.out := by unfold State.noteExpired; split <;> rfl

/-! ### takeEvent -/

@[simp] theorem State.takeEvent_cpu_gpr (s : State) (e : Event) (r : Word) (x : Srr1) : (s.takeEvent e r x).cpu.gpr = s.cpu.gpr := by unfold State.takeEvent; simp only []; split <;> simp
@[simp] theorem State.takeEvent_cpu_dar (s : State) (e : Event) (r : Word) (x : Srr1) : (s.takeEvent e r x).cpu.dar = s.cpu.dar := by unfold State.takeEvent; simp only []; split <;> simp
@[simp] theorem State.takeEvent_cpu_dsisr (s : State) (e : Event) (r : Word) (x : Srr1) : (s.takeEvent e r x).cpu.dsisr = s.cpu.dsisr := by unfold State.takeEvent; simp only []; split <;> simp
@[simp] theorem State.takeEvent_spr_cmpa (s : State) (e : Event) (r : Word) (x : Srr1) : (s.takeEvent e r x).spr.cmpa = s.spr.cmpa := by unfold State.takeEvent; simp only []; split <;> simp
@[simp] theorem State.takeEvent_spr_cmpb (s : State) (e : Event) (r : Word) (x : Srr1) : (s.takeEvent e r x).spr.cmpb = s.spr.cmpb := by unfold State.takeEvent; simp only []; split <;> simp
@[simp] theorem State.takeEvent_spr_cmpc (s : State) (e : Event) (r : Word) (x : Srr1) : (s.takeEvent e r x).spr.cmpc = s.spr.cmpc := by unfold State.takeEvent; simp only []; split <;> simp
@[simp] theorem State.takeEvent_spr_cmpd (s : State) (e : Event) (r : Word) (x : Srr1) : (s.takeEvent e r x).spr.cmpd = s.spr.cmpd := by unfold State.takeEvent; simp only []; split <;> simp
@[simp] theorem State.takeEvent_spr_cmpe (s : State) (e : Event) (r : Word) (x : Srr1) : (s.takeEvent e r x).spr.cmpe = s.spr.cmpe := by unfold State.takeEvent; simp only []; split <;> simp
@[simp] theorem State.takeEvent_spr_cmpf (s : State) (e : Event) (r : Word) (x : Srr1) : (s.takeEvent e r x).spr.cmpf = s.spr.cmpf := by unfold State.takeEvent; simp only []; split <;> simp
@[simp] theorem State.takeEvent_spr_cmpg (s : State) (e : Event) (r : Word) (x : Srr1) : (s.takeEvent e r x).spr.cmpg = s.spr.cmpg := by unfold State.takeEvent; simp only []; split <;> simp
@[simp] theorem State.takeEvent_spr_cmph (s : State) (e : Event) (r : Word) (x : Srr1) : (s.takeEvent e r x).spr.cmph = s.spr.cmph := by unfold State.takeEvent; simp only []; split <;> simp
@[simp] theorem State.takeEvent_spr_ictrl (s : State) (e : Event) (r : Word) (x : Srr1) : (s.takeEvent e r x).spr.ictrl = s.spr.ictrl := by unfold State.takeEvent; simp only []; split <;> simp
@[simp] theorem State.takeEvent_spr_lctrl1 (s : State) (e : Event) (r : Word) (x : Srr1) : (s.takeEvent e r x).spr.lctrl1 = s.spr.lctrl1 := by unfold State.takeEvent; simp only []; split <;> simp
@[simp] theorem State.takeEvent_spr_lctrl2 (s : State) (e : Event) (r : Word) (x : Srr1) : (s.takeEvent e r x).spr.lctrl2 = s.spr.lctrl2 := by unfold State.takeEvent; simp only []; split <;> simp
@[simp] theorem State.takeEvent_spr_counta (s : State) (e : Event) (r : Word) (x : Srr1) : (s.takeEvent e r x).spr.counta = s.spr.counta := by unfold State.takeEvent; simp only []; split <;> simp
@[simp] theorem State.takeEvent_spr_countb (s : State) (e : Event) (r : Word) (x : Srr1) : (s.takeEvent e r x).spr.countb = s.spr.countb := by unfold State.takeEvent; simp only []; split <;> simp
@[simp] theorem State.takeEvent_spr_der (s : State) (e : Event) (r : Word) (x : Srr1) : (s.takeEvent e r x).spr.der = s.spr.der := by unfold State.takeEvent; simp only []; split <;> simp
@[simp] theorem State.takeEvent_spr_bar (s : State) (e : Event) (r : Word) (x : Srr1) : (s.takeEvent e r x).spr.bar = s.spr.bar := by unfold State.takeEvent; simp only []; split <;> simp
@[simp] theorem State.takeEvent_port_dpsr (s : State) (e : Event) (r : Word) (x : Srr1) : (s.takeEvent e r x).port.dpsr = s.port.dpsr := by unfold State.takeEvent; simp only []; split <;> simp
@[simp] theorem State.takeEvent_port_tecr (s : State) (e : Event) (r : Word) (x : Srr1) : (s.takeEvent e r x).port.tecr = s.port.tecr := by unfold State.takeEvent; simp only []; split <;> simp
@[simp] theorem State.takeEvent_port_clockMode (s : State) (e : Event) (r : Word) (x : Srr1) : (s.takeEvent e r x).port.clockMode = s.port.clockMode := by unfold State.takeEvent; simp only []; split <;> simp
@[simp] theorem State.takeEvent_port_downloadInProgress (s : State) (e : Event) (r : Word) (x : Srr1) : (s.takeEvent e r x).port.downloadInProgress = s.port.downloadInProgress := by unfold State.takeEvent; simp only []; split <;> simp
@[simp] theorem State.takeEvent_port_endRequested (s : State) (e : Event) (r : Word) (x : Srr1) : (s.takeEvent e r x).port.endRequested = s.port.endRequested := by unfold State.takeEvent; simp only []; split <;> simp
@[simp] theorem State.takeEvent_port_validData (s : State) (e : Event) (r : Word) (x : Srr1) : (s.takeEvent e r x).port.validData = s.port.validData := by unfold State.takeEvent; simp only []; split <;> simp
@[simp] theorem State.takeEvent_port_seqErrPending (s : State) (e : Event) (r : Word) (x : Srr1) : (s.takeEvent e r x).port.seqErrPending = s.port.seqErrPending := by unfold State.takeEvent; simp only []; split <;> simp
@[simp] theorem State.takeEvent_port_shifted (s : State) (e : Event) (r : Word) (x : Srr1) : (s.takeEvent e r x).port.shifted = s.port.shifted := by unfold State.takeEvent; simp only []; split <;> simp
@[simp] theorem State.takeEvent_port_suppress (s : State) (e : Event) (r : Word) (x : Srr1) : (s.takeEvent e r x).port.suppress = s.port.suppress := by unfold State.takeEvent; simp only []; split <;> simp
@[simp] theorem State.takeEvent_port_scanHold (s : State) (e : Event) (r : Word) (x : Srr1) : (s.takeEvent e r x).port.scanHold = s.port.scanHold := by unfold State.takeEvent; simp only []; split <;> simp
@[simp] theorem State.takeEvent_port_txStatus (s : State) (e : Event) (r : Word) (x : Srr1) : (s.takeEvent e r x).port.txStatus = s.port.txStatus := by unfold State.takeEvent; simp only []; split <;> simp
@[simp] theorem State.takeEvent_port_txData (s : State) (e : Event) (r : Word) (x : Srr1) : (s.takeEvent e r x).port.txData = s.port.txData := by unfold State.takeEvent; simp only []; split <;> simp
@[simp] theorem State.takeEvent_dbg_enable (s : State) (e : Event) (r : Word) (x : Srr1) : (s.takeEvent e r x).dbg.enable = s.dbg.enable := by unfold State.takeEvent; simp only []; split <;> simp
@[simp] theorem State.takeEvent_dbg_reservedCommandSeen (s : State) (e : Event) (r : Word) (x : Srr1) : (s.takeEvent e r x).dbg.reservedCommandSeen = s.dbg.reservedCommandSeen := by unfold State.takeEvent; simp only []; split <;> simp
@[simp] theorem State.takeEvent_dbg_illegalProgramming (s : State) (e : Event) (r : Word) (x : Srr1) : (s.takeEvent e r x).dbg.illegalProgramming = s.dbg.illegalProgramming := by unfold State.takeEvent; simp only []; split <;> simp
@[simp] theorem State.takeEvent_dbg_unalignedSeen (s : State) (e : Event) (r : Word) (x : Srr1) : (s.takeEvent e r x).dbg.unalignedSeen = s.dbg.unalignedSeen := by unfold State.takeEvent; simp only []; split <;> simp
@[simp] theorem State.takeEvent_trace_histFlush (s : State) (e : Event) (r : Word) (x : Srr1) : (s.takeEvent e r x).trace.histFlush = s.trace.histFlush := by unfold State.takeEvent; simp only []; split <;> simp
@[simp] theorem State.takeEvent_trace_vsyncChanged (s : State) (e : Event) (r : Word) (x : Srr1) : (s.takeEvent e r x).trace.vsyncChanged = s.trace.vsyncChanged := by unfold State.takeEvent; simp only []; split <;> simp
@[simp] theorem State.takeEvent_trace_nextVisible (s : State) (e : Event) (r : Word) (x : Srr1) : (s.takeEvent e r x).trace.nextVisible = s.trace.nextVisible := by unfold State.takeEvent; simp only []; split <;> simp
@[simp] theorem State.takeEvent_trace_isctActive (s : State) (e : Event) (r : Word) (x : Srr1) : (s.takeEvent e r x).trace.isctActive = s.trace.isctActive := by unfold State.takeEvent; simp only []; split <;> simp
@[simp] theorem State.takeEvent_trace_isctHold (s : State) (e : Event) (r : Word) (x : Srr1) : (s.takeEvent e r x).trace.isctHold = s.trace.isctHold := by unfold State.takeEvent; simp only []; split <;> simp
@[simp] theorem State.takeEvent_lines (s : State) (e : Event) (r : Word) (x : Srr1) : (s.takeEvent e r x).lines = s.lines := by unfold State.takeEvent; simp only []; split <;> simp
@[simp] theorem State.takeEvent_cycles (s : State) (e : Event) (r : Word) (x : Srr1) : (s.takeEvent e r x).cycles = s.cycles := by unfold State.takeEvent; simp only []; split <;> simp
@[simp] theorem State.takeEvent_traced (s : State) (e : Event) (r : Word) (x : Srr1) : (s.takeEvent e r x).traced = s.traced := by unfold State.takeEvent; simp only []; split <;> simp
@[simp] theorem State.takeEvent_oracle (s : State) (e : Event) (r : Word) (x : Srr1) : (s.takeEvent e r x).oracle = s.oracle := by unfold State.takeEvent; simp only []; split <;> simp
@[simp] theorem State.takeEvent_faultMap (s : State) (e : Event) (r : Word) (x : Srr1) : (s.takeEvent e r x).faultMap = s.faultMap := by unfold State.takeEvent; simp only []; split <;> simp
@[simp] theorem State.takeEvent_mem (s : State) (e : Event) (r : Word) (x : Srr1) : (s.takeEvent e r x).mem = s.mem := by unfold State.takeEvent; simp only []; split <;> simp
@[simp] theorem State.takeEvent_inputs (s : State) (e : Event) (r : Word) (x : Srr1) : (s.takeEvent e r x).inputs = s.inputs := by unfold State.takeEvent; simp only []; split <;> simp

/-! ### takeAt -/

@[simp] theorem State.takeAt_cpu_gpr (s : State) (e : Event) (r : Word) : (s.takeAt e r).cpu.gpr = s.cpu.gpr := by unfold State.takeAt; simp
@[simp] theorem State.takeAt_cpu_dar (s : State) (e : Event) (r : Word) : (s.takeAt e r).cpu.dar = s.cpu.dar := by unfold State.takeAt; simp
@[simp] theorem State.takeAt_cpu_dsisr (s : State) (e : Event) (r : Word) : (s.takeAt e r).cpu.dsisr = s.cpu.dsisr := by unfold State.takeAt; simp
@[simp] theorem State.takeAt_spr_cmpa (s : State) (e : Event) (r : Word) : (s.takeAt e r).spr.cmpa = s.spr.cmpa := by unfold State.takeAt; simp
@[simp] theorem State.takeAt_spr_cmpb (s : State) (e : Event) (r : Word) : (s.takeAt e r).spr.cmpb = s.spr.cmpb := by unfold State.takeAt; simp
@[simp] theorem State.takeAt_spr_cmpc (s : State) (e : Event) (r : Word) : (s.takeAt e r).spr.cmpc = s.spr.cmpc := by unfold State.takeAt; simp
@[simp] theorem State.takeAt_spr_cmpd (s : State) (e : Event) (r : Word) : (s.takeAt e r).spr.cmpd = s.spr.cmpd := by unfold State.takeAt; simp
@[simp] theorem State.takeAt_spr_cmpe (s : State) (e : Event) (r : Word) : (s.takeAt e r).spr.cmpe = s.spr.cmpe := by unfold State.takeAt; simp
@[simp] theorem State.takeAt_spr_cmpf (s : State) (e : Event) (r : Word) : (s.takeAt e r).spr.cmpf = s.spr.cmpf := by unfold State.takeAt; simp
@[simp] theorem State.takeAt_spr_cmpg (s : State) (e : Event) (r : Word) : (s.takeAt e r).spr.cmpg = s.spr.cmpg := by unfold State.takeAt; simp
@[simp] theorem State.takeAt_spr_cmph (s : State) (e : Event) (r : Word) : (s.takeAt e r).spr.cmph = s.spr.cmph := by unfold State.takeAt; simp
@[simp] theorem State.takeAt_spr_ictrl (s : State) (e : Event) (r : Word) : (s.takeAt e r).spr.ictrl = s.spr.ictrl := by unfold State.takeAt; simp
@[simp] theorem State.takeAt_spr_lctrl1 (s : State) (e : Event) (r : Word) : (s.takeAt e r).spr.lctrl1 = s.spr.lctrl1 := by unfold State.takeAt; simp
@[simp] theorem State.takeAt_spr_lctrl2 (s : State) (e : Event) (r : Word) : (s.takeAt e r).spr.lctrl2 = s.spr.lctrl2 := by unfold State.takeAt; simp
@[simp] theorem State.takeAt_spr_counta (s : State) (e : Event) (r : Word) : (s.takeAt e r).spr.counta = s.spr.counta := by unfold State.takeAt; simp
@[simp] theorem State.takeAt_spr_countb (s : State) (e : Event) (r : Word) : (s.takeAt e r).spr.countb = s.spr.countb := by unfold State.takeAt; simp
@[simp] theorem State.takeAt_spr_der (s : State) (e : Event) (r : Word) : (s.takeAt e r).spr.der = s.spr.der := by unfold State.takeAt; simp
@[simp] theorem State.takeAt_spr_bar (s : State) (e : Event) (r : Word) : (s.takeAt e r).spr.bar = s.spr.bar := by unfold State.takeAt; simp
@[simp] theorem State.takeAt_port_dpsr (s : State) (e : Event) (r : Word) : (s.takeAt e r).port.dpsr = s.port.dpsr := by unfold State.takeAt; simp
@[simp] theorem State.takeAt_port_tecr (s : State) (e : Event) (r : Word) : (s.takeAt e r).port.tecr = s.port.tecr := by unfold State.takeAt; simp
@[simp] theorem State.takeAt_port_clockMode (s : State) (e : Event) (r : Word) : (s.takeAt e r).port.clockMode = s.port.clockMode := by unfold State.takeAt; simp
@[simp] theorem State.takeAt_port_downloadInProgress (s : State) (e : Event) (r : Word) : (s.takeAt e r).port.downloadInProgress = s.port.downloadInProgress := by unfold State.takeAt; simp
@[simp] theorem State.takeAt_port_endRequested (s : State) (e : Event) (r : Word) : (s.takeAt e r).port.endRequested = s.port.endRequested := by unfold State.takeAt; simp
@[simp] theorem State.takeAt_port_validData (s : State) (e : Event) (r : Word) : (s.takeAt e r).port.validData = s.port.validData := by unfold State.takeAt; simp
@[simp] theorem State.takeAt_port_seqErrPending (s : State) (e : Event) (r : Word) : (s.takeAt e r).port.seqErrPending = s.port.seqErrPending := by unfold State.takeAt; simp
@[simp] theorem State.takeAt_port_shifted (s : State) (e : Event) (r : Word) : (s.takeAt e r).port.shifted = s.port.shifted := by unfold State.takeAt; simp
@[simp] theorem State.takeAt_port_suppress (s : State) (e : Event) (r : Word) : (s.takeAt e r).port.suppress = s.port.suppress := by unfold State.takeAt; simp
@[simp] theorem State.takeAt_port_scanHold (s : State) (e : Event) (r : Word) : (s.takeAt e r).port.scanHold = s.port.scanHold := by unfold State.takeAt; simp
@[simp] theorem State.takeAt_port_txStatus (s : State) (e : Event) (r : Word) : (s.takeAt e r).port.txStatus = s.port.txStatus := by unfold State.takeAt; simp
@[simp] theorem State.takeAt_port_txData (s : State) (e : Event) (r : Word) : (s.takeAt e r).port.txData = s.port.txData := by unfold State.takeAt; simp
@[simp] theorem State.takeAt_dbg_enable (s : State) (e : Event) (r : Word) : (s.takeAt e r).dbg.enable = s.dbg.enable := by unfold State.takeAt; simp
@[simp] theorem State.takeAt_dbg_reservedCommandSeen (s : State) (e : Event) (r : Word) : (s.takeAt e r).dbg.reservedCommandSeen = s.dbg.reservedCommandSeen := by unfold State.takeAt; simp
@[simp] theorem State.takeAt_dbg_illegalProgramming (s : State) (e : Event) (r : Word) : (s.takeAt e r).dbg.illegalProgramming = s.dbg.illegalProgramming := by unfold State.takeAt; simp
@[simp] theorem State.takeAt_dbg_unalignedSeen (s : State) (e : Event) (r : Word) : (s.takeAt e r).dbg.unalignedSeen = s.dbg.unalignedSeen := by unfold State.takeAt; simp
@[simp] theorem State.takeAt_trace_histFlush (s : State) (e : Event) (r : Word) : (s.takeAt e r).trace.histFlush = s.trace.histFlush := by unfold State.takeAt; simp
@[simp] theorem State.takeAt_trace_vsyncChanged (s : State) (e : Event) (r : Word) : (s.takeAt e r).trace.vsyncChanged = s.trace.vsyncChanged := by unfold State.takeAt; simp
@[simp] theorem State.takeAt_trace_nextVisible (s : State) (e : Event) (r : Word) : (s.takeAt e r).trace.nextVisible = s.trace.nextVisible := by unfold State.takeAt; simp
@[simp] theorem State.takeAt_trace_isctActive (s : State) (e : Event) (r : Word) : (s.takeAt e r).trace.isctActive = s.trace.isctActive := by unfold State.takeAt; simp
@[simp] theorem State.takeAt_trace_isctHold (s : State) (e : Event) (r : Word) : (s.takeAt e r).trace.isctHold = s.trace.isctHold := by unfold State.takeAt; simp
@[simp] theorem State.takeAt_lines (s : State) (e : Event) (r : Word) : (s.takeAt e r).lines = s.lines := by unfold State.takeAt; simp
@[simp] theorem State.takeAt_cycles (s : State) (e : Event) (r : Word) : (s.takeAt e r).cycles = s.cycles := by unfold State.takeAt; simp
@[simp] theorem State.takeAt_traced (s : State) (e : Event) (r : Word) : (s.takeAt e r).traced = s.traced := by unfold State.takeAt; simp
@[simp] theorem State.takeAt_oracle (s : State) (e : Event) (r : Word) : (s.takeAt e r).oracle = s.oracle := by unfold State.takeAt; simp
@[simp] theorem State.takeAt_faultMap (s : State) (e : Event) (r : Word) : (s.takeAt e r).faultMap = s.faultMap := by unfold State.takeAt; simp
@[simp] theorem State.takeAt_mem (s : State) (e : Event) (r : Word) : (s.takeAt e r).mem = s.mem := by unfold State.takeAt; simp
@[simp] theorem State.takeAt_inputs (s : State) (e : Event) (r : Word) : (s.takeAt e r).inputs = s.inputs := by unfold State.takeAt; simp

/-! ### takeSync -/

@[simp] theorem State.takeSync_cpu_gpr (s : State) (c : SyncCause) (a : Option Word) : (s.takeSync c a).cpu.gpr = s.cpu.gpr := by unfold State.takeSync; simp only []; (repeat' split) <;> simp
@[simp] theorem State.takeSync_spr_cmpa (s : State) (c : SyncCause) (a : Option Word) : (s.takeSync c a).spr.cmpa = s.spr.cmpa := by unfold State.takeSync; simp only []; (repeat' split) <;> simp
@[simp] theorem State.takeSync_spr_cmpb (s : State) (c : SyncCause) (a : Option Word) : (s.takeSync c a).spr.cmpb = s.spr.cmpb := by unfold State.takeSync; simp only []; (repeat' split) <;> simp
@[simp] theorem State.takeSync_spr_cmpc (s : State) (c : SyncCause) (a : Option Word) : (s.takeSync c a).spr.cmpc = s.spr.cmpc := by unfold State.takeSync; simp only []; (repeat' split) <;> simp
@[simp] theorem State.takeSync_spr_cmpd (s : State) (c : SyncCause) (a : Option Word) : (s.takeSync c a).spr.cmpd = s.spr.cmpd := by unfold State.takeSync; simp only []; (repeat' split) <;> simp
@[simp] theorem State.takeSync_spr_cmpe (s : State) (c : SyncCause) (a : Option Word) : (s.takeSync c a).spr.cmpe = s.spr.cmpe := by unfold State.takeSync; simp only []; (repeat' split) <;> simp
@[simp] theorem State.takeSync_spr_cmpf (s : State) (c : SyncCause) (a : Option Word) : (s.takeSync c a).spr.cmpf = s.spr.cmpf := by unfold State.takeSync; simp only []; (repeat' split) <;> simp
@[simp] theorem State.takeSync_spr_cmpg (s : State) (c : SyncCause) (a : Option Word) : (s.takeSync c a).spr.cmpg = s.spr.cmpg := by unfold State.takeSync; simp only []; (repeat' split) <;> simp
@[simp] theorem State.takeSync_spr_cmph (s : State) (c : SyncCause) (a : Option Word) : (s.takeSync c a).spr.cmph = s.spr.cmph := by unfold State.takeSync; simp only []; (repeat' split) <;> simp
@[simp] theorem State.takeSync_spr_ictrl (s : State) (c : SyncCause) (a : Option Word) : (s.takeSync c a).spr.ictrl = s.spr.ictrl := by unfold State.takeSync; simp only []; (repeat' split) <;> simp
@[simp] theorem State.takeSync_spr_lctrl1 (s : State) (c : SyncCause) (a : Option Word) : (s.takeSync c a).spr.lctrl1 = s.spr.lctrl1 := by unfold State.takeSync; simp only []; (repeat' split) <;> simp
@[simp] theorem State.takeSync_spr_lctrl2 (s : State) (c : SyncCause) (a : Option Word) : (s.takeSync c a).spr.lctrl2 = s.spr.lctrl2 := by unfold State.takeSync; simp only []; (repeat' split) <;> simp
@[simp] theorem State.takeSync_spr_counta (s : State) (c : SyncCause) (a : Option Word) : (s.takeSync c a).spr.counta = s.spr.counta := by unfold State.takeSync; simp only []; (repeat' split) <;> simp
@[simp] theorem State.takeSync_spr_countb (s : State) (c : SyncCause) (a : Option Word) : (s.takeSync c a).spr.countb = s.spr.countb := by unfold State.takeSync; simp only []; (repeat' split) <;> simp
@[simp] theorem State.takeSync_spr_der (s : State) (c : SyncCause) (a : Option Word) : (s.takeSync c a).spr.der = s.spr.der := by unfold State.takeSync; simp only []; (repeat' split) <;> simp
@[simp] theorem State.takeSync_spr_bar (s : State) (c : SyncCause) (a : Option Word) : (s.takeSync c a).spr.bar = s.spr.bar := by unfold State.takeSync; simp only []; (repeat' split) <;> simp
@[simp] theorem State.takeSync_port_dpsr (s : State) (c : SyncCause) (a : Option Word) : (s.takeSync c a).port.dpsr = s.port.dpsr := by unfold State.takeSync; simp only []; (repeat' split) <;> simp
@[simp] theorem State.takeSync_port_tecr (s : State) (c : SyncCause) (a : Option Word) : (s.takeSync c a).port.tecr = s.port.tecr := by unfold State.takeSync; simp only []; (repeat' split) <;> simp
@[simp] theorem State.takeSync_port_clockMode (s : State) (c : SyncCause) (a : Option Word) : (s.takeSync c a).port.clockMode = s.port.clockMode := by unfold State.takeSync; simp only []; (repeat' split) <;> simp
@[simp] theorem State.takeSync_port_downloadInProgress (s : State) (c : SyncCause) (a : Option Word) : (s.takeSync c a).port.downloadInProgress = s.port.downloadInProgress := by unfold State.takeSync; simp only []; (repeat' split) <;> simp
@[simp] theorem State.takeSync_port_endRequested (s : State) (c : SyncCause) (a : Option Word) : (s.takeSync c a).port.endRequested = s.port.endRequested := by unfold State.takeSync; simp only []; (repeat' split) <;> simp
@[simp] theorem State.takeSync_port_validData (s : State) (c : SyncCause) (a : Option Word) : (s.takeSync c a).port.validData = s.port.validData := by unfold State.takeSync; simp only []; (repeat' split) <;> simp
@[simp] theorem State.takeSync_port_seqErrPending (s : State) (c : SyncCause) (a : Option Word) : (s.takeSync c a).port.seqErrPending = s.port.seqErrPending := by unfold State.takeSync; simp only []; (repeat' split) <;> simp
@[simp] theorem State.takeSync_port_shifted (s : State) (c : SyncCause) (a : Option Word) : (s.takeSync c a).port.shifted = s.port.shifted := by unfold State.takeSync; simp only []; (repeat' split) <;> simp
@[simp] theorem State.takeSync_port_suppress (s : State) (c : SyncCause) (a : Option Word) : (s.takeSync c a).port.suppress = s.port.suppress := by unfold State.takeSync; simp only []; (repeat' split) <;> simp
@[simp] theorem State.takeSync_port_scanHold (s : State) (c : SyncCause) (a : Option Word) : (s.takeSync c a).port.scanHold = s.port.scanHold := by unfold State.takeSync; simp only []; (repeat' split) <;> simp
@[simp] theorem State.takeSync_port_txStatus (s : State) (c : SyncCause) (a : Option Word) : (s.takeSync c a).port.txStatus = s.port.txStatus := by unfold State.takeSync; simp only []; (repeat' split) <;> simp
@[simp] theorem State.takeSync_port_txData (s : State) (c : SyncCause) (a : Option Word) : (s.takeSync c a).port.txData = s.port.txData := by unfold State.takeSync; simp only []; (repeat' split) <;> simp
@[simp] theorem State.takeSync_dbg_enable (s : State) (c : SyncCause) (a : Option Word) : (s.takeSync c a).dbg.enable = s.dbg.enable := by unfold State.takeSync; simp only []; (repeat' split) <;> simp
@[simp] theorem State.takeSync_dbg_reservedCommandSeen (s : State) (c : SyncCause) (a : Option Word) : (s.takeSync c a).dbg.reservedCommandSeen = s.dbg.reservedCommandSeen := by unfold State.takeSync; simp only []; (repeat' split) <;> simp
@[simp] theorem State.takeSync_dbg_illegalProgramming (s : State) (c : SyncCause) (a : Option Word) : (s.takeSync c a).dbg.illegalProgramming = s.dbg.illegalProgramming := by unfold State.takeSync; simp only []; (repeat' split) <;> simp
@[simp] theorem State.takeSync_dbg_unalignedSeen (s : State) (c : SyncCause) (a : Option Word) : (s.takeSync c a).dbg.unalignedSeen = s.dbg.unalignedSeen := by unfold State.takeSync; simp only []; (repeat' split) <;> simp
@[simp] theorem State.takeSync_trace_histFlush (s : State) (c : SyncCause) (a : Option Word) : (s.takeSync c a).trace.histFlush = s.trace.histFlush := by unfold State.takeSync; simp only []; (repeat' split) <;> simp
@[simp] theorem State.takeSync_trace_vsyncChanged (s : State) (c : SyncCause) (a : Option Word) : (s.takeSync c a).trace.vsyncChanged = s.trace.vsyncChanged := by unfold State.takeSync; simp only []; (repeat' split) <;> simp
@[simp] theorem State.takeSync_trace_nextVisible (s : State) (c : SyncCause) (a : Option Word) : (s.takeSync c a).trace.nextVisible = s.trace.nextVisible := by unfold State.takeSync; simp only []; (repeat' split) <;> simp
@[simp] theorem State.takeSync_trace_isctActive (s : State) (c : SyncCause) (a : Option Word) : (s.takeSync c a).trace.isctActive = s.trace.isctActive := by unfold State.takeSync; simp only []; (repeat' split) <;> simp
@[simp] theorem State.takeSync_trace_isctHold (s : State) (c : SyncCause) (a : Option Word) : (s.takeSync c a).trace.isctHold = s.trace.isctHold := by unfold State.takeSync; simp only []; (repeat' split) <;> simp
@[simp] theorem State.takeSync_lines (s : State) (c : SyncCause) (a : Option Word) : (s.takeSync c a).lines = s.lines := by unfold State.takeSync; simp only []; (repeat' split) <;> simp
@[simp] theorem State.takeSync_cycles (s : State) (c : SyncCause) (a : Option Word) : (s.takeSync c a).cycles = s.cycles := by unfold State.takeSync; simp only []; (repeat' split) <;> simp
@[simp] theorem State.takeSync_traced (s : State) (c : SyncCause) (a : Option Word) : (s.takeSync c a).traced = s.traced := by unfold State.takeSync; simp only []; (repeat' split) <;> simp
@[simp] theorem State.takeSync_oracle (s : State) (c : SyncCause) (a : Option Word) : (s.takeSync c a).oracle = s.oracle := by unfold State.takeSync; simp only []; (repeat' split) <;> simp
@[simp] theorem State.takeSync_faultMap (s : State) (c : SyncCause) (a : Option Word) : (s.takeSync c a).faultMap = s.faultMap := by unfold State.takeSync; simp only []; (repeat' split) <;> simp
@[simp] theorem State.takeSync_mem (s : State) (c : SyncCause) (a : Option Word) : (s.takeSync c a).mem = s.mem := by unfold State.takeSync; simp only []; (repeat' split) <;> simp
@[simp] theorem State.takeSync_inputs (s : State) (c : SyncCause) (a : Option Word) : (s.takeSync c a).inputs = s.inputs := by unfold State.takeSync; simp only []; (repeat' split) <;> simp

/-! ### programException -/

@[simp] theorem State.programException_cpu_gpr (s : State) : (s.programException).cpu.gpr = s.cpu.gpr := by unfold State.programException; simp
@[simp] theorem State.programException_spr_cmpa (s : State) : (s.programException).spr.cmpa = s.spr.cmpa := by unfold State.programException; simp
@[simp] theorem State.programException_spr_cmpb (s : State) : (s.programException).spr.cmpb = s.spr.cmpb := by unfold State.programException; simp
@[simp] theorem State.programException_spr_cmpc (s : State) : (s.programException).spr.cmpc = s.spr.cmpc := by unfold State.programException; simp
@[simp] theorem State.programException_spr_cmpd (s : State) : (s.programException).spr.cmpd = s.spr.cmpd := by unfold State.programException; simp
@[simp] theorem State.programException_spr_cmpe (s : State) : (s.programException).spr.cmpe = s.spr.cmpe := by unfold State.programException; simp
@[simp] theorem State.programException_spr_cmpf (s : State) : (s.programException).spr.cmpf = s.spr.cmpf := by unfold State.programException; simp
@[simp] theorem State.programException_spr_cmpg (s : State) : (s.programException).spr.cmpg = s.spr.cmpg := by unfold State.programException; simp
@[simp] theorem State.programException_spr_cmph (s : State) : (s.programException).spr.cmph = s.spr.cmph := by unfold State.programException; simp
@[simp] theorem State.programException_spr_ictrl (s : State) : (s.programException).spr.ictrl = s.spr.ictrl := by unfold State.programException; simp
@[simp] theorem State.programException_spr_lctrl1 (s : State) : (s.programException).spr.lctrl1 = s.spr.lctrl1 := by unfold State.programException; simp
@[simp] theorem State.programException_spr_lctrl2 (s : State) : (s.programException).spr.lctrl2 = s.spr.lctrl2 := by unfold State.programException; simp
@[simp] theorem State.programException_spr_counta (s : State) : (s.programException).spr.counta = s.spr.counta := by unfold State.programException; simp
@[simp] theorem State.programException_spr_countb (s : State) : (s.programException).spr.countb = s.spr.countb := by unfold State.programException; simp
@[simp] theorem State.programException_spr_der (s : State) : (s.programException).spr.der = s.spr.der := by unfold State.programException; simp
@[simp] theorem State.programException_spr_bar (s : State) : (s.programException).spr.bar = s.spr.bar := by unfold State.programException; simp
@[simp] theorem State.programException_port_dpsr (s : State) : (s.programException).port.dpsr = s.port.dpsr := by unfold State.programException; simp
@[simp] theorem State.programException_port_tecr (s : State) : (s.programException).port.tecr = s.port.tecr := by unfold State.programException; simp
@[simp] theorem State.programException_port_clockMode (s : State) : (s.programException).port.clockMode = s.port.clockMode := by unfold State.programException; simp
@[simp] theorem State.programException_port_downloadInProgress (s : State) : (s.programException).port.downloadInProgress = s.port.downloadInProgress := by unfold State.programException; simp
@[simp] theorem State.programException_port_endRequested (s : State) : (s.programException).port.endRequested = s.port.endRequested := by unfold State.programException; simp
@[simp] theorem State.programException_port_validData (s : State) : (s.programException).port.validData = s.port.validData := by unfold State.programException; simp
@[simp] theorem State.programException_port_seqErrPending (s : State) : (s.programException).port.seqErrPending = s.port.seqErrPending := by unfold State.programException; simp
@[simp] theorem State.programException_port_shifted (s : State) : (s.programException).port.shifted = s.port.shifted := by unfold State.programException; simp
@[simp] theorem State.programException_port_suppress (s : State) : (s.programException).port.suppress = s.port.suppress := by unfold State.programException; simp
@[simp] theorem State.programException_port_scanHold (s : State) : (s.programException).port.scanHold = s.port.scanHold := by unfold State.programException; simp
@[simp] theorem State.programException_port_txStatus (s : State) : (s.programException).port.txStatus = s.port.txStatus := by unfold State.programException; simp
@[simp] theorem State.programException_port_txData (s : State) : (s.programException).port.txData = s.port.txData := by unfold State.programException; simp
@[simp] theorem State.programException_dbg_enable (s : State) : (s.programException).dbg.enable = s.dbg.enable := by unfold State.programException; simp
@[simp] theorem State.programException_dbg_reservedCommandSeen (s : State) : (s.programException).dbg.reservedCommandSeen = s.dbg.reservedCommandSeen := by unfold State.programException; simp
@[simp] theorem State.programException_dbg_illegalProgramming (s : State) : (s.programException).dbg.illegalProgramming = s.dbg.illegalProgramming := by unfold State.programException; simp
@[simp] theorem State.programException_dbg_unalignedSeen (s : State) : (s.programException).dbg.unalignedSeen = s.dbg.unalignedSeen := by unfold State.programException; simp
@[simp] theorem State.programException_trace_histFlush (s : State) : (s.programException).trace.histFlush = s.trace.histFlush := by unfold State.programException; simp
@[simp] theorem State.programException_trace_vsyncChanged (s : State) : (s.programException).trace.vsyncChanged = s.trace.vsyncChanged := by unfold State.programException; simp
@[simp] theorem State.programException_trace_nextVisible (s : State) : (s.programException).trace.nextVisible = s.trace.nextVisible := by unfold State.programException; simp
@[simp] theorem State.programException_trace_isctActive (s : State) : (s.programException).trace.isctActive = s.trace.isctActive := by unfold State.programException; simp
@[simp] theorem State.programException_trace_isctHold (s : State) : (s.programException).trace.isctHold = s.trace.isctHold := by unfold State.programException; simp
@[simp] theorem State.programException_lines (s : State) : (s.programException).lines = s.lines := by unfold State.programException; simp
@[simp] theorem State.programException_cycles (s : State) : (s.programException).cycles = s.cycles := by unfold State.programException; simp
@[simp] theorem State.programException_traced (s : State) : (s.programException).traced = s.traced := by unfold State.programException; simp
@[simp] theorem State.programException_oracle (s : State) : (s.programException).oracle = s.oracle := by unfold State.programException; simp
@[simp] theorem State.programException_faultMap (s : State) : (s.programException).faultMap = s.faultMap := by unfold State.programException; simp
@[simp] theorem State.programException_mem (s : State) : (s.programException).mem = s.mem := by unfold State.programException; simp
@[simp] theorem State.programException_inputs (s : State) : (s.programException).inputs = s.inputs := by unfold State.programException; simp

/-! ### leaveDebug -/

@[simp] theorem State.leaveDebug_cpu (s : State) : (s.leaveDebug).cpu = s.cpu := by unfold State.leaveDebug; simp only []; split <;> simp
@[simp] theorem State.leaveDebug_spr (s : State) : (s.leaveDebug).spr = s.spr := by unfold State.leaveDebug; simp only []; split <;> simp
@[simp] theorem State.leaveDebug_port_dpsr (s : State) : (s.leaveDebug).port.dpsr = s.port.dpsr := by unfold State.leaveDebug; simp only []; split <;> simp
@[simp] theorem State.leaveDebug_port_tecr (s : State) : (s.leaveDebug).port.tecr = s.port.tecr := by unfold State.leaveDebug; simp only []; split <;> simp
@[simp] theorem State.leaveDebug_port_clockMode (s : State) : (s.leaveDebug).port.clockMode = s.port.clockMode := by unfold State.leaveDebug; simp only []; split <;> simp
@[simp] theorem State.leaveDebug_port_downloadInProgress (s : State) : (s.leaveDebug).port.downloadInProgress = s.port.downloadInProgress := by unfold State.leaveDebug; simp only []; split <;> simp
@[simp] theorem State.leaveDebug_port_endRequested (s : State) : (s.leaveDebug).port.endRequested = s.port.endRequested := by unfold State.leaveDebug; simp only []; split <;> simp
@[simp] theorem State.leaveDebug_port_downloadStore (s : State) : (s.leaveDebug).port.downloadStore = s.port.downloadStore := by unfold State.leaveDebug; simp only []; split <;> simp
@[simp] theorem State.leaveDebug_port_validData (s : State) : (s.leaveDebug).port.validData = s.port.validData := by unfold State.leaveDebug; simp only []; split <;> simp
@[simp] theorem State.leaveDebug_port_seqErrPending (s : State) : (s.leaveDebug).port.seqErrPending = s.port.seqErrPending := by unfold State.leaveDebug; simp only []; split <;> simp
@[simp] theorem State.leaveDebug_port_cpuIntPending (s : State) : (s.leaveDebug).port.cpuIntPending = s.port.cpuIntPending := by unfold State.leaveDebug; simp only []; split <;> simp
@[simp] theorem State.leaveDebug_port_shifted (s : State) : (s.leaveDebug).port.shifted = s.port.shifted := by unfold State.leaveDebug; simp only []; split <;> simp
@[simp] theorem State.leaveDebug_port_suppress (s : State) : (s.leaveDebug).port.suppress = s.port.suppress := by unfold State.leaveDebug; simp only []; split <;> simp
@[simp] theorem State.leaveDebug_port_scanHold (s : State) : (s.leaveDebug).port.scanHold = s.port.scanHold := by unfold State.leaveDebug; simp only []; split <;> simp
@[simp] theorem State.leaveDebug_port_txStatus (s : State) : (s.leaveDebug).port.txStatus = s.port.txStatus := by unfold State.leaveDebug; simp only []; split <;> simp
@[simp] theorem State.leaveDebug_port_txData (s : State) : (s.leaveDebug).port.txData = s.port.txData := by unfold State.leaveDebug; simp only []; split <;> simp
@[simp] theorem State.leaveDebug_dbg_enable (s : State) : (s.leaveDebug).dbg.enable = s.dbg.enable := by unfold State.leaveDebug; simp only []; split <;> simp
@[simp] theorem State.leaveDebug_dbg_checkStop (s : State) : (s.leaveDebug).dbg.checkStop = s.dbg.checkStop := by unfold State.leaveDebug; simp only []; split <;> simp
@[simp] theorem State.leaveDebug_dbg_nonRestartable (s : State) : (s.leaveDebug).dbg.nonRestartable = s.dbg.nonRestartable := by unfold State.leaveDebug; simp only []; split <;> simp
@[simp] theorem State.leaveDebug_dbg_reservedCommandSeen (s : State) : (s.leaveDebug).dbg.reservedCommandSeen = s.dbg.reservedCommandSeen := by unfold State.leaveDebug; simp only []; split <;> simp
@[simp] theorem State.leaveDebug_dbg_illegalProgramming (s : State) : (s.leaveDebug).dbg.illegalProgramming = s.dbg.illegalProgramming := by unfold State.leaveDebug; simp only []; split <;> simp
@[simp] theorem State.leaveDebug_dbg_unalignedSeen (s : State) : (s.leaveDebug).dbg.unalignedSeen = s.dbg.unalignedSeen := by unfold State.leaveDebug; simp only []; split <;> simp
@[simp] theorem State.leaveDebug_trace_pending (s : State) : (s.leaveDebug).trace.pending = s.trace.pending := by unfold State.leaveDebug; simp only []; split <;> simp
@[simp] theorem State.leaveDebug_trace_lastReports (s : State) : (s.leaveDebug).trace.lastReports = s.trace.lastReports := by unfold State.leaveDebug; simp only []; split <;> simp
@[simp] theorem State.leaveDebug_trace_isctActive (s : State) : (s.leaveDebug).trace.isctActive = s.trace.isctActive := by unfold State.leaveDebug; simp only []; split <;> simp
@[simp] theorem State.leaveDebug_trace_isctHold (s : State) : (s.leaveDebug).trace.isctHold = s.trace.isctHold := by unfold State.leaveDebug; simp only []; split <;> simp
@[simp] theorem State.leaveDebug_trace_showQueue (s : State) : (s.leaveDebug).trace.showQueue = s.trace.showQueue := by unfold State.leaveDebug; simp only []; split <;> simp
@[simp] theorem State.leaveDebug_trace_fetches (s : State) : (s.leaveDebug).trace.fetches = s.trace.fetches := by unfold State.leaveDebug; simp only []; split <;> simp
@[simp] theorem State.leaveDebug_lines (s : State) : (s.leaveDebug).lines = s.lines := by unfold State.leaveDebug; simp only []; split <;> simp
@[simp] theorem State.leaveDebug_ir (s : State) : (s.leaveDebug).ir = s.ir := by unfold State.leaveDebug; simp only []; split <;> simp
@[simp] theorem State.leaveDebug_cycles (s : State) : (s.leaveDebug).cycles = s.cycles := by unfold State.leaveDebug; simp only []; split <;> simp
@[simp] theorem State.leaveDebug_traced (s : State) : (s.leaveDebug).traced = s.traced := by unfold State.leaveDebug; simp only []; split <;> simp
@[simp] theorem State.leaveDebug_expired (s : State) : (s.leaveDebug).expired = s.expired := by unfold State.leaveDebug; simp only []; split <;> simp
@[simp] theorem State.leaveDebug_oracle (s : State) : (s.leaveDebug).oracle = s.oracle := by unfold State.leaveDebug; simp only []; split <;> simp
@[simp] theorem State.leaveDebug_faultMap (s : State) : (s.leaveDebug).faultMap = s.faultMap := by unfold State.leaveDebug; simp only []; split <;> simp
@[simp] theorem State.leaveDebug_mem (s : State) : (s.leaveDebug).mem = s.mem := by unfold State.leaveDebug; simp only []; split <;> simp
@[simp] theorem State.leaveDebug_inputs (s : State) : (s.leaveDebug).inputs = s.inputs := by unfold State.leaveDebug; simp only []; split <;> simp

/-! ### returnFromInterrupt -/

@[simp] theorem State.returnFromInterrupt_cpu_gpr (s : State) : (s.returnFromInterrupt).cpu.gpr = s.cpu.gpr := by unfold State.returnFromInterrupt; simp only []; (repeat' split) <;> simp
@[simp] theorem State.returnFromInterrupt_cpu_dar (s : State) : (s.returnFromInterrupt).cpu.dar = s.cpu.dar := by unfold State.returnFromInterrupt; simp only []; (repeat' split) <;> simp
@[simp] theorem State.returnFromInterrupt_cpu_dsisr (s : State) : (s.returnFromInterrupt).cpu.dsisr = s.cpu.dsisr := by unfold State.returnFromInterrupt; simp only []; (repeat' split) <;> simp
@[simp] theorem State.returnFromInterrupt_spr (s : State) : (s.returnFromInterrupt).spr = s.spr := by unfold State.returnFromInterrupt; simp only []; (repeat' split) <;> simp
@[simp] theorem State.returnFromInterrupt_port_dpsr (s : State) : (s.returnFromInterrupt).port.dpsr = s.port.dpsr := by unfold State.returnFromInterrupt; simp only []; (repeat' split) <;> simp
@[simp] theorem State.returnFromInterrupt_port_tecr (s : State) : (s.returnFromInterrupt).port.tecr = s.port.tecr := by unfold State.returnFromInterrupt; simp only []; (repeat' split) <;> simp
@[simp] theorem State.returnFromInterrupt_port_clockMode (s : State) : (s.returnFromInterrupt).port.clockMode = s.port.clockMode := by unfold State.returnFromInterrupt; simp only []; (repeat' split) <;> simp
@[simp] theorem State.returnFromInterrupt_port_downloadInProgress (s : State) : (s.returnFromInterrupt).port.downloadInProgress = s.port.downloadInProgress := by unfold State.returnFromInterrupt; simp only []; (repeat' split) <;> simp
@[simp] theorem State.returnFromInterrupt_port_endRequested (s : State) : (s.returnFromInterrupt).port.endRequested = s.port.endRequested := by unfold State.returnFromInterrupt; simp only []; (repeat' split) <;> simp
@[simp] theorem State.leaveDebug_enterCondition (s : State) : (s.leaveDebug).enterCondition = (s.dbg.enable && s.enabledEvent) := by unfold State.leaveDebug State.enterCondition; simp only []; split <;> simp [State.enabledEvent]
@[simp] theorem State.returnFromInterrupt_port_validData (s : State) :
    (s.returnFromInterrupt).port.validData = (s.port.validData && (!s.dbg.inDebug || s.dbg.enable && s.enabledEvent)) := by
  unfold State.returnFromInterrupt
  simp only [State.leaveDebug_enterCondition, State.enabledEvent]
  (repeat' split) <;> simp_all
@[simp] theorem State.returnFromInterrupt_port_seqErrPending (s : State) : (s.returnFromInterrupt).port.seqErrPending = s.port.seqErrPending := by unfold State.returnFromInterrupt; simp only []; (repeat' split) <;> simp
@[simp] theorem State.returnFromInterrupt_port_cpuIntPending (s : State) : (s.returnFromInterrupt).port.cpuIntPending = s.port.cpuIntPending := by unfold State.returnFromInterrupt; simp only []; (repeat' split) <;> simp
@[simp] theorem State.returnFromInterrupt_port_shifted (s : State) : (s.returnFromInterrupt).port.shifted = s.port.shifted := by unfold State.returnFromInterrupt; simp only []; (repeat' split) <;> simp
@[simp] theorem State.returnFromInterrupt_port_suppress (s : State) : (s.returnFromInterrupt).port.suppress = s.port.suppress := by unfold State.returnFromInterrupt; simp only []; (repeat' split) <;> simp
@[simp] theorem State.returnFromInterrupt_port_scanHold (s : State) : (s.returnFromInterrupt).port.scanHold = s.port.scanHold := by unfold State.returnFromInterrupt; simp only []; (repeat' split) <;> simp
@[simp] theorem State.returnFromInterrupt_port_txStatus (s : State) : (s.returnFromInterrupt).port.txStatus = s.port.txStatus := by unfold State.returnFromInterrupt; simp only []; (repeat' split) <;> simp
@[simp] theorem State.returnFromInterrupt_port_txData (s : State) : (s.returnFromInterrupt).port.txData = s.port.txData := by unfold State.returnFromInterrupt; simp only []; (repeat' split) <;> simp
@[simp] theorem State.returnFromInterrupt_dbg_enable (s : State) : (s.returnFromInterrupt).dbg.enable = s.dbg.enable := by unfold State.returnFromInterrupt; simp only []; (repeat' split) <;> simp
@[simp] theorem State.returnFromInterrupt_dbg_checkStop (s : State) : (s.returnFromInterrupt).dbg.checkStop = s.dbg.checkStop := by unfold State.returnFromInterrupt; simp only []; (repeat' split) <;> simp
@[simp] theorem State.returnFromInterrupt_dbg_nonRestartable (s : State) : (s.returnFromInterrupt).dbg.nonRestartable = s.dbg.nonRestartable := by unfold State.returnFromInterrupt; simp only []; (repeat' split) <;> simp
@[simp] theorem State.returnFromInterrupt_dbg_reservedCommandSeen (s : State) : (s.returnFromInterrupt).dbg.reservedCommandSeen = s.dbg.reservedCommandSeen := by unfold State.returnFromInterrupt; simp only []; (repeat' split) <;> simp
@[simp] theorem State.returnFromInterrupt_dbg_illegalProgramming (s : State) : (s.returnFromInterrupt).dbg.illegalProgramming = s.dbg.illegalProgramming := by unfold State.returnFromInterrupt; simp only []; (repeat' split) <;> simp
@[simp] theorem State.returnFromInterrupt_dbg_unalignedSeen (s : State) : (s.returnFromInterrupt).dbg.unalignedSeen = s.dbg.unalignedSeen := by unfold State.returnFromInterrupt; simp only []; (repeat' split) <;> simp
@[simp] theorem State.returnFromInterrupt_trace_isctActive (s : State) : (s.returnFromInterrupt).trace.isctActive = s.trace.isctActive := by unfold State.returnFromInterrupt; simp only []; (repeat' split) <;> simp
@[simp] theorem State.returnFromInterrupt_trace_isctHold (s : State) : (s.returnFromInterrupt).trace.isctHold = s.trace.isctHold := by unfold State.returnFromInterrupt; simp only []; (repeat' split) <;> simp
@[simp] theorem State.returnFromInterrupt_lines (s : State) : (s.returnFromInterrupt).lines = s.lines := by unfold State.returnFromInterrupt; simp only []; (repeat' split) <;> simp
@[simp] theorem State.returnFromInterrupt_cycles (s : State) : (s.returnFromInterrupt).cycles = s.cycles := by unfold State.returnFromInterrupt; simp only []; (repeat' split) <;> simp
@[simp] theorem State.returnFromInterrupt_traced (s : State) : (s.returnFromInterrupt).traced = s.traced := by unfold State.returnFromInterrupt; simp only []; (repeat' split) <;> simp
@[simp] theorem State.returnFromInterrupt_oracle (s : State) : (s.returnFromInterrupt).oracle = s.oracle := by unfold State.returnFromInterrupt; simp only []; (repeat' split) <;> simp
@[simp] theorem State.returnFromInterrupt_faultMap (s : State) : (s.returnFromInterrupt).faultMap = s.faultMap := by unfold State.returnFromInterrupt; simp only []; (repeat' split) <;> simp
@[simp] theorem State.returnFromInterrupt_mem (s : State) : (s.returnFromInterrupt).mem = s.mem := by unfold State.returnFromInterrupt; simp only []; (repeat' split) <;> simp
@[simp] theorem State.returnFromInterrupt_inputs (s : State) : (s.returnFromInterrupt).inputs = s.inputs := by unfold State.returnFromInterrupt; simp only []; (repeat' split) <;> simp

/-! ### answer -/

@[simp] theorem State.answer_cpu (s : State) : (s.answer).cpu = s.cpu := by unfold State.answer; (repeat' split) <;> simp
@[simp] theorem State.answer_spr (s : State) : (s.answer).spr = s.spr := by unfold State.answer; (repeat' split) <;> simp
@[simp] theorem State.answer_port_dpsr (s : State) : (s.answer).port.dpsr = s.port.dpsr := by unfold State.answer; (repeat' split) <;> simp
@[simp] theorem State.answer_port_tecr (s : State) : (s.answer).port.tecr = s.port.tecr := by unfold State.answer; (repeat' split) <;> simp
@[simp] theorem State.answer_port_clockMode (s : State) : (s.answer).port.clockMode = s.port.clockMode := by unfold State.answer; (repeat' split) <;> simp
@[simp] theorem State.answer_port_downloadInProgress (s : State) : (s.answer).port.downloadInProgress = s.port.downloadInProgress := by unfold State.answer; (repeat' split) <;> simp
@[simp] theorem State.answer_port_endRequested (s : State) : (s.answer).port.endRequested = s.port.endRequested := by unfold State.answer; (repeat' split) <;> simp
@[simp] theorem State.answer_port_downloadStore (s : State) : (s.answer).port.downloadStore = s.port.downloadStore := by unfold State.answer; (repeat' split) <;> simp
@[simp] theorem State.answer_port_cpuWaiting (s : State) : (s.answer).port.cpuWaiting = s.port.cpuWaiting := by unfold State.answer; (repeat' split) <;> simp
@[simp] theorem State.answer_port_shifted (s : State) : (s.answer).port.shifted = s.port.shifted := by unfold State.answer; (repeat' split) <;> simp
@[simp] theorem State.answer_port_scanHold (s : State) : (s.answer).port.scanHold = s.port.scanHold := by unfold State.answer; (repeat' split) <;> simp
@[simp] theorem State.answer_dbg (s : State) : (s.answer).dbg = s.dbg := by unfold State.answer; (repeat' split) <;> simp
@[simp] theorem State.answer_trace (s : State) : (s.answer).trace = s.trace := by unfold State.answer; (repeat' split) <;> simp
@[simp] theorem State.answer_lines (s : State) : (s.answer).lines = s.lines := by unfold State.answer; (repeat' split) <;> simp
@[simp] theorem State.answer_ir (s : State) : (s.answer).ir = s.ir := by unfold State.answer; (repeat' split) <;> simp
@[simp] theorem State.answer_inflight (s : State) : (s.answer).inflight = s.inflight := by unfold State.answer; (repeat' split) <;> simp
@[simp] theorem State.answer_cycles (s : State) : (s.answer).cycles = s.cycles := by unfold State.answer; (repeat' split) <;> simp
@[simp] theorem State.answer_outcome (s : State) : (s.answer).outcome = s.outcome := by unfold State.answer; (repeat' split) <;> simp
@[simp] theorem State.answer_traced (s : State) : (s.answer).traced = s.traced := by unfold State.answer; (repeat' split) <;> simp
@[simp] theorem State.answer_countersSettled (s : State) : (s.answer).countersSettled = s.countersSettled := by unfold State.answer; (repeat' split) <;> simp
@[simp] theorem State.answer_expired (s : State) : (s.answer).expired = s.expired := by unfold State.answer; (repeat' split) <;> simp
@[simp] theorem State.answer_oracle (s : State) : (s.answer).oracle = s.oracle := by unfold State.answer; (repeat' split) <;> simp
@[simp] theorem State.answer_faultMap (s : State) : (s.answer).faultMap = s.faultMap := by unfold State.answer; (repeat' split) <;> simp
@[simp] theorem State.answer_mem (s : State) : (s.answer).mem = s.mem := by unfold State.answer; (repeat' split) <;> simp
@[simp] theorem State.answer_inputs (s : State) : (s.answer).inputs = s.inputs := by unfold State.answer; (repeat' split) <;> simp
@[simp] theorem State.answer_out (s : State) : (s.answer).out = s.out := by unfold State.answer; (repeat' split) <;> simp
@[simp] theorem State.answer_draws (s : State) : (s.answer).draws = s.draws := by unfold State.answer; (repeat' split) <;> simp

/-! ### exchange -/

@[simp] theorem State.exchange_cpu (s : State) (f : Frame) : (s.exchange f).cpu = s.cpu := by unfold State.exchange; simp
@[simp] theorem State.exchange_spr (s : State) (f : Frame) : (s.exchange f).spr = s.spr := by unfold State.exchange; simp
@[simp] theorem State.exchange_port_tecr (s : State) (f : Frame) : (s.exchange f).port.tecr = s.port.tecr := by unfold State.exchange; simp
@[simp] theorem State.exchange_port_clockMode (s : State) (f : Frame) : (s.exchange f).port.clockMode = s.port.clockMode := by unfold State.exchange; simp
@[simp] theorem State.exchange_port_downloadInProgress (s : State) (f : Frame) : (s.exchange f).port.downloadInProgress = s.port.downloadInProgress := by unfold State.exchange; simp
@[simp] theorem State.exchange_port_endRequested (s : State) (f : Frame) : (s.exchange f).port.endRequested = s.port.endRequested := by unfold State.exchange; simp
@[simp] theorem State.exchange_port_downloadStore (s : State) (f : Frame) : (s.exchange f).port.downloadStore = s.port.downloadStore := by unfold State.exchange; simp
@[simp] theorem State.exchange_port_cpuWaiting (s : State) (f : Frame) : (s.exchange f).port.cpuWaiting = s.port.cpuWaiting := by unfold State.exchange; simp
@[simp] theorem State.exchange_dbg (s : State) (f : Frame) : (s.exchange f).dbg = s.dbg := by unfold State.exchange; simp
@[simp] theorem State.exchange_trace (s : State) (f : Frame) : (s.exchange f).trace = s.trace := by unfold State.exchange; simp
@[simp] theorem State.exchange_lines (s : State) (f : Frame) : (s.exchange f).lines = s.lines := by unfold State.exchange; simp
@[simp] theorem State.exchange_ir (s : State) (f : Frame) : (s.exchange f).ir = s.ir := by unfold State.exchange; simp
@[simp] theorem State.exchange_inflight (s : State) (f : Frame) : (s.exchange f).inflight = s.inflight := by unfold State.exchange; simp
@[simp] theorem State.exchange_cycles (s : State) (f : Frame) : (s.exchange f).cycles = s.cycles := by unfold State.exchange; simp
@[simp] theorem State.exchange_outcome (s : State) (f : Frame) : (s.exchange f).outcome = s.outcome := by unfold State.exchange; simp
@[simp] theorem State.exchange_traced (s : State) (f : Frame) : (s.exchange f).traced = s.traced := by unfold State.exchange; simp
@[simp] theorem State.exchange_countersSettled (s : State) (f : Frame) : (s.exchange f).countersSettled = s.countersSettled := by unfold State.exchange; simp
@[simp] theorem State.exchange_expired (s : State) (f : Frame) : (s.exchange f).expired = s.expired := by unfold State.exchange; simp
@[simp] theorem State.exchange_oracle (s : State) (f : Frame) : (s.exchange f).oracle = s.oracle := by unfold State.exchange; simp
@[simp] theorem State.exchange_faultMap (s : State) (f : Frame) : (s.exchange f).faultMap = s.faultMap := by unfold State.exchange; simp
@[simp] theorem State.exchange_mem (s : State) (f : Frame) : (s.exchange f).mem = s.mem := by unfold State.exchange; simp
@[simp] theorem State.exchange_inputs (s : State) (f : Frame) : (s.exchange f).inputs = s.inputs := by unfold State.exchange; simp
@[simp] theorem State.exchange_out (s : State) (f : Frame) : (s.exchange f).out = s.out := by unfold State.exchange; simp
@[simp] theorem State.exchange_draws (s : State) (f : Frame) : (s.exchange f).draws = s.draws := by unfold State.exchange; simp

/-! ### receiveData -/

@[simp] theorem State.receiveData_cpu_pc (s : State) (r : Nat) (w : Word) : (s.receiveData r w).cpu.pc = s.cpu.pc := by unfold State.receiveData; simp only []; split <;> simp
@[simp] theorem State.receiveData_cpu_msr (s : State) (r : Nat) (w : Word) : (s.receiveData r w).cpu.msr = s.cpu.msr := by unfold State.receiveData; simp only []; split <;> simp
@[simp] theorem State.receiveData_cpu_srr0 (s : State) (r : Nat) (w : Word) : (s.receiveData r w).cpu.srr0 = s.cpu.srr0 := by unfold State.receiveData; simp only []; split <;> simp
@[simp] theorem State.receiveData_cpu_srr1 (s : State) (r : Nat) (w : Word) : (s.receiveData r w).cpu.srr1 = s.cpu.srr1 := by unfold State.receiveData; simp only []; split <;> simp
@[simp] theorem State.receiveData_cpu_dar (s : State) (r : Nat) (w : Word) : (s.receiveData r w).cpu.dar = s.cpu.dar := by unfold State.receiveData; simp only []; split <;> simp
@[simp] theorem State.receiveData_cpu_dsisr (s : State) (r : Nat) (w : Word) : (s.receiveData r w).cpu.dsisr = s.cpu.dsisr := by unfold State.receiveData; simp only []; split <;> simp
@[simp] theorem State.receiveData_spr (s : State) (r : Nat) (w : Word) : (s.receiveData r w).spr = s.spr := by unfold State.receiveData; simp only []; split <;> simp
@[simp] theorem State.receiveData_port_dpsr (s : State) (r : Nat) (w : Word) : (s.receiveData r w).port.dpsr = s.port.dpsr := by unfold State.receiveData; simp only []; split <;> simp
@[simp] theorem State.receiveData_port_tecr (s : State) (r : Nat) (w : Word) : (s.receiveData r w).port.tecr = s.port.tecr := by unfold State.receiveData; simp only []; split <;> simp
@[simp] theorem State.receiveData_port_clockMode (s : State) (r : Nat) (w : Word) : (s.receiveData r w).port.clockMode = s.port.clockMode := by unfold State.receiveData; simp only []; split <;> simp
@[simp] theorem State.receiveData_port_validData (s : State) (r : Nat) (w : Word) : (s.receiveData r w).port.validData = s.port.validData := by unfold State.receiveData; simp only []; split <;> simp
@[simp] theorem State.receiveData_port_seqErrPending (s : State) (r : Nat) (w : Word) : (s.receiveData r w).port.seqErrPending = s.port.seqErrPending := by unfold State.receiveData; simp only []; split <;> simp
@[simp] theorem State.receiveData_port_cpuIntPending (s : State) (r : Nat) (w : Word) : (s.receiveData r w).port.cpuIntPending = s.port.cpuIntPending := by unfold State.receiveData; simp only []; split <;> simp
@[simp] theorem State.receiveData_port_shifted (s : State) (r : Nat) (w : Word) : (s.receiveData r w).port.shifted = s.port.shifted := by unfold State.receiveData; simp only []; split <;> simp
@[simp] theorem State.receiveData_port_suppress (s : State) (r : Nat) (w : Word) : (s.receiveData r w).port.suppress = s.port.suppress := by unfold State.receiveData; simp only []; split <;> simp
@[simp] theorem State.receiveData_port_scanHold (s : State) (r : Nat) (w : Word) : (s.receiveData r w).port.scanHold = s.port.scanHold := by unfold State.receiveData; simp only []; split <;> simp
@[simp] theorem State.receiveData_port_txStatus (s : State) (r : Nat) (w : Word) : (s.receiveData r w).port.txStatus = s.port.txStatus := by unfold State.receiveData; simp only []; split <;> simp
@[simp] theorem State.receiveData_port_txData (s : State) (r : Nat) (w : Word) : (s.receiveData r w).port.txData = s.port.txData := by unfold State.receiveData; simp only []; split <;> simp
@[simp] theorem State.receiveData_dbg (s : State) (r : Nat) (w : Word) : (s.receiveData r w).dbg = s.dbg := by unfold State.receiveData; simp only []; split <;> simp
@[simp] theorem State.receiveData_trace (s : State) (r : Nat) (w : Word) : (s.receiveData r w).trace = s.trace := by unfold State.receiveData; simp only []; split <;> simp
@[simp] theorem State.receiveData_lines (s : State) (r : Nat) (w : Word) : (s.receiveData r w).lines = s.lines := by unfold State.receiveData; simp only []; split <;> simp
@[simp] theorem State.receiveData_inflight (s : State) (r : Nat) (w : Word) : (s.receiveData r w).inflight = s.inflight := by unfold State.receiveData; simp only []; split <;> simp
@[simp] theorem State.receiveData_cycles (s : State) (r : Nat) (w : Word) : (s.receiveData r w).cycles = s.cycles := by unfold State.receiveData; simp only []; split <;> simp
@[simp] theorem State.receiveData_traced (s : State) (r : Nat) (w : Word) : (s.receiveData r w).traced = s.traced := by unfold State.receiveData; simp only []; split <;> simp
@[simp] theorem State.receiveData_countersSettled (s : State) (r : Nat) (w : Word) : (s.receiveData r w).countersSettled = s.countersSettled := by unfold State.receiveData; simp only []; split <;> simp
@[simp] theorem State.receiveData_expired (s : State) (r : Nat) (w : Word) : (s.receiveData r w).expired = s.expired := by unfold State.receiveData; simp only []; split <;> simp
@[simp] theorem State.receiveData_oracle (s : State) (r : Nat) (w : Word) : (s.receiveData r w).oracle = s.oracle := by unfold State.receiveData; simp only []; split <;> simp
@[simp] theorem State.receiveData_faultMap (s : State) (r : Nat) (w : Word) : (s.receiveData r w).faultMap = s.faultMap := by unfold State.receiveData; simp only []; split <;> simp
@[simp] theorem State.receiveData_mem (s : State) (r : Nat) (w : Word) : (s.receiveData r w).mem = s.mem := by unfold State.receiveData; simp only []; split <;> simp
@[simp] theorem State.receiveData_inputs (s : State) (r : Nat) (w : Word) : (s.receiveData r w).inputs = s.inputs := by unfold State.receiveData; simp only []; split <;> simp
@[simp] theorem State.receiveData_out (s : State) (r : Nat) (w : Word) : (s.receiveData r w).out = s.out := by unfold State.receiveData; simp only []; split <;> simp
@[simp] theorem State.receiveData_draws (s : State) (r : Nat) (w : Word) : (s.receiveData r w).draws = s.draws := by unfold State.receiveData; simp only []; split <;> simp

/-! ### clearEcr -/

@[simp] theorem State.clearEcr_cpu (s : State) : (s.clearEcr).cpu = s.cpu := by unfold State.clearEcr; split <;> simp
@[simp] theorem State.clearEcr_spr_cmpa (s : State) : (s.clearEcr).spr.cmpa = s.spr.cmpa := by unfold State.clearEcr; split <;> simp
@[simp] theorem State.clearEcr_spr_cmpb (s : State) : (s.clearEcr).spr.cmpb = s.spr.cmpb := by unfold State.clearEcr; split <;> simp
@[simp] theorem State.clearEcr_spr_cmpc (s : State) : (s.clearEcr).spr.cmpc = s.spr.cmpc := by unfold State.clearEcr; split <;> simp
@[simp] theorem State.clearEcr_spr_cmpd (s : State) : (s.clearEcr).spr.cmpd = s.spr.cmpd := by unfold State.clearEcr; split <;> simp
@[simp] theorem State.clearEcr_spr_cmpe (s : State) : (s.clearEcr).spr.cmpe = s.spr.cmpe := by unfold State.clearEcr; split <;> simp
@[simp] theorem State.clearEcr_spr_cmpf (s : State) : (s.clearEcr).spr.cmpf = s.spr.cmpf := by unfold State.clearEcr; split <;> simp
@[simp] theorem State.clearEcr_spr_cmpg (s : State) : (s.clearEcr).spr.cmpg = s.spr.cmpg := by unfold State.clearEcr; split <;> simp
@[simp] theorem State.clearEcr_spr_cmph (s : State) : (s.clearEcr).spr.cmph = s.spr.cmph := by unfold State.clearEcr; split <;> simp
@[simp] theorem State.clearEcr_spr_ictrl (s : State) : (s.clearEcr).spr.ictrl = s.spr.ictrl := by unfold State.clearEcr; split <;> simp
@[simp] theorem State.clearEcr_spr_lctrl1 (s : State) : (s.clearEcr).spr.lctrl1 = s.spr.lctrl1 := by unfold State.clearEcr; split <;> simp
@[simp] theorem State.clearEcr_spr_lctrl2 (s : State) : (s.clearEcr).spr.lctrl2 = s.spr.lctrl2 := by unfold State.clearEcr; split <;> simp
@[simp] theorem State.clearEcr_spr_counta (s : State) : (s.clearEcr).spr.counta = s.spr.counta := by unfold State.clearEcr; split <;> simp
@[simp] theorem State.clearEcr_spr_countb (s : State) : (s.clearEcr).spr.countb = s.spr.countb := by unfold State.clearEcr; split <;> simp
@[simp] theorem State.clearEcr_spr_der (s : State) : (s.clearEcr).spr.der = s.spr.der := by unfold State.clearEcr; split <;> simp
@[simp] theorem State.clearEcr_spr_bar (s : State) : (s.clearEcr).spr.bar = s.spr.bar := by unfold State.clearEcr; split <;> simp
@[simp] theorem State.clearEcr_port (s : State) : (s.clearEcr).port = s.port := by unfold State.clearEcr; split <;> simp
@[simp] theorem State.clearEcr_dbg (s : State) : (s.clearEcr).dbg = s.dbg := by unfold State.clearEcr; split <;> simp
@[simp] theorem State.clearEcr_trace (s : State) : (s.clearEcr).trace = s.trace := by unfold State.clearEcr; split <;> simp
@[simp] theorem State.clearEcr_lines (s : State) : (s.clearEcr).lines = s.lines := by unfold State.clearEcr; split <;> simp
@[simp] theorem State.clearEcr_ir (s : State) : (s.clearEcr).ir = s.ir := by unfold State.clearEcr; split <;> simp
@[simp] theorem State.clearEcr_inflight (s : State) : (s.clearEcr).inflight = s.inflight := by unfold State.clearEcr; split <;> simp
@[simp] theorem State.clearEcr_cycles (s : State) : (s.clearEcr).cycles = s.cycles := by unfold State.clearEcr; split <;> simp
@[simp] theorem State.clearEcr_outcome (s : State) : (s.clearEcr).outcome = s.outcome := by unfold State.clearEcr; split <;> simp
@[simp] theorem State.clearEcr_traced (s : State) : (s.clearEcr).traced = s.traced := by unfold State.clearEcr; split <;> simp
@[simp] theorem State.clearEcr_countersSettled (s : State) : (s.clearEcr).countersSettled = s.countersSettled := by unfold State.clearEcr; split <;> simp
@[simp] theorem State.clearEcr_expired (s : State) : (s.clearEcr).expired = s.expired := by unfold State.clearEcr; split <;> simp
@[simp] theorem State.clearEcr_oracle (s : State) : (s.clearEcr).oracle = s.oracle := by unfold State.clearEcr; split <;> simp
@[simp] theorem State.clearEcr_faultMap (s : State) : (s.clearEcr).faultMap = s.faultMap := by unfold State.clearEcr; split <;> simp
@[simp] theorem State.clearEcr_mem (s : State) : (s.clearEcr).mem = s.mem := by unfold State.clearEcr; split <;> simp
@[simp] theorem State.clearEcr_inputs (s : State) : (s.clearEcr).inputs = s.inputs := by unfold State.clearEcr; split <;> simp
@[simp] theorem State.clearEcr_out (s : State) : (s.clearEcr).out = s.out := by unfold State.clearEcr; split <;> simp
@[simp] theorem State.clearEcr_draws (s : State) : (s.clearEcr).draws = s.draws := by unfold State.clearEcr; split <;> simp

/-! ### lowEvent -/

@[simp] theorem State.lowEvent_cpu_gpr (s : State) : (s.lowEvent).cpu.gpr = s.cpu.gpr := by unfold State.lowEvent; (repeat' split) <;> simp
@[simp] theorem State.lowEvent_cpu_dar (s : State) : (s.lowEvent).cpu.dar = s.cpu.dar := by unfold State.lowEvent; (repeat' split) <;> simp
@[simp] theorem State.lowEvent_cpu_dsisr (s : State) : (s.lowEvent).cpu.dsisr = s.cpu.dsisr := by unfold State.lowEvent; (repeat' split) <;> simp
@[simp] theorem State.lowEvent_spr_cmpa (s : State) : (s.lowEvent).spr.cmpa = s.spr.cmpa := by unfold State.lowEvent; (repeat' split) <;> simp
@[simp] theorem State.lowEvent_spr_cmpb (s : State) : (s.lowEvent).spr.cmpb = s.spr.cmpb := by unfold State.lowEvent; (repeat' split) <;> simp
@[simp] theorem State.lowEvent_spr_cmpc (s : State) : (s.lowEvent).spr.cmpc = s.spr.cmpc := by unfold State.lowEvent; (repeat' split) <;> simp
@[simp] theorem State.lowEvent_spr_cmpd (s : State) : (s.lowEvent).spr.cmpd = s.spr.cmpd := by unfold State.lowEvent; (repeat' split) <;> simp
@[simp] theorem State.lowEvent_spr_cmpe (s : State) : (s.lowEvent).spr.cmpe = s.spr.cmpe := by unfold State.lowEvent; (repeat' split) <;> simp
@[simp] theorem State.lowEvent_spr_cmpf (s : State) : (s.lowEvent).spr.cmpf = s.spr.cmpf := by unfold State.lowEvent; (repeat' split) <;> simp
@[simp] theorem State.lowEvent_spr_cmpg (s : State) : (s.lowEvent).spr.cmpg = s.spr.cmpg := by unfold State.lowEvent; (repeat' split) <;> simp
@[simp] theorem State.lowEvent_spr_cmph (s : State) : (s.lowEvent).spr.cmph = s.spr.cmph := by unfold State.lowEvent; (repeat' split) <;> simp
@[simp] theorem State.lowEvent_spr_ictrl (s : State) : (s.lowEvent).spr.ictrl = s.spr.ictrl := by unfold State.lowEvent; (repeat' split) <;> simp
@[simp] theorem State.lowEvent_spr_lctrl1 (s : State) : (s.lowEvent).spr.lctrl1 = s.spr.lctrl1 := by unfold State.lowEvent; (repeat' split) <;> simp
@[simp] theorem State.lowEvent_spr_lctrl2 (s : State) : (s.lowEvent).spr.lctrl2 = s.spr.lctrl2 := by unfold State.lowEvent; (repeat' split) <;> simp
@[simp] theorem State.lowEvent_spr_counta (s : State) : (s.lowEvent).spr.counta = s.spr.counta := by unfold State.lowEvent; (repeat' split) <;> simp
@[simp] theorem State.lowEvent_spr_countb (s : State) : (s.lowEvent).spr.countb = s.spr.countb := by unfold State.lowEvent; (repeat' split) <;> simp
@[simp] theorem State.lowEvent_spr_der (s : State) : (s.lowEvent).spr.der = s.spr.der := by unfold State.lowEvent; (repeat' split) <;> simp
@[simp] theorem State.lowEvent_spr_bar (s : State) : (s.lowEvent).spr.bar = s.spr.bar := by unfold State.lowEvent; (repeat' split) <;> simp
@[simp] theorem State.lowEvent_port_dpsr (s : State) : (s.lowEvent).port.dpsr = s.port.dpsr := by unfold State.lowEvent; (repeat' split) <;> simp
@[simp] theorem State.lowEvent_port_tecr (s : State) : (s.lowEvent).port.tecr = s.port.tecr := by unfold State.lowEvent; (repeat' split) <;> simp
@[simp] theorem State.lowEvent_port_clockMode (s : State) : (s.lowEvent).port.clockMode = s.port.clockMode := by unfold State.lowEvent; (repeat' split) <;> simp
@[simp] theorem State.lowEvent_port_downloadInProgress (s : State) : (s.lowEvent).port.downloadInProgress = s.port.downloadInProgress := by unfold State.lowEvent; (repeat' split) <;> simp
@[simp] theorem State.lowEvent_port_endRequested (s : State) : (s.lowEvent).port.endRequested = s.port.endRequested := by unfold State.lowEvent; (repeat' split) <;> simp
@[simp] theorem State.lowEvent_port_validData (s : State) : (s.lowEvent).port.validData = s.port.validData := by unfold State.lowEvent; (repeat' split) <;> simp
@[simp] theorem State.lowEvent_port_seqErrPending (s : State) : (s.lowEvent).port.seqErrPending = s.port.seqErrPending := by unfold State.lowEvent; (repeat' split) <;> simp
@[simp] theorem State.lowEvent_port_shifted (s : State) : (s.lowEvent).port.shifted = s.port.shifted := by unfold State.lowEvent; (repeat' split) <;> simp
@[simp] theorem State.lowEvent_port_suppress (s : State) : (s.lowEvent).port.suppress = s.port.suppress := by unfold State.lowEvent; (repeat' split) <;> simp
@[simp] theorem State.lowEvent_port_scanHold (s : State) : (s.lowEvent).port.scanHold = s.port.scanHold := by unfold State.lowEvent; (repeat' split) <;> simp
@[simp] theorem State.lowEvent_port_txStatus (s : State) : (s.lowEvent).port.txStatus = s.port.txStatus := by unfold State.lowEvent; (repeat' split) <;> simp
@[simp] theorem State.lowEvent_port_txData (s : State) : (s.lowEvent).port.txData = s.port.txData := by unfold State.lowEvent; (repeat' split) <;> simp
@[simp] theorem State.lowEvent_dbg_enable (s : State) : (s.lowEvent).dbg.enable = s.dbg.enable := by unfold State.lowEvent; (repeat' split) <;> simp
@[simp] theorem State.lowEvent_dbg_reservedCommandSeen (s : State) : (s.lowEvent).dbg.reservedCommandSeen = s.dbg.reservedCommandSeen := by unfold State.lowEvent; (repeat' split) <;> simp
@[simp] theorem State.lowEvent_dbg_illegalProgramming (s : State) : (s.lowEvent).dbg.illegalProgramming = s.dbg.illegalProgramming := by unfold State.lowEvent; (repeat' split) <;> simp
@[simp] theorem State.lowEvent_dbg_unalignedSeen (s : State) : (s.lowEvent).dbg.unalignedSeen = s.dbg.unalignedSeen := by unfold State.lowEvent; (repeat' split) <;> simp
@[simp] theorem State.lowEvent_trace_histFlush (s : State) : (s.lowEvent).trace.histFlush = s.trace.histFlush := by unfold State.lowEvent; (repeat' split) <;> simp
@[simp] theorem State.lowEvent_trace_vsyncChanged (s : State) : (s.lowEvent).trace.vsyncChanged = s.trace.vsyncChanged := by unfold State.lowEvent; (repeat' split) <;> simp
@[simp] theorem State.lowEvent_trace_nextVisible (s : State) : (s.lowEvent).trace.nextVisible = s.trace.nextVisible := by unfold State.lowEvent; (repeat' split) <;> simp
@[simp] theorem State.lowEvent_trace_isctActive (s : State) : (s.lowEvent).trace.isctActive = s.trace.isctActive := by unfold State.lowEvent; (repeat' split) <;> simp
@[simp] theorem State.lowEvent_trace_isctHold (s : State) : (s.lowEvent).trace.isctHold = s.trace.isctHold := by unfold State.lowEvent; (repeat' split) <;> simp
@[simp] theorem State.lowEvent_lines_peripheral (s : State) : (s.lowEvent).lines.peripheral = s.lines.peripheral := by unfold State.lowEvent; (repeat' split) <;> simp
@[simp] theorem State.lowEvent_lines_external (s : State) : (s.lowEvent).lines.external = s.lines.external := by unfold State.lowEvent; (repeat' split) <;> simp
@[simp] theorem State.lowEvent_lines_nmi (s : State) : (s.lowEvent).lines.nmi = s.lines.nmi := by unfold State.lowEvent; (repeat' split) <;> simp
@[simp] theorem State.lowEvent_lines_machineCheck (s : State) : (s.lowEvent).lines.machineCheck = s.lines.machineCheck := by unfold State.lowEvent; (repeat' split) <;> simp
@[simp] theorem State.lowEvent_cycles (s : State) : (s.lowEvent).cycles = s.cycles := by unfold State.lowEvent; (repeat' split) <;> simp
@[simp] theorem State.lowEvent_traced (s : State) : (s.lowEvent).traced = s.traced := by unfold State.lowEvent; (repeat' split) <;> simp
@[simp] theorem State.lowEvent_oracle (s : State) : (s.lowEvent).oracle = s.oracle := by unfold State.lowEvent; (repeat' split) <;> simp
@[simp] theorem State.lowEvent_faultMap (s : State) : (s.lowEvent).faultMap = s.faultMap := by unfold State.lowEvent; (repeat' split) <;> simp
@[simp] theorem State.lowEvent_mem (s : State) : (s.lowEvent).mem = s.mem := by unfold State.lowEvent; (repeat' split) <;> simp
@[simp] theorem State.lowEvent_inputs (s : State) : (s.lowEvent).inputs = s.inputs := by unfold State.lowEvent; (repeat' split) <;> simp

/-! ### afterEvents -/

@[simp] theorem State.afterEvents_cpu_gpr (s : State) (b : Bool) (ia : WordAddr) : (s.afterEvents b ia).cpu.gpr = s.cpu.gpr := by unfold State.afterEvents State.traceOr; (repeat' split) <;> simp
@[simp] theorem State.afterEvents_cpu_dar (s : State) (b : Bool) (ia : WordAddr) : (s.afterEvents b ia).cpu.dar = s.cpu.dar := by unfold State.afterEvents State.traceOr; (repeat' split) <;> simp
@[simp] theorem State.afterEvents_cpu_dsisr (s : State) (b : Bool) (ia : WordAddr) : (s.afterEvents b ia).cpu.dsisr = s.cpu.dsisr := by unfold State.afterEvents State.traceOr; (repeat' split) <;> simp
@[simp] theorem State.afterEvents_spr_cmpa (s : State) (b : Bool) (ia : WordAddr) : (s.afterEvents b ia).spr.cmpa = s.spr.cmpa := by unfold State.afterEvents State.traceOr; (repeat' split) <;> simp
@[simp] theorem State.afterEvents_spr_cmpb (s : State) (b : Bool) (ia : WordAddr) : (s.afterEvents b ia).spr.cmpb = s.spr.cmpb := by unfold State.afterEvents State.traceOr; (repeat' split) <;> simp
@[simp] theorem State.afterEvents_spr_cmpc (s : State) (b : Bool) (ia : WordAddr) : (s.afterEvents b ia).spr.cmpc = s.spr.cmpc := by unfold State.afterEvents State.traceOr; (repeat' split) <;> simp
@[simp] theorem State.afterEvents_spr_cmpd (s : State) (b : Bool) (ia : WordAddr) : (s.afterEvents b ia).spr.cmpd = s.spr.cmpd := by unfold State.afterEvents State.traceOr; (repeat' split) <;> simp
@[simp] theorem State.afterEvents_spr_cmpe (s : State) (b : Bool) (ia : WordAddr) : (s.afterEvents b ia).spr.cmpe = s.spr.cmpe := by unfold State.afterEvents State.traceOr; (repeat' split) <;> simp
@[simp] theorem State.afterEvents_spr_cmpf (s : State) (b : Bool) (ia : WordAddr) : (s.afterEvents b ia).spr.cmpf = s.spr.cmpf := by unfold State.afterEvents State.traceOr; (repeat' split) <;> simp
@[simp] theorem State.afterEvents_spr_cmpg (s : State) (b : Bool) (ia : WordAddr) : (s.afterEvents b ia).spr.cmpg = s.spr.cmpg := by unfold State.afterEvents State.traceOr; (repeat' split) <;> simp
@[simp] theorem State.afterEvents_spr_cmph (s : State) (b : Bool) (ia : WordAddr) : (s.afterEvents b ia).spr.cmph = s.spr.cmph := by unfold State.afterEvents State.traceOr; (repeat' split) <;> simp
@[simp] theorem State.afterEvents_spr_ictrl (s : State) (b : Bool) (ia : WordAddr) : (s.afterEvents b ia).spr.ictrl = s.spr.ictrl := by unfold State.afterEvents State.traceOr; (repeat' split) <;> simp
@[simp] theorem State.afterEvents_spr_lctrl1 (s : State) (b : Bool) (ia : WordAddr) : (s.afterEvents b ia).spr.lctrl1 = s.spr.lctrl1 := by unfold State.afterEvents State.traceOr; (repeat' split) <;> simp
@[simp] theorem State.afterEvents_spr_lctrl2 (s : State) (b : Bool) (ia : WordAddr) : (s.afterEvents b ia).spr.lctrl2 = s.spr.lctrl2 := by unfold State.afterEvents State.traceOr; (repeat' split) <;> simp
@[simp] theorem State.afterEvents_spr_counta (s : State) (b : Bool) (ia : WordAddr) : (s.afterEvents b ia).spr.counta = s.spr.counta := by unfold State.afterEvents State.traceOr; (repeat' split) <;> simp
@[simp] theorem State.afterEvents_spr_countb (s : State) (b : Bool) (ia : WordAddr) : (s.afterEvents b ia).spr.countb = s.spr.countb := by unfold State.afterEvents State.traceOr; (repeat' split) <;> simp
@[simp] theorem State.afterEvents_spr_der (s : State) (b : Bool) (ia : WordAddr) : (s.afterEvents b ia).spr.der = s.spr.der := by unfold State.afterEvents State.traceOr; (repeat' split) <;> simp
@[simp] theorem State.afterEvents_spr_bar (s : State) (b : Bool) (ia : WordAddr) : (s.afterEvents b ia).spr.bar = s.spr.bar := by unfold State.afterEvents State.traceOr; (repeat' split) <;> simp
@[simp] theorem State.afterEvents_port_dpsr (s : State) (b : Bool) (ia : WordAddr) : (s.afterEvents b ia).port.dpsr = s.port.dpsr := by unfold State.afterEvents State.traceOr; (repeat' split) <;> simp
@[simp] theorem State.afterEvents_port_tecr (s : State) (b : Bool) (ia : WordAddr) : (s.afterEvents b ia).port.tecr = s.port.tecr := by unfold State.afterEvents State.traceOr; (repeat' split) <;> simp
@[simp] theorem State.afterEvents_port_clockMode (s : State) (b : Bool) (ia : WordAddr) : (s.afterEvents b ia).port.clockMode = s.port.clockMode := by unfold State.afterEvents State.traceOr; (repeat' split) <;> simp
@[simp] theorem State.afterEvents_port_downloadInProgress (s : State) (b : Bool) (ia : WordAddr) : (s.afterEvents b ia).port.downloadInProgress = s.port.downloadInProgress := by unfold State.afterEvents State.traceOr; (repeat' split) <;> simp
@[simp] theorem State.afterEvents_port_endRequested (s : State) (b : Bool) (ia : WordAddr) : (s.afterEvents b ia).port.endRequested = s.port.endRequested := by unfold State.afterEvents State.traceOr; (repeat' split) <;> simp
@[simp] theorem State.afterEvents_port_validData (s : State) (b : Bool) (ia : WordAddr) : (s.afterEvents b ia).port.validData = s.port.validData := by unfold State.afterEvents State.traceOr; (repeat' split) <;> simp
@[simp] theorem State.afterEvents_port_seqErrPending (s : State) (b : Bool) (ia : WordAddr) : (s.afterEvents b ia).port.seqErrPending = s.port.seqErrPending := by unfold State.afterEvents State.traceOr; (repeat' split) <;> simp
@[simp] theorem State.afterEvents_port_shifted (s : State) (b : Bool) (ia : WordAddr) : (s.afterEvents b ia).port.shifted = s.port.shifted := by unfold State.afterEvents State.traceOr; (repeat' split) <;> simp
@[simp] theorem State.afterEvents_port_suppress (s : State) (b : Bool) (ia : WordAddr) : (s.afterEvents b ia).port.suppress = s.port.suppress := by unfold State.afterEvents State.traceOr; (repeat' split) <;> simp
@[simp] theorem State.afterEvents_port_scanHold (s : State) (b : Bool) (ia : WordAddr) : (s.afterEvents b ia).port.scanHold = s.port.scanHold := by unfold State.afterEvents State.traceOr; (repeat' split) <;> simp
@[simp] theorem State.afterEvents_port_txStatus (s : State) (b : Bool) (ia : WordAddr) : (s.afterEvents b ia).port.txStatus = s.port.txStatus := by unfold State.afterEvents State.traceOr; (repeat' split) <;> simp
@[simp] theorem State.afterEvents_port_txData (s : State) (b : Bool) (ia : WordAddr) : (s.afterEvents b ia).port.txData = s.port.txData := by unfold State.afterEvents State.traceOr; (repeat' split) <;> simp
@[simp] theorem State.afterEvents_dbg_enable (s : State) (b : Bool) (ia : WordAddr) : (s.afterEvents b ia).dbg.enable = s.dbg.enable := by unfold State.afterEvents State.traceOr; (repeat' split) <;> simp
@[simp] theorem State.afterEvents_dbg_reservedCommandSeen (s : State) (b : Bool) (ia : WordAddr) : (s.afterEvents b ia).dbg.reservedCommandSeen = s.dbg.reservedCommandSeen := by unfold State.afterEvents State.traceOr; (repeat' split) <;> simp
@[simp] theorem State.afterEvents_dbg_illegalProgramming (s : State) (b : Bool) (ia : WordAddr) : (s.afterEvents b ia).dbg.illegalProgramming = s.dbg.illegalProgramming := by unfold State.afterEvents State.traceOr; (repeat' split) <;> simp
@[simp] theorem State.afterEvents_dbg_unalignedSeen (s : State) (b : Bool) (ia : WordAddr) : (s.afterEvents b ia).dbg.unalignedSeen = s.dbg.unalignedSeen := by unfold State.afterEvents State.traceOr; (repeat' split) <;> simp
@[simp] theorem State.afterEvents_trace_histFlush (s : State) (b : Bool) (ia : WordAddr) : (s.afterEvents b ia).trace.histFlush = s.trace.histFlush := by unfold State.afterEvents State.traceOr; (repeat' split) <;> simp
@[simp] theorem State.afterEvents_trace_vsyncChanged (s : State) (b : Bool) (ia : WordAddr) : (s.afterEvents b ia).trace.vsyncChanged = s.trace.vsyncChanged := by unfold State.afterEvents State.traceOr; (repeat' split) <;> simp
@[simp] theorem State.afterEvents_trace_nextVisible (s : State) (b : Bool) (ia : WordAddr) : (s.afterEvents b ia).trace.nextVisible = s.trace.nextVisible := by unfold State.afterEvents State.traceOr; (repeat' split) <;> simp
@[simp] theorem State.afterEvents_trace_isctActive (s : State) (b : Bool) (ia : WordAddr) : (s.afterEvents b ia).trace.isctActive = s.trace.isctActive := by unfold State.afterEvents State.traceOr; (repeat' split) <;> simp
@[simp] theorem State.afterEvents_trace_isctHold (s : State) (b : Bool) (ia : WordAddr) : (s.afterEvents b ia).trace.isctHold = s.trace.isctHold := by unfold State.afterEvents State.traceOr; (repeat' split) <;> simp
@[simp] theorem State.afterEvents_lines_peripheral (s : State) (b : Bool) (ia : WordAddr) : (s.afterEvents b ia).lines.peripheral = s.lines.peripheral := by unfold State.afterEvents State.traceOr; (repeat' split) <;> simp
@[simp] theorem State.afterEvents_lines_external (s : State) (b : Bool) (ia : WordAddr) : (s.afterEvents b ia).lines.external = s.lines.external := by unfold State.afterEvents State.traceOr; (repeat' split) <;> simp
@[simp] theorem State.afterEvents_lines_nmi (s : State) (b : Bool) (ia : WordAddr) : (s.afterEvents b ia).lines.nmi = s.lines.nmi := by unfold State.afterEvents State.traceOr; (repeat' split) <;> simp
@[simp] theorem State.afterEvents_lines_machineCheck (s : State) (b : Bool) (ia : WordAddr) : (s.afterEvents b ia).lines.machineCheck = s.lines.machineCheck := by unfold State.afterEvents State.traceOr; (repeat' split) <;> simp
@[simp] theorem State.afterEvents_cycles (s : State) (b : Bool) (ia : WordAddr) : (s.afterEvents b ia).cycles = s.cycles := by unfold State.afterEvents State.traceOr; (repeat' split) <;> simp
@[simp] theorem State.afterEvents_oracle (s : State) (b : Bool) (ia : WordAddr) : (s.afterEvents b ia).oracle = s.oracle := by unfold State.afterEvents State.traceOr; (repeat' split) <;> simp
@[simp] theorem State.afterEvents_faultMap (s : State) (b : Bool) (ia : WordAddr) : (s.afterEvents b ia).faultMap = s.faultMap := by unfold State.afterEvents State.traceOr; (repeat' split) <;> simp
@[simp] theorem State.afterEvents_mem (s : State) (b : Bool) (ia : WordAddr) : (s.afterEvents b ia).mem = s.mem := by unfold State.afterEvents State.traceOr; (repeat' split) <;> simp
@[simp] theorem State.afterEvents_inputs (s : State) (b : Bool) (ia : WordAddr) : (s.afterEvents b ia).inputs = s.inputs := by unfold State.afterEvents State.traceOr; (repeat' split) <;> simp

/-! ### debugEvents -/

@[simp] theorem State.debugEvents_cpu_gpr (s : State) : (s.debugEvents).cpu.gpr = s.cpu.gpr := by unfold State.debugEvents; (repeat' split) <;> simp
@[simp] theorem State.debugEvents_cpu_dar (s : State) : (s.debugEvents).cpu.dar = s.cpu.dar := by unfold State.debugEvents; (repeat' split) <;> simp
@[simp] theorem State.debugEvents_cpu_dsisr (s : State) : (s.debugEvents).cpu.dsisr = s.cpu.dsisr := by unfold State.debugEvents; (repeat' split) <;> simp
@[simp] theorem State.debugEvents_spr_cmpa (s : State) : (s.debugEvents).spr.cmpa = s.spr.cmpa := by unfold State.debugEvents; (repeat' split) <;> simp
@[simp] theorem State.debugEvents_spr_cmpb (s : State) : (s.debugEvents).spr.cmpb = s.spr.cmpb := by unfold State.debugEvents; (repeat' split) <;> simp
@[simp] theorem State.debugEvents_spr_cmpc (s : State) : (s.debugEvents).spr.cmpc = s.spr.cmpc := by unfold State.debugEvents; (repeat' split) <;> simp
@[simp] theorem State.debugEvents_spr_cmpd (s : State) : (s.debugEvents).spr.cmpd = s.spr.cmpd := by unfold State.debugEvents; (repeat' split) <;> simp
@[simp] theorem State.debugEvents_spr_cmpe (s : State) : (s.debugEvents).spr.cmpe = s.spr.cmpe := by unfold State.debugEvents; (repeat' split) <;> simp
@[simp] theorem State.debugEvents_spr_cmpf (s : State) : (s.debugEvents).spr.cmpf = s.spr.cmpf := by unfold State.debugEvents; (repeat' split) <;> simp
@[simp] theorem State.debugEvents_spr_cmpg (s : State) : (s.debugEvents).spr.cmpg = s.spr.cmpg := by unfold State.debugEvents; (repeat' split) <;> simp
@[simp] theorem State.debugEvents_spr_cmph (s : State) : (s.debugEvents).spr.cmph = s.spr.cmph := by unfold State.debugEvents; (repeat' split) <;> simp
@[simp] theorem State.debugEvents_spr_ictrl (s : State) : (s.debugEvents).spr.ictrl = s.spr.ictrl := by unfold State.debugEvents; (repeat' split) <;> simp
@[simp] theorem State.debugEvents_spr_lctrl1 (s : State) : (s.debugEvents).spr.lctrl1 = s.spr.lctrl1 := by unfold State.debugEvents; (repeat' split) <;> simp
@[simp] theorem State.debugEvents_spr_lctrl2 (s : State) : (s.debugEvents).spr.lctrl2 = s.spr.lctrl2 := by unfold State.debugEvents; (repeat' split) <;> simp
@[simp] theorem State.debugEvents_spr_counta (s : State) : (s.debugEvents).spr.counta = s.spr.counta := by unfold State.debugEvents; (repeat' split) <;> simp
@[simp] theorem State.debugEvents_spr_countb (s : State) : (s.debugEvents).spr.countb = s.spr.countb := by unfold State.debugEvents; (repeat' split) <;> simp
@[simp] theorem State.debugEvents_spr_der (s : State) : (s.debugEvents).spr.der = s.spr.der := by unfold State.debugEvents; (repeat' split) <;> simp
@[simp] theorem State.debugEvents_spr_bar (s : State) : (s.debugEvents).spr.bar = s.spr.bar := by unfold State.debugEvents; (repeat' split) <;> simp
@[simp] theorem State.debugEvents_port_dpsr (s : State) : (s.debugEvents).port.dpsr = s.port.dpsr := by unfold State.debugEvents; (repeat' split) <;> simp
@[simp] theorem State.debugEvents_port_tecr (s : State) : (s.debugEvents).port.tecr = s.port.tecr := by unfold State.debugEvents; (repeat' split) <;> simp
@[simp] theorem State.debugEvents_port_clockMode (s : State) : (s.debugEvents).port.clockMode = s.port.clockMode := by unfold State.debugEvents; (repeat' split) <;> simp
@[simp] theorem State.debugEvents_port_downloadInProgress (s : State) : (s.debugEvents).port.downloadInProgress = s.port.downloadInProgress := by unfold State.debugEvents; (repeat' split) <;> simp
@[simp] theorem State.debugEvents_port_endRequested (s : State) : (s.debugEvents).port.endRequested = s.port.endRequested := by unfold State.debugEvents; (repeat' split) <;> simp
@[simp] theorem State.debugEvents_port_validData (s : State) : (s.debugEvents).port.validData = s.port.validData := by unfold State.debugEvents; (repeat' split) <;> simp
@[simp] theorem State.debugEvents_port_seqErrPending (s : State) : (s.debugEvents).port.seqErrPending = s.port.seqErrPending := by unfold State.debugEvents; (repeat' split) <;> simp
@[simp] theorem State.debugEvents_port_shifted (s : State) : (s.debugEvents).port.shifted = s.port.shifted := by unfold State.debugEvents; (repeat' split) <;> simp
@[simp] theorem State.debugEvents_port_suppress (s : State) : (s.debugEvents).port.suppress = s.port.suppress := by unfold State.debugEvents; (repeat' split) <;> simp
@[simp] theorem State.debugEvents_port_scanHold (s : State) : (s.debugEvents).port.scanHold = s.port.scanHold := by unfold State.debugEvents; (repeat' split) <;> simp
@[simp] theorem State.debugEvents_port_txStatus (s : State) : (s.debugEvents).port.txStatus = s.port.txStatus := by unfold State.debugEvents; (repeat' split) <;> simp
@[simp] theorem State.debugEvents_port_txData (s : State) : (s.debugEvents).port.txData = s.port.txData := by unfold State.debugEvents; (repeat' split) <;> simp
@[simp] theorem State.debugEvents_dbg_enable (s : State) : (s.debugEvents).dbg.enable = s.dbg.enable := by unfold State.debugEvents; (repeat' split) <;> simp
@[simp] theorem State.debugEvents_dbg_reservedCommandSeen (s : State) : (s.debugEvents).dbg.reservedCommandSeen = s.dbg.reservedCommandSeen := by unfold State.debugEvents; (repeat' split) <;> simp
@[simp] theorem State.debugEvents_dbg_illegalProgramming (s : State) : (s.debugEvents).dbg.illegalProgramming = s.dbg.illegalProgramming := by unfold State.debugEvents; (repeat' split) <;> simp
@[simp] theorem State.debugEvents_dbg_unalignedSeen (s : State) : (s.debugEvents).dbg.unalignedSeen = s.dbg.unalignedSeen := by unfold State.debugEvents; (repeat' split) <;> simp
@[simp] theorem State.debugEvents_trace_histFlush (s : State) : (s.debugEvents).trace.histFlush = s.trace.histFlush := by unfold State.debugEvents; (repeat' split) <;> simp
@[simp] theorem State.debugEvents_trace_vsyncChanged (s : State) : (s.debugEvents).trace.vsyncChanged = s.trace.vsyncChanged := by unfold State.debugEvents; (repeat' split) <;> simp
@[simp] theorem State.debugEvents_trace_nextVisible (s : State) : (s.debugEvents).trace.nextVisible = s.trace.nextVisible := by unfold State.debugEvents; (repeat' split) <;> simp
@[simp] theorem State.debugEvents_trace_isctActive (s : State) : (s.debugEvents).trace.isctActive = s.trace.isctActive := by unfold State.debugEvents; (repeat' split) <;> simp
@[simp] theorem State.debugEvents_trace_isctHold (s : State) : (s.debugEvents).trace.isctHold = s.trace.isctHold := by unfold State.debugEvents; (repeat' split) <;> simp
@[simp] theorem State.debugEvents_lines_peripheral (s : State) : (s.debugEvents).lines.peripheral = s.lines.peripheral := by unfold State.debugEvents; (repeat' split) <;> simp
@[simp] theorem State.debugEvents_lines_external (s : State) : (s.debugEvents).lines.external = s.lines.external := by unfold State.debugEvents; (repeat' split) <;> simp
@[simp] theorem State.debugEvents_cycles (s : State) : (s.debugEvents).cycles = s.cycles := by unfold State.debugEvents; (repeat' split) <;> simp
@[simp] theorem State.debugEvents_traced (s : State) : (s.debugEvents).traced = s.traced := by unfold State.debugEvents; (repeat' split) <;> simp
@[simp] theorem State.debugEvents_oracle (s : State) : (s.debugEvents).oracle = s.oracle := by unfold State.debugEvents; (repeat' split) <;> simp
@[simp] theorem State.debugEvents_faultMap (s : State) : (s.debugEvents).faultMap = s.faultMap := by unfold State.debugEvents; (repeat' split) <;> simp
@[simp] theorem State.debugEvents_mem (s : State) : (s.debugEvents).mem = s.mem := by unfold State.debugEvents; (repeat' split) <;> simp
@[simp] theorem State.debugEvents_inputs (s : State) : (s.debugEvents).inputs = s.inputs := by unfold State.debugEvents; (repeat' split) <;> simp

/-! ### endDelivered -/

@[simp] theorem State.endDelivered_cpu (s : State) : (s.endDelivered).cpu = s.cpu := rfl
@[simp] theorem State.endDelivered_spr (s : State) : (s.endDelivered).spr = s.spr := rfl
@[simp] theorem State.endDelivered_port (s : State) : (s.endDelivered).port = s.port := rfl
@[simp] theorem State.endDelivered_dbg (s : State) : (s.endDelivered).dbg = s.dbg := rfl
@[simp] theorem State.endDelivered_trace (s : State) : (s.endDelivered).trace = s.trace := rfl
@[simp] theorem State.endDelivered_lines (s : State) : (s.endDelivered).lines = s.lines := rfl
@[simp] theorem State.endDelivered_ir (s : State) : (s.endDelivered).ir = s.ir := rfl
@[simp] theorem State.endDelivered_inflight (s : State) : (s.endDelivered).inflight = s.inflight := rfl
@[simp] theorem State.endDelivered_cycles (s : State) : (s.endDelivered).cycles = s.cycles := rfl
@[simp] theorem State.endDelivered_outcome (s : State) : (s.endDelivered).outcome = s.outcome := rfl
@[simp] theorem State.endDelivered_countersSettled (s : State) : (s.endDelivered).countersSettled = s.countersSettled := rfl
@[simp] theorem State.endDelivered_expired (s : State) : (s.endDelivered).expired = s.expired := rfl
@[simp] theorem State.endDelivered_oracle (s : State) : (s.endDelivered).oracle = s.oracle := rfl
@[simp] theorem State.endDelivered_faultMap (s : State) : (s.endDelivered).faultMap = s.faultMap := rfl
@[simp] theorem State.endDelivered_mem (s : State) : (s.endDelivered).mem = s.mem := rfl
@[simp] theorem State.endDelivered_inputs (s : State) : (s.endDelivered).inputs = s.inputs := rfl
@[simp] theorem State.endDelivered_out (s : State) : (s.endDelivered).out = s.out := rfl
@[simp] theorem State.endDelivered_draws (s : State) : (s.endDelivered).draws = s.draws := rfl

end Sys2Proof.Machine
end

