-- ==== Sys2Proof/Laws/Operations.lean ====
section
/-! SUPPORT. One lemma for each shared operation that says once what it can do: completing an instruction and starting the next
fetch, the register access rules, a clock of the status pins, taking an event, leaving debug mode, and the store with update.
Proofs cite these and do not unfold the operations. -/

namespace Sys2Proof.Machine

/-! ## General registers -/

/-- A register reads what was written to it. -/
@[simp] theorem State.reg_setReg_self (s : State) (n : Nat) (v : Word) (h : n < 32) : (s.setReg n v).reg n = v := by
  simp [State.reg, State.setReg, h]

/-- Every other register reads as before. -/
theorem State.reg_setReg_of_ne (s : State) (n k : Nat) (v : Word) (h : k ≠ n) : (s.setReg n v).reg k = s.reg k := by
  simp [State.reg, State.setReg, Ne.symm h]

/-- Registers are a part of the CPU context. -/
theorem State.reg_congr {s t : State} (h : t.cpu.gpr = s.cpu.gpr) (n : Nat) : t.reg n = s.reg n := by
  simp [State.reg, h]

/-! ## Completing an instruction -/

/-- Equal kept parts: the other fields of the machine. -/
theorem State.kept_fields {s t : State} (h : t.kept = s.kept) :
    t.spr = s.spr ∧ t.dbg = s.dbg ∧ t.lines = s.lines ∧ t.inflight = s.inflight ∧ t.cycles = s.cycles ∧
      t.oracle = s.oracle ∧ t.faultMap = s.faultMap ∧ t.mem = s.mem ∧ t.inputs = s.inputs ∧ t.out = s.out ∧
      t.traced = s.traced ∧
      t.cpu.gpr = s.cpu.gpr ∧ t.cpu.msr = s.cpu.msr ∧ t.cpu.srr0 = s.cpu.srr0 ∧ t.cpu.srr1 = s.cpu.srr1 := by
  obtain ⟨cpu, spr, port, dbg, tr, lines, ir, fl, cy, oc, td, cs, orc, fm, mem, inp, out, dr⟩ := s
  obtain ⟨cpu', spr', port', dbg', tr', lines', ir', fl', cy', oc', td', cs', orc', fm', mem', inp', out', dr'⟩ := t
  simp only [State.kept, State.mk.injEq, Cpu.mk.injEq] at h
  simp_all

/-- Delivering a word changes nothing that `kept` holds. -/
@[simp] theorem State.kept_deliver (s : State) (w : Word) : (s.deliver w).kept = s.kept := rfl

/-- Starting the next fetch changes nothing that `kept` holds (rules R372, R388). -/
@[simp] theorem State.kept_startFetch (s : State) : s.startFetch.kept = s.kept := by
  unfold State.startFetch
  split
  · rw [State.kept_deliver]; rfl
  · rfl

/-- What a started fetch looks like: the port has answered with the next word of the loop, or the CPU waits (R372, R388). -/
theorem State.startFetch_cases (s : State) :
    (s.port.downloadInProgress = true ∧ s.startFetch.port.cpuWaiting = .none ∧
        s.startFetch.port.downloadStore = !s.port.downloadStore ∧
        s.startFetch.ir = some (if s.port.downloadStore then 0x97FE0004 else 0x7FF69AA6)) ∨
      (s.port.downloadInProgress = false ∧ s.startFetch = { s with port := { s.port with cpuWaiting := .instruction } }) := by
  unfold State.startFetch
  cases h : s.port.downloadInProgress
  · exact Or.inr ⟨rfl, by simp⟩
  · refine Or.inl ⟨rfl, ?_⟩
    exact ⟨rfl, rfl, rfl⟩

/-- After `startFetch` in debug mode the next fetch has started. -/
theorem State.fetching_startFetch (s : State) : s.startFetch.fetching := by
  intro _
  rcases s.startFetch_cases with ⟨h, h1, _, h3⟩ | ⟨h, h1⟩
  · have : s.startFetch.port.downloadInProgress = s.port.downloadInProgress := by simp
    rw [this, h, if_pos rfl]
    refine ⟨h1, ?_⟩
    rw [h3]
    cases s.port.downloadStore <;> simp
  · rw [h1]; simp [h]

/-- Completing an instruction changes nothing that `kept` holds. -/
@[simp] theorem State.kept_finish (s : State) (t : VfType) (f : Flow) : (s.finish t f).kept = s.kept := by
  unfold State.finish
  split
  · rw [State.kept_startFetch]; rfl
  · rfl

@[simp] theorem State.kept_complete (s : State) (t : VfType) (f : Flow) : (s.complete t f).kept = s.kept := by
  unfold State.complete
  rw [State.kept_finish]
  split <;> rfl

@[simp] theorem State.kept_completeMarked (s : State) : s.completeMarked.kept = s.kept := by
  unfold State.completeMarked
  split <;> (rw [State.kept_complete]; rfl)

@[simp] theorem State.kept_completePlain (s : State) : s.completePlain.kept = s.kept := State.kept_complete s _ _

/-- The pc after `finish` is the pc before. -/
@[simp] theorem State.finish_pc (s : State) (t : VfType) (f : Flow) : (s.finish t f).cpu.pc = s.cpu.pc := by
  unfold State.finish; split <;> simp

/-- `nextPc` depends on the mode and the pc only. -/
theorem State.nextPc_congr {s t : State} (hd : t.dbg.inDebug = s.dbg.inDebug) (hp : t.cpu.pc = s.cpu.pc) :
    t.nextPc = s.nextPc := by
  simp only [State.nextPc, hd, hp]

/-- The pc after an instruction that is not a branch (rule R92). -/
@[simp] theorem State.complete_pc (s : State) (t : VfType) (f : Flow) : (s.complete t f).cpu.pc = s.nextPc := by
  unfold State.complete State.nextPc
  split <;> simp

@[simp] theorem State.completeMarked_pc (s : State) : s.completeMarked.cpu.pc = s.nextPc := by
  unfold State.completeMarked
  split <;> (rw [State.complete_pc]; rfl)

@[simp] theorem State.completePlain_pc (s : State) : s.completePlain.cpu.pc = s.nextPc := State.complete_pc s _ _

theorem State.fetching_finish (s : State) (t : VfType) (f : Flow) : (s.finish t f).fetching := by
  unfold State.finish
  split
  · exact State.fetching_startFetch _
  · rename_i h
    intro hd
    exact absurd hd h

theorem State.fetching_complete (s : State) (t : VfType) (f : Flow) : (s.complete t f).fetching := State.fetching_finish _ t f

theorem State.fetching_completeMarked (s : State) : s.completeMarked.fetching := by
  unfold State.completeMarked
  split <;> exact State.fetching_complete _ _ _

/-- Outside debug mode completing an instruction queues its type and fixes the class of the next fetch (rules R170, R171). -/
theorem State.complete_running (s : State) (t : VfType) (f : Flow) (h : s.dbg.inDebug = false) :
    s.complete t f = { s with
      cpu := { s.cpu with pc := s.cpu.pc + 4 }
      outcome := .completed
      countersSettled := false
      trace := { s.trace with pending := s.trace.pending ++ [t], nextFlow := f } } := by
  simp [State.complete, State.finish, h]

/-! ## Register accesses -/

/-- A read in supervisor state (rule R433). -/
theorem State.readSpr_supervisor (s : State) (rD : Nat) (v : Word) (g : State → State) (h : s.supervisor = true) :
    s.readSpr rD v g = (g (s.setReg rD v)).complete .sequential .sequential := by
  simp [State.readSpr, h]

/-- A read in user state (rule R431). -/
theorem State.readSpr_user (s : State) (rD : Nat) (v : Word) (g : State → State) (h : s.supervisor = false) :
    s.readSpr rD v g = s.programException := by
  simp [State.readSpr, h]

/-- A write where writes are enabled (rule R432). -/
theorem State.writeSpr_enabled (s : State) (rS : Nat) (w : State → Word → State) (d : State → State)
    (h : s.supervisor = true) (he : s.dbg.enable = false ∨ s.dbg.inDebug = true) :
    s.writeSpr rS w d = d (w s (s.reg rS)) := by
  rcases he with he | he <;> simp [State.writeSpr, State.writeEnabled, h, he]

/-- A write that is not performed (rule R432, third row). -/
theorem State.writeSpr_disabled (s : State) (rS : Nat) (w : State → Word → State) (d : State → State)
    (h : s.supervisor = true) (he : s.dbg.enable = true) (hd : s.dbg.inDebug = false) : s.writeSpr rS w d = d s := by
  simp [State.writeSpr, State.writeEnabled, h, he, hd]

/-- A write in user state (rule R431). -/
theorem State.writeSpr_user (s : State) (rS : Nat) (w : State → Word → State) (d : State → State) (h : s.supervisor = false) :
    s.writeSpr rS w d = s.programException := by
  simp [State.writeSpr, h]

/-! ## The port and the counters -/

/-- While idle DSDO is the ready bit (rules R370, R371). -/
theorem State.dsdo_idle (s : State) (h : s.port.shifted = 0) : s.dsdo = !s.ready := by
  simp only [State.dsdo, State.shiftRegister, h, if_true]
  exact BitVec.msb_append.trans (by simp)

/-- During a transmission DSDO is the most significant bit of what the register holds (rule R40). -/
theorem State.dsdo_shifting (s : State) (h : s.port.shifted ≠ 0) : s.dsdo = s.port.dpsr.msb := by
  simp [State.dsdo, State.shiftRegister, h]

/-- What a read of a counter delivers: its value, or a free count where the counter is active and nothing makes the read exact (rules
R107, R262, R263, U8). -/
theorem State.counterRead_cases (s : State) (count : Word) (expired : Bool) :
    s.counterRead count expired = countWord (cntv count) (cntc count) ∨
      (counterActive count = true ∧ s.countersSettled = false ∧ expired = false ∧
        s.counterRead count expired = countWord (Config.freeCount s.draws) (cntc count)) := by
  unfold State.counterRead
  split <;> simp_all

/-! ## The status pins -/

/-- What a clock of the status pins can do (rules R174, R176 to R178, R181): hold 000 in debug mode, place the VSYNC report, report a
type, counted if it is one of the last two before a stop (R187), or report a flush count. -/
theorem State.clock_cases (s u : State) (r : ClockReport) (q : Fin 6) (h : Fin 3)
    (hu : u = { s with trace := { s.trace with histFlush := BitVec.ofNat 2 h.val } }) :
    (s.dbg.inDebug = true ∧ s.clock r q h = u.reportVf 0b000 .type) ∨
      (s.dbg.inDebug = false ∧ s.trace.prevKind = .type ∧ s.vsyncReportDue = true ∧ s.trace.vf.toNat ≤ 2 ∧
        s.clock r q h = u.reportVsync) ∨
      (s.dbg.inDebug = false ∧ ∃ (t : VfType) (rest : List VfType), s.clockType r = (t, rest) ∧
        (s.trace.prevKind = .type ∨ t = .notTakenFlush) ∧ s.clock r q h = u.reportClock r t rest) ∨
      (s.dbg.inDebug = false ∧ s.trace.prevKind = .flush ∧ ∃ (t : VfType) (rest : List VfType), s.clockType r = (t, rest) ∧
        s.clock r q h =
          State.reportVf { u with trace := { u.trace with pending := s.waitingTypes r t rest } } (BitVec.ofNat 3 q.val) .type) := by
  subst hu
  cases hd : s.dbg.inDebug with
  | true => exact Or.inl ⟨rfl, by simp only [State.clock, hd, if_true]⟩
  | false =>
    simp only [State.clock, hd, Bool.false_eq_true, if_false]
    cases hk : s.trace.prevKind with
    | type =>
      simp only []
      split
      · rename_i hc
        simp only [Bool.and_eq_true, decide_eq_true_eq] at hc
        exact Or.inr (Or.inl ⟨trivial, trivial, hc.1.2, hc.2, rfl⟩)
      · exact Or.inr (Or.inr (Or.inl ⟨trivial, _, _, rfl, Or.inl trivial, rfl⟩))
    | flush =>
      simp only []
      split
      · rename_i hc
        exact Or.inr (Or.inr (Or.inl ⟨trivial, _, _, rfl, Or.inr hc, rfl⟩))
      · exact Or.inr (Or.inr (Or.inr ⟨trivial, trivial, _, _, rfl, rfl⟩))

/-- Before the last two reports a clock reports the oldest type exactly; one of those two replaces it by any value (rule R187, U11). -/
theorem State.clockType_pending (s : State) (t u : VfType) (rest : List VfType) (hc : s.windowClosed = false)
    (hp : s.trace.pending = t :: rest) : s.clockType .next = (t, rest) ∧ s.clockType (.last u) = (u, rest) := by
  simp [State.clockType, hc, hp]

/-- After the last two reports no type is reported and none is lost: what waits, waits for the stop (rule R187, U11). -/
theorem State.clockType_windowClosed (s : State) (r : ClockReport) (hc : s.windowClosed = true) :
    s.clockType r = (.none, s.trace.pending) ∧ s.waitingTypes r .none s.trace.pending = s.trace.pending := by
  cases r <;> simp [State.clockType, State.waitingTypes, hc]

/-- A type reported as one of the last two is counted, and so is every type reported after the first of them (rule R187, U11). -/
theorem State.lastReportsAfter_eq (s : State) (r : ClockReport) (t : VfType) (rest : List VfType)
    (hr : (∃ u, r = .last u) ∨ s.trace.lastReports ≠ 0) (ht : t ≠ .none ∨ rest ≠ s.trace.pending) :
    s.lastReportsAfter r t rest = s.trace.lastReports + 1 := by
  cases r <;> simp_all [State.lastReportsAfter]

/-! ## Events -/

/-- The mask of an event selects its bit. -/
theorem and_eventMask_ne_zero (w : Word) (e : Event) : (w &&& eventMask e) ≠ 0 ↔ bitOf w (eventBit e) = true := by
  have key : ∀ n : Nat, n < 32 → ((w &&& BitVec.twoPow 32 (31 - n)) ≠ 0 ↔ w.getMsbD n = true) := by
    intro n hn
    have : w.getMsbD n = w.getLsbD (31 - n) := by
      rw [BitVec.getMsbD_eq_getLsbD]; simp [hn]
    rw [this, BitVec.and_twoPow]
    cases w.getLsbD (31 - n)
    · simp
    · have hlt : 2 ^ (31 - n) < 2 ^ 32 := Nat.pow_lt_pow_right (by omega) (by omega)
      have hpos : 0 < 2 ^ (31 - n) := Nat.two_pow_pos _
      simp [← BitVec.toNat_inj, BitVec.toNat_twoPow]
      omega
  have hb : eventBit e < 32 := by cases e <;> decide
  simpa [eventMask, bitMask, bitOf] using key _ hb

/-- Taking an event inside debug mode records it and pulses ECR_OR; nothing else but freeze and `outcome` is touched (R315). -/
theorem State.takeEvent_inDebug (s : State) (e : Event) (a : Word) (x : Srr1) (h : s.dbg.inDebug = true) :
    s.takeEvent e a x =
      { s with
        spr := { s.spr with ecr := s.spr.ecr ||| eventMask e }
        port := { s.port with cpuIntPending := true }
        dbg := { s.dbg with freeze := true, nonRestartable := s.dbg.nonRestartable }
        out := s.out ++ [.ecrOr]
        outcome := .excepted } := by
  simp [State.takeEvent, h, State.recordEvent, State.pulseEcrOr, State.emit, State.updateFreeze]

/-- The freeze latch after the level-sensitive set (rule R324): nothing else changes. -/
theorem State.updateFreeze_eq (s : State) :
    s.updateFreeze = { s with dbg := { s.dbg with freeze := s.dbg.freeze || s.enabledEvent || s.dbg.inDebug } } := by
  unfold State.updateFreeze
  cases h : s.enabledEvent <;> cases h' : s.dbg.inDebug <;> simp

/-- Debug mode entry (rule R306): the fields it fixes. -/
theorem State.enterDebug_spec (s : State) (a : Word) (x : Srr1) :
    (s.enterDebug a x).dbg = { s.dbg with inDebug := true, freeze := true } ∧
      (s.enterDebug a x).cpu.srr0 = a ∧ (s.enterDebug a x).cpu.srr1 = x ∧
      (s.enterDebug a x).cpu.msr.pr = false ∧ (s.enterDebug a x).cpu.msr.ee = false ∧
      (s.enterDebug a x).trace.vf = 0 ∧ (s.enterDebug a x).trace.prevKind = .type ∧ (s.enterDebug a x).fetching ∧
      (s.enterDebug a x).inflight = [] := by
  refine ⟨?_, ?_, ?_, ?_, ?_, ?_, ?_, State.fetching_startFetch _, ?_⟩
  all_goals
    unfold State.enterDebug
    simp [State.reportVf, State.cancelFlight, State.dropFlight]

/-- Leaving debug mode (rules R320, R325, R179): the fields it fixes. -/
theorem State.leaveDebug_spec (s : State) :
    s.leaveDebug.dbg = { s.dbg with inDebug := false, freeze := s.enabledEvent } ∧
      s.leaveDebug.port = { s.port with cpuWaiting := .none } ∧ s.leaveDebug.inflight = [] ∧
      s.leaveDebug.out = s.out ++ [.vf (if s.trace.vsyncChanged then 0b011 else 0b101)] ∧
      s.leaveDebug.trace.vsyncChanged = false ∧ s.leaveDebug.trace.nextFlow = .indirect ∧
      s.leaveDebug.trace.nextVisible = true ∧ s.leaveDebug.trace.histFlush.toNat ≤ 2 := by
  have h : (BitVec.ofNat 2 ((Config.freeCount s.draws).toNat % 3)).toNat ≤ 2 := by
    simp only [BitVec.toNat_ofNat]; omega
  unfold State.leaveDebug
  cases hv : s.trace.vsyncChanged <;> exact ⟨by simp [hv], by simp [hv], by simp [hv], by simp [hv, State.reportVf], rfl, rfl, rfl, by simpa [hv] using h⟩

/-- What routing an event can do outside debug mode (rules R303, R312, R484). -/
theorem State.routeEvent_cases (s : State) (e : Event) (a : Word) (x : Srr1) :
    (s.dbg.enable = true ∧ bitOf s.spr.der (eventBit e) = true ∧ s.routeEvent e a x = s.enterDebug a x) ∨
      ((s.dbg.enable = false ∨ bitOf s.spr.der (eventBit e) = false) ∧ e = .checkStop ∧
        s.routeEvent e a x = s.enterCheckStop) ∨
      ((s.dbg.enable = false ∨ bitOf s.spr.der (eventBit e) = false) ∧ e ≠ .checkStop ∧
        s.routeEvent e a x = s.regularEntry e a x) := by
  unfold State.routeEvent
  have hm := and_eventMask_ne_zero s.spr.der e
  cases h1 : s.dbg.enable <;> cases h2 : bitOf s.spr.der (eventBit e) <;> simp_all [bne_iff_ne] <;>
    by_cases he : e = .checkStop <;> simp_all

/-- The machine with an event recorded and not yet routed (rules R481, R497). -/
def State.noted (s : State) (e : Event) : State :=
  { s with
    spr := { s.spr with ecr := s.spr.ecr ||| eventMask e }
    outcome := .excepted
    dbg :=
      { s.dbg with
        nonRestartable := s.dbg.nonRestartable || (!s.dbg.inDebug && !s.cpu.msr.ri && nonRestartableEvent e) } }

@[simp] theorem State.noted_spr (s : State) (e : Event) :
    (s.noted e).spr = { s.spr with ecr := s.spr.ecr ||| eventMask e } := rfl
@[simp] theorem State.noted_cpu (s : State) (e : Event) : (s.noted e).cpu = s.cpu := rfl
@[simp] theorem State.noted_trace (s : State) (e : Event) : (s.noted e).trace = s.trace := rfl
@[simp] theorem State.noted_mem (s : State) (e : Event) : (s.noted e).mem = s.mem := rfl
@[simp] theorem State.noted_port (s : State) (e : Event) : (s.noted e).port = s.port := rfl
@[simp] theorem State.noted_ir (s : State) (e : Event) : (s.noted e).ir = s.ir := rfl
@[simp] theorem State.noted_out (s : State) (e : Event) : (s.noted e).out = s.out := rfl
@[simp] theorem State.noted_dbg_inDebug (s : State) (e : Event) : (s.noted e).dbg.inDebug = s.dbg.inDebug := rfl
@[simp] theorem State.noted_dbg_enable (s : State) (e : Event) : (s.noted e).dbg.enable = s.dbg.enable := rfl
@[simp] theorem State.noted_dbg_freeze (s : State) (e : Event) : (s.noted e).dbg.freeze = s.dbg.freeze := rfl
@[simp] theorem State.noted_dbg_checkStop (s : State) (e : Event) : (s.noted e).dbg.checkStop = s.dbg.checkStop := rfl

/-- What taking an event outside debug mode can do (rules R303, R312, R324, R484). -/
theorem State.takeEvent_cases (s : State) (e : Event) (a : Word) (x : Srr1) (hd : s.dbg.inDebug = false) :
    (s.dbg.enable = true ∧ bitOf s.spr.der (eventBit e) = true ∧ s.takeEvent e a x = (s.noted e).enterDebug a x) ∨
      ((s.dbg.enable = false ∨ bitOf s.spr.der (eventBit e) = false) ∧ e = .checkStop ∧
        s.takeEvent e a x = (s.noted e).enterCheckStop.updateFreeze) ∨
      ((s.dbg.enable = false ∨ bitOf s.spr.der (eventBit e) = false) ∧ e ≠ .checkStop ∧
        s.takeEvent e a x = ((s.noted e).regularEntry e a x).updateFreeze) := by
  have heq : s.takeEvent e a x = ((s.noted e).routeEvent e a x).updateFreeze := by
    have hn : (s.noted e).dbg.inDebug = false := hd
    change State.updateFreeze (if (s.noted e).dbg.inDebug = true then _ else (s.noted e).routeEvent e a x) = _
    rw [hn]
    rfl
  rw [heq]
  rcases (s.noted e).routeEvent_cases e a x with ⟨h1, h2, h3⟩ | ⟨h1, h2, h3⟩ | ⟨h1, h2, h3⟩
  · refine Or.inl ⟨h1, h2, ?_⟩
    obtain ⟨g, -⟩ := (s.noted e).enterDebug_spec a x
    rw [h3, State.updateFreeze_eq, g]
    simp only [Bool.true_or]
    rw [← g]
  · exact Or.inr (Or.inl ⟨h1, h2, by rw [h3]⟩)
  · exact Or.inr (Or.inr ⟨h1, h2, by rw [h3]⟩)

/-- An enabled event is recorded once its bit is set. -/
theorem State.enabledEvent_noted (s : State) (e : Event) (h : bitOf s.spr.der (eventBit e) = true) :
    (s.noted e).enabledEvent = true := by
  have hm := (and_eventMask_ne_zero s.spr.der e).mpr h
  simp only [State.enabledEvent, bne_iff_ne]
  intro h0
  apply hm
  have : ((s.spr.ecr ||| eventMask e) &&& s.spr.der) &&& eventMask e = s.spr.der &&& eventMask e := by
    apply BitVec.eq_of_getLsbD_eq
    intro i _
    simp only [BitVec.getLsbD_and, BitVec.getLsbD_or]
    cases (eventMask e).getLsbD i <;> simp
  rw [← this]
  change (s.noted e).spr.ecr &&& (s.noted e).spr.der &&& eventMask e = 0
  rw [h0]
  simp

/-- An exception of the instruction being executed, without a data address (rule R482). -/
theorem State.takeSync_none (s : State) (c : SyncCause) :
    s.takeSync c none =
      if s.dbg.inDebug then
        (s.takeEvent (syncEvent s.cpu.msr.me c) (Config.syncSrr0 (syncEvent s.cpu.msr.me c) s.cpu.pc)
          (srr1OfSync s.cpu.msr.me c s.cpu.msr)).startFetch
      else
        s.takeEvent (syncEvent s.cpu.msr.me c) (Config.syncSrr0 (syncEvent s.cpu.msr.me c) s.cpu.pc)
          (srr1OfSync s.cpu.msr.me c s.cpu.msr) := rfl

/-- The same for a data access: DAR and DSISR are written first (rules R314, R482). -/
theorem State.takeSync_some (s : State) (c : SyncCause) (a : Word) :
    s.takeSync c (some a) =
      State.takeSync
        { s with cpu :=
          { s.cpu with
            dar := Config.darOf (syncEvent s.cpu.msr.me c) a
            dsisr := Config.dsisrOf (syncEvent s.cpu.msr.me c) a } } c none := rfl

/-! ## Stores -/

/-- Executing any word of stwu is the store with its fields. -/
theorem executeWord_stwuWord (s : State) (rS rA : Nat) (d : BitVec 16) (hS : rS < 32) (hA : rA < 32) :
    executeWord (stwuWord rS rA d) s = .next (s.storeWithUpdate rS rA d) := by
  by_cases h : rS = 31 ∧ rA = 30 ∧ d = 4
  · obtain ⟨rfl, rfl, rfl⟩ := h
    rw [executeWord, decodeWord?_stwuWord _ _ _ hS hA, if_pos ⟨rfl, rfl, rfl⟩]
    rfl
  · rw [executeWord, decodeWord?_stwuWord _ _ _ hS hA, if_neg h]
    rw [State.runOther, stwuFields?_stwuWord _ _ _ hS hA]

/-- What a store with update can do: the store and the update, or the exception of a refused access. -/
theorem State.storeWithUpdate_cases (s : State) (rS rA : Nat) (d : BitVec 16) (a : Word) (ha : a = s.reg rA + d.signExtend 32) :
    (s.accessFault .write a = none ∧
      s.storeWithUpdate rS rA d =
        State.complete
          { s.setReg rA a with mem := Memory.writeWord s.mem a (s.reg rS), cycles := [⟨a, .word, true, s.reg rS⟩] }
          .sequential .sequential) ∨
      ∃ c, s.accessFault .write a = some c ∧ s.storeWithUpdate rS rA d = s.takeSync c (some a) := by
  subst ha
  simp only [State.storeWithUpdate]
  split
  · exact .inr ⟨_, ‹_›, rfl⟩
  · exact .inl ⟨‹_›, rfl⟩

/-- The watchpoint pins (rules R8, R53): no two watchpoints share a pin, both load/store watchpoints have one, and of the four
instruction watchpoints exactly one has none. -/
theorem watchpointPin_spec :
    (∀ v w p, watchpointPin v = some p → watchpointPin w = some p → v = w) ∧
      watchpointPin .lwp0 ≠ none ∧ watchpointPin .lwp1 ≠ none ∧
      ∀ k, iwpPin k = none ↔ k = Config.iwpWithoutPin := by
  unfold watchpointPin iwpPin
  generalize Config.iwpWithoutPin = n
  refine ⟨fun v w p => ?_, nofun, nofun, ?_⟩
  · cases v <;> cases w <;> revert n p <;> decide
  · revert n; decide

end Sys2Proof.Machine
end

