-- ==== Sys2Proof/Laws/Invariant.lean ====
section
/-! SUPPORT. The shared operations keep the invariant `State.Inv` (Safety.lean). The invariant reads only memory, the special
purpose registers, three bits of the debug mode state and a few fields of the port and of program trace. -/

namespace Sys2Proof.Machine

/-- The invariant depends only on these fields. -/
theorem State.Inv.congr {s t : State} (h : s.Inv) (hm : t.mem = s.mem) (hs : t.spr = s.spr)
    (hd : t.dbg.inDebug = s.dbg.inDebug) (he : t.dbg.enable = s.dbg.enable) (hf : t.dbg.freeze = s.dbg.freeze)
    (hv : t.trace.vf = s.trace.vf) (hk : t.trace.prevKind = s.trace.prevKind)
    (h1 : t.trace.isctHold = s.trace.isctHold) (h2 : t.trace.isctActive = s.trace.isctActive)
    (h3 : t.port.cpuWaiting = s.port.cpuWaiting) (h4 : t.port.shifted = s.port.shifted) (h5 : t.ir = s.ir)
    (h6 : t.port.validData = s.port.validData) : t.Inv := by
  obtain ⟨a, b, c, d, e, f⟩ := h
  refine ⟨by rw [hm]; exact a, by rw [hs]; exact b, ?_, ?_, ?_, by rw [h4]; exact f⟩
  · simpa [State.debugConsistent, hd, he, hf, hv, hk, h3, h5, h6] using c
  · simpa [State.freezeConsistent, State.enabledEvent, hs, hf] using d
  · simpa [State.isctConsistent, h1, h2, hs] using e

/-! ## Completing an instruction -/

theorem State.isctConsistent_startFetch {s : State} (h : s.isctConsistent) : s.startFetch.isctConsistent := by
  unfold State.startFetch
  split <;> exact h

/-- The start of an instruction ends the delay of ISCT_SER (rule R109). -/
theorem State.Inv.beginInsn {s : State} (h : s.Inv) : s.beginInsn.Inv :=
  ⟨h.memory, h.reserved, h.debug, h.freeze, fun _ => rfl, h.serial⟩

theorem State.Inv.deliver {s : State} (h : s.Inv) (hd : s.dbg.inDebug = true) (w : Word) : (s.deliver w).Inv := by
  obtain ⟨a, b, c, d, e, f⟩ := h
  exact ⟨a, b, ⟨fun _ => c.1 hd, fun hh => by simp [hd] at hh⟩, d, e, f⟩

theorem State.Inv.startFetch {s : State} (h : s.Inv) (hd : s.dbg.inDebug = true) : s.startFetch.Inv := by
  unfold State.startFetch
  split
  · refine State.Inv.deliver ?_ (by exact hd) _
    exact h.congr rfl rfl rfl rfl rfl rfl rfl rfl rfl rfl rfl rfl rfl
  · obtain ⟨a, b, c, d, e, f⟩ := h
    exact ⟨a, b, ⟨fun _ => c.1 hd, fun hh => by simp [hd] at hh⟩, d, e, f⟩

theorem State.Inv.finish {s : State} (h : s.Inv) (t : VfType) (f : Flow) : (s.finish t f).Inv := by
  unfold State.finish
  split
  · rename_i hd
    refine State.Inv.startFetch ?_ (by exact hd)
    exact h.congr rfl rfl rfl rfl rfl rfl rfl rfl rfl rfl rfl rfl rfl
  · exact h.congr rfl rfl rfl rfl rfl rfl rfl rfl rfl rfl rfl rfl rfl

theorem State.Inv.complete {s : State} (h : s.Inv) (t : VfType) (f : Flow) : (s.complete t f).Inv := by
  unfold State.complete
  apply State.Inv.finish
  split
  · exact h
  · exact h.congr rfl rfl rfl rfl rfl rfl rfl rfl rfl rfl rfl rfl rfl

theorem State.Inv.completeMarked {s : State} (h : s.Inv) : s.completeMarked.Inv := by
  unfold State.completeMarked
  split <;> (apply State.Inv.complete; exact h.congr rfl rfl rfl rfl rfl rfl rfl rfl rfl rfl rfl rfl rfl)

/-! ## Events -/

/-- Every event's bit is an implemented bit of ECR and DER (rule R480). -/
theorem eventMask_implemented (e : Event) : eventMask e &&& maskEvents = eventMask e := by cases e <;> decide

theorem Sprs.reservedZero_recordEvent {r : Sprs} (h : r.reservedZero) (e : Event) :
    ({ r with ecr := r.ecr ||| eventMask e } : Sprs).reservedZero := by
  obtain ⟨a, b, c, d, e', f, g, i, j, k, l⟩ := h
  refine ⟨a, b, c, d, e', f, g, i, j, ?_, l⟩
  show (r.ecr ||| eventMask e) &&& maskEvents = r.ecr ||| eventMask e
  apply BitVec.eq_of_getLsbD_eq
  intro n _
  have k1 := congrArg (fun w : Word => w.getLsbD n) k
  have k2 := congrArg (fun w : Word => w.getLsbD n) (eventMask_implemented e)
  simp only [BitVec.getLsbD_and, BitVec.getLsbD_or] at k1 k2 ⊢
  revert k1 k2
  cases r.ecr.getLsbD n <;> cases (eventMask e).getLsbD n <;> cases maskEvents.getLsbD n <;> simp

theorem State.takeEvent_inDebug_stays {s : State} (hd : s.dbg.inDebug = true) (e : Event) (a : Word) (x : Srr1) :
    (s.takeEvent e a x).dbg.inDebug = true := by
  rw [State.takeEvent_inDebug _ _ _ _ hd]
  exact hd

theorem State.Inv.takeEvent {s : State} (h : s.Inv) (e : Event) (a : Word) (x : Srr1) : (s.takeEvent e a x).Inv := by
  have hr : (s.takeEvent e a x).spr = { s.spr with ecr := s.spr.ecr ||| eventMask e } := by
    cases hd : s.dbg.inDebug
    · rcases s.takeEvent_cases e a x hd with ⟨_, _, h3⟩ | ⟨_, _, h3⟩ | ⟨_, _, h3⟩ <;> rw [h3] <;> simp
    · rw [State.takeEvent_inDebug _ _ _ _ hd]
  have hrz : (s.takeEvent e a x).spr.reservedZero := by
    rw [hr]
    exact Sprs.reservedZero_recordEvent h.reserved e
  have hm : Memory.wf (s.takeEvent e a x).mem = true := by simpa using h.memory
  have hsh : (s.takeEvent e a x).port.shifted < 35 := by simpa using h.serial
  obtain ⟨_, _, i3, _, i5, _⟩ := h
  cases hd : s.dbg.inDebug
  · rcases s.takeEvent_cases e a x hd with ⟨h1, _, h3⟩ | ⟨_, _, h3⟩ | ⟨_, _, h3⟩
    · rw [h3] at hm hrz hsh ⊢
      obtain ⟨g1, _, _, _, _, g6, g7, _, _⟩ := (s.noted e).enterDebug_spec a x
      refine ⟨hm, hrz, ⟨fun _ => ?_, fun hh => ?_⟩, fun _ => by rw [g1], ?_, hsh⟩
      · rw [g1]
        exact ⟨h1, rfl, g6, g7⟩
      · rw [g1] at hh
        cases hh
      · apply State.isctConsistent_startFetch
        simpa [State.isctConsistent, State.reportVf, State.cancelFlight, State.dropFlight] using i5
    · rw [h3, State.updateFreeze_eq] at hm hrz hsh ⊢
      refine ⟨hm, hrz, ⟨fun hh => by simp [State.enterCheckStop, hd] at hh, fun _ => by simpa using i3.2 hd⟩, ?_, ?_, hsh⟩
      · intro hh
        simp [State.enabledEvent] at hh ⊢
        simp [hh]
      · simpa [State.isctConsistent, State.enterCheckStop] using i5
    · rw [h3, State.updateFreeze_eq] at hm hrz hsh ⊢
      refine ⟨hm, hrz, ⟨fun hh => by simp [State.regularEntry, hd] at hh, fun _ => by simpa using i3.2 hd⟩, ?_, ?_, hsh⟩
      · intro hh
        simp [State.enabledEvent] at hh ⊢
        simp [hh]
      · simpa [State.isctConsistent, State.regularEntry] using i5
  · rw [State.takeEvent_inDebug _ _ _ _ hd] at hm hrz hsh ⊢
    refine ⟨hm, hrz, ⟨fun _ => ?_, fun hh => by simp [hd] at hh⟩, fun _ => rfl, i5, hsh⟩
    obtain ⟨q1, _, q3, q4⟩ := i3.1 hd
    exact ⟨q1, rfl, q3, q4⟩

theorem State.Inv.takeAt {s : State} (h : s.Inv) (e : Event) (a : Word) : (s.takeAt e a).Inv := State.Inv.takeEvent h _ _ _

theorem State.Inv.takeSync_none {s : State} (h : s.Inv) (c : SyncCause) : (s.takeSync c none).Inv := by
  rw [State.takeSync_none]
  split
  · rename_i hd
    exact State.Inv.startFetch (State.Inv.takeEvent h _ _ _) (State.takeEvent_inDebug_stays hd _ _ _)
  · exact State.Inv.takeEvent h _ _ _

theorem State.Inv.takeSync {s : State} (h : s.Inv) (c : SyncCause) (a : Option Word) : (s.takeSync c a).Inv := by
  cases a with
  | none => exact State.Inv.takeSync_none h c
  | some a =>
    rw [State.takeSync_some]
    apply State.Inv.takeSync_none
    exact h.congr rfl rfl rfl rfl rfl rfl rfl rfl rfl rfl rfl rfl rfl

/-- Setting the freeze latch repairs the invariant after a change of ECR or DER (rules R324, R444). -/
theorem State.Inv.updateFreeze {s : State} (i1 : Memory.wf s.mem = true) (i2 : s.spr.reservedZero) (i3 : s.debugConsistent)
    (i5 : s.isctConsistent) (i6 : s.port.shifted < 35) : s.updateFreeze.Inv := by
  rw [State.updateFreeze_eq]
  refine ⟨i1, i2, ⟨fun hd => ?_, i3.2⟩, ?_, i5, i6⟩
  · obtain ⟨q1, q2, q3, q4⟩ := i3.1 hd
    exact ⟨q1, by simp [q2], q3, q4⟩
  · intro hh
    have : s.enabledEvent = true := hh
    simp [this]

/-- Debug mode entry establishes the debug mode part of the invariant (rules R306, R177). -/
theorem State.Inv.enterDebug {s : State} (i1 : Memory.wf s.mem = true) (i2 : s.spr.reservedZero) (i5 : s.isctConsistent)
    (i6 : s.port.shifted < 35) (he : s.dbg.enable = true) (a : Word) (x : Srr1) : (s.enterDebug a x).Inv := by
  obtain ⟨g1, _, _, _, _, g6, g7, _, _⟩ := s.enterDebug_spec a x
  refine ⟨by simpa using i1, by simpa using i2, ⟨fun _ => ?_, fun hh => ?_⟩, fun _ => by rw [g1], ?_, by simpa using i6⟩
  · rw [g1]
    exact ⟨he, rfl, g6, g7⟩
  · rw [g1] at hh
    cases hh
  · apply State.isctConsistent_startFetch
    simpa [State.isctConsistent, State.reportVf, State.cancelFlight, State.dropFlight] using i5

end Sys2Proof.Machine
end

