-- ==== Sys2Proof/Laws/Memory.lean ====
section
/-! SUPPORT. The laws of the system memory: a read after a write, and the canonical form. -/

namespace Sys2Proof.Machine

/-- A read after a write to the same address gives the byte; any other address reads as before. -/
theorem Memory.read_write (m : List Host.Cell) : ∀ (lo a b : Nat) (v : Byte), Memory.wfFrom lo m = true →
    Memory.read (Memory.write m a v) b = if b = a then v else Memory.read m b := by
  induction m with
  | nil =>
    intro lo a b v _
    by_cases hv : v = 0
    · by_cases hb : b = a <;> simp [Memory.write, Memory.read, hv, hb]
    · by_cases hb : b = a
      · subst hb; simp only [Memory.write, hv, if_false]; simp [Memory.read]
      · simp only [Memory.write, hv, if_false]; simp [Memory.read, hb, Ne.symm hb]
  | cons c rest ih =>
    obtain ⟨k, w⟩ := c
    intro lo a b v h
    simp only [Memory.wfFrom, Bool.and_eq_true, decide_eq_true_eq, bne_iff_ne, ne_eq] at h
    obtain ⟨⟨⟨h1, h2⟩, h3⟩, h4⟩ := h
    have below : ∀ x, x ≤ k → Memory.read rest x = 0 := by
      intro x hx
      cases rest with
      | nil => rfl
      | cons d r =>
        obtain ⟨k', w'⟩ := d
        simp only [Memory.wfFrom, Bool.and_eq_true, decide_eq_true_eq] at h4
        have : x < k' := by omega
        simp [Memory.read, this]
    by_cases hak : a < k
    · by_cases hv : v = 0
      · simp only [Memory.write, hak, hv, if_true]
        by_cases hb : b = a
        · subst hb; simp [Memory.read, hak]
        · simp [hb]
      · simp only [Memory.write, hak, hv, if_true, if_false]
        by_cases hb : b = a
        · subst hb; simp [Memory.read]
        · simp only [hb, if_false]
          rw [Memory.read]
          by_cases hba : b < a
          · have : b < k := by omega
            simp [hba, Memory.read, this]
          · simp [hba, Ne.symm hb]
    · by_cases hka : k = a
      · subst hka
        by_cases hv : v = 0
        · simp only [Memory.write, hak, hv, if_true, if_false]
          by_cases hb : b = k
          · subst hb; simp [below b (Nat.le_refl _)]
          · simp only [hb, if_false, Memory.read]
            by_cases hbk : b < k
            · simp [hbk, below b (by omega)]
            · simp [hbk, Ne.symm hb]
        · simp only [Memory.write, hak, hv, if_true, if_false]
          by_cases hb : b = k
          · subst hb; simp [Memory.read]
          · simp [Memory.read, hb, Ne.symm hb]
      · simp only [Memory.write, hak, hka, if_false, Memory.read]
        by_cases hbk : b < k
        · have : b ≠ a := by omega
          simp [hbk, this]
        · by_cases hkb : k = b
          · subst hkb; simp [hka]
          · simp [hbk, hkb, ih (k + 1) a b v h4]

/-- A write below 2^32 keeps the canonical form. -/
theorem Memory.wfFrom_write (m : List Host.Cell) : ∀ (lo a : Nat) (v : Byte), Memory.wfFrom lo m = true → lo ≤ a → a < 2 ^ 32 →
    Memory.wfFrom lo (Memory.write m a v) = true := by
  induction m with
  | nil =>
    intro lo a v _ hl ha
    by_cases hv : v = 0
    · simp [Memory.write, Memory.wfFrom, hv]
    · simp only [Memory.write, hv, if_false, Memory.wfFrom, Bool.and_eq_true, decide_eq_true_eq, bne_iff_ne]
      exact ⟨⟨⟨hl, ha⟩, hv⟩, trivial⟩
  | cons c rest ih =>
    obtain ⟨k, w⟩ := c
    intro lo a v h hl ha
    have h0 := h
    simp only [Memory.wfFrom, Bool.and_eq_true, decide_eq_true_eq, bne_iff_ne, ne_eq] at h
    obtain ⟨⟨⟨h1, h2⟩, h3⟩, h4⟩ := h
    have weaken : ∀ lo', lo' ≤ k + 1 → Memory.wfFrom lo' rest = true := by
      intro lo' hlo
      cases rest with
      | nil => rfl
      | cons d r =>
        obtain ⟨k', w'⟩ := d
        simp only [Memory.wfFrom, Bool.and_eq_true, decide_eq_true_eq] at h4 ⊢
        exact ⟨⟨⟨by omega, h4.1.1.2⟩, h4.1.2⟩, h4.2⟩
    by_cases hak : a < k
    · by_cases hv : v = 0
      · simpa [Memory.write, hak, hv] using h0
      · simp only [Memory.write, hak, hv, if_true, if_false, Memory.wfFrom, Bool.and_eq_true, decide_eq_true_eq, bne_iff_ne]
        exact ⟨⟨⟨hl, ha⟩, hv⟩, ⟨⟨⟨by omega, h2⟩, h3⟩, h4⟩⟩
    · by_cases hka : k = a
      · subst hka
        by_cases hv : v = 0
        · simpa [Memory.write, hak, hv] using weaken lo (by omega)
        · simp only [Memory.write, hak, hv, if_true, if_false, Memory.wfFrom, Bool.and_eq_true, decide_eq_true_eq, bne_iff_ne]
          exact ⟨⟨⟨hl, ha⟩, hv⟩, h4⟩
      · simp only [Memory.write, hak, hka, if_false, Memory.wfFrom, Bool.and_eq_true, decide_eq_true_eq, bne_iff_ne]
        exact ⟨⟨⟨h1, h2⟩, h3⟩, ih (k + 1) a v h4 (by omega) ha⟩

/-- A byte write at an address keeps the canonical form. -/
theorem Memory.wf_write (m : List Host.Cell) (a : Word) (v : Byte) (h : Memory.wf m = true) :
    Memory.wf (Memory.write m a.toNat v) = true :=
  Memory.wfFrom_write m 0 a.toNat v h (Nat.zero_le _) a.isLt

/-- Storing some bytes keeps the canonical form. -/
theorem Memory.wf_writeBytes (l : List (Word × Byte)) : ∀ m, Memory.wf m = true → Memory.wf (Memory.writeBytes m l) = true := by
  induction l with
  | nil => intro m h; exact h
  | cons c rest ih => intro m h; exact ih _ (Memory.wf_write m c.1 c.2 h)

/-- A word store keeps the canonical form. -/
theorem Memory.wf_writeWord (m : List Host.Cell) (a v : Word) (h : Memory.wf m = true) :
    Memory.wf (Memory.writeWord m a v) = true :=
  Memory.wf_writeBytes _ m h

/-- A byte outside the stored ones reads as before. -/
theorem Memory.read_writeBytes_of_not_mem (l : List (Word × Byte)) : ∀ m (b : Word), Memory.wf m = true →
    (∀ c ∈ l, c.1 ≠ b) → Memory.read (Memory.writeBytes m l) b.toNat = Memory.read m b.toNat := by
  induction l with
  | nil => intro m b _ _; rfl
  | cons c rest ih =>
    intro m b h hn
    rw [Memory.writeBytes, ih _ b (Memory.wf_write m c.1 c.2 h) (fun d hd => hn d (List.mem_cons_of_mem _ hd)),
      Memory.read_write m 0 c.1.toNat b.toNat c.2 h]
    have : b.toNat ≠ c.1.toNat := fun e => hn c List.mem_cons_self (BitVec.eq_of_toNat_eq e).symm
    simp [this]

/-- A byte outside a stored word reads as before. -/
theorem Memory.read_writeWord_of_ne (m : List Host.Cell) (a v b : Word) (h : Memory.wf m = true)
    (h0 : b ≠ a) (h1 : b ≠ a + 1) (h2 : b ≠ a + 2) (h3 : b ≠ a + 3) :
    Memory.read (Memory.writeWord m a v) b.toNat = Memory.read m b.toNat := by
  refine Memory.read_writeBytes_of_not_mem _ m b h ?_
  intro c hc
  simp only [wordStore, List.mem_cons, List.not_mem_nil, or_false] at hc
  rcases hc with rfl | rfl | rfl | rfl
  · exact fun e => h0 e.symm
  · exact fun e => h1 e.symm
  · exact fun e => h2 e.symm
  · exact fun e => h3 e.symm

/-- The word just stored reads back, also where it wraps at the top of the address space. -/
theorem Memory.readWord_writeWord (m : List Host.Cell) (a v : Word) (h : Memory.wf m = true) :
    Memory.readWord (Memory.writeWord m a v) a = v := by
  have hw := fun (m : List Host.Cell) (h : Memory.wf m = true) (a : Word) (v : Byte) (b : Word) =>
    Memory.read_write m 0 a.toNat b.toNat v h
  have ne : ∀ x y : Word, x ≠ y → (x.toNat = y.toNat) = False := fun x y hxy =>
    eq_false fun e => hxy (BitVec.eq_of_toNat_eq e)
  have w1 := Memory.wf_write m a (byteOf v 0) h
  have w2 := Memory.wf_write _ (a + 1) (byteOf v 1) w1
  have w3 := Memory.wf_write _ (a + 2) (byteOf v 2) w2
  have n01 : a ≠ a + 1 := by bv_omega
  have n02 : a ≠ a + 2 := by bv_omega
  have n03 : a ≠ a + 3 := by bv_omega
  have n12 : a + 1 ≠ a + 2 := by bv_omega
  have n13 : a + 1 ≠ a + 3 := by bv_omega
  have n23 : a + 2 ≠ a + 3 := by bv_omega
  simp only [Memory.readWord, Memory.writeWord, wordStore, Memory.writeBytes]
  rw [hw _ w3, hw _ w3, hw _ w3, hw _ w3, hw _ w2, hw _ w2, hw _ w2, hw _ w1, hw _ w1, hw _ h]
  simp only [ne _ _ n01, ne _ _ n02, ne _ _ n03, ne _ _ n12, ne _ _ n13, ne _ _ n23, if_false, if_true]
  simp only [byteOf]
  apply BitVec.eq_of_getLsbD_eq
  intro i hi
  simp only [BitVec.getLsbD_append, BitVec.getLsbD_extractLsb']
  have hi' : i < 32 := by omega
  interval_cases i <;> simp

end Sys2Proof.Machine
end

