-- ==== Sys2Proof/Laws/PerInstr.lean ====
section
/-! SUPPORT. The family of statements made per instruction: the encoding of every instruction has the width the opcode table
gives its row. -/

namespace Sys2Proof.Laws.EncodedWidth

/-- The bits of the encoding are as many as the opcode table says (rules R131, R144 to R146). -/
def Statement (i : Instr) : Prop := (encode i).bits.length = i.tableWidth

theorem dpInsn (w : Word) : Statement (.dpInsn w) := Frame.bits_long_length _ _

theorem dpData (w : Word) : Statement (.dpData w) := Frame.bits_long_length _ _

theorem dpTe (i0 i1 i2 i3 l0 l1 vs : Bool) : Statement (.dpTe i0 i1 i2 i3 l0 l1 vs) := Frame.bits_short_length _ _

theorem dpNop (x : BitVec 2) : Statement (.dpNop x) := Frame.bits_short_length _ _

theorem dpHreset (x : BitVec 2) : Statement (.dpHreset x) := Frame.bits_short_length _ _

theorem dpSreset (x : BitVec 2) : Statement (.dpSreset x) := Frame.bits_short_length _ _

theorem dpStartdl : Statement (.dpStartdl) := Frame.bits_short_length _ _

theorem dpEnddl : Statement (.dpEnddl) := Frame.bits_short_length _ _

theorem dpBrk (nm m : Bool) : Statement (.dpBrk nm m) := Frame.bits_short_length _ _

theorem rsv00011 (x : Bool) : Statement (.rsv00011 x) := Frame.bits_short_length _ _

theorem rsv001 (x : BitVec 2) (y : BitVec 2) : Statement (.rsv001 x y) := Frame.bits_short_length _ _

theorem rsv01 (x : BitVec 2) (y : BitVec 3) : Statement (.rsv01 x y) := Frame.bits_short_length _ _

theorem rsv10 (x : BitVec 2) (y : BitVec 3) : Statement (.rsv10 x y) := Frame.bits_short_length _ _

theorem rsv110 (x : BitVec 2) (y : BitVec 2) : Statement (.rsv110 x y) := Frame.bits_short_length _ _

theorem rsv1110 (x : BitVec 2) (y : Bool) : Statement (.rsv1110 x y) := Frame.bits_short_length _ _

theorem rsv11110 (x : BitVec 2) : Statement (.rsv11110 x) := Frame.bits_short_length _ _

theorem mfsprCmpa (rD : Nat) : Statement (.mfsprCmpa rD) := toBits_length _

theorem mtsprCmpa (rS : Nat) : Statement (.mtsprCmpa rS) := toBits_length _

theorem mfsprCmpb (rD : Nat) : Statement (.mfsprCmpb rD) := toBits_length _

theorem mtsprCmpb (rS : Nat) : Statement (.mtsprCmpb rS) := toBits_length _

theorem mfsprCmpc (rD : Nat) : Statement (.mfsprCmpc rD) := toBits_length _

theorem mtsprCmpc (rS : Nat) : Statement (.mtsprCmpc rS) := toBits_length _

theorem mfsprCmpd (rD : Nat) : Statement (.mfsprCmpd rD) := toBits_length _

theorem mtsprCmpd (rS : Nat) : Statement (.mtsprCmpd rS) := toBits_length _

theorem mfsprEcr (rD : Nat) : Statement (.mfsprEcr rD) := toBits_length _

theorem mtsprEcr (rS : Nat) : Statement (.mtsprEcr rS) := toBits_length _

theorem mfsprDer (rD : Nat) : Statement (.mfsprDer rD) := toBits_length _

theorem mtsprDer (rS : Nat) : Statement (.mtsprDer rS) := toBits_length _

theorem mfsprCounta (rD : Nat) : Statement (.mfsprCounta rD) := toBits_length _

theorem mtsprCounta (rS : Nat) : Statement (.mtsprCounta rS) := toBits_length _

theorem mfsprCountb (rD : Nat) : Statement (.mfsprCountb rD) := toBits_length _

theorem mtsprCountb (rS : Nat) : Statement (.mtsprCountb rS) := toBits_length _

theorem mfsprCmpe (rD : Nat) : Statement (.mfsprCmpe rD) := toBits_length _

theorem mtsprCmpe (rS : Nat) : Statement (.mtsprCmpe rS) := toBits_length _

theorem mfsprCmpf (rD : Nat) : Statement (.mfsprCmpf rD) := toBits_length _

theorem mtsprCmpf (rS : Nat) : Statement (.mtsprCmpf rS) := toBits_length _

theorem mfsprCmpg (rD : Nat) : Statement (.mfsprCmpg rD) := toBits_length _

theorem mtsprCmpg (rS : Nat) : Statement (.mtsprCmpg rS) := toBits_length _

theorem mfsprCmph (rD : Nat) : Statement (.mfsprCmph rD) := toBits_length _

theorem mtsprCmph (rS : Nat) : Statement (.mtsprCmph rS) := toBits_length _

theorem mfsprLctrl1 (rD : Nat) : Statement (.mfsprLctrl1 rD) := toBits_length _

theorem mtsprLctrl1 (rS : Nat) : Statement (.mtsprLctrl1 rS) := toBits_length _

theorem mfsprLctrl2 (rD : Nat) : Statement (.mfsprLctrl2 rD) := toBits_length _

theorem mtsprLctrl2 (rS : Nat) : Statement (.mtsprLctrl2 rS) := toBits_length _

theorem mfsprIctrl (rD : Nat) : Statement (.mfsprIctrl rD) := toBits_length _

theorem mtsprIctrl (rS : Nat) : Statement (.mtsprIctrl rS) := toBits_length _

theorem mfsprBar (rD : Nat) : Statement (.mfsprBar rD) := toBits_length _

theorem mtsprBar (rS : Nat) : Statement (.mtsprBar rS) := toBits_length _

theorem mfsprDpdr (rD : Nat) : Statement (.mfsprDpdr rD) := toBits_length _

theorem mtsprDpdr (rS : Nat) : Statement (.mtsprDpdr rS) := toBits_length _

theorem rfi : Statement (.rfi) := toBits_length _

theorem sync : Statement (.sync) := toBits_length _

theorem isync : Statement (.isync) := toBits_length _

theorem mtmsr (rS : Nat) : Statement (.mtmsr rS) := toBits_length _

theorem stwu : Statement (.stwu) := toBits_length _

end Sys2Proof.Laws.EncodedWidth
end

