-- ==== Sys2Proof/Laws/Step.lean ====
section
/-! SUPPORT. What one step does, case by case: which of its branches runs, and what each branch is. -/

namespace Sys2Proof.Machine

/-- Outside debug mode a step begins by dropping the outputs of the last one. -/
theorem State.beginStep_running (s : State) (h : s.dbg.inDebug = false) : s.beginStep = { s with out := [] } := by
  simp [State.beginStep, h]

/-- In debug mode, with no request that is recognised there, the same. -/
theorem State.beginStep_quiet (s : State) (h1 : s.lines.nmi = false) (h2 : s.lines.machineCheck = false)
    (h3 : s.cpu.msr.ee = false) : s.beginStep = { s with out := [] } := by
  simp [State.beginStep, State.debugEvents, h1, h2, h3]

/-- What the start of a step can be (rule R315): dropping the old outputs, or in debug mode an event as well. -/
theorem State.beginStep_cases (s : State) :
    s.beginStep = { s with out := [] } ∨
      (s.dbg.inDebug = true ∧ ∃ (ls : Lines) (e : Event),
        s.beginStep = State.takeAt { s with out := [], lines := ls } e s.cpu.pc) := by
  cases hd : s.dbg.inDebug with
  | false => exact Or.inl (s.beginStep_running hd)
  | true =>
    have hb : s.beginStep = State.debugEvents { s with out := [] } := by simp [State.beginStep, hd]
    rw [hb]
    unfold State.debugEvents
    split
    · exact Or.inr ⟨rfl, { s.lines with nmi := false }, _, rfl⟩
    · split
      · exact Or.inr ⟨rfl, { s.lines with machineCheck := false }, _, rfl⟩
      · split
        · exact Or.inr ⟨rfl, s.lines, _, rfl⟩
        · split
          · exact Or.inr ⟨rfl, { s.lines with decrementer := false }, _, rfl⟩
          · exact Or.inl rfl

/-- A reset is the next event exactly if it is the head of the inputs. -/
theorem State.nextReset_eq_none (s : State) : s.nextReset = none ↔ ∀ p, s.inputs.head? ≠ some (.reset p) := by
  unfold State.nextReset
  split <;> simp_all
  rename_i h
  intro p hp
  cases hi : s.inputs with
  | nil => simp [hi] at hp
  | cons i rest =>
    simp only [hi, List.head?_cons, Option.some.injEq] at hp
    exact h p rest (by rw [hi, hp])

/-- A step whose next event is a reset applies it, whatever is in progress (rules R540, R546). -/
theorem step_reset (s : State) (p : ResetPins) (rest : List Input) (h : s.inputs = .reset p :: rest) :
    step s = .next (State.applyReset { s with out := [], inputs := rest } p) := by
  simp [step, runStep, State.nextReset, h]

/-- A step in which no reset comes. -/
theorem step_noReset (s : State) (h : s.nextReset = none) : step s = runOn s := by
  simp [step, runStep, h]

/-- A step whose start fulfils the entry condition enters debug mode (rule R305). -/
theorem step_enter (s : State) (hr : s.nextReset = none) (h : s.beginStep.enterCondition = true) :
    step s = .next (s.beginStep.enterDebug s.beginStep.cpu.pc (srr1Of s.beginStep.pendingCause s.beginStep.cpu.msr)) := by
  simp only [step_noReset s hr, runOn, h, if_true]

/-- A step that runs a delivered word. -/
theorem step_word (s : State) (w : Word) (hr : s.nextReset = none) (h : s.beginStep.enterCondition = false)
    (hw : s.beginStep.ir = some w) :
    step s = wordStep w s.beginStep := by
  simp only [step_noReset s hr, runOn, h, hw, Bool.false_eq_true, if_false]

/-- What a step with a delivered word can be: the word is executed, or an event comes first. -/
theorem wordStep_cases (w : Word) (s : State) :
    (∃ rest, (s.inputs = .cpuStep :: rest ∨ s.inputs = [] ∧ rest = []) ∧
        wordStep w s = debugStep w { s with ir := none, inputs := rest }) ∨
      ∃ i rest, s.inputs = i :: rest ∧ i ≠ .cpuStep ∧ wordStep w s = processInput i { s with inputs := rest } := by
  unfold wordStep
  split
  · rename_i hn
    exact .inl ⟨[], .inr ⟨hn, rfl⟩, by rw [← hn]⟩
  · rename_i rest hi
    exact .inl ⟨rest, .inl hi, rfl⟩
  · rename_i i rest hc hi
    exact .inr ⟨i, rest, hi, hc, rfl⟩

/-- A step that takes an event of the environment. -/
theorem step_input (s : State) (i : Input) (rest : List Input) (hr : s.nextReset = none) (h : s.beginStep.enterCondition = false)
    (hw : s.beginStep.ir = none) (hi : s.beginStep.inputs = i :: rest) :
    step s = processInput i { s.beginStep with inputs := rest } := by
  simp only [step_noReset s hr, runOn, h, hw, hi, Bool.false_eq_true, if_false]

/-- A step with nothing from the environment. -/
theorem step_idle (s : State) (hr : s.nextReset = none) (h : s.beginStep.enterCondition = false) (hw : s.beginStep.ir = none)
    (hi : s.beginStep.inputs = []) :
    step s = if s.beginStep.dbg.checkStop then .fault .checkStopped else cpuStep s.beginStep := by
  simp only [step_noReset s hr, runOn, h, hw, hi, Bool.false_eq_true, if_false]

/-- What a step in which no reset comes and that answers a next state can have been. -/
theorem runOn_cases (s t : State) (h : runOn s = .next t) :
    (s.beginStep.enterCondition = true ∧
        t = s.beginStep.enterDebug s.beginStep.cpu.pc (srr1Of s.beginStep.pendingCause s.beginStep.cpu.msr)) ∨
      (s.beginStep.enterCondition = false ∧
        ((∃ w, s.beginStep.ir = some w ∧ wordStep w s.beginStep = .next t) ∨
          (s.beginStep.ir = none ∧
            ((∃ i rest, s.beginStep.inputs = i :: rest ∧ processInput i { s.beginStep with inputs := rest } = .next t) ∨
              (s.beginStep.inputs = [] ∧ s.beginStep.dbg.checkStop = false ∧ cpuStep s.beginStep = .next t))))) := by
  simp only [runOn] at h
  split at h
  · rename_i hc
    simp only [Host.Outcome.next.injEq] at h
    exact Or.inl ⟨hc, h.symm⟩
  · rename_i hc
    refine Or.inr ⟨by simpa using hc, ?_⟩
    split at h
    · rename_i w hw
      exact Or.inl ⟨w, hw, h⟩
    · rename_i hw
      refine Or.inr ⟨hw, ?_⟩
      split at h
      · rename_i i rest hi
        exact Or.inl ⟨i, rest, hi, h⟩
      · rename_i hi
        split at h
        · cases h
        · rename_i hs
          exact Or.inr ⟨hi, by simpa using hs, h⟩

/-- What a step that answers a next state can have been: a reset applied, or a step in which none comes. -/
theorem step_cases (s t : State) (h : step s = .next t) :
    (∃ p rest, s.inputs = .reset p :: rest ∧ t = State.applyReset { s with out := [], inputs := rest } p) ∨
      (s.nextReset = none ∧ runOn s = .next t) := by
  cases hi : s.nextReset with
  | none => exact .inr ⟨rfl, by rw [← step_noReset s hi]; exact h⟩
  | some p =>
    unfold State.nextReset at hi
    split at hi
    · rename_i q rest hin
      rw [step_reset s q rest hin] at h
      exact .inl ⟨q, rest, hin, by simpa using h.symm⟩
    · cases hi

/-- What a step of the CPU outside debug mode and check stop can be (rules R485, R106, R225). -/
theorem cpuStep_cases (s : State) (h1 : s.dbg.checkStop = false) (h2 : s.dbg.inDebug = false) :
    (∃ u, s.highEvent = some u ∧ cpuStep s = .next u) ∨
      (s.highEvent = none ∧
        ((∃ e rest, s.inflight = e :: rest ∧ s.usable e = true ∧ cpuStep s = State.retire { s with inflight := rest } e) ∨
          (∃ e rest, s.inflight = e :: rest ∧ s.usable e = false ∧ cpuStep s = .next { s with inflight := [] }) ∨
          (s.inflight = [] ∧ cpuStep s = (s.fetchAt s.pcWord .sequential).1.retire (s.fetchAt s.pcWord .sequential).2))) := by
  simp only [cpuStep, h1, h2, Bool.or_false, Bool.false_eq_true, if_false]
  cases hh : s.highEvent with
  | some u => exact Or.inl ⟨u, rfl, rfl⟩
  | none =>
    refine Or.inr ⟨rfl, ?_⟩
    cases hf : s.inflight with
    | nil => exact Or.inr (Or.inr ⟨rfl, rfl⟩)
    | cons e rest =>
      cases he : s.usable e
      · exact Or.inr (Or.inl ⟨e, rest, rfl, he, by simp [he]⟩)
      · exact Or.inl ⟨e, rest, rfl, he, by simp [he]⟩

/-- What retiring an instruction can be (rules R225, R251 to R253, R485), on the machine that has begun it: the machine check of its
fetch, its instruction breakpoint, or its execution, with IFM as it was or changed. -/
theorem State.retire_cases (s : State) (e : InFlight) :
    (e.fault = some .machineCheck ∧ s.retire e = .next (s.beginInsn.takeSync .machineCheck none)) ∨
      (e.fault ≠ some .machineCheck ∧ ∃ t : State, ∃ ifm : Option Bool,
        (t = s.beginInsn ∨ t = s.beginInsn.setIfm false ∨
          ∃ b, t = { s.beginInsn with draws := s.beginInsn.draws + 2 } ∨
            t = State.setIfm { s.beginInsn with draws := s.beginInsn.draws + 2 } b) ∧
        (s.retire e = .next (t.takeIbrk e) ∨ s.retire e = t.retireRun e ifm)) := by
  simp only [State.retire]
  split
  · exact .inl ⟨‹_›, rfl⟩
  · refine .inr ⟨‹_›, ?_⟩
    split
    · split
      · exact ⟨_, none, .inr (.inr ⟨_, .inr rfl⟩), .inl rfl⟩
      · exact ⟨_, some _, .inr (.inr ⟨false, .inl rfl⟩), .inr rfl⟩
    · split <;> split
      · exact ⟨_, none, .inr (.inl rfl), .inl rfl⟩
      · exact ⟨_, none, .inl rfl, .inl rfl⟩
      · exact ⟨_, none, .inr (.inl rfl), .inr rfl⟩
      · exact ⟨_, none, .inl rfl, .inr rfl⟩

/-- What can follow a delivered instruction (rules R315, R367, R480, R485). -/
theorem State.afterPort_cases (s : State) :
    (s.outcome = .stalled ∧ s.afterPort = s) ∨ s.afterPort = s.endDelivered ∨
      (s.traced.delivered = true ∧ s.afterPort = s.endDelivered.takeAt .trace s.cpu.pc) ∨
      (s.dbg.inDebug = false ∧ ∃ u, s.highEvent = some u ∧ s.afterPort = u.endDelivered) ∨
      (s.dbg.inDebug = false ∧ s.highEvent = none ∧ s.afterPort = s.endDelivered.lowEvent) := by
  unfold State.afterPort
  cases ho : s.outcome with
  | stalled => exact .inl ⟨rfl, rfl⟩
  | excepted => exact .inr (.inl rfl)
  | completed =>
    simp only [State.afterDelivered, State.deliveredTraceOr]
    cases ht : s.traced.delivered <;> cases hd : s.dbg.inDebug <;> cases hh : s.highEvent <;> simp

end Sys2Proof.Machine
end

