-- ==== Sys2Proof/Tests/Slice0.lean ====
section
/-! SUPPORT. Tests: ill-formed terms, words written out from the spec's encodings, the worked examples and vectors of
95_test_vectors.md one step at a time, and for each statement a concrete case that meets its hypotheses. Every expected result is
the spec's. -/

namespace Sys2Proof.Tests

open Sys2Proof Sys2Proof.Machine

/-! ## Well-formed terms -/

/-- Every instruction with a register field, with this register number. -/
def withRegister (r : Nat) : List Instr := sprAccesses r ++ [.mtmsr r]

theorem test_register_31_is_well_formed : ∀ i ∈ withRegister 31, i.wellFormed = true := by decide

theorem test_register_32_is_ill_formed : ∀ i ∈ withRegister 32, i.wellFormed = false := by decide

theorem test_every_register_field_is_checked : (withRegister 32).length = 35 := by decide

/-! ## Words written out from the encodings -/

/-- The mfspr column of the table of rule R144. -/
theorem test_decode_mfspr_words : ∀ p ∈ ([
      (0x7C1022A6, .mfsprCmpa 0), (0x7C1122A6, .mfsprCmpb 0), (0x7C1222A6, .mfsprCmpc 0),
      (0x7C1322A6, .mfsprCmpd 0), (0x7C1422A6, .mfsprEcr 0), (0x7C1522A6, .mfsprDer 0),
      (0x7C1622A6, .mfsprCounta 0), (0x7C1722A6, .mfsprCountb 0), (0x7C1822A6, .mfsprCmpe 0),
      (0x7C1922A6, .mfsprCmpf 0), (0x7C1A22A6, .mfsprCmpg 0), (0x7C1B22A6, .mfsprCmph 0),
      (0x7C1C22A6, .mfsprLctrl1 0), (0x7C1D22A6, .mfsprLctrl2 0), (0x7C1E22A6, .mfsprIctrl 0),
      (0x7C1F22A6, .mfsprBar 0), (0x7C169AA6, .mfsprDpdr 0)] : List (Nat × Instr)),
    decodeTableWord 32 p.1 = some p.2 := by decide

/-- The mtspr column of the table of rule R144. -/
theorem test_decode_mtspr_words : ∀ p ∈ ([
      (0x7C1023A6, .mtsprCmpa 0), (0x7C1123A6, .mtsprCmpb 0), (0x7C1223A6, .mtsprCmpc 0),
      (0x7C1323A6, .mtsprCmpd 0), (0x7C1423A6, .mtsprEcr 0), (0x7C1523A6, .mtsprDer 0),
      (0x7C1623A6, .mtsprCounta 0), (0x7C1723A6, .mtsprCountb 0), (0x7C1823A6, .mtsprCmpe 0),
      (0x7C1923A6, .mtsprCmpf 0), (0x7C1A23A6, .mtsprCmpg 0), (0x7C1B23A6, .mtsprCmph 0),
      (0x7C1C23A6, .mtsprLctrl1 0), (0x7C1D23A6, .mtsprLctrl2 0), (0x7C1E23A6, .mtsprIctrl 0),
      (0x7C1F23A6, .mtsprBar 0), (0x7C169BA6, .mtsprDpdr 0)] : List (Nat × Instr)),
    decodeTableWord 32 p.1 = some p.2 := by decide

/-- The register field, bits 6 to 10 (rule R144): `mtspr DPDR, r3` of vector B7 e, `mfspr r31, DPDR` of rule R146. -/
theorem test_decode_register_field :
    decodeTableWord 32 0x7C769BA6 = some (.mtsprDpdr 3) ∧ decodeTableWord 32 0x7FF69AA6 = some (.mfsprDpdr 31) ∧
      decodeTableWord 32 0x7FE00124 = some (.mtmsr 31) := by decide

/-- The other CPU instructions (rules R145, R146). -/
theorem test_decode_other_words : ∀ p ∈ ([(0x4C000064, .rfi), (0x7C0004AC, .sync), (0x4C00012C, .isync), (0x7C000124, .mtmsr 0),
      (0x97FE0004, .stwu)] : List (Nat × Instr)), decodeTableWord 32 p.1 = some p.2 := by decide

/-- The general word of stwu (rule R146): 37, rS, rA, d, bit by bit. -/
theorem test_stwu_fields : stwuFields? 0x97FE0004 = some (31, 30, 4) ∧ stwuWord 31 30 4 = 0x97FE0004 ∧
    stwuFields? 0b10010100011001001111111111111100 = some (3, 4, 0xFFFC) ∧ stwuFields? 0x60000000 = none := by decide

/-- The frames of vector B7 a. -/
theorem test_decode_frames : ∀ p ∈ ([(0x380, .dpNop 0), (0x381, .dpHreset 0), (0x382, .dpSreset 0), (0x3E3, .dpStartdl),
      (0x3C3, .dpEnddl), (0x39F, .dpBrk false false), (0x3BF, .dpBrk false true), (0x3DF, .dpBrk true false),
      (0x3FF, .dpBrk true true), (0x340, .dpTe true false false false false false false),
      (0x301, .dpTe false false false false false false true), (0x306, .dpTe false false false false true true false),
      (0x37F, .dpTe true true true true true true true)] : List (Nat × Instr)),
    decodeTableWord 16 p.1 = some p.2 := by decide

theorem test_decode_long_frames :
    decodeTableWord 40 0x47C1422A6 = some (.dpInsn 0x7C1422A6) ∧
      decodeTableWord 40 0x5DEADBEEF = some (.dpData 0xDEADBEEF) := by decide

/-- Reserved commands (rule R138, vector B7 a), one at each end of each row: bits written out. -/
theorem test_decode_reserved_commands : ∀ p ∈ ([(0b1110000011, .rsv00011 false), (0b1110100011, .rsv00011 true),
      (0b1110000100, .rsv001 0 0), (0b1111100111, .rsv001 3 3), (0b1110001000, .rsv01 0 0), (0b1111101111, .rsv01 3 7),
      (0b1110010000, .rsv10 0 0), (0b1111110111, .rsv10 3 7), (0b1110011000, .rsv110 0 0), (0b1111111011, .rsv110 3 3),
      (0b1110011100, .rsv1110 0 false), (0b1111111101, .rsv1110 3 true), (0b1110011110, .rsv11110 0),
      (0b1111111110, .rsv11110 3)] : List (Nat × Instr)),
    decodeTableWord 16 p.1 = some p.2 := by decide

/-- The order of the bits on the wire (rules R98, R131): start, mode, control, then data bit 0 first. -/
theorem test_wire_order : (Frame.short true 0b1000011).bits = [true, true, true, true, false, false, false, false, true, true] := by
  decide

/-- A stream that starts with a 0 holds no transmission (rule R130); a cut one is rejected. -/
theorem test_no_start_bit : readFrame [false, true, true] = .error .noStartBit ∧ readFrame [true, true, false] = .error .truncated := by
  decide

/-- A word outside the table is rejected by name (rule R7), from its bytes too. -/
theorem test_word_outside_the_table : decodeBytes [0x60, 0, 0, 0] = .error (.notInTable 0x60000000) ∧
    decodeBytes [0x4C, 0, 0, 0x64, 0xAA] = .ok (.rfi, [0xAA]) := by decide

/-- A register access with a nonzero last bit is not in the table (rule R144: the last bit is 0). -/
theorem test_last_bit_is_fixed : decodeWord? 0x7C1422A7 = none := by decide

/-! ## Helpers -/

/-- The next state of an answer, if it is one. -/
def after : Result → Option State
  | .next s => some s
  | _ => none

/-- One instruction, then a view of the machine. -/
def see {α : Type} (i : Instr) (s : State) (f : State → α) : Option α := (after (exec i s)).map f

/-- Some steps, then a view of the machine. -/
def run {α : Type} (n : Nat) (s : State) (f : State → α) : Option α := (after (Sys2Proof.core.run n s)).map f

/-- Debug mode, the CPU waiting for an instruction, nothing pending (the start of vector B7 c). -/
def inDebug : State :=
  { State.reset with
    dbg := { State.reset.dbg with enable := true, inDebug := true, freeze := true }
    port := { State.reset.port with cpuWaiting := .instruction } }

/-- Debug mode enabled, the CPU running. -/
def enabled : State := { State.reset with dbg := { State.reset.dbg with enable := true } }

/-- The machine with these special purpose registers, and with a value in a general register. -/
def withSpr (s : State) (f : Sprs → Sprs) : State := { s with spr := f s.spr }

/-- User state. -/
def user (s : State) : State := { s with cpu := { s.cpu with msr := { s.cpu.msr with pr := true } } }

/-- MSR[RI] = 1. -/
def recoverable (s : State) : State := { s with cpu := { s.cpu with msr := { s.cpu.msr with ri := true } } }

/-! ## Every row runs -/

/-- Each row of the opcode table, its fields 0, as the table's match value, is decoded and answered by the first step after reset. -/
theorem test_every_row_steps : ∀ p ∈ ([(40, 0x400000000), (40, 0x500000000), (16, 0x300), (16, 0x380), (16, 0x381),
      (16, 0x382), (16, 0x3E3), (16, 0x3C3), (16, 0x39F), (16, 0x383),
      (16, 0x384), (16, 0x388), (16, 0x390), (16, 0x398), (16, 0x39C),
      (16, 0x39E), (32, 0x7C1022A6), (32, 0x7C1023A6), (32, 0x7C1122A6), (32, 0x7C1123A6),
      (32, 0x7C1222A6), (32, 0x7C1223A6), (32, 0x7C1322A6), (32, 0x7C1323A6), (32, 0x7C1422A6),
      (32, 0x7C1423A6), (32, 0x7C1522A6), (32, 0x7C1523A6), (32, 0x7C1622A6), (32, 0x7C1623A6),
      (32, 0x7C1722A6), (32, 0x7C1723A6), (32, 0x7C1822A6), (32, 0x7C1823A6), (32, 0x7C1922A6),
      (32, 0x7C1923A6), (32, 0x7C1A22A6), (32, 0x7C1A23A6), (32, 0x7C1B22A6), (32, 0x7C1B23A6),
      (32, 0x7C1C22A6), (32, 0x7C1C23A6), (32, 0x7C1D22A6), (32, 0x7C1D23A6), (32, 0x7C1E22A6),
      (32, 0x7C1E23A6), (32, 0x7C1F22A6), (32, 0x7C1F23A6), (32, 0x7C169AA6), (32, 0x7C169BA6),
      (32, 0x4C000064), (32, 0x7C0004AC), (32, 0x4C00012C), (32, 0x7C000124), (32, 0x97FE0004)] : List (Nat × Nat)),
    (decodeTableWord p.1 p.2).isSome = true ∧ (after (step (State.reset.withFetchWord p.1 p.2))).isSome = true := by decide

/-! ## The port (vectors B7) -/

/-- B7 b, line 1: a long frame outside debug mode is discarded and a sequencing error is pending; the answer is null. -/
theorem test_dpInsn_running : run 1 (State.reset.withFetchWord 40 0x460000000)
    (fun t => (t.port.seqErrPending, t.port.txStatus, t.port.txData, t.ir)) = some (true, 0b11, 0x7FFFFFFF, none) := by decide

/-- B7 e: the next answer carries the word of mtspr DPDR, and the instruction of the frame is delivered. -/
theorem test_dpInsn_answered_with_data :
    run 1 { inDebug with
        port := { inDebug.port with dpsr := 0x12345678, validData := true }, inputs := [.frame (.long false 0x60000000)] }
      (fun t => (t.port.txStatus, t.port.txData, t.port.validData, t.ir)) = some (0b00, 0x12345678, false, some 0x60000000) := by decide

/-- B7 c: data when an instruction is expected. -/
theorem test_dpData_to_a_fetch : see (.dpData 1) inDebug
    (fun t => (t.port.seqErrPending, t.port.cpuIntPending, t.port.cpuWaiting)) = some (true, true, .instruction) := by decide

/-- R373: the word goes to rD. -/
theorem test_dpData_to_a_read :
    see (.dpData 0xCAFEF00D) { inDebug with port := { inDebug.port with cpuWaiting := .data 31 } }
      (fun t => (t.reg 31, t.port.cpuWaiting)) = some (0xCAFEF00D, .instruction) := by decide

/-- B7 b, lines 2 and 3: with the error pending the frame is suppressed; without, it sets DIWP0EN. -/
theorem test_dpTe_suppressed_then_done :
    run 2 { State.reset with
        port := { State.reset.port with seqErrPending := true }
        inputs := [.frame (.short false 0b1000000), .frame (.short false 0b0000001)] }
      (fun t => (t.port.tecr.diwp0en, t.port.tecr.vsync, t.trace.vsyncChanged, t.port.txStatus)) = some (false, true, true, 0b11) := by
  decide

/-- B8 j: the trap enables show in ICTRL. -/
theorem test_dpTe_shows_in_ictrl :
    see (.dpTe true false false false false false false) (withSpr State.reset fun r => { r with ictrl := 0x80080807 })
      (fun t => t.ictrlView) = some 0x80080887 := by decide

/-- B7 f: a 10-bit answer to valid data takes the word; DP.NOP changes nothing else. -/
theorem test_dpNop_takes_the_data :
    run 1 { State.reset with
        port := { State.reset.port with dpsr := 0x12345678, validData := true }, inputs := [.frame (.short true 0)] }
      (fun t => (t.port.txStatus, t.port.txData.extractLsb' 25 7, t.port.validData)) = some (0b00, 0b0001001, false) := by decide

/-- B7 j. -/
theorem test_dpHreset : see (.dpHreset 2) State.reset (fun t => t.out) = some [.resetRequest true] := by decide

theorem test_dpSreset : see (.dpSreset 0) State.reset (fun t => t.out) = some [.resetRequest false] := by decide

/-- R388: the loop starts with `mfspr r31, DPDR`. -/
theorem test_dpStartdl : see .dpStartdl inDebug (fun t => (t.port.downloadInProgress, t.ir)) = some (true, some 0x7FF69AA6) := by decide

/-- B7 i. -/
theorem test_dpStartdl_running : see .dpStartdl State.reset (fun t => t == State.reset) = some true := by decide

theorem test_dpEnddl_without_download : see .dpEnddl inDebug (fun t => t == inDebug) = some true := by decide

/-- B7 k (U12). -/
theorem test_dpBrk_in_debug : see (.dpBrk true false) inDebug
    (fun t => (t.port.tecr.nmbrk, t.port.tecr.mbrk, t.dbg.reservedCommandSeen, t.spr.ecr)) = some (true, false, true, 0) := by decide

/-- B7 a: a reserved code changes no state but the flag (D3). -/
theorem test_reserved_commands : ∀ i ∈ ([.rsv00011 true, .rsv001 0 0, .rsv01 1 7, .rsv10 2 0, .rsv110 3 3, .rsv1110 0 true,
      .rsv11110 3] : List Instr),
    see i inDebug (fun t => t == { inDebug with dbg := { inDebug.dbg with reservedCommandSeen := true } }) = some true := by decide

/-- A11: the status words. -/
theorem test_status_words :
    State.reset.statusData.extractLsb' 25 7 = 0b0111111 ∧ inDebug.statusData = 0xFFFFFFFF ∧
      ({ inDebug with port := { inDebug.port with downloadInProgress := true } } : State).statusData = 0xBFFFFFFF := by decide

/-- R356: ten clocks make the transmission of B7 b, line 3; DSDO shows `0 11 0111111` (A11). -/
theorem test_serial_clocks :
    dsdoRun [true, true, false, true, false, false, false, false, false, false] State.reset =
        [false, true, true, false, true, true, true, true, true, true] ∧
      ((after (serialRun [true, true, false, true, false, false, false, false, false, false] State.reset)).map
        fun t => (t.port.tecr.diwp0en, t.port.shifted)) = some (true, 0) := by decide

/-- R388, R389: two words of a fast download. -/
theorem test_fast_download :
    run 6 { (inDebug.setReg 30 0x1000) with
        port := { inDebug.port with downloadInProgress := true, downloadStore := true, cpuWaiting := .data 31 }
        inputs := [.frame (.long true 0x11223344), .cpuStep, .cpuStep, .frame (.long true 0x55667788)] }
      (fun t => (t.reg 30, t.reg 31, Memory.readWord t.mem 0x1004, Memory.readWord t.mem 0x1008, t.port.cpuWaiting)) =
      some (0x1008, 0x55667788, 0x11223344, 0x55667788, .data 31) := by decide

/-! ## Register accesses (vectors B8) -/

/-- B8 a to c. -/
theorem test_mfsprEcr_clears :
    (see (.mfsprEcr 3) (withSpr State.reset fun r => { r with ecr := 4 }) fun t => (t.reg 3, t.spr.ecr)) = some (4, 0) ∧
      (see (.mfsprEcr 3) (withSpr enabled fun r => { r with ecr := 4 }) fun t => (t.reg 3, t.spr.ecr)) = some (4, 4) ∧
      (see (.mfsprEcr 3) (withSpr inDebug fun r => { r with ecr := 4 }) fun t => (t.reg 3, t.spr.ecr)) = some (4, 0) := by decide

/-- B8 d and B6 k: user state. -/
theorem test_mfsprEcr_user : see (.mfsprEcr 3) (user (withSpr State.reset fun r => { r with ecr := 4 }))
    (fun t => (t.reg 3, t.spr.ecr, t.cpu.pc)) = some (0, 0x00800004, 0x700) := by decide

/-- A register nothing has a side effect on: each mfspr reads its own register. -/
def distinct : Sprs :=
  { cmpa := 0x10, cmpb := 0x20, cmpc := 0x30, cmpd := 0x40, cmpe := 0x51, cmpf := 0x61, cmpg := 0x71, cmph := 0x81
    ictrl := 0x80080807, lctrl1 := 0x8350F3B8, lctrl2 := 0x83400002, counta := 0x00030001, countb := 0x00020002
    ecr := 0, der := 0x2002000F, bar := 0x12345678 }

theorem test_mfspr_reads_its_register : ∀ p ∈ ([(.mfsprCmpa 3, 0x10), (.mfsprCmpb 3, 0x20), (.mfsprCmpc 3, 0x30), (.mfsprCmpd 3, 0x40),
      (.mfsprDer 3, 0x2002000F), (.mfsprCounta 3, 0x00030001), (.mfsprCountb 3, 0x00020002), (.mfsprCmpe 3, 0x51),
      (.mfsprCmpf 3, 0x61), (.mfsprCmpg 3, 0x71), (.mfsprCmph 3, 0x81), (.mfsprLctrl1 3, 0x8350F3B8),
      (.mfsprLctrl2 3, 0x83400002), (.mfsprIctrl 3, 0x80080807), (.mfsprBar 3, 0x12345678)] : List (Instr × Word)),
    see p.1 { (withSpr State.reset fun _ => distinct) with countersSettled := true } (fun t => (t.reg 3, t.cpu.pc)) =
      some (p.2, 0x104) := by decide

/-- B8 k: the trap enables show in LCTRL2. -/
theorem test_mfsprLctrl2_shows_trap_enables :
    see (.mfsprLctrl2 3) { (withSpr State.reset fun _ => distinct) with
        port := { State.reset.port with tecr := { State.reset.port.tecr with dlw1en := true } } }
      (fun t => t.reg 3) = some 0x83400006 := by decide

/-- B8 q and s: outside debug mode the CPU does not wait, in it it waits for data. -/
theorem test_mfsprDpdr : see (.mfsprDpdr 3) State.reset (fun t => (t.port.cpuWaiting, t.cpu.pc)) = some (.none, 0x104) ∧
    see (.mfsprDpdr 3) inDebug (fun t => t.port.cpuWaiting) = some (.data 3) := by decide

/-- B8 r and t. -/
theorem test_mtsprDpdr :
    see (.mtsprDpdr 3) (State.reset.setReg 3 0x12345678) (fun t => (t.port.dpsr, t.port.validData)) = some (0, false) ∧
      see (.mtsprDpdr 3) (inDebug.setReg 3 0x12345678) (fun t => (t.port.dpsr, t.port.validData)) = some (0x12345678, true) := by
  decide

/-- B8 m, l, p, u: the registers whose write is reported as sequential; each write goes to its own register. -/
theorem test_mtspr_plain : ∀ p ∈ ([(.mtsprCmpg 3, { State.reset.spr with cmpg := 0xFFFFFFFF }),
      (.mtsprCmph 3, { State.reset.spr with cmph := 0xFFFFFFFF }), (.mtsprLctrl1 3, { State.reset.spr with lctrl1 := 0xFFFFFFFC }),
      (.mtsprLctrl2 3, { State.reset.spr with lctrl2 := 0xFFFFF803 }), (.mtsprBar 3, { State.reset.spr with bar := 0xFFFFFFFF }),
      (.mtsprCounta 3, { State.reset.spr with counta := 0xFFFF0003 }),
      (.mtsprCountb 3, { State.reset.spr with countb := 0xFFFF0003 })] : List (Instr × Sprs)),
    see p.1 (State.reset.setReg 3 0xFFFFFFFF) (fun t => t.spr) = some p.2 := by decide

/-- R107: a write of a counter does not make the next read exact. -/
theorem test_mtsprCounta_does_not_settle : see (.mtsprCounta 3) State.reset (fun t => t.countersSettled) = some false := by decide

/-- B8 o. -/
theorem test_mtsprCounta : see (.mtsprCounta 3) (State.reset.setReg 3 0x0005FFFD) (fun t => t.spr.counta) = some 0x00050001 := by decide

/-- What a marked mtspr leaves in the special purpose registers does not depend on the drawn report. -/
theorem see_marked (x : State) : (after (.next x.completeMarked)).map (fun t => t.spr) = some x.spr :=
  congrArg some (State.completeMarked_spr x)

/-- B8 n, e, i, h: the writes that Table 21-1 marks; each goes to its own register, reserved bits 0. -/
theorem test_mtsprCmpa : see (.mtsprCmpa 3) (State.reset.setReg 3 0x00001003) (fun t => t.spr) =
    some { State.reset.spr with cmpa := 0x00001000 } := see_marked _

theorem test_mtsprCmpb : see (.mtsprCmpb 3) (State.reset.setReg 3 0x00001003) (fun t => t.spr) =
    some { State.reset.spr with cmpb := 0x00001000 } := see_marked _

theorem test_mtsprCmpc : see (.mtsprCmpc 3) (State.reset.setReg 3 0x00001003) (fun t => t.spr) =
    some { State.reset.spr with cmpc := 0x00001000 } := see_marked _

theorem test_mtsprCmpd : see (.mtsprCmpd 3) (State.reset.setReg 3 0x00001003) (fun t => t.spr) =
    some { State.reset.spr with cmpd := 0x00001000 } := see_marked _

theorem test_mtsprCmpe : see (.mtsprCmpe 3) (State.reset.setReg 3 0x00000003) (fun t => t.spr) =
    some { State.reset.spr with cmpe := 0x00000003 } := see_marked _

theorem test_mtsprCmpf : see (.mtsprCmpf 3) (State.reset.setReg 3 0x00000003) (fun t => t.spr) =
    some { State.reset.spr with cmpf := 0x00000003 } := see_marked _

theorem test_mtsprDer : see (.mtsprDer 3) (State.reset.setReg 3 0xFFFFFFFF) (fun t => t.spr) =
    some { State.reset.spr with der := 0x73E7540F } := see_marked _

/-- B8 f: not performed, no exception. -/
theorem test_mtsprDer_not_performed : see (.mtsprDer 3) enabled (fun t => t.spr) = some State.reset.spr := see_marked _

theorem test_mtsprIctrl : see (.mtsprIctrl 3) (State.reset.setReg 3 0xFFFFFFFF) (fun t => t.spr) =
    some { State.reset.spr with ictrl := 0xFFFFFF0F } := see_marked _

theorem test_mtsprEcr : see (.mtsprEcr 3) (withSpr (State.reset.setReg 3 0xFFFFFFFF) fun r => { r with ecr := 4 })
    (fun t => t.spr.ecr) = some 4 := congrArg (Option.map Sprs.ecr) (see_marked (withSpr (State.reset.setReg 3 0xFFFFFFFF) fun r => { r with ecr := 4 }))

/-! ## The other CPU instructions -/

/-- B6 f: rfi with an enabled event still recorded stays in debug mode with freeze asserted. -/
theorem test_rfi_reenters : see .rfi (withSpr { inDebug with cpu := { inDebug.cpu with srr0 := 0x4000 } } fun r => { r with ecr := 4 })
    (fun t => (t.dbg.inDebug, t.dbg.freeze, t.cpu.srr0, t.spr.ecr)) = some (true, true, 0x4000, 4) := by decide

/-- B6 d: rfi after the read of ECR. -/
theorem test_rfi_negates_freeze :
    see .rfi { State.reset with dbg := { State.reset.dbg with freeze := true }, cpu := { State.reset.cpu with srr0 := 0x4000 } }
      (fun t => (t.dbg.freeze, t.cpu.pc, t.trace.pending)) = some (false, 0x4000, [.indirect]) := by decide

/-- R107. -/
theorem test_sync : see .sync { State.reset with countersSettled := false } (fun t => (t.countersSettled, t.cpu.pc)) =
    some (true, 0x104) := by decide

/-- R180. -/
theorem test_isync : see .isync State.reset (fun t => (t.trace.pending, t.trace.nextFlow, t.cpu.pc)) =
    some ([.indirect], .indirect, 0x104) := by decide

theorem test_mtmsr : see (.mtmsr 3) State.reset (fun t => (t.trace.pending, t.trace.nextFlow, t.cpu.pc)) =
    some ([.indirect], .indirect, 0x104) := by decide

/-- R146: stores r31 at r30 + 4 and updates r30, here across the top of the address space. -/
theorem test_stwu_wraps : see .stwu ((State.reset.setReg 30 0xFFFFFFFA).setReg 31 0x11223344)
    (fun t => (t.reg 30, t.mem)) = some (0xFFFFFFFE, [(0, 0x33), (1, 0x44), (0xFFFFFFFE, 0x11), (0xFFFFFFFF, 0x22)]) := by decide

/-- R146: any registers, and a displacement of -4. -/
theorem test_stwu_registers : (after (executeWord 0x9464FFFC ((State.reset.setReg 3 0x11223344).setReg 4 0x104))).map
    (fun t => (t.reg 4, t.reg 3, Memory.readWord t.mem 0x100, t.cycles)) =
      some (0x100, 0x11223344, 0x11223344, [⟨0x100, .word, true, 0x11223344⟩]) := by decide

/-- R315, B6 g: refused in debug mode. -/
theorem test_stwu_refused : see .stwu { (inDebug.setReg 30 0x100) with faultMap := [⟨.write, 0x104, 0x104, .dataProtection⟩] }
    (fun t => (t.reg 30, t.mem, t.spr.ecr, t.port.cpuIntPending, t.port.cpuWaiting)) =
      some (0x100, [], 0x400, true, .instruction) := by decide

/-! ## Events (vectors A4, B6), reset (B9) -/

/-- A4: the six rows: ECR, check stop, debug mode, freeze. -/
theorem test_check_stop_table : (([(false, false, 0x2002000F, 0x20000000, true, false, true),
      (true, false, 0x2002000F, 0x10000000, false, false, false), (false, true, 0x0002000F, 0x20000000, true, false, false),
      (false, true, 0x2002000F, 0x20000000, false, true, true), (true, true, 0x2002000F, 0x10000000, false, false, false),
      (true, true, 0x3002000F, 0x10000000, false, true, true)] : List (Bool × Bool × Word × Word × Bool × Bool × Bool)).all fun (me, enable, der, row) =>
    run 1 { State.reset with
        cpu := { State.reset.cpu with msr := { State.reset.cpu.msr with me := me } }
        dbg := { State.reset.dbg with enable := enable }
        spr := { State.reset.spr with der := der }
        lines := { State.reset.lines with machineCheck := true } }
      (fun t => (t.spr.ecr, t.dbg.checkStop, t.dbg.inDebug, t.dbg.freeze)) == some row) = true := by decide

/-- The machine of B6 a to c: a system call under this enable latch and DER. -/
def systemCall (s : State) (der : Word) : State := (withSpr s fun r => { r with der := der }).takeAt .systemCall 0x200

/-- B6 a to c: the system call. -/
theorem test_system_call_to_handler :
    (fun t : State => (t.spr.ecr, t.dbg.inDebug, t.dbg.freeze, t.cpu.pc)) (systemCall enabled 0x2002000F) =
      (0x00040000, false, false, 0xC00) := by decide

theorem test_system_call_to_debug_mode :
    (fun t : State => (t.spr.ecr, t.dbg.inDebug, t.dbg.freeze, t.cpu.msr.pr, t.cpu.msr.ee)) (systemCall enabled 0x2006000F) =
        (0x00040000, true, true, false, false) ∧
      (fun t : State => (t.out, t.vfls, t.port.cpuWaiting)) (systemCall enabled 0x2006000F) =
        ([.vf 0b100, .vf 0b000], 0b11, .instruction) := by decide

theorem test_system_call_debug_disabled :
    (fun t : State => (t.spr.ecr, t.dbg.inDebug, t.dbg.freeze, t.cpu.pc)) (systemCall State.reset 0x2006000F) =
      (0x00040000, false, true, 0xC00) := by decide

/-- B6 h: the maskable breakpoint waits for MSR[RI]; with it, it is taken after the instruction. -/
def maskableRequest : State := { enabled with port := { enabled.port with tecr := { enabled.port.tecr with mbrk := true } } }

theorem test_maskable_breakpoint :
    maskableRequest.lowEvent.spr.ecr = 0 ∧
      (fun t : State => (t.spr.ecr, t.dbg.inDebug)) (recoverable maskableRequest).lowEvent = (2, true) := by decide

/-- B6 i: the non-maskable one does not. -/
theorem test_nonmaskable_breakpoint :
    run 1 { enabled with port := { enabled.port with tecr := { enabled.port.tecr with nmbrk := true } } }
      (fun t => (t.spr.ecr, t.dbg.inDebug, t.dbg.nonRestartable, t.cpu.srr0)) = some (1, true, true, 0x100) := by decide

/-- A13: exception relocation with MSR[IP] = 1. -/
theorem test_vectors : vectorAddr true .instrBreakpoint = 0xFFF01D00 ∧ vectorAddr true .loadStoreBreakpoint = 0xFFF01C00 ∧
    vectorAddr true .externalBreakpoint = 0xFFF01E00 ∧ vectorAddr true .devPortInterrupt = 0xFFF01F00 := by decide

/-- B9: the five rows: enable, in debug mode, ECR, freeze, clock mode, what the CPU waits for. -/
theorem test_reset_rows : (([(⟨false, true, false, false, false⟩, false, false, 0, false, .async, .none),
      (⟨true, false, false, false, false⟩, true, false, 0, false, .async, .none),
      (⟨true, true, false, false, false⟩, true, true, 1, true, .async, .instruction),
      (⟨true, true, true, false, false⟩, true, true, 1, true, .syncSelfClock, .instruction),
      (⟨false, false, true, false, false⟩, false, false, 0, false, .syncSelfClock, .none)] :
        List (ResetPins × Bool × Bool × Word × Bool × ClockMode × CpuWaiting)).all fun (pins, row) =>
    (fun t : State => (t.dbg.enable, t.dbg.inDebug, t.spr.ecr, t.dbg.freeze, t.port.clockMode, t.port.cpuWaiting))
      (inDebug.applyReset pins) == row) = true := by decide

/-- R9, R483: the reset vector under the base the environment's MSR[IP] selects. -/
theorem test_reset_base : (State.reset.applyReset ⟨false, false, false, false, true⟩).cpu.pc = 0xFFF00100 ∧
    (State.reset.applyReset ⟨false, false, false, false, false⟩).cpu.pc = 0x100 := by decide

/-- The words sync, and isync then sync, at 0x100. -/
def syncAt100 : List Host.Cell := [(0x100, 0x7C), (0x102, 0x04), (0x103, 0xAC)]
def isyncAt100 : List Host.Cell := [(0x100, 0x4C), (0x102, 0x01), (0x103, 0x2C), (0x104, 0x7C), (0x106, 0x04), (0x107, 0xAC)]

/-- R480, event 13: the trace event is taken after the traced instruction, and not after another. -/
theorem test_trace_event :
    (run 1 { State.reset with mem := syncAt100, traced := ⟨some 0x40, false⟩ } fun t => (t.spr.ecr, t.cpu.pc, t.cpu.srr0, t.traced.insn)) =
        some (0x00020000, 0xD00, 0x104, none) ∧
      (run 1 { State.reset with mem := syncAt100, traced := ⟨some 0x41, false⟩ } fun t => (t.spr.ecr, t.cpu.pc, t.traced.insn)) =
        some (0, 0x104, some 0x41) := by decide

/-- R315, R21: inside debug mode the trace event of the delivered instruction is recorded and pulses ECR_OR; that of an instruction
at the pc, which has not been executed, is not. -/
theorem test_trace_event_in_debug :
    (run 1 { inDebug with ir := some 0x7C0004AC, traced := ⟨none, true⟩ }
      fun t => (t.spr.ecr, t.out, t.port.cpuIntPending, t.dbg.inDebug, t.traced.delivered)) =
        some (0x00020000, [.ecrOr], true, true, false) ∧
      (run 1 { inDebug with ir := some 0x7C0004AC, traced := ⟨some 0x40, false⟩ } fun t => (t.spr.ecr, t.out, t.traced.insn)) =
        some (0, [], some 0x40) := by decide

/-- R482: a traced mfspr DPDR raises it when its data arrives, though a machine check was recorded while it waited. -/
theorem test_trace_event_of_a_wait :
    run 2 { inDebug with
      ir := some 0x7C769AA6, traced := ⟨none, true⟩
      inputs := [.cpuStep, .machineCheck] } (fun t => (t.port.cpuWaiting, t.spr.ecr, t.traced.delivered)) =
        some (.data 3, 0, true) ∧
      run 5 { inDebug with
        ir := some 0x7C769AA6, traced := ⟨none, true⟩
        inputs := [.cpuStep, .machineCheck, .peripheral false, .frame (.short true 0), .frame (.long true 5)] }
        (fun t => (t.reg 3, t.spr.ecr, t.traced.delivered)) = some (5, 0x20020000, false) := by decide

/-! ## Program trace (vectors A5, B1) -/

/-- A5. -/
theorem test_window_start : windowStart (fun a => a + 0x40) 0b001 0x1004 0x2000 = some 0x1004 ∧
    windowStart (fun a => a + 0x40) 0b110 0x1004 0x2000 = some 0x1040 ∧
    windowStart (fun a => a + 0x40) 0b101 0x1004 0x2000 = some 0x2000 := by decide

/-- B1 a. -/
theorem test_vf_stream : readStream .type [0b001, 0b001, 0b110, 0b010, 0b001, 0b101, 0b000, 0b111, 0b111, 0b011, 0b000, 0b011, 0b100] =
    [.type .sequential, .type .sequential, .type .direct, .flush 2, .type .sequential, .type .indirect, .flush 0,
      .type .notTakenFlush, .type .notTakenFlush, .flush 3, .type .none, .vsync, .type .exception] := by decide

/-- B1 b: address reconstruction; the branch at 0x108 goes to 0x140. -/
theorem test_reconstruction :
    (([0b001, 0b001, 0b110, 0b000, 0b001, 0b101, 0b000, 0b001] : List (BitVec 3)).foldl
      (fun r v => Recording.clock (fun a => if a = 0x108 then 0x140 else a) r v 0) ⟨[], 0x100, [0x200], .type⟩).fetched.reverse =
      [0x100, 0x104, 0x108, 0x140, 0x144, 0x200] := by decide

/-- R188: five bits a clock, thirty a show cycle. -/
theorem test_trace_volume : inDebug.tracePins = 0b00011 ∧ traceVolume 8 2 = 100 := by decide

/-- R188: the stream of B1 b compressed; a flush of two that cancels a branch and its predecessor; a history buffer flush of one. -/
theorem test_compressed_trace :
    compressTrace [0b00100, 0b00100, 0b11000, 0b00000, 0b00100, 0b10100, 0b00000, 0b00100] =
        ([⟨2, .type .direct⟩, ⟨1, .type .indirect⟩], 1) ∧
      compressTrace [0b00100, 0b01000, 0b11000, 0b01000] = ([], 1) ∧ compressTrace [0b00100, 0b00100, 0b00101] = ([], 2) := by decide

/-- R180: what was fetched ahead of an isync is fetched again behind it, as a program trace cycle. -/
theorem test_isync_refetches :
    run 5 { State.reset with mem := isyncAt100, inputs := [.fetch 0x40 .sequential, .fetch 0x41 .sequential, .cpuStep, .cpuStep, .cpuStep] }
      (fun t => (t.trace.showQueue, t.cpu.pc, t.inflight)) =
      some ([⟨0x40, .indirect, 0⟩, ⟨0x41, .sequential, 1⟩, ⟨0x41, .indirect, 2⟩], 0x108, []) := by decide

/-- A VSYNC change at a type slot, with this VSYNC, with these types to report and this class due to the next fetch. -/
def changed (vsync : Bool) (pending : List VfType) (next : Flow) : State :=
  { State.reset with
    trace := { State.reset.trace with vsyncChanged := true, pending := pending, nextFlow := next }
    port := { State.reset.port with tecr := { State.reset.port.tecr with vsync := vsync } } }

/-- R178, D31: the report waits for executed instructions to be reported and, for a negation, for an owed target to be fetched. -/
theorem test_vsync_report_waits :
    ((changed true [.sequential] .sequential).clock .stall 0 0).trace.vf = 0b000 ∧
      ((changed true [] .indirect).clock .stall 0 0).trace.vf = 0b011 ∧
      ((changed false [] .indirect).clock .stall 0 0).trace.vf = 0b000 ∧
      ((changed false [] .sequential).clock .stall 0 0).trace.vf = 0b011 := by decide

/-- R187, U11: the last two types before a negation's report are any values; after them a type waits, and the report ends the count. -/
theorem test_last_two_reports :
    (fun s : State => (s.trace.vf, s.trace.pending, s.trace.lastReports))
        (((changed false [.sequential, .notTaken] .sequential).clock (.last .notTaken) 0 0).clock (.last .sequential) 0 0) =
        (0b001, [], 2) ∧
      (fun s : State => (s.trace.vf, s.trace.pending, s.trace.lastReports))
        ((((changed false [.sequential, .sequential] .sequential).clock (.last .notTaken) 0 0).clock .next 0 0).clock .next 0 0) =
        (0b011, [], 0) ∧
      (fun s : State => (s.trace.vf, s.trace.pending, s.trace.lastReports))
        ((((changed false [.sequential, .sequential, .notTaken] .sequential).clock (.last .notTaken) 0 0).clock .next 0 0).clock .next 0 0) =
        (0b000, [.notTaken], 2) := by decide

/-- R191: with ISCTL = 11 no fetch is shown once VSYNC is negated, also before the report. -/
theorem test_negation_shows : (fun s : State => (s.fetchShown .indirect, s.fetchShown .direct))
    (withSpr { changed false [] .sequential with inflight := [⟨0, 0, ⟨false, false, false, false⟩, none, .sequential, 0⟩] }
      fun r => { r with ictrl := 7 }) = (false, false) := by decide

/-- B1 f: the five rows, for sequential, direct and indirect fetches. -/
theorem test_shown : (([(0b100#3, false, true, true, true), (0b101, false, false, true, true), (0b110, false, false, false, true),
      (0b111, false, false, false, false), (0b111, true, false, false, true)] : List (BitVec 3 × Bool × Bool × Bool × Bool)).all fun (isct, visible, row) =>
    (shownFetch isct visible .sequential, shownFetch isct visible .direct, shownFetch isct visible .indirect) == row) = true := by decide

/-! ## Watchpoints and breakpoints (vectors A1, A2, B2 to B5) -/

/-- The registers of A1. -/
def a1 : Sprs :=
  { State.reset.spr with
    cmpe := 3, cmpg := 7, cmph := 0xC, lctrl1 := 0x8350F3B8, lctrl2 := 0x83400002 }

def noIwp : Iwp := ⟨false, false, false, false⟩

/-- A1, rows a to l. -/
theorem test_byte_watch : (([(⟨3, .byte, true, 9⟩, true), (⟨3, .byte, false, 8⟩, true), (⟨3, .byte, false, 0xB⟩, true),
      (⟨3, .byte, false, 7⟩, false), (⟨3, .byte, false, 0xC⟩, false), (⟨0, .word, false, 0x11223309⟩, true),
      (⟨0, .word, false, 0x0909090C⟩, false), (⟨2, .half, true, 9⟩, true), (⟨2, .half, true, 0x900⟩, false),
      (⟨2, .byte, false, 0x900⟩, false), (⟨4, .word, false, 9⟩, false), (⟨0, .half, false, 0x90000⟩, false)] :
        List (LsCycle × Bool)).all fun (c, hit) =>
    lwpCycle a1 noIwp 0 c == hit) = true := by decide

/-- The registers of A2. -/
def a2 : Sprs :=
  { State.reset.spr with
    cmpe := 0, cmpf := 0xC, cmpg := 0x4E204E20, cmph := 0x9C409C40, lctrl1 := 0xD750A000, lctrl2 := 0x8B400002 }

/-- A2: half-words between two bounds. -/
theorem test_half_word_range : (([(⟨4, .half, true, 0x60000000⟩, true), (⟨2, .half, false, 0x5000⟩, true),
      (⟨0, .half, false, 0x60000000⟩, false), (⟨0xA, .half, false, 0x6000⟩, true), (⟨0xC, .half, false, 0x60000000⟩, false),
      (⟨4, .half, false, 0x4E200000⟩, false), (⟨4, .half, false, 0x4E210000⟩, true), (⟨4, .half, false, 0x9C3F0000⟩, true),
      (⟨4, .half, false, 0x9C400000⟩, false), (⟨4, .word, false, 0x60001000⟩, true), (⟨4, .word, false, 0x4E209C40⟩, false),
      (⟨8, .word, false, 0x10001000⟩, false), (⟨5, .byte, true, 0x600000⟩, false), (⟨0, .word, false, 0x60006000⟩, false)] :
        List (LsCycle × Bool)).all fun (c, hit) =>
    lwpCycle a2 noIwp 0 c == hit) = true := by decide

/-- B2 a: the two range options, IWP0 (A and B) and IWP1 (A or B). -/
theorem test_instruction_range : (([(0xF8, false, true), (0xFC, false, true), (0x100, true, true), (0x1FC, true, true),
      (0x200, false, true), (0x204, false, true)] : List (Word × Bool × Bool)).all fun (a, w0, w1) =>
    iwpOf { State.reset.spr with ictrl := 0xD40F0807, cmpa := 0xFC, cmpb := 0x200 } (fieldOf a 0 30) == ⟨w0, w1, false, false⟩) = true := by decide

/-- B2 c. -/
theorem test_equal_and_not_equal : (([(0x2000, false, false), (0x2004, true, true), (0x2008, true, false)] :
      List (Word × Bool × Bool)).all fun (a, w2, w3) =>
    iwpOf { State.reset.spr with ictrl := 0x03C0A107, cmpc := 0x2000, cmpd := 0x2004 } (fieldOf a 0 30) == ⟨false, false, w2, w3⟩) = true := by decide

/-- B3 c: signed against unsigned. -/
theorem test_signed_compare : (([(1, true, false), (0x80000000, true, true), (0xFFFFFFFE, true, true),
      (0xFFFFFFFF, false, false)] : List (Word × Bool × Bool)).all fun (d, unsigned, signed) =>
    (gMatch { State.reset.spr with cmpg := 0xFFFFFFFF, lctrl1 := 0x02804000 } ⟨0x100, .word, false, d⟩ 0,
      gMatch { State.reset.spr with cmpg := 0xFFFFFFFF, lctrl1 := 0x02804800 } ⟨0x100, .word, false, d⟩ 0) == (unsigned, signed)) = true := by decide

/-- The four validated indications of comparator G. -/
def gm (r : Sprs) (c : LsCycle) : List Bool := [gMatch r c 0, gMatch r c 1, gMatch r c 2, gMatch r c 3]

/-- B3 e, f, g, h: partly and wholly masked units, the reserved size, byte mode signed and unsigned. -/
theorem test_unit_matches :
    gm { State.reset.spr with cmpg := 0x12FF0000, lctrl1 := 0x02008100 } ⟨0x200, .word, false, 0x12341299⟩ = [true, true, false, false] ∧
      gm { State.reset.spr with lctrl1 := 0x0380C3C0 } ⟨0x200, .word, false, 0x12345678⟩ = [false, false, false, false] ∧
      gm { State.reset.spr with lctrl1 := 0x02000000 } ⟨0x200, .word, false, 0⟩ = [false, false, false, false] ∧
      gm { State.reset.spr with lctrl1 := 0x0280C800 } ⟨0x200, .word, false, 0x80FF7F00⟩ = [true, true, false, false] ∧
      gm { State.reset.spr with cmpg := 0x80808080, lctrl1 := 0x0280C000 } ⟨0x200, .word, false, 0x80FF7F00⟩ =
        [false, false, true, true] := by decide

/-- The machine of vectors B4 and B5: MSR[RI] = 1, an rfi at 0x100 that returns to 0x100, comparator A equal to 0x100. -/
def matching (ictrl counta : Word) : State :=
  recoverable
    { State.reset with
      spr := { State.reset.spr with ictrl := ictrl, counta := counta, cmpa := 0x100 }
      cpu := { State.reset.cpu with srr0 := 0x100, srr1 := ⟨⟨true, false, false, false, false⟩, false, false, false, false⟩ }
      mem := [(0x100, 0x4C), (0x103, 0x64)] }

/-- B4 a: the third match is not executed and the counter reads ONE. -/
theorem test_counter_expires_at_one :
    (run 2 (matching 0x80080007 0x00030001) fun t => (t.spr.counta, t.spr.ecr)) = some (0x00010001, 0) ∧
      (run 3 (matching 0x80080007 0x00030001) fun t => (t.spr.counta, t.spr.ecr, t.cpu.srr0)) = some (0x00010001, 4, 0x100) := by
  decide

/-- R263: in the routine of its expiry counter A reads exactly, after other instructions too, until an rfi; not in debug mode. -/
theorem test_expired_counter_reads_exactly :
    (run 3 (matching 0x80080007 0x00030001) fun t => (t.countersSettled, t.expired)) = some (false, ⟨true, false⟩) ∧
      see .isync { State.reset with expired := ⟨true, false⟩ } (fun t => t.expired) = some ⟨true, false⟩ ∧
      see .rfi { State.reset with expired := ⟨true, false⟩ } (fun t => t.expired) = some ⟨false, false⟩ ∧
      (inDebug.noteExpired true false).expired = ⟨false, false⟩ := by decide

/-- B4 d, e: a wrap without breakpoint; masked mode. -/
theorem test_counter_wrap_and_mask :
    (run 1 (matching 0x80080007 0x00000001) fun t => (t.spr.counta, t.spr.ecr)) = some (0xFFFF0001, 0) ∧
      (run 1 { matching 0x80080007 0x00010001 with cpu := State.reset.cpu } fun t => (t.spr.counta, t.spr.ecr, t.out)) =
        some (0x00010001, 0, [.watchpoint .iwp0]) := by decide

/-- B5 a: the first match is ignored and clears IFM, the second is taken. -/
theorem test_ignore_first_match :
    (run 1 (matching 0x8008080F 0) fun t => (t.spr.ictrl, t.spr.ecr, t.out)) = some (0x80080807, 0, [.watchpoint .iwp0]) ∧
      (run 2 (matching 0x8008080F 0) fun t => (t.spr.ictrl, t.spr.ecr)) = some (0x80080807, 4) := by decide

/-- B4 h, i: expiry and IFM, trap enable and counter. -/
theorem test_expiry_not_ignored :
    (run 1 (matching 0x8008000F 0x00010001) fun t => (t.spr.ictrl, t.spr.ecr)) = some (0x8008000F, 4) ∧
      (run 1 (matching 0x80080807 0x00050001) fun t => (t.spr.counta, t.spr.ecr)) = some (0x00050001, 4) := by decide

/-- A load/store breakpoint: the stwu at 0x100 stores to 0x1000, and comparator E is equal to it (B5 d's registers). -/
def storing (countb lctrl2 : Word) : State :=
  recoverable
    { (State.reset.setReg 30 0xFFC) with
      spr := { State.reset.spr with lctrl1 := 0x80000000, lctrl2 := lctrl2, cmpe := 0x1000, countb := countb }
      mem := [(0x100, 0x97), (0x101, 0xFE), (0x103, 0x04)] }

/-- R254, R259: after the instruction, BAR written, SRR0 the next address. -/
theorem test_load_store_breakpoint : (run 1 (storing 0 0x82000002) fun t => (t.spr.ecr, t.spr.bar, t.cpu.srr0, t.reg 30)) =
    some (8, 0x1000, 0x104, 0x1000) := by decide

/-- B4 b: the second count, here from ONE, raises the breakpoint and the counter reads ZERO. -/
theorem test_load_store_counter : (run 1 (storing 0x00010002 0x00220000) fun t => (t.spr.countb, t.spr.ecr, t.spr.bar)) =
    some (0x00000002, 8, 0x1000) := by decide

/-! ## For each statement a case that meets its hypotheses, one for each clause -/

/-- User state inside debug mode; a running CPU with a data transmission waited for, and so on: the machines of the witnesses. -/
def waiting (w : CpuWaiting) : State := { inDebug with port := { inDebug.port with cpuWaiting := w } }

def downloading (ending : Bool) : State :=
  { inDebug with port := { inDebug.port with downloadInProgress := true, endRequested := ending, cpuWaiting := .data 31 } }

def withMem (s : State) (m : List Host.Cell) : State := { s with mem := m }

/-- The word rfi at 0x100. -/
def rfiAt100 : List Host.Cell := [(0x100, 0x4C), (0x103, 0x64)]

theorem witness_DecodeInvertsEncode : (Instr.mtmsr 31).WellFormed ∧ (Instr.mfsprDpdr 0).WellFormed ∧ (Instr.dpInsn 0xFFFFFFFF).WellFormed ∧
    Instr.sync.WellFormed := by decide

theorem witness_DecodedBitsAreTheEncoding : decodeWord? 0x7FF69AA6 = some (.mfsprDpdr 31) ∧ decodeWord? 0x7C0004AC = some .sync := by decide

theorem witness_ReservedNopAndResetCommands : ∀ i ∈ ([.rsv00011 false, .rsv00011 true, .rsv001 0 0, .rsv01 0 0, .rsv10 0 0, .rsv110 0 0,
    .rsv1110 0 false, .rsv11110 3] : List Instr), isReservedCommand i = true := by decide

theorem witness_DownloadCommands :
    (inDebug.dbg.inDebug = true ∧ inDebug.port.downloadInProgress = false ∧ inDebug.port.cpuWaiting = .instruction) ∧
      ((waiting (.data 31)).dbg.inDebug = true ∧ (waiting (.data 31)).port.downloadInProgress = false ∧
        (waiting (.data 31)).port.cpuWaiting ≠ .instruction) ∧
      ((downloading false).dbg.inDebug = true ∧ (downloading false).port.downloadInProgress = true) ∧
      State.reset.dbg.inDebug = false := by decide

theorem witness_InstructionTransmissionDelivers : inDebug.dbg.inDebug = true ∧ inDebug.port.cpuWaiting = .instruction := by decide

theorem witness_DataTransmissionCompletesRead :
    ((waiting (.data 31)).dbg.inDebug = true ∧ (waiting (.data 31)).port.cpuWaiting = .data 31 ∧ 31 < 32 ∧
      ((waiting (.data 31)).port.downloadInProgress && (waiting (.data 31)).port.endRequested) = false) ∧
      ((downloading false).port.cpuWaiting = .data 31 ∧
        ((downloading false).port.downloadInProgress && (downloading false).port.endRequested) = false) ∧
      (downloading true).dbg.inDebug = true ∧ (downloading true).port.cpuWaiting = .data 31 ∧
      ((downloading true).port.downloadInProgress && (downloading true).port.endRequested) = true ∧ (downloading true).ir = none := by
  decide

theorem witness_SequencingErrorOutsideDebug : State.reset.dbg.inDebug = false ∧ State.reset.port.validData = false := by decide

theorem witness_SequencingErrorInDebug :
    (inDebug.dbg.inDebug = true ∧ Instr.dpData 1 = .dpData 1 ∧ inDebug.port.cpuWaiting = .instruction) ∧
      (waiting (.data 0)).dbg.inDebug = true ∧ Instr.dpInsn 1 = .dpInsn 1 ∧ (waiting (.data 0)).port.cpuWaiting = .data 0 := by decide

/-- A machine, in debug mode, with these three pending conditions of the port. -/
def pending (valid err int : Bool) : State :=
  { inDebug with port := { inDebug.port with validData := valid, seqErrPending := err, cpuIntPending := int } }

theorem witness_AnswerByPriority :
    (pending true true true).port.validData = true ∧
      ((pending false true true).port.validData = false ∧ (pending false true true).port.seqErrPending = true) ∧
      ((pending false false true).port.validData = false ∧ (pending false false true).port.seqErrPending = false ∧
        (pending false false true).port.cpuIntPending = true ∧ (pending false false true).dbg.inDebug = true) ∧
      State.reset.port.validData = false ∧ State.reset.port.seqErrPending = false ∧ State.reset.port.cpuIntPending = false := by
  decide

theorem witness_SuppressedTransmissionIgnored :
    ((pending false true true).ready = true ∧ (pending false true true).port.validData = false ∧
      (pending false true true).port.seqErrPending = true) ∧
      (pending false false true).ready = true ∧ (pending false false true).port.validData = false ∧
      (pending false false true).port.cpuIntPending = true ∧ (pending false false true).dbg.inDebug = true := by decide

theorem witness_ReadyRule :
    State.reset.port.shifted = 0 ∧ (waiting .none).ready = false ∧ (waiting .none).port.shifted = 0 ∧
      State.reset.dbg.inDebug = false ∧ State.reset.ready = true ∧ inDebug.ready = true := by decide

/-- After a reset with DSDI high, into debug mode. -/
def holding : State := { inDebug with port := { inDebug.port with scanHold := true } }

theorem witness_SerialClocksMakeTheTransmission :
    (State.reset.ready = true ∧ State.reset.port.scanHold = false ∧ inDebug.ready = true ∧ inDebug.port.scanHold = false) ∧
      holding.port.shifted = 0 ∧ holding.port.scanHold = true := by decide

/-- R48, R371: the port is ready while the CPU waits, whatever DSDI was at reset; R543: it does not scan yet. -/
theorem test_ready_while_holding : holding.ready = true ∧ holding.dsdo = false ∧ (holding.serialClock true).1 = holding := by decide

theorem witness_ReadsDeliverTheRegister :
    State.reset.supervisor = true ∧ inDebug.supervisor = true ∧ 31 < 32 ∧
      ∀ v : Word, (Instr.mfsprBar 31, v) ∈
      [(.mfsprCmpa 31, 0), (.mfsprCmpb 31, 0), (.mfsprCmpc 31, 0), (.mfsprCmpd 31, 0), (.mfsprDer 31, 0), (.mfsprCmpe 31, 0),
        (.mfsprCmpf 31, 0), (.mfsprCmpg 31, 0), (.mfsprCmph 31, 0), (.mfsprLctrl1 31, 0), (.mfsprLctrl2 31, 0), (.mfsprIctrl 31, 0),
        (.mfsprBar 31, v)] :=
  ⟨rfl, rfl, by decide, fun _ => by simp⟩

theorem witness_EcrReadClears : (withSpr enabled fun r => { r with ecr := 4 }).supervisor = true ∧ inDebug.supervisor = true ∧ 0 < 32 := by
  decide

/-- A machine in supervisor state with this counter, not synchronised. -/
def unsettled (s : State) (count : Word) : State :=
  { s with countersSettled := false, spr := { s.spr with counta := count, countb := count } }

theorem witness_CounterReads :
    ((unsettled State.reset 0x00050001).supervisor = true ∧ 31 < 32 ∧
      (Instr.mfsprCounta 31, (0x00050001 : Word), false) ∈ [(.mfsprCounta 31, 0x00050001, false), (.mfsprCountb 31, 0x00050001, false)] ∧
      (Instr.mfsprCountb 31, (0x00050001 : Word), false) ∈ [(.mfsprCounta 31, 0x00050001, false), (.mfsprCountb 31, 0x00050001, false)]) ∧
      (unsettled State.reset 0x00050001).expired = ⟨false, false⟩ ∧
      ({ State.reset with countersSettled := true } : State).supervisor = true ∧
      ({ State.reset with expired := ⟨true, false⟩ } : State).supervisor = true ∧
      (0x00050000 : Word) &&& 3 = 0 ∧ (0x00050003 : Word) &&& 3 = 3 := by decide

theorem witness_DpdrAccesses :
    ((State.reset.supervisor = true ∧ State.reset.dbg.inDebug = false) ∧
      inDebug.supervisor = true ∧ 31 < 32 ∧ inDebug.dbg.inDebug = true ∧
      (inDebug.port.downloadInProgress && inDebug.port.endRequested) = false) ∧
    (inDebug.supervisor = true ∧ inDebug.dbg.inDebug = true) ∧ State.reset.supervisor = true ∧ State.reset.dbg.inDebug = false := by decide

theorem witness_WritesStoreTheWritableBits :
    (State.reset.supervisor = true ∧ State.reset.dbg.enable = false) ∧ inDebug.supervisor = true ∧ inDebug.dbg.enable = true ∧
      inDebug.dbg.inDebug = true ∧
      (Instr.mtsprEcr 31, State.reset.spr) ∈ [(Instr.mtsprCmpa 31, State.reset.spr), (.mtsprEcr 31, State.reset.spr)] := by decide

theorem witness_WritesNotPerformedOutsideDebug :
    enabled.supervisor = true ∧ enabled.dbg.enable = true ∧ enabled.dbg.inDebug = false ∧ .mtsprDpdr 31 ∈ sprWrites 31 ∧
      .mtsprCmpa 31 ∈ sprWrites 31 := by decide

theorem witness_DerWriteActsAtOnce :
    State.reset.supervisor = true ∧ State.reset.dbg.enable = false ∧ inDebug.supervisor = true ∧ inDebug.dbg.inDebug = true := by decide

theorem witness_IctrlWriteAndItsDelay :
    (State.reset.supervisor = true ∧ State.reset.dbg.enable = false ∧ State.reset.dbg.inDebug = false ∧ State.reset.inflight = []) ∧
      inDebug.supervisor = true ∧ inDebug.dbg.inDebug = true := by decide

theorem witness_UserAccessRaisesProgramException :
    (user State.reset).supervisor = false ∧ .mtsprDpdr 31 ∈ sprAccesses 31 ∧ .mfsprCmpa 0 ∈ sprAccesses 0 ∧
      ((user (withSpr enabled fun r => { r with der := 0x00800000 })).dbg.enable = true ∧
        bitOf (user (withSpr enabled fun r => { r with der := 0x00800000 })).spr.der 8 = true) ∧
      (user State.reset).dbg.inDebug = false ∧ (user State.reset).dbg.enable = false ∧
      (user inDebug).supervisor = false ∧ (user inDebug).dbg.inDebug = true := by decide

theorem witness_SyncIsyncMtmsr : State.reset.dbg.inDebug = false := rfl

/-- A store to the word below a refused one, one to the last word of the address space, and one with a negative displacement. -/
theorem witness_StoreWithUpdate :
    (31 < 32 ∧ 30 < 32 ∧ Memory.wf State.reset.mem = true ∧ 4 = State.reset.reg 30 + (4 : BitVec 16).signExtend 32 ∧
      State.reset.accessFault .write 4 = none) ∧
      ({ (State.reset.setReg 30 0xF8) with faultMap := [⟨.write, 0x100, 0x1FF, .dataProtection⟩] } : State).accessFault .write 0xFC = none ∧
      (0xFFFFFFFC : Word) = (State.reset.setReg 30 0xFFFFFFF8).reg 30 + (4 : BitVec 16).signExtend 32 ∧
      (0xFFFFFFFC : Word) = State.reset.reg 0 + (0xFFFC : BitVec 16).signExtend 32 := by decide

/-- The download loop's store aimed at this address, with the words from 0x100 to 0x1FF refused. -/
def refusing (a : Word) : State :=
  { (inDebug.setReg 30 (a - 4)) with faultMap := [⟨.write, 0x100, 0x1FF, .machineCheck⟩] }

/-- At both ends of a refused range. -/
theorem witness_RefusedStoreInDebug :
    (31 < 32 ∧ 30 < 32 ∧ (refusing 0x100).dbg.inDebug = true ∧ (refusing 0x100).accessFault .write ((refusing 0x100).reg 30 + (4 : BitVec 16).signExtend 32) = some .machineCheck) ∧
      (refusing 0x1FF).dbg.inDebug = true ∧ (refusing 0x1FF).accessFault .write ((refusing 0x1FF).reg 30 + (4 : BitVec 16).signExtend 32) = some .machineCheck := by
  decide

theorem witness_ReturnFromHandler : enabled.dbg.inDebug = false ∧ State.reset.dbg.inDebug = false := by decide

theorem witness_ReturnFromDebugMode :
    (inDebug.dbg.inDebug = true ∧ inDebug.spr.ecr &&& inDebug.spr.der = 0) ∧
      (withSpr inDebug fun r => { r with ecr := 4 }).dbg.inDebug = true ∧
      (withSpr inDebug fun r => { r with ecr := 4 }).spr.ecr &&& (withSpr inDebug fun r => { r with ecr := 4 }).spr.der ≠ 0 ∧
      inDebug.dbg.enable = true ∧ inDebug.port.downloadInProgress = false := by decide

theorem witness_EventCatalogue : ∀ row ∈ ([(.systemReset, 1, 0x0100), (.trace, 14, 0x0D00), (.devPortInterrupt, 31, 0x1F00)] :
      List (Event × Nat × Word)),
    row ∈ [(.systemReset, 1, 0x0100), (.machineCheck, 3, 0x0200), (.instrProtection, 19, 0x1300), (.externalInterrupt, 6, 0x0500),
      (.alignment, 7, 0x0600), (.program, 8, 0x0700), (.fpUnavailable, 9, 0x0800), (.fpAssist, 15, 0x0E00),
      (.decrementer, 10, 0x0900), (.systemCall, 13, 0x0C00), (.trace, 14, 0x0D00), (.softwareEmulation, 17, 0x1000),
      (.instrBreakpoint, 29, 0x1D00), (.loadStoreBreakpoint, 28, 0x1C00), (.externalBreakpoint, 30, 0x1E00),
      (.devPortInterrupt, 31, 0x1F00)] := by decide

theorem witness_EventRouting :
    (enabled.dbg.inDebug = false ∧ enabled.dbg.enable = true ∧ bitOf enabled.spr.der (eventBit .instrBreakpoint) = true) ∧
      Event.systemCall ≠ .checkStop ∧ bitOf enabled.spr.der (eventBit .systemCall) = false ∧
      State.reset.dbg.enable = false ∧ State.reset.dbg.inDebug = false := by decide

/-- A machine whose next clock is a flush slot. -/
def slotDue : State := { enabled with trace := { enabled.trace with vf := 0b101, prevKind := .flush } }

theorem witness_DebugModeEntry :
    enabled.port.downloadInProgress = false ∧ enabled.trace.prevKind = .type ∧ slotDue.trace.prevKind = .flush := by decide

/-- R174: a flush slot still due is closed by one count before the report of the entry. -/
theorem test_entry_closes_the_slot : (slotDue.enterDebug 0x100 (srr1Of .systemCall slotDue.cpu.msr)).out.length = 3 := by decide

theorem witness_EventInsideDebugMode : inDebug.dbg.inDebug = true := rfl

/-- A machine check pending on a running machine. -/
def checking (me enable : Bool) (der : Word) : State :=
  { State.reset with
    cpu := { State.reset.cpu with msr := { State.reset.cpu.msr with me := me } }
    dbg := { State.reset.dbg with enable := enable }
    spr := { State.reset.spr with der := der }
    lines := { State.reset.lines with machineCheck := true } }

theorem witness_CheckStopTable : ∀ s ∈ [checking false false 0, checking true false 0, checking false true 0, checking true true 0,
      checking false true 0x20000000, checking true true 0x10000000],
    s.dbg.inDebug = false ∧ s.dbg.checkStop = false ∧ s.enterCondition = false ∧ s.ir = none ∧ s.inputs = [] ∧
      s.port.tecr.nmbrk = false ∧ s.lines.nmi = false ∧ s.lines.machineCheck = true := by decide

theorem witness_CheckStopTable_rows :
    (checking false false 0).cpu.msr.me = false ∧ (checking true false 0).cpu.msr.me = true ∧
      bitOf (checking false true 0).spr.der 2 = false ∧ bitOf (checking true true 0).spr.der 3 = false ∧
      bitOf (checking false true 0x20000000).spr.der 2 = true ∧ bitOf (checking true true 0x10000000).spr.der 3 = true := by decide

def nonMaskable (enable : Bool) : State :=
  { State.reset with
    dbg := { State.reset.dbg with enable := enable }, port := { State.reset.port with tecr := { State.reset.port.tecr with nmbrk := true } } }

theorem witness_NonMaskableBreakpoint : ∀ enable ∈ [false, true],
    (nonMaskable enable).dbg.inDebug = false ∧ (nonMaskable enable).dbg.checkStop = false ∧
      (nonMaskable enable).enterCondition = false ∧ (nonMaskable enable).ir = none ∧ (nonMaskable enable).inputs = [] ∧
      (nonMaskable enable).port.tecr.nmbrk = true ∧ ((nonMaskable enable).dbg.enable = true ↔ enable = true) ∧
      bitOf (nonMaskable enable).spr.der 31 = true := by decide

/-- Requests after an instruction: the maskable breakpoint from the peripherals, the external interrupt, the decrementer. -/
def requests (ri ee peripheral external decrementer : Bool) : State :=
  { State.reset with
    cpu := { State.reset.cpu with msr := { State.reset.cpu.msr with ri := ri, ee := ee } }
    lines := { State.reset.lines with peripheral := peripheral, external := external, decrementer := decrementer } }

/-- Requests before an instruction: the non-maskable breakpoint, the system reset interrupt, machine check. -/
def urgent (nmbrk nmi machineCheck : Bool) : State :=
  { State.reset with
    port := { State.reset.port with tecr := { State.reset.port.tecr with nmbrk := nmbrk } }
    lines := { State.reset.lines with nmi := nmi, machineCheck := machineCheck } }

/-- The first of these that is requested is taken, and nothing without a request. -/
theorem test_urgent_order :
    (([(true, true, true, 1), (false, true, true, 0x40000000), (false, false, true, 0x20000000)] :
        List (Bool × Bool × Bool × Word)).all fun (a, b, c, ecr) =>
      (urgent a b c).highEvent.map (fun t => t.spr.ecr) == some ecr) = true ∧ (urgent false false false).highEvent = none := by decide

theorem witness_EventsByOrder_before :
    (urgent true true true).port.tecr.nmbrk = true ∧
      ((urgent false true true).port.tecr.nmbrk = false ∧ (urgent false true true).lines.nmi = true) ∧
      ((urgent false false true).port.tecr.nmbrk = false ∧ (urgent false false true).lines.nmi = false ∧
        (urgent false false true).lines.machineCheck = true) ∧
      ((urgent true false false).dbg.inDebug = false ∧ (urgent true false false).dbg.checkStop = false ∧
        ∃ u, (urgent true false false).highEvent = some u) ∧
      (⟨0x40, 0, ⟨false, false, false, false⟩, some .machineCheck, .sequential, 0⟩ : InFlight).fault = some .machineCheck ∧
      ({ State.reset with traced := ⟨some 0x40, false⟩ } : State).traced.insn = some 0x40 ∧ State.reset.traced.insn ≠ some 0x40 :=
  ⟨rfl, ⟨rfl, rfl⟩, ⟨rfl, rfl, rfl⟩, ⟨rfl, rfl, _, rfl⟩, rfl, rfl, by decide⟩

theorem witness_EventsByOrder :
    ((requests true true true true true).lines.peripheral = true ∧ (requests true true true true true).cpu.msr.ri = true) ∧
      ((recoverable maskableRequest).port.tecr.mbrk = true ∧ (recoverable maskableRequest).cpu.msr.ri = true) ∧
      ((requests false true true true true).cpu.msr.ri = false ∧ (requests false true true true true).cpu.msr.ee = true ∧
        (requests false true true true true).lines.external = true) ∧
      ((requests true true false false true).port.tecr.mbrk = false ∧ (requests true true false false true).lines.peripheral = false ∧
        (requests true true false false true).cpu.msr.ee = true ∧ (requests true true false false true).lines.external = false ∧
        (requests true true false false true).lines.decrementer = true) ∧
      ((requests false false true true true).cpu.msr.ri = false ∧ (requests false false true true true).cpu.msr.ee = false) ∧
      (requests true true false false false).lines.external = false ∧ (requests true true false false false).lines.decrementer = false := by
  decide

/-- The inactive compare types; both halves at their bounds; a masked unit at its last byte. -/
theorem witness_ComparatorEvents :
    (0b000 : BitVec 3).msb = false ∧ (0b011 : BitVec 3).msb = false ∧ 0 < 4 ∧ 3 < 4 ∧
      (0 = if 1 < 2 then 0 else 2) ∧ (2 = if 2 < 2 then 0 else 2) ∧
      (∀ j ∈ unitOf 0b10 3, (fun j => decide (2 ≤ j)) j = true) ∧ unitOf 0b10 3 ≠ [] ∧
      ([2, 3] : List Nat) = (if 3 < 2 then [0, 1] else [2, 3]) ∧ [3] = ([2, 3] : List Nat).filter (fun j => !decide (j = 2)) := by decide

/-- R238, D12: "less than" of signed half-words, with neither byte masked, with the top byte masked, with the other. -/
theorem test_partial_mask : (([(fun _ => false, true), (fun j => decide (j = 0), false), (fun j => decide (j = 1), true)] :
      List ((Nat → Bool) × Bool)).all fun (mask, hit) =>
    dataMatch 0b101 0b10 true mask 0x00020000 ⟨0, .half, false, 0xFF050000⟩ 0 == hit) = true := by decide

/-- R231 to R233: the read/write qualifier and the size mask of an L-address comparator, "equal" to 3 on reads. -/
theorem test_address_comparator : (([(⟨3, .byte, false, 0⟩, true), (⟨3, .byte, true, 0⟩, false), (⟨2, .byte, false, 0⟩, false),
      (⟨2, .half, false, 0⟩, true), (⟨0, .word, false, 0⟩, true), (⟨0, .half, false, 0⟩, false)] :
        List (LsCycle × Bool)).all fun (c, hit) => lAddrEvent 0b100 0b10 3 c == hit) = true := by decide

/-- The two range options, "equal" and "not equal", and none. -/
theorem witness_InstructionRangeDetection :
    (fun r : Word => fieldOf r 12 2 = 0b10 ∧ fieldOf r 14 2 = 0b10 ∧ fieldOf r 16 2 = 0b10 ∧ fieldOf r 18 2 = 0b10) 0x000AA000 ∧
      (fun r : Word => fieldOf r 12 2 = 0b11 ∧ fieldOf r 14 2 = 0b11 ∧ fieldOf r 16 2 = 0b11 ∧ fieldOf r 18 2 = 0b11) 0x000FF000 ∧
      (fieldOf (0xD40C0807 : Word) 0 3 = 0b110 ∧ fieldOf (0xD40C0807 : Word) 3 3 = 0b101 ∧ fieldOf (0xD40C0807 : Word) 12 2 = 0b11) ∧
      (fieldOf (0xB8030807 : Word) 0 3 = 0b101 ∧ fieldOf (0xB8030807 : Word) 3 3 = 0b110 ∧ fieldOf (0xB8030807 : Word) 14 2 = 0b11) ∧
      (fieldOf (0x03C0A007 : Word) 6 3 = 0b111 ∨ fieldOf (0x0200A007 : Word) 6 3 = 0b100 ∧ fieldOf (0x0200A007 : Word) 16 2 = 0b10) ∧
      (fieldOf (0x0070A007 : Word) 9 3 = 0b111 ∧ fieldOf (0x0070A007 : Word) 18 2 = 0b10) ∧
      (fieldOf (0x00045007 : Word) 12 2).msb = false ∧ (fieldOf (0x00045007 : Word) 14 2).msb = false ∧
      (fieldOf (0x00045007 : Word) 16 2).msb = false ∧ (fieldOf (0x00045007 : Word) 18 2).msb = false := by decide

/-- R223: codes 10 and 11 of the four fields, with A and C "equal" to 0x100 and B and D "less than" 0x100. -/
theorem test_watchpoint_codes :
    (([(0x965AA000, 0x100), (0x965FF000, 0x100), (0x965AA000, 0x80), (0x965FF000, 0x80), (0x965FF000, 0x104)] :
        List (Word × Word)).map fun (c, a) =>
      iwpOf { State.reset.spr with ictrl := c, cmpa := 0x100, cmpb := 0x100, cmpc := 0x100, cmpd := 0x100 } (fieldOf a 0 30)) =
      [⟨true, false, true, false⟩, ⟨false, true, false, true⟩, ⟨false, true, false, true⟩, ⟨false, true, false, true⟩,
        ⟨false, false, false, false⟩] := by decide

theorem witness_ByteWatchIsExact :
    (∀ c ∈ ([⟨0, .word, false, 0x11223309⟩, ⟨2, .half, true, 9⟩, ⟨3, .byte, true, 9⟩, ⟨4, .word, false, 9⟩] : List LsCycle),
      cycleAligned c = true) ∧
      a1.cmpe = 3 ∧ a1.cmpg = 7 ∧ a1.cmph = 0xC ∧ a1.lctrl1 = 0x8350F3B8 ∧ a1.lctrl2 = 0x83400002 := by decide

theorem witness_SmallAccessNeverMatches :
    cycleAligned ⟨1, .byte, false, 0⟩ = true ∧ cycleAligned ⟨2, .half, false, 0⟩ = true ∧ cycleAligned ⟨0, .word, false, 0⟩ = true ∧
      3 < 4 ∧ Size.half ≠ .word := by decide

/-- R241, R242: the second watchpoint with IWP3 and (G|H), then with IWP2; G matches. -/
theorem test_second_watchpoint : (([(⟨false, false, false, true⟩, 0x003C7000, true), (⟨false, false, false, true⟩, 0x00347000, false)] :
      List (Iwp × Word × Bool)).all fun (w, lctrl2, hit) =>
    lwpCycle { a1 with lctrl2 := lctrl2 } w 1 ⟨3, .byte, false, 9⟩ == hit) = true := by decide

theorem witness_LoadStoreWatchpointScope :
    (bitOf (0x00200000 : Word) 10 = true ∧ bitOf (0x00200000 : Word) 13 = false ∧ bitOf (0x00200000 : Word) 16 = false ∧
        bitOf (0x00200000 : Word) 19 = false) ∧
      (bitOf (0x80000000 : Word) 0 = true ∧ bitOf (0x80000000 : Word) 3 = false ∧ bitOf (0x80000000 : Word) 6 = false ∧
        bitOf (0x80000000 : Word) 9 = false) ∧
      (∀ c ∈ [(⟨4, .word, false, 0⟩ : LsCycle)], cycleAligned c = true) ∧ State.reset.out = [] := by decide

theorem witness_InstructionBreakpointBefore : ∀ enable ∈ [false, true],
    (fun s : State => s.dbg.inDebug = false ∧ s.dbg.checkStop = false ∧ s.enterCondition = false ∧ s.ir = none ∧ s.inputs = [] ∧
      s.inflight = [] ∧ s.highEvent = none ∧ s.ibrk (iwpOf s.spr s.pcWord) = true ∧ bitOf s.spr.der 29 = true ∧
      s.accessFault .fetch (s.pcWord ++ (0 : BitVec 2)) ≠ some .machineCheck ∧
      decodeWord? (Memory.readWord s.mem (s.pcWord ++ (0 : BitVec 2))) = some .rfi)
    { matching 0x80080807 0 with dbg := { State.reset.dbg with enable := enable } } := by decide

/-- R485: a machine check of the fetch comes before the instruction breakpoint, and is taken instead. -/
theorem test_machine_check_before_breakpoint :
    run 1 { matching 0x80080807 0 with faultMap := [⟨.fetch, 0x100, 0x103, .machineCheck⟩] } (fun t => (t.spr.ecr, t.dbg.checkStop)) =
      some (0x20000000, true) := by decide

theorem witness_IgnoreFirstMatch :
    (fun (s : State) (e : InFlight) => e.fault ≠ some .machineCheck ∧ s.recognized = true ∧ s.direct e.iwp = true ∧ s.ifm = true ∧ s.expiryI e.iwp = false ∧
      decodeWord? e.word = some .rfi)
    (matching 0x8008080F 0x00020001) ⟨0x40, 0x4C000064, ⟨true, false, false, false⟩, none, .sequential, 0⟩ := by decide

/-- A counter on the first instruction watchpoint, at 0, 1 and the top: the machine meets the hypotheses, and the counter counts. -/
def counts (count : Word) : Bool :=
  !altersCounters 0x4C000064 && (matching 0x80080007 count).spr.counta &&& 0xFFFF0003 == (matching 0x80080007 count).spr.counta &&
    (matching 0x80080007 count).spr.countb &&& 0xFFFF0003 == (matching 0x80080007 count).spr.countb &&
    (matching 0x80080007 count).recognized && cntc (matching 0x80080007 count).spr.counta == 0b01

theorem witness_CountersCountAtRetirement :
    counts 0x00000001 = true ∧ counts 0x00010001 = true ∧ counts 0xFFFF0001 = true := by decide

/-- The store of the machine above, executed: an enabled trap on the first watchpoint, and a count of ONE. -/
theorem witness_LoadStoreBreakpointAfter :
    (fun s : State => s.dbg.inDebug = false ∧ s.lbrk noIwp [⟨0x1000, .word, true, 0⟩] = true) (storing 0 0x82000002) ∧
      (fun s : State => s.dbg.inDebug = false ∧ s.lbrk noIwp [⟨0x1000, .word, true, 0⟩] = true ∧
        altersCounters 0x97FE0004 = false ∧ cntc s.spr.counta = 0b10 ∧ cntv s.spr.counta = 1 ∧
        lwpInsn s.spr noIwp 0 [⟨0x1000, .word, true, 0⟩] = true)
        (withSpr (storing 0 0x82000000) fun r => { r with counta := 0x00010002 }) ∧
      (fun s : State => s.dbg.inDebug = false ∧ s.lbrk noIwp [⟨0x1000, .word, true, 0⟩] = true ∧
        altersCounters 0x97FE0004 = false ∧ cntc s.spr.countb = 0b10 ∧ cntv s.spr.countb = 1 ∧
        lwpInsn s.spr noIwp 1 [⟨0x1000, .word, true, 0⟩] = true) (storing 0x00010002 0x00220000) := by decide

/-- R259, D28: of three cycles the second is the first that causes the breakpoint. -/
theorem test_bar_is_the_first : (storing 0 0x82000002).barAddr noIwp
    [⟨0x2000, .word, true, 0⟩, ⟨0x1000, .byte, true, 0⟩, ⟨0x1000, .word, true, 0⟩] = 0x1000 ∧
    (withSpr (storing 0 0x82000002) fun r => { r with lctrl1 := 0xC0000000 }).barAddr noIwp
      [⟨0x1000, .word, true, 0⟩, ⟨0x2000, .word, true, 0⟩, ⟨0x3000, .word, true, 0⟩] = 0x2000 := by decide

theorem witness_MaskedModeLosesBreakpoints :
    (fun (s : State) (e : InFlight) => s.cpu.msr.ri = false ∧ bitOf s.spr.lctrl2 20 = false ∧
      e.iwp = ⟨true, true, true, true⟩ ∧ lwpInsn s.spr e.iwp 0 s.cycles = true ∧ lwpInsn s.spr e.iwp 1 s.cycles = true)
    { storing 0 0x82208002 with cpu := State.reset.cpu, cycles := [⟨0x1000, .word, true, 0⟩] }
    ⟨0x40, 0x97FE0004, ⟨true, true, true, true⟩, none, .sequential, 0⟩ := by decide

/-- A debug-mode step that executes a word: here mtspr LCTRL1. -/
def delivered (w : Word) : State := { inDebug with ir := some w, port := { inDebug.port with cpuWaiting := .none } }

/-- The step and what it answers. -/
theorem witness_NoWatchpointsInDebugMode :
    (delivered 0x7C7C23A6).dbg.inDebug = true ∧ (delivered 0x7C7C23A6).inputs = [] ∧
      (∃ t, step (delivered 0x7C7C23A6) = .next t) ∧ (delivered 0x7C7C23A6).ir = some 0x7C7C23A6 ∧
      decodeWord? 0x7C7C23A6 = some (.mtsprLctrl1 3) ∧ (Instr.mtsprLctrl1 3) ≠ .mtsprCounta 3 :=
  ⟨rfl, rfl, ⟨_, rfl⟩, rfl, by decide, by decide⟩

theorem witness_StepRunsTheFetchedInstruction :
    (fun s : State => s.dbg.inDebug = false ∧ s.dbg.checkStop = false ∧ s.enterCondition = false ∧ s.ir = none ∧ s.inputs = [] ∧
      s.inflight = [] ∧ s.highEvent = none ∧ s.accessFault .fetch (s.pcWord ++ (0 : BitVec 2)) = none ∧
      decodeWord? (Memory.readWord s.mem (s.pcWord ++ (0 : BitVec 2))) = some .rfi)
      (withMem State.reset rfiAt100) ∧
    State.reset.recognized = false ∧ (recoverable State.reset).recognized = true ∧
      (recoverable State.reset).direct (iwpOf State.reset.spr State.reset.pcWord) = false ∧
      (recoverable State.reset).expiryI (iwpOf State.reset.spr State.reset.pcWord) = false := by decide

theorem witness_StepRunsWhatThePortBrings :
    ({ inDebug with traced := ⟨none, true⟩ } : State).traced.delivered = true ∧ inDebug.traced.delivered = false ∧
    ((delivered 0x4C000064).dbg.inDebug = true ∧ (delivered 0x4C000064).ir = some 0x4C000064 ∧ decodeWord? 0x4C000064 = some .rfi ∧
      (delivered 0x4C000064).lines.nmi = false ∧ (delivered 0x4C000064).lines.machineCheck = false ∧
      (delivered 0x4C000064).cpu.msr.ee = false ∧ (delivered 0x4C000064).inputs = []) ∧
    ∀ s ∈ [{ inDebug with inputs := [.frame (.short true 0)] }, { pending false true false with inputs := [.frame (.short true 0)] },
        { State.reset with inputs := [.frame (.short true 0)] }],
      s.enterCondition = false ∧ s.ir = none ∧ s.inputs = .frame (.short true 0) :: [] ∧ s.ready = true ∧ s.lines.nmi = false ∧
        s.lines.machineCheck = false ∧ s.cpu.msr.ee = false := by decide

/-- Check stop with these inputs. -/
def stopped (inputs : List Input) : State :=
  { State.reset with dbg := { State.reset.dbg with checkStop := true }, inputs := inputs }

theorem witness_CheckStopHaltsTheCpu : ∀ inputs ∈ [[], [.cpuStep], [.fetch 0 .direct]],
    (stopped inputs).dbg.checkStop = true ∧ (stopped inputs).dbg.inDebug = false ∧ (stopped inputs).enterCondition = false ∧
      (stopped inputs).ir = none ∧ (stopped inputs).inputs = inputs := by decide

/-- The invariant holds of a machine in debug mode that is about to execute a word, and of one that runs. -/
theorem inv_delivered : (delivered 0x7C7C23A6).Inv :=
  ⟨by decide, by unfold Sprs.reservedZero; decide, by unfold State.debugConsistent; decide, by unfold State.freezeConsistent; decide,
    by unfold State.isctConsistent; decide, by decide⟩

theorem inv_running : (withMem enabled rfiAt100).Inv :=
  ⟨by decide, by unfold Sprs.reservedZero; decide, by unfold State.debugConsistent; decide, by unfold State.freezeConsistent; decide,
    by unfold State.isctConsistent; decide, by decide⟩

theorem witness_AnswerByPriority_outside : (withMem enabled rfiAt100).Inv ∧ (withMem enabled rfiAt100).dbg.inDebug = false :=
  ⟨inv_running, by decide⟩

theorem witness_EveryStepKeepsTheInvariant :
    ((delivered 0x7C7C23A6).Inv ∧ ∃ t, step (delivered 0x7C7C23A6) = .next t) ∧
      (withMem enabled rfiAt100).Inv ∧ ∃ t, step (withMem enabled rfiAt100) = .next t :=
  ⟨⟨inv_delivered, _, rfl⟩, inv_running, _, rfl⟩

/-- Running code that tries to write DER with debug mode enabled. -/
theorem witness_RunningCodeCannotReprogram :
    (fun s : State => s.dbg.enable = true ∧ s.dbg.inDebug = false ∧ s.inputs.head? = none ∧ ∃ t, step s = .next t)
      (withMem enabled [(0x100, 0x7C), (0x101, 0x75), (0x102, 0x23), (0x103, 0xA6)]) :=
  ⟨rfl, rfl, rfl, _, rfl⟩

theorem witness_LatchesConstantBetweenResets :
    (fun s : State => s.inputs.head? = none ∧ s.dbg.enable = false ∧ s.dbg.inDebug = false ∧ ∃ t, step s = .next t)
      (withMem State.reset rfiAt100) ∧
    (⟨false, true, false, false, false⟩ : ResetPins).dsckAtMinus3 = false :=
  ⟨⟨rfl, rfl, rfl, _, rfl⟩, rfl⟩

theorem witness_WhoChangesWhat :
    (∃ t, exec .stwu State.reset = .next t) ∧ (∃ t, exec (.mfsprEcr 3) State.reset = .next t) ∧
      ∃ t, exec (.dpTe true true true true true true true) State.reset = .next t :=
  ⟨⟨_, rfl⟩, ⟨_, rfl⟩, _, rfl⟩

theorem witness_ResetState :
    (inDebug.applyReset ⟨true, false, true, true, true⟩).dbg.inDebug = false ∧
      ∀ s ∈ [State.reset, inDebug, stopped [], delivered 0x4C000064],
          ({ s with inputs := [.reset ⟨true, true, true, true, true⟩] } : State).inputs = .reset ⟨true, true, true, true, true⟩ :: [] := by
  decide

/-- R546, R103: a reset comes before the word of a download that user state repeats for ever. -/
theorem test_reset_ends_download :
    run 1 { user inDebug with
        ir := some 0x7FF69AA6, inputs := [.reset ⟨false, false, false, false, false⟩]
        port := { inDebug.port with downloadInProgress := true, downloadStore := true } }
      (fun t => (t.dbg.inDebug, t.port.downloadInProgress, t.ir, t.inputs)) = some (false, false, none, []) := by decide

/-- B7 h, R371, D23: a transmission and a serial clock are ignored while the CPU has a word to execute. -/
theorem test_not_ready_ignores :
    run 2 { (delivered 0x7C0004AC) with inputs := [.frame (.short false 0b1000000), .shift true] }
      (fun t => (t.port.tecr.diwp0en, t.port.shifted, t.ir, t.inputs)) = some (false, 0, some 0x7C0004AC, []) := by decide

/-- A machine in debug mode with a CPU interrupt not yet reported, an rfi to execute, this in ECR, and these inputs after it. -/
def interrupted (ecr : Word) (rest : List Input) : State :=
  { delivered 0x4C000064 with
    spr := { (delivered 0x4C000064).spr with ecr := ecr }
    port := { (delivered 0x4C000064).port with cpuIntPending := true }
    inputs := .cpuStep :: rest }

/-- R380: outside debug mode the CPU interrupt is not reported by the next transmission, which is processed, and then it is over. -/
theorem test_no_cpu_interrupt_outside_debug :
    run 2 (interrupted 0 [.frame (.short false 0b1000000)])
      (fun t => (t.dbg.inDebug, t.port.txStatus, t.port.tecr.diwp0en, t.port.cpuIntPending)) = some (false, 0b11, true, false) := by
  decide

/-- R47, R321, R380: an rfi that re-enters debug mode at once leaves it to be reported by the next transmission, which is ignored. -/
theorem test_cpu_interrupt_over_reentry :
    run 2 (interrupted 1 [.frame (.short false 0b1000000)])
      (fun t => (t.dbg.inDebug, t.port.txStatus, t.port.tecr.diwp0en, t.port.cpuIntPending)) = some (true, 0b10, false, false) := by
  decide

/-- R182, R316: other events do not wait for the CPU either: one comes before the word, and the CPU's own event executes it. -/
theorem test_events_before_a_word :
    run 1 { inDebug with ir := some 0x7C0004AC, inputs := [.external true] } (fun t => (t.lines.external, t.ir)) =
        some (true, some 0x7C0004AC) ∧
      run 1 { inDebug with ir := some 0x7C0004AC, inputs := [.cpuStep, .external true] } (fun t => (t.lines.external, t.ir, t.inputs)) =
        some (false, none, [.external true]) := by decide

theorem witness_RecorderFollowsTheSlots :
    (withMem enabled rfiAt100).Inv ∧ (withMem enabled rfiAt100).inputs.head? = none ∧ ∃ t, step (withMem enabled rfiAt100) = .next t :=
  ⟨inv_running, rfl, _, rfl⟩

/-- A VSYNC change to be reported: an assertion with a program trace cycle still waiting, and a negation. -/
theorem witness_VsyncReportPlacement : ∀ p ∈ ([(0b000, true), (0b001, true), (0b010, false)] : List (BitVec 3 × Bool)),
    (fun s : State => s.dbg.inDebug = false ∧ s.trace.vsyncChanged = true ∧ (s.clock .next 0 0).trace.vsyncChanged = false ∧
      s.port.tecr.vsync = p.2 ∧ s.trace.prevKind = .type ∧ s.trace.pending = [] ∧
      (p.2 = false → (∀ c ∈ s.trace.showQueue, c.flow ≠ .indirect) ∧ s.trace.nextFlow ≠ .indirect))
    { State.reset with
      trace := { State.reset.trace with
        nextFlow := if p.2 then .indirect else .sequential, vsyncChanged := true, vf := p.1, showQueue := if p.2 then [⟨0, .indirect, 0⟩] else [⟨0, .direct, 0⟩] }
      port := { State.reset.port with tecr := { State.reset.port.tecr with vsync := p.2 } } } := by decide

/-- A change that is due while the pins show 011, the count of a flush: 000 comes first. -/
theorem witness_VsyncReportPlacement_after_count :
    (fun s : State => s.dbg.inDebug = false ∧ s.trace.vsyncChanged = true ∧ s.trace.prevKind = .type ∧ s.trace.pending = [] ∧
      s.port.tecr.vsync = true ∧ ¬ s.trace.vf.toNat ≤ 2 ∧ (s.clock .next 0 0).trace.vf = 0b000 ∧
      (s.clock .next 0 0).trace.vsyncChanged = true)
    { changed true [] .sequential with trace := { (changed true [] .sequential).trace with vf := 0b011 } } := by decide

/-- Show cycles: nothing ahead and the next fetch visible; something ahead, shown and not shown; a setting held back; a queue. -/
theorem witness_ShowCycles :
    (fun s : State => s.inflight = [] ∧ s.trace.nextVisible = true ∧ Flow.indirect = joinFlow s.trace.nextFlow .sequential)
        { State.reset with trace := { State.reset.trace with nextVisible := true } } ∧
      (fun s : State => s.inflight ≠ [] ∧ shownFetch s.isctInForce s.port.tecr.vsync .direct = true)
        { State.reset with inflight := [⟨0, 0, noIwp, none, .sequential, 0⟩] } ∧
      (fun s : State => s.inflight = [] ∧ s.trace.nextVisible = false ∧ s.trace.isctHold = false ∧
        shownFetch s.isctInForce s.port.tecr.vsync (joinFlow s.trace.nextFlow .direct) = false)
        { (withSpr State.reset fun r => { r with ictrl := 7 }) with trace := { State.reset.trace with nextFlow := .sequential } } ∧
      ({ State.reset with trace := { State.reset.trace with showQueue := [⟨0, .direct, 0⟩] } } : State).trace.showQueue =
        ⟨0, .direct, 0⟩ :: [] ∧ State.reset.trace.showQueue = [] := by decide

/-- The machine at the start of a fast download of some words. -/
def loading (ws : List Word) : State :=
  { inDebug with
    port := { inDebug.port with downloadInProgress := true, downloadStore := true, cpuWaiting := .data 31 }
    inputs := ws.flatMap fun w => [.frame (.long true w), .cpuStep, .cpuStep] }

theorem inv_loading (ws : List Word) : (loading ws).Inv :=
  ⟨rfl, inv_delivered.reserved, ⟨fun _ => ⟨rfl, rfl, rfl, rfl⟩, nofun⟩, fun _ => rfl, fun _ => rfl, inv_delivered.serial⟩

theorem witness_FastDownload : (loading [0x11223344, 0x55667788]).Inv ∧
    (fun s : State => s.supervisor = true ∧ s.dbg.inDebug = true ∧ s.lines = ⟨false, false, false, false, false⟩ ∧
      s.cpu.msr.ee = false ∧ s.faultMap = [] ∧ s.traced.delivered = false ∧ s.ir = none ∧ s.port.shifted = 0 ∧
      s.port.validData = false ∧ s.port.seqErrPending = false ∧ s.port.cpuIntPending = false ∧
      s.port.downloadInProgress = true ∧ s.port.endRequested = false ∧ s.port.downloadStore = true ∧ s.port.cpuWaiting = .data 31)
      (loading [0x11223344, 0x55667788]) ∧
    ([0x11223344, 0x55667788] : List Word) ≠ [] :=
  ⟨inv_loading _, by decide, by decide⟩

end Sys2Proof.Tests
end

section
/-! PROOFS. What an instruction and a step can do to the machine, said once: every one of them is a chain of elementary changes
(`Change`), each with the guard under which the machine makes it. The invariant, the constancy of the latches and the list of
what clears ECR and changes TECR or memory are then one case analysis over the elementary changes each. -/

namespace Sys2Proof.Machine

/-! ## Words -/

/-- Masking a word twice with the same mask is masking it once. -/
theorem and_mask_idem (v m : Word) : v &&& m &&& m = v &&& m := by rw [BitVec.and_assoc, BitVec.and_self]

/-- A counter word has no reserved bit set (rule R435). -/
theorem countWord_reserved (v : BitVec 16) (c : BitVec 2) : countWord v c &&& maskCount = countWord v c := by
  apply BitVec.eq_of_getLsbD_eq
  intro n hn
  simp only [countWord, maskCount, BitVec.getLsbD_and, BitVec.getLsbD_append]
  interval_cases n <;> simp

/-- IFM is a stored bit of ICTRL (rules R28, R435). -/
theorem ictrl_setIfm_reserved {w : Word} (h : w &&& maskIctrl = w) (b : Bool) :
    ((w &&& 0xFFFFFFF7) ||| bitMask 28 b) &&& maskIctrl = (w &&& 0xFFFFFFF7) ||| bitMask 28 b := by
  have hb : bitMask 28 b &&& maskIctrl = bitMask 28 b := by cases b <;> decide
  have hw : w &&& 0xFFFFFFF7 &&& maskIctrl = w &&& 0xFFFFFFF7 := by
    rw [BitVec.and_assoc, BitVec.and_comm 0xFFFFFFF7, ← BitVec.and_assoc, h]
  rw [BitVec.and_or_distrib_right, hb, hw]

/-- IFM is no bit of ISCT_SER (rule R28). -/
theorem fieldOf_setIfm (w : Word) (b : Bool) : fieldOf ((w &&& 0xFFFFFFF7) ||| bitMask 28 b) 29 3 = fieldOf w 29 3 := by
  apply BitVec.eq_of_getLsbD_eq
  intro n hn
  simp only [fieldOf, BitVec.getLsbD_extractLsb', BitVec.getLsbD_or, BitVec.getLsbD_and]
  cases b <;> interval_cases n <;> simp [bitMask]

/-! ## Elementary changes -/

/-- The part of the machine that the invariant, the latches and the statement about ECR, TECR and memory read: every other field has
its value of `State.reset`. -/
def State.guarded (s : State) : State :=
  { State.reset with
    mem := s.mem
    spr := s.spr
    ir := s.ir
    port :=
      { State.reset.port with
        tecr := s.port.tecr
        clockMode := s.port.clockMode
        validData := s.port.validData
        cpuWaiting := s.port.cpuWaiting
        shifted := s.port.shifted }
    dbg := { State.reset.dbg with enable := s.dbg.enable, inDebug := s.dbg.inDebug, freeze := s.dbg.freeze }
    trace :=
      { State.reset.trace with
        vf := s.trace.vf
        prevKind := s.trace.prevKind
        isctActive := s.trace.isctActive
        isctHold := s.trace.isctHold } }

/-- The parts of the machine that only few rows of the opcode table change; of ECR the clearing of its bits. -/
inductive Part where
  | ecr | tecr | mem

/-- One elementary change, and the guard under which the machine makes it; `may` says of which parts a change is allowed. -/
inductive Change (may : Part → Prop) (s : State) : State → Prop where
  /-- Nothing of the guarded part. -/
  | quiet {t : State} (h : t.guarded = s.guarded) : Change may s t
  /-- What the CPU waits for on the port, and the word delivered (rules R48, R372). -/
  | portRead (c : CpuWaiting) (w : Option Word) (hd : s.dbg.inDebug = true) :
    Change may s { s with port := { s.port with cpuWaiting := c }, ir := w }
  | dropWord : Change may s { s with ir := none }
  /-- A write of DPDR (rules R374, R447). -/
  | offerData (hd : s.dbg.inDebug = true) : Change may s { s with port := { s.port with validData := true } }
  | useData : Change may s { s with port := { s.port with validData := false } }
  /-- A serial clock (rule R356). -/
  | shift (n : Nat) (hn : n < 35) : Change may s { s with port := { s.port with shifted := n } }
  | writeTecr (x : Tecr) (hp : may .tecr) : Change may s { s with port := { s.port with tecr := x } }
  | store (l : List (Word × Byte)) (hp : may .mem) : Change may s { s with mem := Memory.writeBytes s.mem l }
  /-- A write of a register other than ECR, DER and ICTRL (rule R432). -/
  | writeReg (r : Sprs) (hw : s.writeEnabled = true) (hz : s.spr.reservedZero → r.reservedZero)
      (hr : r.ecr = s.spr.ecr ∧ r.der = s.spr.der ∧ r.ictrl = s.spr.ictrl) : Change may s { s with spr := r }
  | writeDer (v : Word) (hw : s.writeEnabled = true) : Change may s (s.writeDer v)
  | writeIctrl (v : Word) (hw : s.writeEnabled = true) : Change may s (s.writeIctrl v)
  | clearEcr (hp : may .ecr) : Change may s s.clearEcr
  | setIfm (b : Bool) : Change may s (s.setIfm b)
  /-- Counting (rule R261). -/
  | count (a b : Word) (ha : a = s.spr.counta ∨ ∃ v, a = countWord v (cntc s.spr.counta))
      (hb : b = s.spr.countb ∨ ∃ v, b = countWord v (cntc s.spr.countb)) :
    Change may s { s with spr := { s.spr with counta := a, countb := b } }
  | setBar (v : Word) : Change may s { s with spr := { s.spr with bar := v } }
  | beginInsn : Change may s s.beginInsn
  /-- A report on VF: in debug mode only 000 (rule R177). -/
  | report (v : BitVec 3) (k : SlotKind) (hv : s.dbg.inDebug = true → v = 0 ∧ k = .type) :
    Change may s { s with trace := { s.trace with vf := v, prevKind := k } }
  /-- An ECR bit set inside debug mode (rules R315, R494). -/
  | recordInDebug (e : Event) (hd : s.dbg.inDebug = true) : Change may s (s.recordEvent e)
  | takeEvent (e : Event) (a : Word) (x : Srr1) : Change may s (s.takeEvent e a x)
  /-- The entry condition holds (rule R305). -/
  | enterDebug (a : Word) (x : Srr1) (hc : s.enterCondition = true) : Change may s (s.enterDebug a x)
  /-- An rfi: the CPU leaves debug mode with no delivered word left. -/
  | returnFromInterrupt (hir : s.dbg.inDebug = true → s.ir = none) : Change may s s.returnFromInterrupt

/-- A chain of elementary changes. -/
def Changes (may : Part → Prop) : State → State → Prop := Relation.ReflTransGen (Change may)

/-- The result is a next state, and a chain of elementary changes leads to it. -/
def Leads (may : Part → Prop) (s : State) (r : Result) : Prop := ∃ t, r = .next t ∧ Changes may s t

section
variable {may : Part → Prop} {s t u : State}

theorem Changes.refl (s : State) : Changes may s s := Relation.ReflTransGen.refl

theorem Changes.single (h : Change may s t) : Changes may s t := Relation.ReflTransGen.single h

theorem Changes.trans (h : Changes may s u) (h' : Changes may u t) : Changes may s t := Relation.ReflTransGen.trans h h'

theorem Changes.quiet (h : t.guarded = s.guarded) : Changes may s t := .single (.quiet h)

/-- A chain that ends with a change outside the guarded part. -/
theorem Changes.thenQuiet (h : Changes may s u) (hq : t.guarded = u.guarded) : Changes may s t := h.trans (.quiet hq)

/-- A chain that begins with such a change. -/
theorem Changes.afterQuiet (h : Changes may u t) (hq : u.guarded = s.guarded) : Changes may s t := (quiet hq).trans h

/-- What every elementary change keeps, every chain keeps. -/
theorem Changes.keeps {R : State → State → Prop} (hr : ∀ a, R a a) (ht : ∀ a b c, R a b → R b c → R a c)
    (hc : ∀ a b, Change may a b → R a b) (h : Changes may s t) : R s t := by
  induction h with
  | refl => exact hr s
  | tail _ h ih => exact ht _ _ _ ih (hc _ _ h)

theorem Leads.next (h : Changes may s t) : Leads may s (.next t) := ⟨t, rfl, h⟩

theorem Leads.after {r : Result} (hr : Leads may u r) (h : Changes may s u) : Leads may s r := by
  obtain ⟨t, ht, hc⟩ := hr
  exact ⟨t, ht, h.trans hc⟩

theorem Leads.afterQuiet {r : Result} (hr : Leads may u r) (hq : u.guarded = s.guarded) : Leads may s r := hr.after (.quiet hq)

/-- The next state of a result that a chain leads to. -/
theorem Leads.changes {r : Result} (h : Leads may s r) (hr : r = .next t) : Changes may s t := by
  obtain ⟨u, hu, hc⟩ := h
  rw [hu, Host.Outcome.next.injEq] at hr
  exact hr ▸ hc

/-! ## Chains of the shared operations -/

theorem Changes.startFetch (hd : s.dbg.inDebug = true) : Changes may s s.startFetch := by
  unfold State.startFetch
  split
  · exact (Changes.single (.portRead .none _ hd)).thenQuiet rfl
  · exact .single (.portRead .instruction s.ir hd)

theorem Changes.finish (s : State) (t : VfType) (f : Flow) : Changes may s (s.finish t f) := by
  unfold State.finish
  split
  · rename_i hd
    exact (Changes.startFetch (by exact hd)).afterQuiet rfl
  · exact .quiet rfl

theorem Changes.complete (s : State) (t : VfType) (f : Flow) : Changes may s (s.complete t f) := by
  refine (Changes.finish _ t f).afterQuiet ?_
  split <;> rfl

theorem Changes.completeMarked (s : State) : Changes may s s.completeMarked := by
  unfold State.completeMarked
  split <;> exact (Changes.complete _ _ _).afterQuiet rfl

theorem Changes.completePlain (s : State) : Changes may s s.completePlain := .complete s _ _

theorem Changes.takeAt (s : State) (e : Event) (a : Word) : Changes may s (s.takeAt e a) := .single (.takeEvent e a _)

theorem Changes.takeSync (s : State) (c : SyncCause) (a : Option Word) : Changes may s (s.takeSync c a) := by
  have hnone : ∀ u : State, Changes may u (u.takeSync c none) := by
    intro u
    rw [State.takeSync_none]
    split
    · rename_i hd
      exact (Changes.single (.takeEvent _ _ _)).trans (.startFetch (State.takeEvent_inDebug_stays hd _ _ _))
    · exact .single (.takeEvent _ _ _)
  cases a with
  | none => exact hnone s
  | some a =>
    rw [State.takeSync_some]
    exact (hnone _).afterQuiet rfl

theorem Changes.portBusError (hd : s.dbg.inDebug = true) : Changes may s s.portBusError :=
  (Changes.single (.recordInDebug Config.portBusErrorCause hd)).trans ((Changes.startFetch (by exact hd)).afterQuiet rfl)

theorem Changes.seqErrorDebug (hd : s.dbg.inDebug = true) : Changes may s s.seqErrorDebug :=
  (Changes.portBusError (by exact hd)).afterQuiet rfl

theorem Changes.receiveData (hd : s.dbg.inDebug = true) (rD : Nat) (w : Word) : Changes may s (s.receiveData rD w) := by
  simp only [State.receiveData]
  split <;> exact (Changes.startFetch (by exact hd)).afterQuiet rfl

/-- A read of a register (rules R431, R433), whose side effect is a chain of changes. -/
theorem Changes.readSpr {g : State → State} (rD : Nat) (v : Word) (hg : ∀ u, Changes may u (g u)) :
    Changes may s (s.readSpr rD v g) := by
  unfold State.readSpr
  split
  · exact ((hg _).trans (.complete _ _ _)).afterQuiet rfl
  · exact .takeSync s _ _

theorem Changes.readCounter (rD : Nat) (count : Word) (expired : Bool) : Changes may s (s.readCounter rD count expired) :=
  .readSpr rD _ fun _ => .quiet rfl

/-- A write of a register (rules R431, R432): the change is made only where writes are enabled. -/
theorem Changes.writeSpr {w : State → Word → State} {d : State → State} (rS : Nat)
    (hw : ∀ v, s.writeEnabled = true → Changes may s (w s v)) (hd : ∀ u, Changes may u (d u)) :
    Changes may s (s.writeSpr rS w d) := by
  unfold State.writeSpr
  split
  · refine .trans ?_ (hd _)
    split
    · exact hw _ ‹_›
    · exact .refl s
  · exact .takeSync s _ _

theorem Changes.storeWithUpdate (hp : may .mem) (s : State) (rS rA : Nat) (d : BitVec 16) :
    Changes may s (s.storeWithUpdate rS rA d) := by
  obtain ⟨-, h⟩ | ⟨c, -, h⟩ := s.storeWithUpdate_cases rS rA d _ rfl
  · rw [h]
    exact (Changes.single (.store (wordStore _ _) hp)).trans ((Changes.complete _ _ _).afterQuiet rfl)
  · rw [h]
    exact .takeSync s c _

theorem Changes.runForeign (hp : may .mem) (s : State) (w : Word) : Changes may s (s.runForeign w) := by
  have heff : (s.foreignEffect w).2.guarded = s.guarded := by
    unfold State.foreignEffect
    split <;> rfl
  refine Changes.afterQuiet ?_ heff
  simp only [State.runForeign]
  split
  · exact .takeSync _ _ _
  · split
    · exact .takeSync _ _ _
    · exact (Changes.single (.store _ hp)).trans ((Changes.finish _ _ _).afterQuiet rfl)

theorem Changes.runOther (hp : may .mem) (s : State) (w : Word) : Changes may s (s.runOther w) := by
  unfold State.runOther
  split
  · exact .storeWithUpdate hp s _ _ _
  · exact .runForeign hp s w

/-! ## Chains of the instructions -/

theorem leads_execDpInsn (w : Word) (s : State) : Leads may s (execDpInsn w s) := by
  refine .next ?_
  split
  · rename_i hd
    split
    · exact .single (.portRead .none (some w) hd)
    · exact .seqErrorDebug hd
    · exact .refl s
  · exact .quiet rfl

theorem leads_execDpData (w : Word) (s : State) : Leads may s (execDpData w s) := by
  refine .next ?_
  split
  · rename_i hd
    split
    · exact .receiveData hd _ w
    · exact .seqErrorDebug hd
    · exact .refl s
  · exact .quiet rfl

theorem leads_execDpStartdl (s : State) : Leads may s (execDpStartdl s) := by
  refine .next ?_
  split
  · rename_i hc
    obtain ⟨hd, -⟩ := (Bool.and_eq_true _ _).mp hc
    dsimp only
    split
    · exact (Changes.startFetch (by exact hd)).afterQuiet rfl
    · exact .quiet rfl
  · exact .refl s

theorem leads_execDpEnddl (s : State) : Leads may s (execDpEnddl s) := by
  refine .next ?_
  split
  · exact .quiet rfl
  · exact .refl s

theorem leads_execDpTe (hp : may .tecr) (i0 i1 i2 i3 l0 l1 vs : Bool) (s : State) :
    Leads may s (execDpTe i0 i1 i2 i3 l0 l1 vs s) :=
  .next ((Changes.single (.writeTecr _ hp)).thenQuiet rfl)

theorem leads_execDpBrk (hp : may .tecr) (nm m : Bool) (s : State) : Leads may s (execDpBrk nm m s) := by
  refine .next ((Changes.single (.writeTecr { s.port.tecr with nmbrk := nm, mbrk := m } hp)).thenQuiet ?_)
  split <;> rfl

theorem leads_execMfsprDpdr (rD : Nat) (s : State) : Leads may s (execMfsprDpdr rD s) := by
  refine .next ?_
  split
  · rename_i hl
    obtain ⟨-, hd⟩ := (Bool.and_eq_true _ _).mp hl
    exact (Changes.single (.portRead (.data rD) s.ir hd)).thenQuiet rfl
  · exact .readSpr rD _ fun _ => .quiet rfl

theorem leads_execMtsprDpdr (rS : Nat) (s : State) : Leads may s (execMtsprDpdr rS s) := by
  refine .next (.writeSpr rS (fun v _ => ?_) .completePlain)
  split
  · rename_i hl
    obtain ⟨-, hd⟩ := (Bool.and_eq_true _ _).mp hl
    exact (Changes.single (.offerData hd)).thenQuiet rfl
  · exact .refl s

/-- A write that stores a value in one register, other than ECR, DER and ICTRL, and keeps the reserved bits 0 (rule R435). -/
structure PlainWrite (w : State → Word → State) : Prop where
  reserved : ∀ s v, s.spr.reservedZero → (w s v).spr.reservedZero
  others : ∀ s v, (w s v).spr.ecr = s.spr.ecr ∧ (w s v).spr.der = s.spr.der ∧ (w s v).spr.ictrl = s.spr.ictrl
  onlySpr : ∀ s v, (w s v).guarded = State.guarded { s with spr := (w s v).spr }

theorem plainWrite_cmpa : PlainWrite State.writeCmpa :=
  ⟨fun _ _ h => by simp_all [Sprs.reservedZero, State.writeCmpa, and_mask_idem], fun _ _ => ⟨rfl, rfl, rfl⟩, fun _ _ => rfl⟩

theorem plainWrite_cmpb : PlainWrite State.writeCmpb :=
  ⟨fun _ _ h => by simp_all [Sprs.reservedZero, State.writeCmpb, and_mask_idem], fun _ _ => ⟨rfl, rfl, rfl⟩, fun _ _ => rfl⟩

theorem plainWrite_cmpc : PlainWrite State.writeCmpc :=
  ⟨fun _ _ h => by simp_all [Sprs.reservedZero, State.writeCmpc, and_mask_idem], fun _ _ => ⟨rfl, rfl, rfl⟩, fun _ _ => rfl⟩

theorem plainWrite_cmpd : PlainWrite State.writeCmpd :=
  ⟨fun _ _ h => by simp_all [Sprs.reservedZero, State.writeCmpd, and_mask_idem], fun _ _ => ⟨rfl, rfl, rfl⟩, fun _ _ => rfl⟩

theorem plainWrite_lctrl1 : PlainWrite State.writeLctrl1 :=
  ⟨fun _ _ h => by simp_all [Sprs.reservedZero, State.writeLctrl1, and_mask_idem], fun _ _ => ⟨rfl, rfl, rfl⟩, fun _ _ => rfl⟩

theorem plainWrite_lctrl2 : PlainWrite State.writeLctrl2 :=
  ⟨fun _ _ h => by simp_all [Sprs.reservedZero, State.writeLctrl2, and_mask_idem], fun _ _ => ⟨rfl, rfl, rfl⟩, fun _ _ => rfl⟩

theorem plainWrite_counta : PlainWrite State.writeCounta :=
  ⟨fun _ _ h => by simp_all [Sprs.reservedZero, State.writeCounta, countWord_reserved], fun _ _ => ⟨rfl, rfl, rfl⟩, fun _ _ => rfl⟩

theorem plainWrite_countb : PlainWrite State.writeCountb :=
  ⟨fun _ _ h => by simp_all [Sprs.reservedZero, State.writeCountb, countWord_reserved], fun _ _ => ⟨rfl, rfl, rfl⟩, fun _ _ => rfl⟩

/-! CMPE to CMPH and BAR have no reserved bit. -/

theorem plainWrite_cmpe : PlainWrite State.writeCmpe := ⟨fun _ _ h => h, fun _ _ => ⟨rfl, rfl, rfl⟩, fun _ _ => rfl⟩

theorem plainWrite_cmpf : PlainWrite State.writeCmpf := ⟨fun _ _ h => h, fun _ _ => ⟨rfl, rfl, rfl⟩, fun _ _ => rfl⟩

theorem plainWrite_cmpg : PlainWrite State.writeCmpg := ⟨fun _ _ h => h, fun _ _ => ⟨rfl, rfl, rfl⟩, fun _ _ => rfl⟩

theorem plainWrite_cmph : PlainWrite State.writeCmph := ⟨fun _ _ h => h, fun _ _ => ⟨rfl, rfl, rfl⟩, fun _ _ => rfl⟩

theorem plainWrite_bar : PlainWrite State.writeBar := ⟨fun _ _ h => h, fun _ _ => ⟨rfl, rfl, rfl⟩, fun _ _ => rfl⟩

theorem Changes.plainWrite {w : State → Word → State} {d : State → State} (h : PlainWrite w) (rS : Nat)
    (hd : ∀ u, Changes may u (d u)) : Changes may s (s.writeSpr rS w d) :=
  .writeSpr rS (fun v hw => (Changes.single (.writeReg (w s v).spr hw (h.reserved s v) (h.others s v))).thenQuiet (h.onlySpr s v)) hd

/-- The parts that a row of the opcode table can change: `mfspr ECR` clears ECR, DP.TE and DP.BRK write TECR, stwu stores. -/
def mayChange (i : Instr) : Part → Prop
  | .ecr => ∃ r, i = .mfsprEcr r
  | .tecr => (∃ a b c d e f g, i = .dpTe a b c d e f g) ∨ ∃ a b, i = .dpBrk a b
  | .mem => i = .stwu

/-- Every row of the opcode table is executed by a chain of elementary changes of the parts it may change. For rfi no delivered
word may be left in debug mode: `debugStep` has taken it out. -/
theorem leads_exec (i : Instr) (s : State) (hp : ∀ p, mayChange i p → may p)
    (hir : i = .rfi → s.dbg.inDebug = true → s.ir = none) : Leads may s (exec i s) := by
  cases i with
  | dpInsn w => exact leads_execDpInsn w s
  | dpData w => exact leads_execDpData w s
  | dpTe => exact leads_execDpTe (hp .tecr (.inl ⟨_, _, _, _, _, _, _, rfl⟩)) _ _ _ _ _ _ _ s
  | dpStartdl => exact leads_execDpStartdl s
  | dpEnddl => exact leads_execDpEnddl s
  | dpBrk nm m => exact leads_execDpBrk (hp .tecr (.inr ⟨_, _, rfl⟩)) nm m s
  | dpNop | dpHreset | dpSreset | rsv00011 | rsv001 | rsv01 | rsv10 | rsv110 | rsv1110 | rsv11110 =>
    exact .next (.quiet rfl)
  | mfsprCmpa rD | mfsprCmpb rD | mfsprCmpc rD | mfsprCmpd rD | mfsprCmpe rD | mfsprCmpf rD | mfsprCmpg rD | mfsprCmph rD
  | mfsprDer rD | mfsprLctrl1 rD | mfsprLctrl2 rD | mfsprIctrl rD | mfsprBar rD =>
    exact .next (.readSpr rD _ .refl)
  | mfsprEcr rD => exact .next (.readSpr rD _ fun _ => .single (.clearEcr (hp .ecr ⟨_, rfl⟩)))
  | mfsprCounta rD | mfsprCountb rD => exact .next (.readCounter rD _ _)
  | mfsprDpdr rD => exact leads_execMfsprDpdr rD s
  | mtsprCmpa rS => exact .next (.plainWrite plainWrite_cmpa rS .completeMarked)
  | mtsprCmpb rS => exact .next (.plainWrite plainWrite_cmpb rS .completeMarked)
  | mtsprCmpc rS => exact .next (.plainWrite plainWrite_cmpc rS .completeMarked)
  | mtsprCmpd rS => exact .next (.plainWrite plainWrite_cmpd rS .completeMarked)
  | mtsprCmpe rS => exact .next (.plainWrite plainWrite_cmpe rS .completeMarked)
  | mtsprCmpf rS => exact .next (.plainWrite plainWrite_cmpf rS .completeMarked)
  | mtsprCmpg rS => exact .next (.plainWrite plainWrite_cmpg rS .completePlain)
  | mtsprCmph rS => exact .next (.plainWrite plainWrite_cmph rS .completePlain)
  | mtsprLctrl1 rS => exact .next (.plainWrite plainWrite_lctrl1 rS .completePlain)
  | mtsprLctrl2 rS => exact .next (.plainWrite plainWrite_lctrl2 rS .completePlain)
  | mtsprCounta rS => exact .next (.plainWrite plainWrite_counta rS .completePlain)
  | mtsprCountb rS => exact .next (.plainWrite plainWrite_countb rS .completePlain)
  | mtsprBar rS => exact .next (.plainWrite plainWrite_bar rS .completePlain)
  | mtsprEcr rS => exact .next (.writeSpr rS (fun _ _ => .refl s) .completeMarked)
  | mtsprDer rS => exact .next (.writeSpr rS (fun v hw => .single (.writeDer v hw)) .completeMarked)
  | mtsprIctrl rS => exact .next (.writeSpr rS (fun v hw => .single (.writeIctrl v hw)) .completeMarked)
  | mtsprDpdr rS => exact leads_execMtsprDpdr rS s
  | rfi => exact .next (.single (.returnFromInterrupt (hir rfl)))
  | sync => exact .next ((Changes.complete s _ _).thenQuiet rfl)
  | isync => exact .next (.complete s _ _)
  | mtmsr rS => exact .next ((Changes.complete _ _ _).afterQuiet rfl)
  | stwu => exact .next (.storeWithUpdate (hp .mem rfl) s _ _ _)

end

/-! ## What clears ECR and changes TECR or memory -/

/-- What a change keeps of the parts it is not allowed to change; of ECR, every bit that is set. -/
structure KeepsParts (may : Part → Prop) (s t : State) : Prop where
  ecr : ¬ may .ecr → s.spr.ecr &&& t.spr.ecr = s.spr.ecr
  tecr : ¬ may .tecr → t.port.tecr = s.port.tecr
  mem : ¬ may .mem → t.mem = s.mem

theorem KeepsParts.refl {may : Part → Prop} (s : State) : KeepsParts may s s :=
  ⟨fun _ => BitVec.and_self, fun _ => rfl, fun _ => rfl⟩

theorem KeepsParts.trans {may : Part → Prop} (s u t : State) (h : KeepsParts may s u) (h' : KeepsParts may u t) :
    KeepsParts may s t where
  ecr hn := by
    calc s.spr.ecr &&& t.spr.ecr
      _ = s.spr.ecr &&& u.spr.ecr &&& t.spr.ecr := by rw [h.ecr hn]
      _ = s.spr.ecr := by rw [BitVec.and_assoc, h'.ecr hn, h.ecr hn]
  tecr hn := (h'.tecr hn).trans (h.tecr hn)
  mem hn := (h'.mem hn).trans (h.mem hn)

/-- Taking an event sets its ECR bit and leaves every other special purpose register (rule R481). -/
theorem State.takeEvent_spr (s : State) (e : Event) (a : Word) (x : Srr1) :
    (s.takeEvent e a x).spr = { s.spr with ecr := s.spr.ecr ||| eventMask e } := by
  cases hd : s.dbg.inDebug with
  | true => rw [State.takeEvent_inDebug _ _ _ _ hd]
  | false => obtain ⟨_, _, h⟩ | ⟨_, _, h⟩ | ⟨_, _, h⟩ := s.takeEvent_cases e a x hd <;> simp [h]

/-- Setting bits of a word keeps those that are set. -/
theorem and_or_absorb (v w : Word) : v &&& (v ||| w) = v := by
  rw [BitVec.and_or_distrib_left, BitVec.and_self]
  apply BitVec.eq_of_getLsbD_eq
  intro n _
  simp only [BitVec.getLsbD_or, BitVec.getLsbD_and]
  cases v.getLsbD n <;> simp

theorem Change.keepsParts {may : Part → Prop} {s t : State} (h : Change may s t) : KeepsParts may s t := by
  cases h with
  | quiet h =>
    have hs : t.spr = s.spr := congrArg (·.spr) h
    exact ⟨fun _ => by rw [hs, BitVec.and_self], fun _ => congrArg (·.port.tecr) h, fun _ => congrArg (·.mem) h⟩
  | writeTecr x hp => exact ⟨fun _ => BitVec.and_self, fun hn => absurd hp hn, fun _ => rfl⟩
  | store l hp => exact ⟨fun _ => BitVec.and_self, fun _ => rfl, fun hn => absurd hp hn⟩
  | clearEcr hp => exact ⟨fun hn => absurd hp hn, fun _ => by simp, fun _ => by simp⟩
  | writeReg r _ _ hr =>
    obtain ⟨he, -⟩ := hr
    exact ⟨fun _ => by rw [he, BitVec.and_self], fun _ => rfl, fun _ => rfl⟩
  | recordInDebug e hd => exact ⟨fun _ => and_or_absorb _ _, fun _ => rfl, fun _ => rfl⟩
  | takeEvent e a x =>
    exact ⟨fun _ => by rw [State.takeEvent_spr]; exact and_or_absorb _ _, fun _ => by simp, fun _ => by simp⟩
  | portRead | dropWord | offerData | useData | shift | writeDer | writeIctrl | setIfm | count | setBar | beginInsn | report
  | enterDebug | returnFromInterrupt =>
    exact ⟨fun _ => by simp, fun _ => by simp, fun _ => by simp⟩

theorem exec_keepsParts {i : Instr} {s t : State} (h : exec i s = .next t) : KeepsParts (mayChange i) s t := by
  by_cases hi : i = .rfi
  · subst hi
    obtain rfl : s.returnFromInterrupt = t := Host.Outcome.next.inj h
    exact ⟨fun _ => by simp, fun _ => by simp, fun _ => by simp⟩
  · have hc : Changes (mayChange i) s t := (leads_exec i s (fun _ hp => hp) fun he => absurd he hi).changes h
    exact hc.keeps .refl .trans fun _ _ => Change.keepsParts

/-- Settles O55: every row is a chain of changes of the parts it may change. -/
theorem whoChangesWhat : Obligations.WhoChangesWhat := by
  unfold Obligations.WhoChangesWhat
  intro i s t h
  have hk := exec_keepsParts h
  refine ⟨fun hi => hk.ecr ?_, fun hte hbrk => hk.tecr ?_, hk.mem⟩
  · rintro ⟨r, rfl⟩
    exact hi r rfl
  · rintro (⟨_, _, _, _, _, _, _, rfl⟩ | ⟨_, _, rfl⟩)
    · exact hte _ _ _ _ _ _ _ rfl
    · exact hbrk _ _ rfl

/-! ## The invariant -/

theorem Sprs.reservedZero_setIctrl {r : Sprs} (h : r.reservedZero) {v : Word} (hv : v &&& maskIctrl = v) :
    ({ r with ictrl := v } : Sprs).reservedZero := by
  obtain ⟨ha, hb, hc, hd, -, hl⟩ := h
  exact ⟨ha, hb, hc, hd, hv, hl⟩

theorem Sprs.reservedZero_setEvents {r : Sprs} (h : r.reservedZero) {e d : Word} (he : e &&& maskEvents = e)
    (hd : d &&& maskEvents = d) : ({ r with ecr := e, der := d } : Sprs).reservedZero := by
  obtain ⟨h1, h2, h3, h4, h5, h6, h7, h8, h9, -, -⟩ := h
  exact ⟨h1, h2, h3, h4, h5, h6, h7, h8, h9, he, hd⟩

theorem Sprs.reservedZero_setCounts {r : Sprs} (h : r.reservedZero) {a b : Word} (ha : a &&& maskCount = a)
    (hb : b &&& maskCount = b) : ({ r with counta := a, countb := b } : Sprs).reservedZero := by
  obtain ⟨h1, h2, h3, h4, h5, h6, h7, -, -, h8⟩ := h
  exact ⟨h1, h2, h3, h4, h5, h6, h7, ha, hb, h8⟩

theorem Sprs.ecr_implemented {r : Sprs} (h : r.reservedZero) : r.ecr &&& maskEvents = r.ecr := by
  obtain ⟨-, -, -, -, -, -, -, -, -, he, -⟩ := h
  exact he

theorem Sprs.der_implemented {r : Sprs} (h : r.reservedZero) : r.der &&& maskEvents = r.der := by
  obtain ⟨-, -, -, -, -, -, -, -, -, -, hd⟩ := h
  exact hd

theorem Sprs.ictrl_implemented {r : Sprs} (h : r.reservedZero) : r.ictrl &&& maskIctrl = r.ictrl := by
  obtain ⟨-, -, -, -, hi, -⟩ := h
  exact hi

theorem Sprs.counts_implemented {r : Sprs} (h : r.reservedZero) :
    r.counta &&& maskCount = r.counta ∧ r.countb &&& maskCount = r.countb := by
  obtain ⟨-, -, -, -, -, -, -, ha, hb, -⟩ := h
  exact ⟨ha, hb⟩

/-- The invariant reads nothing outside the guarded part. -/
theorem State.Inv.of_guarded {s t : State} (h : s.Inv) (hg : t.guarded = s.guarded) : t.Inv :=
  h.congr (congrArg (·.mem) hg) (congrArg (·.spr) hg) (congrArg (·.dbg.inDebug) hg) (congrArg (·.dbg.enable) hg)
    (congrArg (·.dbg.freeze) hg) (congrArg (·.trace.vf) hg) (congrArg (·.trace.prevKind) hg)
    (congrArg (·.trace.isctHold) hg) (congrArg (·.trace.isctActive) hg) (congrArg (·.port.cpuWaiting) hg)
    (congrArg (·.port.shifted) hg) (congrArg (·.ir) hg) (congrArg (·.port.validData) hg)

/-- In debug mode the invariant says nothing of what the CPU waits for, of the delivered word and of valid data (rule R48). -/
theorem State.Inv.inDebug_port {s : State} (h : s.Inv) (hd : s.dbg.inDebug = true) (c : CpuWaiting) (w : Option Word)
    (v : Bool) : ({ s with port := { s.port with cpuWaiting := c, validData := v }, ir := w } : State).Inv where
  memory := h.memory
  reserved := h.reserved
  debug := by
    obtain ⟨hin, -⟩ := h.debug
    exact ⟨hin, fun hn => absurd (hd.symm.trans hn) nofun⟩
  freeze := h.freeze
  isct := h.isct
  serial := h.serial

/-- Leaving debug mode for good, with no delivered word and no valid data left, keeps the invariant (rules R320, R325, R375). -/
theorem State.Inv.leaveDebug {s : State} (h : s.Inv) (hir : s.ir = none) :
    ({ s.leaveDebug with port := { s.leaveDebug.port with validData := false } } : State).Inv := by
  obtain ⟨hdbg, hport, -⟩ := s.leaveDebug_spec
  refine ⟨by simpa using h.memory, by simpa using h.reserved, ⟨fun hd => ?_, fun _ => ?_⟩, fun he => ?_, ?_, ?_⟩
  · simp [hdbg] at hd
  · exact ⟨by simp [hport], by simpa using hir, rfl⟩
  · simpa [hdbg, State.enabledEvent] using he
  · simpa [State.isctConsistent] using h.isct
  · simpa using h.serial

/-- An rfi keeps the invariant if no delivered word is left in debug mode (rules R320, R321, R375). -/
theorem State.Inv.returnFromInterrupt {s : State} (h : s.Inv) (hir : s.dbg.inDebug = true → s.ir = none) :
    s.returnFromInterrupt.Inv := by
  obtain ⟨hin, hout⟩ := h.debug
  unfold State.returnFromInterrupt
  dsimp only
  split
  · rename_i hd
    obtain ⟨hen, -⟩ := hin hd
    split
    · refine .enterDebug (by simpa using h.memory) (by simpa using h.reserved) ?_ (by simpa using h.serial) ?_ _ _
      · simpa [State.isctConsistent] using h.isct
      · simpa using hen
    · refine State.Inv.leaveDebug ?_ (hir hd)
      exact h.of_guarded rfl
  · rename_i hd
    apply State.Inv.finish
    split
    · exact h.of_guarded rfl
    · exact ⟨h.memory, h.reserved, ⟨fun hd' => absurd hd' hd, hout⟩, fun he => he, h.isct, h.serial⟩

theorem Change.inv {may : Part → Prop} {s t : State} (hc : Change may s t) (h : s.Inv) : t.Inv := by
  cases hc with
  | quiet hg => exact h.of_guarded hg
  | portRead c w hd => exact h.inDebug_port hd c w s.port.validData
  | offerData hd => exact h.inDebug_port hd s.port.cpuWaiting s.ir true
  | dropWord =>
    obtain ⟨hin, hout⟩ := h.debug
    refine ⟨h.memory, h.reserved, ⟨hin, fun hn => ?_⟩, h.freeze, h.isct, h.serial⟩
    obtain ⟨hwait, -, hvalid⟩ := hout hn
    exact ⟨hwait, rfl, hvalid⟩
  | useData =>
    obtain ⟨hin, hout⟩ := h.debug
    refine ⟨h.memory, h.reserved, ⟨hin, fun hn => ?_⟩, h.freeze, h.isct, h.serial⟩
    obtain ⟨hwait, hir, -⟩ := hout hn
    exact ⟨hwait, hir, rfl⟩
  | shift n hn => exact ⟨h.memory, h.reserved, h.debug, h.freeze, h.isct, hn⟩
  | writeTecr x _ => exact ⟨h.memory, h.reserved, h.debug, h.freeze, h.isct, h.serial⟩
  | store l _ => exact ⟨Memory.wf_writeBytes l _ h.memory, h.reserved, h.debug, h.freeze, h.isct, h.serial⟩
  | writeReg r _ hz hr =>
    obtain ⟨he, hd, hi⟩ := hr
    refine ⟨h.memory, hz h.reserved, h.debug, ?_, ?_, h.serial⟩
    · simpa [State.freezeConsistent, State.enabledEvent, he, hd] using h.freeze
    · simpa [State.isctConsistent, hi] using h.isct
  | writeDer v _ =>
    exact .updateFreeze h.memory (Sprs.reservedZero_setEvents h.reserved (Sprs.ecr_implemented h.reserved) (and_mask_idem v _))
      h.debug h.isct h.serial
  | writeIctrl v _ =>
    exact ⟨h.memory, Sprs.reservedZero_setIctrl h.reserved (and_mask_idem v _), h.debug, h.freeze, nofun, h.serial⟩
  | clearEcr _ =>
    unfold State.clearEcr
    split
    · refine ⟨h.memory, Sprs.reservedZero_setEvents h.reserved (by decide) (Sprs.der_implemented h.reserved), h.debug, ?_, h.isct,
        h.serial⟩
      simp [State.freezeConsistent, State.enabledEvent]
    · exact h
  | setIfm b =>
    refine ⟨h.memory, Sprs.reservedZero_setIctrl h.reserved (ictrl_setIfm_reserved (Sprs.ictrl_implemented h.reserved) b), h.debug,
      h.freeze, fun hh => ?_, h.serial⟩
    exact (h.isct hh).trans (fieldOf_setIfm s.spr.ictrl b).symm
  | count a b ha hb =>
    obtain ⟨ha', hb'⟩ := Sprs.counts_implemented h.reserved
    refine ⟨h.memory, Sprs.reservedZero_setCounts h.reserved ?_ ?_, h.debug, h.freeze, h.isct, h.serial⟩
    · obtain rfl | ⟨v, rfl⟩ := ha
      · exact ha'
      · exact countWord_reserved v _
    · obtain rfl | ⟨v, rfl⟩ := hb
      · exact hb'
      · exact countWord_reserved v _
  | setBar v => exact ⟨h.memory, h.reserved, h.debug, h.freeze, h.isct, h.serial⟩
  | beginInsn => exact h.beginInsn
  | report v k hv =>
    obtain ⟨hin, hout⟩ := h.debug
    refine ⟨h.memory, h.reserved, ⟨fun hd => ?_, hout⟩, h.freeze, h.isct, h.serial⟩
    obtain ⟨hen, hfreeze, -⟩ := hin hd
    exact ⟨hen, hfreeze, hv hd⟩
  | recordInDebug e hd =>
    obtain ⟨hin, -⟩ := h.debug
    obtain ⟨-, hfreeze, -⟩ := hin hd
    exact ⟨h.memory, Sprs.reservedZero_recordEvent h.reserved e, h.debug, fun _ => hfreeze, h.isct, h.serial⟩
  | takeEvent e a x => exact h.takeEvent e a x
  | enterDebug a x hc =>
    simp only [State.enterCondition, Bool.and_eq_true] at hc
    obtain ⟨⟨he, -⟩, -⟩ := hc
    exact .enterDebug h.memory h.reserved h.isct h.serial he a x
  | returnFromInterrupt hir => exact h.returnFromInterrupt hir

theorem Changes.inv {may : Part → Prop} {s t : State} (hc : Changes may s t) (h : s.Inv) : t.Inv :=
  hc.keeps (R := fun a b => a.Inv → b.Inv) (fun _ ha => ha) (fun _ _ _ hab hbc ha => hbc (hab ha)) (fun _ _ h ha => h.inv ha) h

end Sys2Proof.Machine
end

section
/-! PROOFS. A step in which no reset comes is a chain of elementary changes; a reset is one change of its own. -/

namespace Sys2Proof.Machine

section
variable {may : Part → Prop} {s t u : State}

/-! ## Events at the boundary of an instruction -/

theorem Changes.highEvent (h : s.highEvent = some u) : Changes may s u := by
  unfold State.highEvent at h
  split at h
  · exact Option.some.inj h ▸ .takeAt s _ _
  · split at h
    · exact Option.some.inj h ▸ (Changes.takeAt _ _ _).afterQuiet rfl
    · split at h
      · exact Option.some.inj h ▸ (Changes.takeAt _ _ _).afterQuiet rfl
      · cases h

theorem Changes.lowEvent (s : State) : Changes may s s.lowEvent := by
  unfold State.lowEvent
  split
  · exact .takeAt s _ _
  · split
    · exact .takeAt s _ _
    · split
      · exact (Changes.takeAt _ _ _).afterQuiet rfl
      · exact .refl s

theorem Changes.afterEvents (s : State) (lbrk : Bool) (ia : WordAddr) : Changes may s (s.afterEvents lbrk ia) := by
  unfold State.afterEvents
  split
  · exact .takeAt s _ _
  · unfold State.traceOr
    split
    · exact (Changes.takeAt _ _ _).afterQuiet rfl
    · exact .lowEvent s

theorem State.guarded_noteExpired (s : State) (a b : Bool) : (s.noteExpired a b).guarded = s.guarded := by
  unfold State.noteExpired
  split <;> rfl

/-- What the start of a step changes (rules R315, R318). -/
theorem Changes.beginStep (s : State) : Changes may s s.beginStep := by
  obtain h | ⟨-, ls, e, h⟩ := s.beginStep_cases
  · rw [h]
    exact .quiet rfl
  · rw [h]
    exact (Changes.takeAt _ _ _).afterQuiet rfl

theorem State.beginStep_inputs (s : State) : s.beginStep.inputs = s.inputs := by
  obtain h | ⟨-, ls, e, h⟩ := s.beginStep_cases <;> simp [h]

/-! ## Retiring an instruction -/

theorem Changes.counting (s pre : State) (free : Bool) (w : Iwp) (l0 l1 : Bool) :
    Changes may s (s.count pre free w l0 l1) := by
  refine (Changes.single (.count (s.count pre free w l0 l1).spr.counta (s.count pre free w l0 l1).spr.countb ?_ ?_)).thenQuiet rfl
  · dsimp only [State.count]
    split
    · exact .inr ⟨_, rfl⟩
    · exact .inl rfl
  · dsimp only [State.count]
    split
    · exact .inr ⟨_, rfl⟩
    · exact .inl rfl

theorem Changes.retireDone (s pre : State) (e : InFlight) : Changes may s (s.retireDone pre e) := by
  have hcount : ∀ l0 l1,
      Changes may s (((s.reportIwp e.iwp).reportLwp l0 l1).count pre (altersCounters e.word) e.iwp l0 l1) :=
    fun l0 l1 => (Changes.counting _ pre _ _ _ _).afterQuiet rfl
  refine (hcount (lwpInsn pre.spr e.iwp 0 s.cycles) (lwpInsn pre.spr e.iwp 1 s.cycles)).trans ?_
  unfold State.retireDone
  dsimp only
  split
  · refine Changes.thenQuiet ?_ (State.guarded_noteExpired _ _ _)
    refine .trans ?_ (.afterEvents _ _ _)
    exact (Changes.single (.setBar _)).thenQuiet rfl
  · exact (Changes.afterEvents _ _ _).afterQuiet rfl

theorem Changes.takeIbrk (s : State) (e : InFlight) : Changes may s (s.takeIbrk e) := by
  have htake : Changes may s ((s.reportIwp e.iwp).takeAt .instrBreakpoint s.cpu.pc) := (Changes.takeAt _ _ _).afterQuiet rfl
  exact htake.thenQuiet (State.guarded_noteExpired _ _ _)

theorem leads_executeWord (hp : ∀ p, may p) (w : Word) (s : State) (hir : s.dbg.inDebug = true → s.ir = none) :
    Leads may s (executeWord w s) := by
  unfold executeWord
  split
  · exact leads_exec _ s (fun p _ => hp p) fun _ => hir
  · exact .next (.runOther (hp .mem) s w)

theorem leads_retireRun (hp : ∀ p, may p) (s : State) (e : InFlight) (ifm : Option Bool) (hd : s.dbg.inDebug = false) :
    Leads may s (s.retireRun e ifm) := by
  unfold State.retireRun
  split
  · exact .next (.takeSync s _ _)
  · obtain ⟨u, hu, hc⟩ := leads_executeWord hp e.word { s with cycles := [] } fun hd' => absurd (hd.symm.trans hd') nofun
    have hs : Changes may s u := hc.afterQuiet rfl
    rw [hu]
    refine .next (hs.trans ?_)
    have hdone : ∀ v : State, Changes may v (if v.outcome = .completed then v.retireDone s e else v) := by
      intro v
      split
      · exact .retireDone v s e
      · exact .refl v
    cases ifm with
    | none => exact hdone u
    | some b => exact (Changes.single (.setIfm b)).trans (hdone (u.setIfm b))

theorem leads_retire (hp : ∀ p, may p) (s : State) (e : InFlight) (hd : s.dbg.inDebug = false) :
    Leads may s (s.retire e) := by
  have hb : Changes may s s.beginInsn := .single .beginInsn
  obtain ⟨-, h⟩ | ⟨-, u, ifm, hu, h⟩ := s.retire_cases e
  · rw [h]
    exact .next (hb.trans (.takeSync _ _ _))
  · have hc : Changes may s u ∧ u.dbg.inDebug = false := by
      obtain rfl | rfl | ⟨b, rfl | rfl⟩ := hu
      · exact ⟨hb, hd⟩
      · exact ⟨hb.trans (.single (.setIfm false)), hd⟩
      · exact ⟨hb.thenQuiet rfl, hd⟩
      · exact ⟨hb.trans ((Changes.single (.setIfm b)).afterQuiet rfl), hd⟩
    obtain ⟨hc, hdu⟩ := hc
    obtain h | h := h
    · rw [h]
      exact .next (hc.trans (.takeIbrk u e))
    · rw [h]
      exact (leads_retireRun hp u e ifm hdu).after hc

theorem leads_cpuStep (hp : ∀ p, may p) (s : State) : Leads may s (cpuStep s) := by
  by_cases hstop : s.dbg.checkStop = true ∨ s.dbg.inDebug = true
  · have : cpuStep s = .next s := by unfold cpuStep; obtain h | h := hstop <;> simp [h]
    rw [this]
    exact .next (.refl s)
  · simp only [not_or, Bool.not_eq_true] at hstop
    obtain ⟨hcs, hd⟩ := hstop
    obtain ⟨u, hu, h⟩ | ⟨-, ⟨e, rest, -, -, h⟩ | ⟨e, rest, -, -, h⟩ | ⟨-, h⟩⟩ := cpuStep_cases s hcs hd
    · rw [h]
      exact .next (.highEvent hu)
    · rw [h]
      exact (leads_retire hp _ e (by exact hd)).afterQuiet rfl
    · rw [h]
      exact .next (.quiet rfl)
    · rw [h]
      exact (leads_retire hp _ _ (by exact hd)).afterQuiet rfl

/-! ## Delivered instructions and transmissions -/

theorem Changes.afterPort (s : State) : Changes may s s.afterPort := by
  obtain ⟨-, h⟩ | h | ⟨-, h⟩ | ⟨-, u, hu, h⟩ | ⟨-, -, h⟩ := s.afterPort_cases
  · rw [h]
    exact .refl s
  · rw [h]
    exact .quiet rfl
  · rw [h]
    exact (Changes.takeAt _ _ _).afterQuiet rfl
  · rw [h]
    exact (Changes.highEvent hu).thenQuiet rfl
  · rw [h]
    exact (Changes.lowEvent _).afterQuiet rfl

/-- The CPU executes a delivered word, which has been taken out. -/
theorem leads_debugStep (hp : ∀ p, may p) (w : Word) (s : State) (hir : s.ir = none) : Leads may s (debugStep w s) := by
  obtain ⟨u, hu, hc⟩ := leads_executeWord hp w { s.beginInsn with cycles := [] } fun _ => hir
  have hb : Changes may s s.beginInsn := .single .beginInsn
  have hexec : Changes may s.beginInsn u := hc.afterQuiet rfl
  unfold debugStep
  rw [hu]
  exact .next (hb.trans (hexec.trans (.afterPort u)))

/-- No transmission stands for rfi (rules R130, R132). -/
theorem decodeFrame_ne_rfi (f : Frame) : decodeFrame f ≠ .rfi := by
  have hcmd : ∀ d, decodeCommand d ≠ .rfi := by
    intro d
    unfold decodeCommand
    dsimp only
    repeat' split
    all_goals nofun
  match f with
  | .long false w => nofun
  | .long true w => nofun
  | .short false d => nofun
  | .short true d => exact hcmd d

theorem leads_finishFrame (hp : ∀ p, may p) (f : Frame) (s : State) : Leads may s (finishFrame f s) := by
  unfold finishFrame
  split
  · exact .next (.refl s)
  · obtain ⟨u, hu, hc⟩ := leads_exec (decodeFrame f) s (fun p _ => hp p) fun hf => absurd hf (decodeFrame_ne_rfi f)
    rw [hu]
    refine .next (hc.trans ?_)
    unfold State.afterFrame
    split
    · exact .afterPort u
    · exact .refl u

theorem Changes.answer (s : State) : Changes may s s.answer := by
  unfold State.answer
  split
  · exact (Changes.single .useData).thenQuiet rfl
  · split
    · exact .quiet rfl
    · split <;> exact .quiet rfl

theorem Changes.exchange (s : State) (f : Frame) : Changes may s (s.exchange f) :=
  (Changes.answer s).trans ((Changes.single (.shift 0 (by decide))).thenQuiet rfl)

/-- A transmission is complete after 35 bits at the latest (rule R131). -/
theorem lt_of_not_transmissionDone {r : BitVec 35} {n : Nat} (h : ¬ transmissionDone r n = true) : n < 35 := by
  simp only [transmissionDone, Bool.or_eq_true, decide_eq_true_eq, not_or] at h
  omega

theorem Changes.serialClock (s : State) (dsdi : Bool) : Changes may s (s.serialClock dsdi).1 := by
  unfold State.serialClock
  split
  · split
    · exact (Changes.answer s).trans ((Changes.single (.shift 1 (by decide))).thenQuiet rfl)
    · exact .quiet rfl
  · dsimp only
    split
    · exact (Changes.single (.shift 0 (by decide))).thenQuiet rfl
    · rename_i hdone
      exact (Changes.single (.shift _ (lt_of_not_transmissionDone hdone))).thenQuiet rfl

theorem leads_serialStep (hp : ∀ p, may p) (dsdi : Bool) (s : State) : Leads may s (serialStep dsdi s) := by
  have hc : Changes may s (s.serialClock dsdi).1 := .serialClock s dsdi
  unfold serialStep
  split
  · rename_i u f hu
    rw [hu] at hc
    exact (leads_finishFrame hp f u).after hc
  · rename_i u hu
    rw [hu] at hc
    exact .next hc

theorem leads_transmit (hp : ∀ p, may p) (f : Frame) (s : State) : Leads may s (transmit f s) := by
  unfold transmit
  split
  · exact (leads_finishFrame hp f _).after (.exchange s f)
  · exact .next (.refl s)

/-- A clock of the status pins is a report on VF (rules R174, R177). -/
theorem Changes.clock (s : State) (r : ClockReport) (q : Fin 6) (h : Fin 3) : Changes may s (s.clock r q h) := by
  refine (Changes.single (.report (s.clock r q h).trace.vf (s.clock r q h).trace.prevKind fun hd => ?_)).thenQuiet ?_
  · simp [State.clock, hd, State.reportVf]
  · simp [State.guarded]

theorem Changes.busGrant (s : State) : Changes may s s.busGrant := by
  unfold State.busGrant
  split <;> exact .quiet rfl

/-! ## A step -/

theorem leads_processInput (hp : ∀ p, may p) (i : Input) (s : State) (hi : ∀ p, i ≠ .reset p) :
    Leads may s (processInput i s) := by
  cases i with
  | cpuStep => exact leads_cpuStep hp s
  | fetch ia flow =>
    simp only [processInput]
    split <;> exact .next (.quiet rfl)
  | clock r q h => exact .next (.clock s r q h)
  | busGrant => exact .next (.busGrant s)
  | frame f => exact leads_transmit hp f s
  | shift b => exact leads_serialStep hp b s
  | cancel | peripheral | external | nmi | machineCheck | decrementer | trace => exact .next (.quiet rfl)
  | reset p => exact absurd rfl (hi p)

theorem leads_wordStep (hp : ∀ p, may p) (w : Word) (s : State) (hn : s.noReset) : Leads may s (wordStep w s) := by
  obtain ⟨rest, -, h⟩ | ⟨i, rest, hin, -, h⟩ := wordStep_cases w s
  · rw [h]
    have hdrop : Changes may s { s with ir := none } := .single .dropWord
    exact (leads_debugStep hp w _ (by rfl)).after (hdrop.thenQuiet rfl)
  · rw [h]
    exact (leads_processInput hp i _ fun p hp' => hn p (by simp [hin, hp'])).afterQuiet rfl

theorem Changes.runOn (hp : ∀ p, may p) (hn : s.noReset) (h : runOn s = .next t) : Changes may s t := by
  have hb : Changes may s s.beginStep := .beginStep s
  have hnb : s.beginStep.noReset := by simpa only [State.noReset, State.beginStep_inputs] using hn
  obtain ⟨hc, rfl⟩ | ⟨-, ⟨w, -, h⟩ | ⟨-, ⟨i, rest, hin, h⟩ | ⟨-, -, h⟩⟩⟩ := runOn_cases s t h
  · exact hb.trans (.single (.enterDebug _ _ hc))
  · exact hb.trans ((leads_wordStep hp w _ hnb).changes h)
  · have hi : ∀ p, i ≠ .reset p := fun p hp' => hnb p (by simp [hin, hp'])
    exact hb.trans (((leads_processInput hp i _ hi).changes h).afterQuiet rfl)
  · exact hb.trans ((leads_cpuStep hp _).changes h)

/-- A step in which no reset comes is a chain of elementary changes. -/
theorem Changes.step (hn : s.noReset) (h : step s = .next t) : Changes (fun _ => True) s t := by
  rw [step_noReset s ((State.nextReset_eq_none s).mpr hn)] at h
  exact .runOn (fun _ => trivial) hn h

end

/-! ## Reset -/

/-- The registers after a reset have no reserved bit set (rules R60, R435). -/
theorem Sprs.reservedZero_reset {r : Sprs} (h : r.reservedZero) :
    ({ r with ictrl := 0, lctrl1 := 0, lctrl2 := 0, ecr := 0, der := 0x2002000F
              counta := r.counta &&& 0xFFFF0000, countb := r.countb &&& 0xFFFF0000 } : Sprs).reservedZero := by
  have hcount : ∀ w : Word, w &&& 0xFFFF0000 &&& maskCount = w &&& 0xFFFF0000 := fun w => by
    rw [BitVec.and_assoc]
    rfl
  have hder : (0x2002000F : Word) &&& maskEvents = 0x2002000F := by decide
  obtain ⟨ha, hb, hc, hd, -⟩ := h
  exact ⟨ha, hb, hc, hd, BitVec.zero_and, BitVec.zero_and, BitVec.zero_and, hcount _, hcount _, BitVec.zero_and, hder⟩

/-- A reset establishes the rest of the invariant from any state with canonical memory and registers (rules R60, R541 to R545). -/
theorem State.Inv.applyReset {s : State} (h : s.Inv) (p : ResetPins) : (s.applyReset p).Inv := by
  have hspr := Sprs.reservedZero_reset h.reserved
  unfold State.applyReset
  dsimp only
  split
  · rename_i hpins
    obtain ⟨hen, -⟩ := (Bool.and_eq_true _ _).mp hpins
    apply State.Inv.enterDebug
    · exact h.memory
    · exact Sprs.reservedZero_recordEvent hspr _
    · exact fun _ => rfl
    · exact Nat.zero_lt_succ 34
    · exact hen
  · refine ⟨h.memory, hspr, ⟨nofun, fun _ => ⟨rfl, rfl, rfl⟩⟩, ?_, fun _ => rfl, Nat.zero_lt_succ 34⟩
    simp [State.freezeConsistent, State.enabledEvent]

/-- Settles O51. -/
theorem invariantAtReset : Obligations.InvariantAtReset where
  memory := rfl
  reserved := by unfold Sprs.reservedZero; decide
  debug := ⟨nofun, fun _ => ⟨rfl, rfl, rfl⟩⟩
  freeze := nofun
  isct := fun _ => rfl
  serial := by decide

/-- Settles O52: a reset establishes the invariant, and every elementary change of any other step keeps it. -/
theorem everyStepKeepsTheInvariant : Obligations.EveryStepKeepsTheInvariant := by
  unfold Obligations.EveryStepKeepsTheInvariant
  intro s t hs h
  obtain ⟨p, rest, -, rfl⟩ | ⟨hn, -⟩ := step_cases s t h
  · exact State.Inv.applyReset (by exact hs.of_guarded rfl) p
  · exact (Changes.step ((State.nextReset_eq_none s).mp hn) h).inv hs

/-! ## The latches -/

/-- The latches keep their values, and with the debug mode enable latch at 0 debug mode is not entered (rules R42, R45, R301). -/
structure KeepsLatches (s t : State) : Prop where
  enable : t.dbg.enable = s.dbg.enable
  clockMode : t.port.clockMode = s.port.clockMode
  outside : s.dbg.enable = false → s.dbg.inDebug = false → t.dbg.inDebug = false

theorem KeepsLatches.refl (s : State) : KeepsLatches s s := ⟨rfl, rfl, fun _ hd => hd⟩

theorem KeepsLatches.trans (s u t : State) (h : KeepsLatches s u) (h' : KeepsLatches u t) : KeepsLatches s t where
  enable := h'.enable.trans h.enable
  clockMode := h'.clockMode.trans h.clockMode
  outside he hd := h'.outside (h.enable.trans he) (h.outside he hd)

/-- With debug mode disabled an event does not lead into it (rules R301, R303). -/
theorem State.takeEvent_inDebug_disabled {s : State} (he : s.dbg.enable = false) (hd : s.dbg.inDebug = false) (e : Event)
    (a : Word) (x : Srr1) : (s.takeEvent e a x).dbg.inDebug = false := by
  obtain ⟨hen, -⟩ | ⟨-, -, h⟩ | ⟨-, -, h⟩ := s.takeEvent_cases e a x hd
  · exact absurd (he.symm.trans hen) nofun
  · rw [h, State.updateFreeze_eq]
    exact hd
  · rw [h, State.updateFreeze_eq]
    exact hd

theorem Change.keepsLatches {may : Part → Prop} {s t : State} (h : Change may s t) : KeepsLatches s t := by
  cases h with
  | quiet h =>
    have hd : t.dbg.inDebug = s.dbg.inDebug := congrArg (·.dbg.inDebug) h
    exact ⟨congrArg (·.dbg.enable) h, congrArg (·.port.clockMode) h, fun _ hd' => hd.trans hd'⟩
  | takeEvent e a x => exact ⟨by simp, by simp, fun he hd => State.takeEvent_inDebug_disabled he hd e a x⟩
  | enterDebug a x hc =>
    simp only [State.enterCondition, Bool.and_eq_true] at hc
    obtain ⟨⟨hen, -⟩, -⟩ := hc
    exact ⟨by simp, by simp, fun he => absurd (he.symm.trans hen) nofun⟩
  | returnFromInterrupt _ =>
    exact ⟨by simp, by simp, fun he hd => by simp [State.returnFromInterrupt, he, hd]⟩
  | writeTecr | store | clearEcr | writeReg | recordInDebug | portRead | dropWord | offerData | useData | shift | writeDer
  | writeIctrl | setIfm | count | setBar | beginInsn | report =>
    exact ⟨by simp, by simp, fun _ hd => by simpa using hd⟩

/-- What a reset loads from the pin samples (rules R541, R542), and that it enters debug mode only if it is enabled. -/
theorem State.applyReset_latches (s : State) (p : ResetPins) :
    (s.applyReset p).dbg.enable = p.dsckAtMinus3 ∧
      ((s.applyReset p).port.clockMode = if p.dsdiAt8 then .syncSelfClock else .async) ∧
      (p.dsckAtMinus3 = false → (s.applyReset p).dbg.inDebug = false) := by
  unfold State.applyReset
  dsimp only
  split
  · rename_i hpins
    obtain ⟨hen, -⟩ := (Bool.and_eq_true _ _).mp hpins
    exact ⟨by simp, by simp, fun he => absurd (he.symm.trans hen) nofun⟩
  · exact ⟨rfl, rfl, fun _ => rfl⟩

/-- Settles O54: every elementary change keeps the latches, and a reset loads them. -/
theorem latchesConstantBetweenResets : Obligations.LatchesConstantBetweenResets := by
  unfold Obligations.LatchesConstantBetweenResets
  refine ⟨fun s t hn h => ?_, State.applyReset_latches⟩
  obtain ⟨hen, hclock, hout⟩ := (Changes.step hn h).keeps .refl .trans fun _ _ => Change.keepsLatches
  exact ⟨hen, hclock, hout⟩

end Sys2Proof.Machine
end

section
/-! PROOFS. The load/store watchpoints: which cycles they see, which instructions have them, how often they are reported (rules R241
to R244). -/

namespace Sys2Proof.Machine

/-- A cycle is aligned if its address is a multiple of its size (rule R100). -/
theorem cycleAligned_iff (c : LsCycle) : cycleAligned c = true ↔ c.addr.toNat % sizeBytes c.size = 0 := beq_iff_eq

/-- A condition of a watchpoint counts only if its don't-care bit is 1 (rule R243). -/
theorem ignored_or_met_iff (care met : Bool) : (!care || met) = true ↔ (care = true → met = true) := by
  cases care <;> simp

/-- What a cycle must meet to have watchpoint `x` (rules R100, R242, R243). -/
theorem lwpCycle_iff (r : Sprs) (w : Iwp) (x : Nat) (c : LsCycle) :
    lwpCycle r w x c = true ↔
      bitOf r.lctrl2 (10 * x) = true ∧ c.addr.toNat % sizeBytes c.size = 0 ∧
        (bitOf r.lctrl2 (10 * x + 3) = true → w.select (fieldOf r.lctrl2 (10 * x + 1) 2) = true) ∧
        (bitOf r.lctrl2 (10 * x + 6) = true → lAddrSelect r (fieldOf r.lctrl2 (10 * x + 4) 2) c = true) ∧
        (bitOf r.lctrl2 (10 * x + 9) = true → lDataSelect r (fieldOf r.lctrl2 (10 * x + 7) 2) c = true) := by
  simp only [lwpCycle, Bool.and_eq_true, ignored_or_met_iff, cycleAligned_iff, and_assoc]
  exact and_left_comm

/-- A condition that holds of one of the four byte lanes (rule R241). -/
theorem anyLane_iff (p : Nat → Bool) : [0, 1, 2, 3].any p = true ↔ ∃ k < 4, p k = true := by
  change (List.range 4).any p = true ↔ _
  simp only [List.any_eq_true, List.mem_range]

/-- The four L-data events that the two-bit code selects (rule R241). -/
theorem lDataSelect_iff (r : Sprs) (c : LsCycle) :
    (lDataSelect r 0b00 c = true ↔ ∃ k < 4, gMatch r c k = true) ∧
      (lDataSelect r 0b01 c = true ↔ ∃ k < 4, hMatch r c k = true) ∧
      (lDataSelect r 0b10 c = true ↔ ∃ k < 4, gMatch r c k = true ∧ hMatch r c k = true) ∧
      (lDataSelect r 0b11 c = true ↔ ∃ k < 4, gMatch r c k = true ∨ hMatch r c k = true) := by
  refine ⟨?_, ?_, ?_, ?_⟩ <;> rw [lDataSelect, anyLane_iff]
  · exact Iff.rfl
  · exact Iff.rfl
  · exact exists_congr fun _ => and_congr_right' (Bool.and_eq_true_iff ..)
  · exact exists_congr fun _ => and_congr_right' (Bool.or_eq_true_iff ..)

/-- An instruction has a load/store watchpoint if one of its cycles has it (rule R244). -/
theorem lwpInsn_iff (r : Sprs) (w : Iwp) (x : Nat) (cs : List LsCycle) :
    lwpInsn r w x cs = true ↔ ∃ c ∈ cs, lwpCycle r w x c = true := List.any_eq_true

/-- With every condition ignored a watchpoint is that of exactly the load/store instructions (rule R243). -/
theorem lwpInsn_unconditioned (r : Sprs) (w : Iwp) (x : Nat) (cs : List LsCycle) (hon : bitOf r.lctrl2 (10 * x) = true)
    (hinsn : bitOf r.lctrl2 (10 * x + 3) = false) (haddr : bitOf r.lctrl2 (10 * x + 6) = false)
    (hdata : bitOf r.lctrl2 (10 * x + 9) = false) (hcs : ∀ c ∈ cs, cycleAligned c = true) :
    lwpInsn r w x cs = true ↔ cs ≠ [] := by
  have hseen : ∀ c ∈ cs, lwpCycle r w x c = true := fun c hc => by
    simp [lwpCycle_iff, hon, hinsn, haddr, hdata, (cycleAligned_iff c).mp (hcs c hc)]
  rw [lwpInsn_iff]
  constructor
  · rintro ⟨c, hc, -⟩
    exact List.ne_nil_of_mem hc
  · intro hne
    obtain ⟨c, hc⟩ := List.exists_mem_of_ne_nil cs hne
    exact ⟨c, hc, hseen c hc⟩

/-- The report of an instruction's load/store watchpoints pulses each at most once (rule R244). -/
theorem State.count_reportLwp (s : State) (l0 l1 : Bool) (h : s.out = []) :
    (s.reportLwp l0 l1).out.count (.watchpoint .lwp0) = l0.toNat ∧
      (s.reportLwp l0 l1).out.count (.watchpoint .lwp1) = l1.toNat := by
  simp only [State.reportLwp, h]
  cases l0 <;> cases l1 <;> decide

/-- Settles O41. -/
theorem loadStoreWatchpointScope : Obligations.LoadStoreWatchpointScope := by
  unfold Obligations.LoadStoreWatchpointScope
  intro r w
  refine ⟨fun c => ⟨lwpCycle_iff r w 0 c, lwpCycle_iff r w 1 c, lDataSelect_iff r c⟩, ⟨rfl, rfl, rfl, rfl⟩, lwpInsn_iff r w,
    ?_, ?_, State.count_reportLwp⟩
  · exact fun hon hinsn haddr hdata cs => lwpInsn_unconditioned r w 0 cs hon hinsn haddr hdata
  · exact fun hon hinsn haddr hdata cs => lwpInsn_unconditioned r w 1 cs hon hinsn haddr hdata

end Sys2Proof.Machine
end

section
/-! PROOFS. sync, isync and mtmsr complete in every mode (rules R107, R180, R22). -/

namespace Sys2Proof.Machine

/-- An instruction that completes as an indirect change of flow is, outside debug mode, reported as VF = 101, and the next fetch is a
program trace cycle (rule R180). -/
theorem State.complete_indirect_reported (s : State) (hd : s.dbg.inDebug = false) :
    (s.complete .indirect .indirect).trace.pending = s.trace.pending ++ [.indirect] ∧ vfCode .indirect = 0b101 ∧
      (s.complete .indirect .indirect).trace.nextFlow = .indirect := by
  rw [s.complete_running _ _ hd]
  exact ⟨rfl, rfl, rfl⟩

/-- Settles O25: each completes, sync with the counters settled, mtmsr on the machine with the new MSR. -/
theorem syncIsyncMtmsr : Obligations.SyncIsyncMtmsr := by
  unfold Obligations.SyncIsyncMtmsr
  intro s r
  refine ⟨⟨_, rfl, ?_, rfl, State.complete_pc s _ _, State.fetching_complete s _ _⟩,
    ⟨_, rfl, State.kept_complete s _ _, State.complete_pc s _ _, State.fetching_complete s _ _, s.complete_indirect_reported⟩,
    ⟨_, rfl, State.kept_complete _ _ _, State.complete_pc _ _ _, State.fetching_complete _ _ _, ?_⟩⟩
  · exact State.kept_complete s .sequential .sequential
  · exact State.complete_indirect_reported { s with cpu := { s.cpu with msr := Config.msrOfWord (s.reg r) } }

end Sys2Proof.Machine
end

section
/-! PROOFS. What a step runs: the instruction fetched at the pc (rules R92, R225, R261, R485). -/

namespace Sys2Proof

/-! ## Decoded words are well formed (rule R144) -/

/-- A register access is well formed whatever its SPR number is: only its general register is checked. -/
theorem decodeMfspr_wellFormed {spr r : Nat} {i : Instr} (hr : r < 32) (h : decodeMfspr spr r = some i) : i.WellFormed := by
  have hall : (decodeMfspr spr r).all Instr.wellFormed = true := by
    simp only [decodeMfspr, apply_ite (Option.all Instr.wellFormed), Option.all_some, Option.all_none, Instr.wellFormed,
      decide_eq_true hr, ite_self]
  rwa [h] at hall

theorem decodeMtspr_wellFormed {spr r : Nat} {i : Instr} (hr : r < 32) (h : decodeMtspr spr r = some i) : i.WellFormed := by
  have hall : (decodeMtspr spr r).all Instr.wellFormed = true := by
    simp only [decodeMtspr, apply_ite (Option.all Instr.wellFormed), Option.all_some, Option.all_none, Instr.wellFormed,
      decide_eq_true hr, ite_self]
  rwa [h] at hall

/-- The register field of a word is five bits, so what a word decodes to names a register. -/
theorem decodeWord?_wellFormed {w : Word} {i : Instr} (h : decodeWord? w = some i) : i.WellFormed := by
  have hr : w.toNat / 2 ^ 21 % 32 < 32 := Nat.mod_lt _ (by decide)
  simp only [decodeWord?] at h
  split_ifs at h
  case pos | pos | pos | pos => cases h; rfl
  · exact decodeMfspr_wellFormed hr h
  · exact decodeMtspr_wellFormed hr h
  · cases h
    exact decide_eq_true hr

end Sys2Proof

namespace Sys2Proof.Machine

theorem executeWord_decoded {w : Word} {i : Instr} (h : decodeWord? w = some i) (s : State) : executeWord w s = exec i s := by
  simp only [executeWord, h]

/-- An instruction that is not recognised, or whose watchpoints neither trap nor let a counter expire, raises no breakpoint, uses up
no IFM and is not unpredictable; if its fetch was not refused it is executed (rules R225, R251 to R253). -/
theorem State.retire_unbroken (s : State) (e : InFlight) (hf : e.fault = none)
    (hq : s.recognized = false ∨ s.direct e.iwp = false ∧ s.expiryI e.iwp = false) :
    s.retire e = s.beginInsn.retireRun e none := by
  change s.beginInsn.recognized = false ∨ s.beginInsn.direct e.iwp = false ∧ s.beginInsn.expiryI e.iwp = false at hq
  have hstop : (s.beginInsn.recognized && s.beginInsn.direct e.iwp) = false := by
    obtain h | ⟨h, -⟩ := hq <;> simp [h]
  have hunp : s.beginInsn.unpredictable e = false := by
    unfold State.unpredictable
    split
    · simp only [hstop, Bool.false_and]
    · rfl
  have hbrk : s.beginInsn.ibrk e.iwp = false := by
    obtain h | ⟨h, h'⟩ := hq
    · simp [State.ibrk, h]
    · simp [State.ibrk, h, h']
  simp [State.retire, hf, hunp, hstop, hbrk]

/-- A step of the CPU with no high event and nothing in flight retires the instruction it fetches at the pc (rules R92, R485). -/
theorem cpuStep_fetches (s : State) (hs : s.dbg.checkStop = false) (hd : s.dbg.inDebug = false) (hh : s.highEvent = none)
    (hfl : s.inflight = []) : cpuStep s = (s.fetchAt s.pcWord .sequential).1.retire (s.fetchAt s.pcWord .sequential).2 := by
  obtain ⟨u, hu, -⟩ | ⟨-, ⟨e, rest, hc, -⟩ | ⟨e, rest, hc, -⟩ | ⟨-, h⟩⟩ := cpuStep_cases s hs hd
  · exact absurd (hh.symm.trans hu) nofun
  · exact absurd (hfl.symm.trans hc) nofun
  · exact absurd (hfl.symm.trans hc) nofun
  · exact h

/-- Whether a high event is due does not depend on the outputs. -/
theorem State.highEvent_clearOut {s : State} (h : s.highEvent = none) : ({ s with out := [] } : State).highEvent = none := by
  unfold State.highEvent at h ⊢
  split_ifs at h ⊢
  rfl

/-- A step outside debug mode with nothing pending and nothing from the environment is a step of the CPU (rules R305, R312). -/
theorem step_running (s : State) (hd : s.dbg.inDebug = false) (hs : s.dbg.checkStop = false) (hc : s.enterCondition = false)
    (hir : s.ir = none) (hin : s.inputs = []) : step s = cpuStep { s with out := [] } := by
  have hb := s.beginStep_running hd
  have hr : s.nextReset = none := by simp [State.nextReset, hin]
  rw [step_idle s hr (by rw [hb]; exact hc) (by rw [hb]; exact hir) (by rw [hb]; exact hin), hb]
  simp only [hs, Bool.false_eq_true, if_false]

/-- Settles O48: the step is a step of the CPU, which retires the instruction it fetches; nothing stops it, so it is executed. -/
theorem stepRunsTheFetchedInstruction : Obligations.StepRunsTheFetchedInstruction := by
  unfold Obligations.StepRunsTheFetchedInstruction
  intro s i hd hs hc hir hin hfl hh hfault hdec hq
  refine ⟨decodeWord?_wellFormed hdec, ?_⟩
  have hflow : joinFlow s.trace.nextFlow .sequential = State.fetchFlow { s with out := [] } .sequential := by
    simp [State.fetchFlow, hfl]
  have hfetch : State.fetchAt { s with out := [] } s.pcWord .sequential =
      (State.traceFetch { s with out := [] } s.pcWord .sequential,
        ⟨s.pcWord, Memory.readWord s.mem (s.pcWord ++ (0 : BitVec 2)), iwpOf s.spr s.pcWord, none,
          joinFlow s.trace.nextFlow .sequential, s.trace.fetches⟩) := by
    rw [hflow, ← hfault]
    rfl
  have hstep := cpuStep_fetches { s with out := [] } hs hd (State.highEvent_clearOut hh) hfl
  rw [show State.pcWord { s with out := [] } = s.pcWord from rfl, hfetch] at hstep
  rw [step_running s hd hs hc hir hin, hstep, State.retire_unbroken _ _ rfl (by exact hq)]
  simp only [State.retireRun, executeWord_decoded hdec]
  cases exec i _ <;> rfl

end Sys2Proof.Machine
end

section
/-! PROOFS. Decoding and encoding agree (rules R130 to R134, R138, R144 to R146). -/

namespace Sys2Proof

/-! ## Bits -/

/-- The bits of a value with one more bit at the low end. -/
theorem toBits_concat {n : Nat} (x : BitVec n) (b : Bool) : toBits (x.concat b) = toBits x ++ [b] := by
  rw [toBits, List.range_succ, List.map_append]
  refine congrArg₂ (· ++ ·) (List.map_congr_left fun k hk => ?_) ?_
  · have hk : k < n := List.mem_range.mp hk
    rw [BitVec.getMsbD_eq_getLsbD, BitVec.getMsbD_eq_getLsbD, BitVec.getLsbD_concat, if_neg (by omega)]
    simp [hk, show k < n + 1 by omega, show n - k - 1 = n - 1 - k by omega]
  · simp [BitVec.getMsbD_eq_getLsbD]

/-- The value of a list of bits with one more bit at the low end. -/
theorem ofBits_append_one (n : Nat) (l : List Bool) (b : Bool) : ofBits (n + 1) (l ++ [b]) = (ofBits n l).concat b := by
  have hb : (2 * natOfBits l + b.toNat) % 2 = b.toNat ∧ (2 * natOfBits l + b.toNat) / 2 = natOfBits l := by
    have := b.toNat_lt
    omega
  apply BitVec.eq_of_toNat_eq
  rw [BitVec.toNat_concat, ofBits, ofBits, BitVec.toNat_ofNat, BitVec.toNat_ofNat, natOfBits_append_one, Nat.pow_succ',
    Nat.mod_mul, hb.1, hb.2]
  omega

/-- A list of bits is that of its value, so a field written bit by bit keeps every bit (rule R98). -/
theorem toBits_ofBits (l : List Bool) : toBits (ofBits l.length l) = l := by
  induction l using List.reverseRecOn with
  | nil => rfl
  | append_singleton l b ih => rw [List.length_append, List.length_singleton, ofBits_append_one, toBits_concat, ih]

/-! ## Words of primary opcode 31 (rule R144) -/

/-- The value of a word of primary opcode 31 with the fields of rule R144: register, the two halves of the SPR number, and the
extended opcode with the last bit. -/
def opcode31Value (r lo hi x : Nat) : Nat := 31 * 2 ^ 26 + r * 2 ^ 21 + lo * 2 ^ 16 + hi * 2 ^ 11 + x

theorem opcode31Value_lt {r lo hi x : Nat} (hr : r < 32) (hlo : lo < 32) (hhi : hi < 32) (hx : x < 2 ^ 11) :
    opcode31Value r lo hi x < 2 ^ 32 := by
  unfold opcode31Value
  omega

/-- The fields do not overlap, so each reads back. -/
theorem opcode31Value_fields {r lo hi x : Nat} (hr : r < 32) (hlo : lo < 32) (hhi : hi < 32) (hx : x < 2 ^ 11) :
    opcode31Value r lo hi x / 2 ^ 26 = 31 ∧ opcode31Value r lo hi x / 2 ^ 21 % 32 = r ∧
      opcode31Value r lo hi x / 2 ^ 16 % 32 = lo ∧ opcode31Value r lo hi x / 2 ^ 11 % 32 = hi ∧
      opcode31Value r lo hi x % 2 ^ 11 = x := by
  unfold opcode31Value
  omega

/-- The fields are all there is in the word. -/
theorem opcode31Value_of_fields {n : Nat} (hop : n / 2 ^ 26 = 31) :
    opcode31Value (n / 2 ^ 21 % 32) (n / 2 ^ 16 % 32) (n / 2 ^ 11 % 32) (n % 2 ^ 11) = n := by
  unfold opcode31Value
  omega

/-- The two halves of an SPR number read back from the number. -/
theorem opcode31Value_sprHalves (r : Nat) {lo : Nat} (hi x : Nat) (hlo : lo < 32) :
    opcode31Value r ((lo + 32 * hi) % 32) ((lo + 32 * hi) / 32) x = opcode31Value r lo hi x := by
  rw [show (lo + 32 * hi) % 32 = lo by omega, show (lo + 32 * hi) / 32 = hi by omega]

theorem mfsprWord_eq (spr r : Nat) : mfsprWord spr r = BitVec.ofNat 32 (opcode31Value r (spr % 32) (spr / 32) (2 * 339)) := by
  rw [mfsprWord, opcode31Value]
  congr 1
  omega

theorem mtsprWord_eq (spr r : Nat) : mtsprWord spr r = BitVec.ofNat 32 (opcode31Value r (spr % 32) (spr / 32) (2 * 467)) := by
  rw [mtsprWord, opcode31Value]
  congr 1
  omega

theorem mtmsrWord_eq (r : Nat) : BitVec.ofNat 32 (0x7C000124 + r * 2 ^ 21) = BitVec.ofNat 32 (opcode31Value r 0 0 (2 * 146)) := by
  rw [opcode31Value]
  congr 1
  omega

/-- How a word of primary opcode 31 decodes, but for sync, the fixed word among them: by its extended opcode. -/
theorem decodeWord?_opcode31 {r lo hi x : Nat} (hr : r < 32) (hlo : lo < 32) (hhi : hi < 32) (hx : x < 2 ^ 11) (hsync : x ≠ 0x4AC) :
    decodeWord? (BitVec.ofNat 32 (opcode31Value r lo hi x)) =
      if x = 2 * 339 then decodeMfspr (lo + 32 * hi) r
      else if x = 2 * 467 then decodeMtspr (lo + 32 * hi) r
      else if x = 2 * 146 ∧ lo + 32 * hi = 0 then some (.mtmsr r)
      else none := by
  have hn : (BitVec.ofNat 32 (opcode31Value r lo hi x)).toNat = opcode31Value r lo hi x := by
    rw [BitVec.toNat_ofNat, Nat.mod_eq_of_lt (opcode31Value_lt hr hlo hhi hx)]
  obtain ⟨hop, hfr, hflo, hfhi, hfx⟩ := opcode31Value_fields hr hlo hhi hx
  rw [decodeWord?, hn]
  generalize opcode31Value r lo hi x = n at *
  rw [if_neg (show ¬ n = 0x4C000064 by omega), if_neg (show ¬ n = 0x7C0004AC by omega),
    if_neg (show ¬ n = 0x4C00012C by omega), if_neg (show ¬ n = 0x97FE0004 by omega), if_pos hop, hfr, hflo, hfhi, hfx]

theorem decodeWord?_mfsprWord {spr r : Nat} (hs : spr < 1024) (hr : r < 32) :
    decodeWord? (mfsprWord spr r) = decodeMfspr spr r := by
  rw [mfsprWord_eq, decodeWord?_opcode31 hr (Nat.mod_lt _ (by decide)) (by omega) (by decide) (by decide), if_pos rfl,
    Nat.mod_add_div]

theorem decodeWord?_mtsprWord {spr r : Nat} (hs : spr < 1024) (hr : r < 32) :
    decodeWord? (mtsprWord spr r) = decodeMtspr spr r := by
  rw [mtsprWord_eq, decodeWord?_opcode31 hr (Nat.mod_lt _ (by decide)) (by omega) (by decide) (by decide), if_neg (by decide),
    if_pos rfl, Nat.mod_add_div]

theorem decodeWord?_mtmsrWord {r : Nat} (hr : r < 32) :
    decodeWord? (BitVec.ofNat 32 (0x7C000124 + r * 2 ^ 21)) = some (.mtmsr r) := by
  rw [mtmsrWord_eq, decodeWord?_opcode31 hr (by decide) (by decide) (by decide) (by decide), if_neg (by decide),
    if_neg (by decide), if_pos ⟨rfl, rfl⟩]

/-! ## What decodes is its own encoding -/

/-- One row of a table of cases: its condition holds and its value is the answer, or the rest of the table answers. -/
theorem eq_some_of_ite {α : Type} {c : Prop} [Decidable c] {j i : α} {o : Option α} (h : (if c then some j else o) = some i) :
    c ∧ j = i ∨ o = some i := by
  split_ifs at h with hc
  · exact .inl ⟨hc, Option.some.inj h⟩
  · exact .inr h

/-- What an SPR number decodes to is encoded with that number: row by row of the seventeen numbers (rule R24). -/
theorem encode_of_decodeMfspr {spr r : Nat} {i : Instr} (h : decodeMfspr spr r = some i) :
    encode i = .word (mfsprWord spr r) := by
  unfold decodeMfspr at h
  iterate 17
    obtain ⟨rfl, rfl⟩ | h := eq_some_of_ite h
    · rfl
  cases h

theorem encode_of_decodeMtspr {spr r : Nat} {i : Instr} (h : decodeMtspr spr r = some i) :
    encode i = .word (mtsprWord spr r) := by
  unfold decodeMtspr at h
  iterate 17
    obtain ⟨rfl, rfl⟩ | h := eq_some_of_ite h
    · rfl
  cases h

/-- A word that decodes to a row is the encoding of that row. -/
theorem encode_of_decodeWord? {w : Word} {i : Instr} (h : decodeWord? w = some i) : encode i = .word w := by
  have of_value : ∀ {n : Nat}, w.toNat = n → Encoded.word (BitVec.ofNat 32 n) = .word w := by
    rintro n rfl
    rw [BitVec.ofNat_toNat, BitVec.setWidth_eq]
  have hlo : w.toNat / 2 ^ 16 % 32 < 32 := Nat.mod_lt _ (by decide)
  simp only [decodeWord?] at h
  split_ifs at h with hrfi hsync hisync hstwu hop hmf hmt hms
  · cases h
    exact of_value hrfi
  · cases h
    exact of_value hsync
  · cases h
    exact of_value hisync
  · cases h
    exact of_value hstwu
  · rw [encode_of_decodeMfspr h, mfsprWord_eq, opcode31Value_sprHalves _ _ _ hlo, ← hmf]
    exact of_value (opcode31Value_of_fields hop).symm
  · rw [encode_of_decodeMtspr h, mtsprWord_eq, opcode31Value_sprHalves _ _ _ hlo, ← hmt]
    exact of_value (opcode31Value_of_fields hop).symm
  · cases h
    have hw := opcode31Value_of_fields hop
    obtain ⟨hx, hspr⟩ := hms
    rw [hx, show w.toNat / 2 ^ 16 % 32 = 0 by omega, show w.toNat / 2 ^ 11 % 32 = 0 by omega] at hw
    exact (congrArg Encoded.word (mtmsrWord_eq _)).trans (of_value hw.symm)

/-- Every command is the encoding of the row it decodes to: the rows of format C and the reserved rows share out the codes, with no
bit left over (rules R134, R138). -/
theorem encode_decodeCommand : ∀ d : BitVec 7, encode (decodeCommand d) = .frame (.short true d) := by decide

theorem decodeCommand_wellFormed (d : BitVec 7) : (decodeCommand d).WellFormed := by
  revert d
  decide

/-- Every transmission is the encoding of what it decodes to; the data of DP.TE is written bit by bit (rules R132 to R134). -/
theorem encode_decodeFrame (f : Frame) : encode (decodeFrame f) = .frame f := by
  match f with
  | .long false w => rfl
  | .long true w => rfl
  | .short true d => exact encode_decodeCommand d
  | .short false d => exact congrArg (fun x => Encoded.frame (.short false x)) (ofBits_toBits d)

theorem decodeFrame_wellFormed (f : Frame) : (decodeFrame f).WellFormed := by
  match f with
  | .long false w => rfl
  | .long true w => rfl
  | .short true d => exact decodeCommand_wellFormed d
  | .short false d => rfl

/-- Settles O2. -/
theorem decodedBitsAreTheEncoding : Obligations.DecodedBitsAreTheEncoding := by
  unfold Obligations.DecodedBitsAreTheEncoding
  exact ⟨fun _ _ h => ⟨decodeWord?_wellFormed h, encode_of_decodeWord? h⟩,
    fun f => ⟨decodeFrame_wellFormed f, encode_decodeFrame f⟩⟩

/-! ## What is encoded decodes back -/

/-- The data bits of DP.TE are its seven operands (rule R133). -/
theorem decodeFrame_dpTe (i0 i1 i2 i3 l0 l1 vs : Bool) :
    decodeFrame (.short false (ofBits 7 [i0, i1, i2, i3, l0, l1, vs])) = .dpTe i0 i1 i2 i3 l0 l1 vs := by
  have h := toBits_ofBits [i0, i1, i2, i3, l0, l1, vs]
  generalize hx : ofBits 7 [i0, i1, i2, i3, l0, l1, vs] = x
  have hbits : [x.getMsbD 0, x.getMsbD 1, x.getMsbD 2, x.getMsbD 3, x.getMsbD 4, x.getMsbD 5, x.getMsbD 6] =
      [i0, i1, i2, i3, l0, l1, vs] := hx ▸ h
  simp only [List.cons.injEq, and_true] at hbits
  simp only [decodeFrame, hbits]

/-- A well-formed instruction is encoded as a transmission or as a word, which decodes to it. -/
theorem encode_decodes {i : Instr} (hi : i.WellFormed) :
    (∃ f, encode i = .frame f ∧ decodeFrame f = i) ∨ ∃ w, encode i = .word w ∧ decodeWord? w = some i := by
  cases i with
  | dpInsn w | dpData w => exact .inl ⟨_, rfl, rfl⟩
  | dpTe i0 i1 i2 i3 l0 l1 vs => exact .inl ⟨_, rfl, decodeFrame_dpTe i0 i1 i2 i3 l0 l1 vs⟩
  | dpStartdl | dpEnddl => exact .inl ⟨_, rfl, by decide⟩
  | dpNop x | dpHreset x | dpSreset x | rsv00011 x | rsv11110 x => exact .inl ⟨_, rfl, by revert x; decide⟩
  | dpBrk x y | rsv001 x y | rsv01 x y | rsv10 x y | rsv110 x y | rsv1110 x y => exact .inl ⟨_, rfl, by revert x y; decide⟩
  | rfi | sync | isync | stwu => exact .inr ⟨_, rfl, by decide⟩
  | mtmsr r => exact .inr ⟨_, rfl, decodeWord?_mtmsrWord (of_decide_eq_true hi)⟩
  | mfsprCmpa r | mfsprCmpb r | mfsprCmpc r | mfsprCmpd r | mfsprEcr r | mfsprDer r | mfsprCounta r | mfsprCountb r | mfsprCmpe r
  | mfsprCmpf r | mfsprCmpg r | mfsprCmph r | mfsprLctrl1 r | mfsprLctrl2 r | mfsprIctrl r | mfsprBar r | mfsprDpdr r =>
    exact .inr ⟨_, rfl, decodeWord?_mfsprWord (by decide) (of_decide_eq_true hi)⟩
  | mtsprCmpa r | mtsprCmpb r | mtsprCmpc r | mtsprCmpd r | mtsprEcr r | mtsprDer r | mtsprCounta r | mtsprCountb r | mtsprCmpe r
  | mtsprCmpf r | mtsprCmpg r | mtsprCmph r | mtsprLctrl1 r | mtsprLctrl2 r | mtsprIctrl r | mtsprBar r | mtsprDpdr r =>
    exact .inr ⟨_, rfl, decodeWord?_mtsprWord (by decide) (of_decide_eq_true hi)⟩

/-- The port decodes the bits of a transmission and leaves the rest (rules R130, R131). -/
theorem decodeBits_frame (f : Frame) (rest : List Bool) :
    decodeBits .port ((Encoded.frame f).bits ++ rest) = .ok (decodeFrame f, rest) := by
  simp only [decodeBits, Encoded.bits, readFrame_bits]

/-- The fetch decodes the 32 bits of a word of the table and leaves the rest (rule R144). -/
theorem decodeBits_word {w : Word} {i : Instr} (h : decodeWord? w = some i) (rest : List Bool) :
    decodeBits .fetch ((Encoded.word w).bits ++ rest) = .ok (i, rest) := by
  have htake : (toBits w ++ rest).take 32 = toBits w := by simp
  have hdrop : (toBits w ++ rest).drop 32 = rest := by simp
  have hlen : ¬ (toBits w ++ rest).length < 32 := by simp
  simp only [decodeBits, Encoded.bits, htake, hdrop, if_neg hlen, ofBits_toBits, decodeWord, h]

/-- Settles O1: the bits of either channel read back, and what they are the bits of decodes back. -/
theorem decodeInvertsEncode : Obligations.DecodeInvertsEncode := by
  unfold Obligations.DecodeInvertsEncode
  intro i rest hi
  obtain ⟨f, he, hd⟩ | ⟨w, he, hd⟩ := encode_decodes hi
  · rw [he, ← hd]
    exact decodeBits_frame f rest
  · rw [he]
    exact decodeBits_word hd rest

/-- Settles O3: ten words of the tables, and two that stand for no row. -/
theorem tableWordsDecode : Obligations.TableWordsDecode := by
  unfold Obligations.TableWordsDecode
  decide

end Sys2Proof

namespace Sys2Proof.Machine

/-! ## Commands without an effect on the port (rules R138, R362 to R364, R368) -/

/-- The reserved codes are those of the major opcodes 00100 to 11110, and 00011 with the first bit of the extended opcode 0. -/
theorem isReservedCommand_commandData : ∀ (e : BitVec 2) (m : BitVec 5),
    isReservedCommand (decodeCommand (commandData e m)) = (decide (4 ≤ m.toNat ∧ m.toNat ≤ 30) || (m == 0b00011 && !e.msb)) := by
  decide

/-- A reserved command only sets the model's flag, whichever of the seven rows it is (rule R368, decision D3). -/
theorem exec_reserved {i : Instr} (h : isReservedCommand i = true) (s : State) : exec i s = .next s.reservedCommand := by
  cases i with
  | rsv00011 | rsv001 | rsv01 | rsv10 | rsv110 | rsv1110 | rsv11110 => rfl
  | _ => cases h

/-- Settles O4. -/
theorem reservedNopAndResetCommands : Obligations.ReservedNopAndResetCommands := by
  unfold Obligations.ReservedNopAndResetCommands
  exact ⟨isReservedCommand_commandData, fun _ s h => exec_reserved h s, fun _ _ => ⟨rfl, rfl, rfl⟩⟩

/-! ## The store with update (rules R146, R388, R95) -/

/-- The bytes of a word in memory, most significant at the lowest address (rule R95). -/
theorem Memory.byteOf_readWord (m : List Host.Cell) (a : Word) :
    byteOf (Memory.readWord m a) 0 = Memory.read m a.toNat ∧ byteOf (Memory.readWord m a) 1 = Memory.read m (a + 1).toNat ∧
      byteOf (Memory.readWord m a) 2 = Memory.read m (a + 2).toNat ∧ byteOf (Memory.readWord m a) 3 = Memory.read m (a + 3).toNat := by
  simp only [byteOf, Memory.readWord]
  refine ⟨?_, ?_, ?_, BitVec.extractLsb'_append_eq_right⟩
  · rw [BitVec.extractLsb'_append_eq_of_le (by decide), BitVec.extractLsb'_append_eq_of_le (by decide),
      BitVec.extractLsb'_append_eq_of_le (by decide), BitVec.extractLsb'_eq_self]
  · rw [BitVec.extractLsb'_append_eq_of_le (by decide), BitVec.extractLsb'_append_eq_of_le (by decide)]
    exact BitVec.extractLsb'_append_eq_right
  · rw [BitVec.extractLsb'_append_eq_of_le (by decide)]
    exact BitVec.extractLsb'_append_eq_right

/-- A byte outside the stored word reads as before. -/
theorem Memory.read_writeWord_of_not_inWord {m : List Host.Cell} {a b : Word} (v : Word) (hm : Memory.wf m = true)
    (hb : ¬ inWord a b) : Memory.read (Memory.writeWord m a v) b.toNat = Memory.read m b.toNat := by
  simp only [inWord, not_or] at hb
  obtain ⟨h0, h1, h2, h3⟩ := hb
  exact Memory.read_writeWord_of_ne m a v b hm h0 h1 h2 h3

/-- Settles O26: the store completes on the machine with rA and memory written, and completing changes neither. -/
theorem storeWithUpdate : Obligations.StoreWithUpdate := by
  unfold Obligations.StoreWithUpdate
  intro s rS rA d a hS hA hm ha hok
  obtain ⟨-, ht⟩ | ⟨c, hc, -⟩ := s.storeWithUpdate_cases rS rA d a ha
  · have hword := Memory.readWord_writeWord s.mem a (s.reg rS) hm
    obtain ⟨hb0, hb1, hb2, hb3⟩ := Memory.byteOf_readWord (Memory.writeWord s.mem a (s.reg rS)) a
    rw [hword] at hb0 hb1 hb2 hb3
    refine ⟨_, (executeWord_stwuWord s rS rA d hS hA).trans (congrArg _ ht), ?_, ?_, ?_, ?_, ?_, ?_, ?_, ?_, ?_,
      State.complete_pc _ _ _, State.fetching_complete _ _ _⟩
    · rintro rfl rfl rfl
      exact congrArg _ ht
    · exact (State.reg_congr (State.complete_cpu_gpr _ _ _) rA).trans (s.reg_setReg_self rA a hA)
    · rw [State.complete_mem]
      exact hword
    · rw [State.byteAt, State.complete_mem, hb0]
    · rw [State.byteAt, State.complete_mem, hb1]
    · rw [State.byteAt, State.complete_mem, hb2]
    · rw [State.byteAt, State.complete_mem, hb3]
    · intro b hb
      rw [State.byteAt, State.complete_mem]
      exact Memory.read_writeWord_of_not_inWord _ hm hb
    · rw [State.kept_complete, State.complete_mem]
  · exact absurd (hok.symm.trans hc) nofun

end Sys2Proof.Machine
end

section
/-! PROOFS. Program trace: which fetches are shown and how the SIU makes the show cycles (O59), and when the VSYNC report is
placed (O58). -/

namespace Sys2Proof.Machine

/-! ## Fetches and show cycles (rules R171, R178, R182, R187, R191, R192) -/

/-- With something in flight a fetch keeps its own class. -/
theorem State.fetchFlow_ahead {s : State} (h : s.inflight ≠ []) (f : Flow) : s.fetchFlow f = f := by
  simp [State.fetchFlow, h]

/-- With nothing in flight a fetch also takes the class due to the next instruction (rules R171, R180). -/
theorem State.fetchFlow_next {s : State} (h : s.inflight = []) (f : Flow) : s.fetchFlow f = joinFlow s.trace.nextFlow f := by
  simp [State.fetchFlow, h]

/-- The visibility due to the next instruction, or the setting in force, shows a fetch; nothing else does (rules R178, R191). -/
theorem State.fetchShown_iff (s : State) (f : Flow) :
    s.fetchShown f = true ↔
      s.inflight = [] ∧ s.trace.nextVisible = true ∨ shownFetch s.isctInForce s.port.tecr.vsync (s.fetchFlow f) = true := by
  simp [State.fetchShown, and_comm]

/-- A fetch that is shown waits for the bus with its class (rule R182). -/
theorem State.traceFetch_shown {s : State} {f : Flow} (h : s.fetchShown f = true) (ia : WordAddr) :
    s.traceFetch ia f = { s with trace := { s.trace with
      fetches := s.trace.fetches + 1, showQueue := s.trace.showQueue ++ [⟨ia, s.fetchFlow f, s.trace.fetches⟩] } } := by
  simp [State.traceFetch, h]

/-- A fetch that is not shown is only numbered. -/
theorem State.traceFetch_hidden {s : State} {f : Flow} (h : s.fetchShown f = false) (ia : WordAddr) :
    s.traceFetch ia f = { s with trace := { s.trace with fetches := s.trace.fetches + 1 } } := by
  simp [State.traceFetch, h]

/-- The table of R191 for the four ISCTL codes, whatever SER is (rules R191, R192, D19). -/
theorem shownFetch_table (ser : BitVec 1) (vsync : Bool) (f : Flow) :
    shownFetch (ser ++ 0b00#2) vsync f = true ∧ (shownFetch (ser ++ 0b01#2) vsync f = true ↔ f = .direct ∨ f = .indirect) ∧
      (shownFetch (ser ++ 0b10#2) vsync f = true ↔ f = .indirect) ∧
      (shownFetch (ser ++ 0b11#2) vsync f = true ↔ vsync = true ∧ f = .indirect) := by
  have hctl : ∀ ctl : BitVec 2, (ser ++ ctl).extractLsb' 0 2 = ctl := fun _ => BitVec.extractLsb'_append_eq_right
  simp [shownFetch, hctl]

/-- A fetch ahead, or one that no write of ICTRL holds back, is made under ICTRL's setting (rule R109). -/
theorem State.isctInForce_ictrl {s : State} (h : s.inflight ≠ [] ∨ s.trace.isctHold = false) :
    s.isctInForce = fieldOf s.spr.ictrl 29 3 := by
  obtain h | h := h <;> simp [State.isctInForce, h]

theorem State.serialized_iff (s : State) : s.serialized = true ↔ s.isctInForce.msb = false ∨ s.isctInForce = 0b100 := by
  simp [State.serialized]

/-- The SIU makes the oldest waiting show cycle, and marks it if it is a program trace cycle (rule R187). -/
theorem State.busGrant_cons {s : State} {c : ShowCycle} {rest : List ShowCycle} (h : s.trace.showQueue = c :: rest) :
    s.busGrant =
      { s with
        trace := { s.trace with showQueue := rest }
        out := s.out ++ [.showCycle c.addr (decide (c.flow = .indirect))] } := by
  simp [State.busGrant, h, State.emit]

theorem State.busGrant_nil {s : State} (h : s.trace.showQueue = []) : s.busGrant = s := by
  simp [State.busGrant, h]

/-- Settles O59. -/
theorem showCycles : Obligations.ShowCycles := by
  unfold Obligations.ShowCycles
  refine ⟨shownFetch_table, fun s ia f c hahead hnext => ?_, fun s => ⟨State.isctInForce_ictrl, s.serialized_iff⟩, ?_,
    fun s c rest => ⟨State.busGrant_cons, State.busGrant_nil⟩⟩
  · obtain rfl : c = s.fetchFlow f := by
      by_cases h : s.inflight = []
      · rw [hnext h, State.fetchFlow_next h]
      · rw [hahead h, State.fetchFlow_ahead h]
    refine ⟨fun h => State.traceFetch_shown ((s.fetchShown_iff f).mpr h) ia, fun hvis hset => State.traceFetch_hidden ?_ ia⟩
    rw [Bool.eq_false_iff, ne_eq, State.fetchShown_iff, hset]
    rintro (⟨hnil, hv⟩ | hs)
    · obtain h | h := hvis
      · exact h hnil
      · exact absurd (hv.symm.trans h) nofun
    · cases hs
  · intro f
    cases f <;> decide

/-! ## The VSYNC report (rules R178, R181, D31) -/

/-- Every program trace cycle of before a negation has been fetched and shown (rule R178; log entry 57). -/
def State.negationSettled (s : State) : Prop :=
  (∀ c ∈ s.trace.showQueue, c.flow ≠ .indirect) ∧
    (s.trace.nextFlow = .indirect → ∃ e rest, s.inflight = e :: rest ∧ s.usable e = true)

/-- No target is owed if the next instruction is no target, or if it is in flight already. -/
theorem State.targetOwed_eq_false_iff (s : State) :
    s.targetOwed = false ↔ (s.trace.nextFlow = .indirect → ∃ e rest, s.inflight = e :: rest ∧ s.usable e = true) := by
  cases h : s.inflight <;> simp [State.targetOwed, h]

theorem State.vsyncReportDue_iff (s : State) :
    s.vsyncReportDue = true ↔
      s.trace.vsyncChanged = true ∧ s.dbg.inDebug = false ∧ s.trace.pending = [] ∧
        (s.port.tecr.vsync = false → s.negationSettled) := by
  have howed := s.targetOwed_eq_false_iff
  cases hv : s.port.tecr.vsync
  · simp [State.vsyncReportDue, State.negationSettled, hv, howed, and_assoc, and_comm (b := ∀ x ∈ s.trace.showQueue, _)]
  · simp [State.vsyncReportDue, hv, and_assoc]

/-- With nothing to report, no clock but one in which the CPU model gives a type reports one. -/
theorem State.clockType_none {s : State} {r : ClockReport} (hr : r = .stall ∨ r = .next ∨ r = .given .none)
    (hp : s.trace.pending = []) : s.clockType r = (.none, []) := by
  obtain rfl | rfl | rfl := hr <;> simp [State.clockType, hp]

/-- In a type slot with no type to report, a VSYNC report that is due is made if the last pin value allows it; else 000 is shown
(rule R178, D31). -/
theorem State.clock_vsyncDue (s u : State) {r : ClockReport} (q : Fin 6) (h : Fin 3)
    (hu : u = { s with trace := { s.trace with histFlush := BitVec.ofNat 2 h.val } }) (hd : s.dbg.inDebug = false)
    (hk : s.trace.prevKind = .type) (ht : s.clockType r = (.none, [])) (hdue : s.vsyncReportDue = true) :
    s.clock r q h = if s.trace.vf.toNat ≤ 2 then u.reportVsync else u.reportClock r .none [] := by
  have hu' : u.dbg.inDebug = false ∧ u.trace.prevKind = .type ∧ u.trace.vf = s.trace.vf ∧ u.clockType r = (.none, []) ∧
      u.vsyncReportDue = true := by
    rw [hu]
    exact ⟨hd, hk, rfl, ht, hdue⟩
  simp only [State.clock, ← hu, hu']
  simp [hd, hk]

/-- A VSYNC change is used up by its report only: every other clock outside debug mode leaves it (rules R178, R181). -/
theorem State.clock_usesVsync {s : State} {r : ClockReport} {q : Fin 6} {h : Fin 3} (hd : s.dbg.inDebug = false)
    (hv : s.trace.vsyncChanged = true) (hc : (s.clock r q h).trace.vsyncChanged = false) :
    s.trace.prevKind = .type ∧ s.vsyncReportDue = true ∧ s.trace.vf.toNat ≤ 2 ∧
      s.clock r q h = State.reportVsync { s with trace := { s.trace with histFlush := BitVec.ofNat 2 h.val } } := by
  obtain ⟨hd', -⟩ | ⟨-, hk, hdue, hvf, hr⟩ | ⟨-, t, rest, -, -, hr⟩ | ⟨-, -, t, rest, -, hr⟩ := s.clock_cases _ r q h rfl
  · exact absurd (hd.symm.trans hd') nofun
  · exact ⟨hk, hdue, hvf, hr⟩
  all_goals
    rw [hr] at hc
    exact absurd (hv.symm.trans hc) nofun

/-- The first fetch after a VSYNC report is a program trace cycle that waits for the bus in every setting (rule R178). -/
theorem State.reportVsync_traceFetch (s : State) (a : WordAddr) (f : Flow) :
    (s.reportVsync.traceFetch a f).trace.showQueue = s.trace.showQueue ++ [⟨a, .indirect, s.trace.fetches⟩] := by
  have hshown : s.reportVsync.fetchShown f = true := (State.fetchShown_iff _ f).mpr (.inl ⟨rfl, rfl⟩)
  rw [State.traceFetch_shown hshown, State.fetchFlow_next rfl]
  rfl

/-- Settles O58. -/
theorem vsyncReportPlacement : Obligations.VsyncReportPlacement := by
  unfold Obligations.VsyncReportPlacement
  intro s r q h hd hv
  refine ⟨fun hk hr hp hneg => ?_, fun hc => ?_⟩
  · have hdue : s.vsyncReportDue = true := s.vsyncReportDue_iff.mpr ⟨hv, hd, hp, hneg⟩
    rw [s.clock_vsyncDue _ q h rfl hd hk (State.clockType_none hr hp) hdue]
    split
    · exact ⟨rfl, rfl⟩
    · exact ⟨hv, rfl, rfl⟩
  · obtain ⟨hk, hdue, hvf, hr⟩ := State.clock_usesVsync hd hv hc
    obtain ⟨-, -, hp, hneg⟩ := s.vsyncReportDue_iff.mp hdue
    rw [hr]
    exact ⟨hk, hvf, hp, rfl, rfl, hneg, rfl, State.reportVsync_traceFetch _⟩

end Sys2Proof.Machine
end

section
/-! PROOFS. The recorder and the machine agree on the kind of the next slot of the status pins after every operation (O57): most
operations report nothing, and each report is read from the kind of slot the machine made it in. -/

namespace Sys2Proof.Machine

/-! ## What the recorder reads -/

theorem slotAfterAll_append (k : SlotKind) (a b : List (BitVec 3)) :
    slotAfterAll k (a ++ b) = slotAfterAll (slotAfterAll k a) b := by
  induction a generalizing k with
  | nil => rfl
  | cons v rest ih => exact ih _

@[simp] theorem vfReports_append (a b : List Output) : vfReports (a ++ b) = vfReports a ++ vfReports b :=
  List.filterMap_append

@[simp] theorem vfReports_vf (v : BitVec 3) : vfReports [.vf v] = [v] := rfl

@[simp] theorem vfReports_nil : vfReports [] = [] := rfl

@[simp] theorem vfReports_ecrOr : vfReports [.ecrOr] = [] := rfl

@[simp] theorem vfReports_showCycle (a : WordAddr) (b : Bool) : vfReports [.showCycle a b] = [] := rfl

@[simp] theorem vfReports_resetRequest (b : Bool) : vfReports [.resetRequest b] = [] := rfl

/-- A pulse of a watchpoint pin is no report on VF. -/
@[simp] theorem vfReports_watchpoint (b : Bool) (w : Watchpoint) : vfReports (if b then [.watchpoint w] else []) = [] := by
  cases b <;> rfl

/-- Every type report but VF = 111 is made in a type slot, and there it is read as the type it stands for (rule R172). -/
theorem readSlot_vfCode {k : SlotKind} {t : VfType} (h : k = .type ∨ t = .notTakenFlush) :
    (readSlot k (vfCode t)).2 = slotAfter t := by
  obtain rfl | rfl := h
  · cases t <;> rfl
  · cases k <;> rfl

/-- A flush count is at most 5, so in a flush slot it is neither VF = 111 nor reserved, and a type slot follows (rules R173, R174). -/
theorem readSlot_count (q : Fin 6) : (readSlot .flush (BitVec.ofNat 3 q.val)).2 = .type := by
  revert q
  decide

/-! ## A machine the recorder follows -/

/-- What the recorder's following of the machine depends on: the VF values reported, the kind of slot and the mode. -/
def State.slotView (s : State) : List (BitVec 3) × SlotKind × Bool := (vfReports s.out, s.trace.prevKind, s.dbg.inDebug)

/-- The recorder that began a step at slot kind `k` and has read the VF values reported so far is at the machine's kind of slot. -/
def State.readFrom (k : SlotKind) (s : State) : Prop := slotAfterAll k (vfReports s.out) = s.trace.prevKind

/-- The recorder follows the machine, and in debug mode the machine is in a type slot (rule R177). -/
structure State.Followed (k : SlotKind) (s : State) : Prop where
  read : s.readFrom k
  debug : s.dbg.inDebug = true → s.trace.prevKind = .type

/-- A result whose next state, if it is one, the recorder follows. -/
def Follows (k : SlotKind) (r : Result) : Prop := ∀ t, r = .next t → t.Followed k

section
variable {k : SlotKind} {s : State}

/-- An operation that reports nothing, and keeps the kind of slot and the mode, keeps the recorder with the machine. -/
theorem State.Followed.congr {t : State} (h : s.Followed k) (hv : t.slotView = s.slotView) : t.Followed k := by
  simp only [State.slotView, Prod.mk.injEq] at hv
  obtain ⟨ho, hk, hd⟩ := hv
  exact ⟨by rw [State.readFrom, ho, hk, h.read], by rw [hd, hk]; exact h.debug⟩

theorem Follows.next {t : State} (h : t.Followed k) : Follows k (.next t) := by
  rintro _ ⟨⟩
  exact h

theorem Follows.fault (f : Fault) : Follows k (.fault f) := fun _ h => nomatch h

theorem Follows.refused (r : Refusal) : Follows k (.refused r) := fun _ h => nomatch h

/-- A report on VF, read from the kind of slot it is made in (rule R174). -/
theorem State.readFrom.reportVf (h : s.readFrom k) {v : BitVec 3} {n : SlotKind} (hr : (readSlot s.trace.prevKind v).2 = n) :
    (s.reportVf v n).readFrom k := by
  simp only [State.readFrom] at h
  simp only [State.readFrom, State.reportVf, vfReports_append, vfReports_vf, slotAfterAll_append, h]
  exact hr

/-! ## Completing an instruction -/

theorem State.Followed.startFetch (h : s.Followed k) : s.startFetch.Followed k := h.congr (by simp [State.slotView])

theorem State.Followed.finish (h : s.Followed k) (t : VfType) (f : Flow) : (s.finish t f).Followed k :=
  h.congr (by simp [State.slotView])

theorem State.Followed.complete (h : s.Followed k) (t : VfType) (f : Flow) : (s.complete t f).Followed k :=
  h.congr (by simp [State.slotView])

theorem State.Followed.completeMarked (h : s.Followed k) : s.completeMarked.Followed k := h.congr (by simp [State.slotView])

theorem State.Followed.completePlain (h : s.Followed k) : s.completePlain.Followed k := h.congr (by simp [State.slotView])

/-! ## Events -/

/-- A flush slot still due is closed by its count, and a type slot follows (rule R174). -/
theorem State.readFrom.closeSlot (h : s.readFrom k) : s.closeSlot.readFrom k ∧ s.closeSlot.trace.prevKind = .type := by
  unfold State.closeSlot
  split
  · exact ⟨h, ‹_›⟩
  · rename_i hk
    refine ⟨State.readFrom.reportVf (by exact h) ?_, rfl⟩
    exact (congrArg (fun k => (readSlot k _).2) hk).trans (readSlot_count ⟨_, Nat.mod_lt _ (by decide)⟩)

/-- Debug mode entry closes the slot, then reports 100, and 000 in the flush slot after it (rule R177). -/
theorem State.Followed.enterDebug (h : s.readFrom k) (a : Word) (x : Srr1) : (s.enterDebug a x).Followed k := by
  obtain ⟨hr, hk⟩ := State.readFrom.closeSlot (s := s.cancelFlight) (by exact h)
  refine State.Followed.startFetch ⟨?_, fun _ => rfl⟩
  refine State.readFrom.reportVf (State.readFrom.reportVf (by exact hr) ?_) rfl
  exact congrArg (fun k => (readSlot k 0b100).2) hk

/-- Taking an event reports nothing, unless it enters debug mode (rules R303, R312, R315, R484). -/
theorem State.Followed.takeEvent (h : s.Followed k) (e : Event) (a : Word) (x : Srr1) : (s.takeEvent e a x).Followed k := by
  cases hd : s.dbg.inDebug with
  | true =>
    rw [State.takeEvent_inDebug _ _ _ _ hd]
    exact h.congr (by simp [State.slotView])
  | false =>
    obtain ⟨-, -, ht⟩ | ⟨-, -, ht⟩ | ⟨-, -, ht⟩ := s.takeEvent_cases e a x hd <;> rw [ht]
    · exact .enterDebug (by exact h.read) a x
    · exact h.congr (by simp [State.slotView, State.updateFreeze_eq, State.enterCheckStop])
    · exact h.congr (by simp [State.slotView])

theorem State.Followed.takeAt (h : s.Followed k) (e : Event) (a : Word) : (s.takeAt e a).Followed k := h.takeEvent e a _

theorem State.Followed.takeSync (h : s.Followed k) (c : SyncCause) (a : Option Word) : (s.takeSync c a).Followed k := by
  have hnone : ∀ u : State, u.Followed k → (u.takeSync c none).Followed k := by
    intro u hu
    rw [State.takeSync_none]
    split
    · exact (hu.takeEvent _ _ _).startFetch
    · exact hu.takeEvent _ _ _
  cases a with
  | none => exact hnone s h
  | some a =>
    rw [State.takeSync_some]
    exact hnone _ (by exact h.congr rfl)

theorem State.Followed.portBusError (h : s.Followed k) : s.portBusError.Followed k :=
  State.Followed.startFetch (h.congr (by simp [State.slotView, State.pulseEcrOr, State.emit]))

theorem State.Followed.seqErrorDebug (h : s.Followed k) : s.seqErrorDebug.Followed k :=
  State.Followed.portBusError (by exact h.congr rfl)

/-- Leaving debug mode, in a type slot, reports 011 or 101 (rule R179). -/
theorem State.readFrom.leaveDebug (h : s.readFrom k) (hk : s.trace.prevKind = .type) : s.leaveDebug.readFrom k := by
  have hr : ∀ v, (readSlot s.trace.prevKind v).2 = (readType v).2 := fun v => by rw [hk]; rfl
  unfold State.leaveDebug
  dsimp only
  split
  · exact State.readFrom.reportVf (by exact h) (hr 0b011)
  · exact State.readFrom.reportVf (by exact h) (hr 0b101)

/-- An rfi reports where it leaves debug mode, and where it enters it again (rules R179, R321). -/
theorem State.Followed.returnFromInterrupt (h : s.Followed k) : s.returnFromInterrupt.Followed k := by
  unfold State.returnFromInterrupt
  dsimp only
  split
  · rename_i hd
    split
    · exact .enterDebug (State.readFrom.leaveDebug (by exact h.read) (by exact h.debug hd)) _ _
    · exact ⟨State.readFrom.leaveDebug (by exact h.read) (by exact h.debug hd), by simp [State.leaveDebug_spec]⟩
  · apply State.Followed.finish
    split <;> exact h.congr rfl

/-! ## Instructions and transmissions -/

theorem State.Followed.readSpr {g : State → State} (h : s.Followed k) (rD : Nat) (v : Word)
    (hg : ∀ u : State, u.Followed k → (g u).Followed k) : (s.readSpr rD v g).Followed k := by
  unfold State.readSpr
  split
  · exact (hg _ (by exact h.congr rfl)).complete _ _
  · exact h.takeSync _ _

theorem State.Followed.readCounter (h : s.Followed k) (rD : Nat) (count : Word) (expired : Bool) :
    (s.readCounter rD count expired).Followed k :=
  h.readSpr rD _ fun _ hu => hu.congr rfl

theorem State.Followed.writeSpr {w : State → Word → State} {d : State → State} (h : s.Followed k) (rS : Nat)
    (hw : ∀ v, (w s v).Followed k) (hd : ∀ u : State, u.Followed k → (d u).Followed k) : (s.writeSpr rS w d).Followed k := by
  unfold State.writeSpr
  split
  · refine hd _ ?_
    split
    · exact hw _
    · exact h
  · exact h.takeSync _ _

theorem State.Followed.storeWithUpdate (h : s.Followed k) (rS rA : Nat) (d : BitVec 16) :
    (s.storeWithUpdate rS rA d).Followed k := by
  obtain ⟨-, ht⟩ | ⟨c, -, ht⟩ := s.storeWithUpdate_cases rS rA d _ rfl <;> rw [ht]
  · exact State.Followed.complete (by exact h.congr rfl) _ _
  · exact h.takeSync c _

/-- The CPU model's instructions report nothing themselves: their type waits for a clock (rule R170, log entry 6). -/
theorem State.Followed.runForeign (h : s.Followed k) (w : Word) : (s.runForeign w).Followed k := by
  have heff : (s.foreignEffect w).2.Followed k := by
    unfold State.foreignEffect
    split <;> exact h.congr rfl
  simp only [State.runForeign]
  split
  · exact heff.takeSync _ _
  · split
    · exact heff.takeSync _ _
    · exact State.Followed.finish (by exact heff.congr rfl) _ _

theorem State.Followed.runOther (h : s.Followed k) (w : Word) : (s.runOther w).Followed k := by
  unfold State.runOther
  split
  · exact h.storeWithUpdate _ _ _
  · exact h.runForeign w

theorem State.Followed.receiveData (h : s.Followed k) (rD : Nat) (w : Word) : (s.receiveData rD w).Followed k :=
  h.congr (by simp [State.slotView])

theorem follows_execDpInsn (h : s.Followed k) (w : Word) : Follows k (execDpInsn w s) := by
  refine .next ?_
  split
  · split
    · exact h.congr rfl
    · exact h.seqErrorDebug
    · exact h
  · exact h.congr rfl

theorem follows_execDpData (h : s.Followed k) (w : Word) : Follows k (execDpData w s) := by
  refine .next ?_
  split
  · split
    · exact h.receiveData _ w
    · exact h.seqErrorDebug
    · exact h
  · exact h.congr rfl

theorem follows_execDpStartdl (h : s.Followed k) : Follows k (execDpStartdl s) := by
  refine .next ?_
  split
  · dsimp only
    split
    · exact State.Followed.startFetch (by exact h.congr rfl)
    · exact h.congr rfl
  · exact h

theorem follows_execDpEnddl (h : s.Followed k) : Follows k (execDpEnddl s) := by
  refine .next ?_
  split
  · exact h.congr rfl
  · exact h

theorem follows_execDpBrk (h : s.Followed k) (nm m : Bool) : Follows k (execDpBrk nm m s) := by
  refine .next ?_
  split <;> exact h.congr rfl

theorem follows_execMfsprDpdr (h : s.Followed k) (rD : Nat) : Follows k (execMfsprDpdr rD s) := by
  refine .next ?_
  split
  · exact h.congr rfl
  · exact h.readSpr rD _ fun _ hu => hu.congr rfl

theorem follows_execMtsprDpdr (h : s.Followed k) (rS : Nat) : Follows k (execMtsprDpdr rS s) := by
  refine .next (h.writeSpr rS (fun v => ?_) fun _ hu => hu.completePlain)
  split
  · exact h.congr rfl
  · exact h

/-- Of the rows of the opcode table only rfi, and those that take an exception, make a report. -/
theorem follows_exec (i : Instr) (h : s.Followed k) : Follows k (exec i s) := by
  cases i with
  | dpInsn w => exact follows_execDpInsn h w
  | dpData w => exact follows_execDpData h w
  | dpStartdl => exact follows_execDpStartdl h
  | dpEnddl => exact follows_execDpEnddl h
  | dpBrk nm m => exact follows_execDpBrk h nm m
  | dpNop => exact .next h
  | dpTe | rsv00011 | rsv001 | rsv01 | rsv10 | rsv110 | rsv1110 | rsv11110 => exact .next (h.congr rfl)
  | dpHreset | dpSreset => exact .next (h.congr (by simp [State.slotView, State.emit]))
  | mfsprCmpa rD | mfsprCmpb rD | mfsprCmpc rD | mfsprCmpd rD | mfsprCmpe rD | mfsprCmpf rD | mfsprCmpg rD | mfsprCmph rD
  | mfsprDer rD | mfsprLctrl1 rD | mfsprLctrl2 rD | mfsprIctrl rD | mfsprBar rD =>
    exact .next (h.readSpr rD _ fun _ hu => hu)
  | mfsprEcr rD => exact .next (h.readSpr rD _ fun _ hu => hu.congr (by simp [State.slotView]))
  | mfsprCounta rD | mfsprCountb rD => exact .next (h.readCounter rD _ _)
  | mfsprDpdr rD => exact follows_execMfsprDpdr h rD
  | mtsprCmpa rS | mtsprCmpb rS | mtsprCmpc rS | mtsprCmpd rS | mtsprCmpe rS | mtsprCmpf rS | mtsprEcr rS | mtsprIctrl rS =>
    exact .next (h.writeSpr rS (fun _ => h.congr rfl) fun _ hu => hu.completeMarked)
  | mtsprDer rS => exact .next (h.writeSpr rS (fun _ => h.congr (by simp [State.slotView])) fun _ hu => hu.completeMarked)
  | mtsprCmpg rS | mtsprCmph rS | mtsprLctrl1 rS | mtsprLctrl2 rS | mtsprCounta rS | mtsprCountb rS | mtsprBar rS =>
    exact .next (h.writeSpr rS (fun _ => h.congr rfl) fun _ hu => hu.completePlain)
  | mtsprDpdr rS => exact follows_execMtsprDpdr h rS
  | rfi => exact .next h.returnFromInterrupt
  | sync => exact .next ((h.complete .sequential .sequential).congr rfl)
  | isync => exact .next (h.complete _ _)
  | mtmsr rS => exact .next (State.Followed.complete (by exact h.congr rfl) _ _)
  | stwu => exact .next (h.storeWithUpdate _ _ _)

theorem follows_executeWord (h : s.Followed k) (w : Word) : Follows k (executeWord w s) := by
  unfold executeWord
  split
  · exact follows_exec _ h
  · exact .next (h.runOther w)

/-! ## The status pins -/

/-- Every report of a clock is read from the slot it is made in: 000 in debug mode, 011 in a type slot, a type where it can be
reported, else a flush count (rules R172 to R174, R177, R178). -/
theorem State.Followed.clock (h : s.Followed k) (r : ClockReport) (q : Fin 6) (n : Fin 3) : (s.clock r q n).Followed k := by
  have hr : ∀ v, s.trace.prevKind = .type → (readSlot s.trace.prevKind v).2 = (readType v).2 := fun v hk => by rw [hk]; rfl
  obtain ⟨hd, hc⟩ | ⟨-, hk, -, -, hc⟩ | ⟨hd, t, rest, -, ht, hc⟩ | ⟨-, hk, t, rest, -, hc⟩ := s.clock_cases _ r q n rfl <;>
    rw [hc]
  · exact ⟨State.readFrom.reportVf (by exact h.read) (hr 0b000 (h.debug hd)), fun _ => rfl⟩
  · exact ⟨State.readFrom.reportVf (by exact h.read) (hr 0b011 hk), fun _ => rfl⟩
  · exact ⟨State.readFrom.reportVf (by exact h.read) (readSlot_vfCode ht), fun hd' => absurd (hd.symm.trans hd') nofun⟩
  · exact ⟨State.readFrom.reportVf (by exact h.read) ((congrArg (fun k => (readSlot k _).2) hk).trans (readSlot_count q)),
      fun _ => rfl⟩

theorem State.Followed.busGrant (h : s.Followed k) : s.busGrant.Followed k := by
  refine h.congr ?_
  unfold State.busGrant
  split
  · rfl
  · simp [State.slotView, State.emit]

/-! ## Retiring an instruction -/

theorem State.Followed.highEvent {u : State} (h : s.Followed k) (hu : s.highEvent = some u) : u.Followed k := by
  unfold State.highEvent at hu
  split at hu
  · exact Option.some.inj hu ▸ h.takeAt _ _
  · split at hu
    · exact Option.some.inj hu ▸ State.Followed.takeAt (by exact h.congr rfl) _ _
    · split at hu
      · exact Option.some.inj hu ▸ State.Followed.takeAt (by exact h.congr rfl) _ _
      · cases hu

theorem State.Followed.lowEvent (h : s.Followed k) : s.lowEvent.Followed k := by
  unfold State.lowEvent
  split
  · exact h.takeAt _ _
  · split
    · exact h.takeAt _ _
    · split
      · exact State.Followed.takeAt (by exact h.congr rfl) _ _
      · exact h

theorem State.Followed.afterEvents (h : s.Followed k) (lbrk : Bool) (ia : WordAddr) : (s.afterEvents lbrk ia).Followed k := by
  unfold State.afterEvents
  split
  · exact h.takeAt _ _
  · unfold State.traceOr
    split
    · exact State.Followed.takeAt (by exact h.congr rfl) _ _
    · exact h.lowEvent

theorem State.Followed.noteExpired (h : s.Followed k) (a b : Bool) : (s.noteExpired a b).Followed k :=
  h.congr (by simp [State.slotView])

theorem State.Followed.reportIwp (h : s.Followed k) (w : Iwp) : (s.reportIwp w).Followed k :=
  h.congr (by simp [State.slotView, State.reportIwp])

theorem State.Followed.reportLwp (h : s.Followed k) (l0 l1 : Bool) : (s.reportLwp l0 l1).Followed k :=
  h.congr (by simp [State.slotView, State.reportLwp])

theorem State.Followed.retireDone (h : s.Followed k) (pre : State) (e : InFlight) : (s.retireDone pre e).Followed k := by
  have hpins := (h.reportIwp e.iwp).reportLwp (lwpInsn pre.spr e.iwp 0 s.cycles) (lwpInsn pre.spr e.iwp 1 s.cycles)
  unfold State.retireDone
  dsimp only
  split
  · exact (State.Followed.afterEvents (by exact hpins.congr rfl) _ _).noteExpired _ _
  · exact State.Followed.afterEvents (by exact hpins.congr rfl) _ _

theorem State.Followed.takeIbrk (h : s.Followed k) (e : InFlight) : (s.takeIbrk e).Followed k :=
  ((h.reportIwp e.iwp).takeAt _ _).noteExpired _ _

theorem follows_retireRun (h : s.Followed k) (e : InFlight) (ifm : Option Bool) : Follows k (s.retireRun e ifm) := by
  unfold State.retireRun
  split
  · exact .next (h.takeSync _ _)
  · have hexec : Follows k (executeWord e.word { s with cycles := [] }) := follows_executeWord (by exact h.congr rfl) e.word
    have hdone : ∀ u : State, u.Followed k → (if u.outcome = .completed then u.retireDone s e else u).Followed k := by
      intro u hu
      split
      · exact hu.retireDone s e
      · exact hu
    split
    · rename_i u hu
      refine .next (hdone _ ?_)
      cases ifm with
      | none => exact hexec u hu
      | some b => exact (hexec u hu).congr rfl
    · exact .fault _
    · exact .refused _

theorem follows_retire (h : s.Followed k) (e : InFlight) : Follows k (s.retire e) := by
  have hb : s.beginInsn.Followed k := h.congr rfl
  obtain ⟨-, hr⟩ | ⟨-, u, ifm, hu, hr⟩ := s.retire_cases e
  · rw [hr]
    exact .next (hb.takeSync _ _)
  · have hc : u.Followed k := by obtain rfl | rfl | ⟨b, rfl | rfl⟩ := hu <;> exact hb.congr rfl
    obtain hr | hr := hr <;> rw [hr]
    · exact .next (hc.takeIbrk e)
    · exact follows_retireRun hc e ifm

theorem State.Followed.fetchAt (h : s.Followed k) (ia : WordAddr) (f : Flow) : (s.fetchAt ia f).1.Followed k := by
  have htrace : (s.traceFetch ia f).Followed k := h.congr rfl
  exact htrace

theorem follows_cpuStep (h : s.Followed k) : Follows k (cpuStep s) := by
  by_cases hstop : s.dbg.checkStop = true ∨ s.dbg.inDebug = true
  · have hidle : cpuStep s = .next s := by unfold cpuStep; obtain h | h := hstop <;> simp [h]
    rw [hidle]
    exact .next h
  · simp only [not_or, Bool.not_eq_true] at hstop
    obtain ⟨hcs, hd⟩ := hstop
    obtain ⟨u, hu, hc⟩ | ⟨-, ⟨e, rest, -, -, hc⟩ | ⟨e, rest, -, -, hc⟩ | ⟨-, hc⟩⟩ := cpuStep_cases s hcs hd <;> rw [hc]
    · exact .next (h.highEvent hu)
    · exact follows_retire (by exact h.congr rfl) e
    · exact .next (h.congr rfl)
    · exact follows_retire (h.fetchAt _ _) _

/-! ## Delivered instructions and transmissions -/

theorem State.Followed.endDelivered (h : s.Followed k) : s.endDelivered.Followed k := h.congr rfl

theorem State.Followed.afterPort (h : s.Followed k) : s.afterPort.Followed k := by
  obtain ⟨-, hp⟩ | hp | ⟨-, hp⟩ | ⟨-, u, hu, hp⟩ | ⟨-, -, hp⟩ := s.afterPort_cases <;> rw [hp]
  · exact h
  · exact h.endDelivered
  · exact h.endDelivered.takeAt _ _
  · exact (h.highEvent hu).endDelivered
  · exact h.endDelivered.lowEvent

theorem follows_debugStep (h : s.Followed k) (w : Word) : Follows k (debugStep w s) := by
  have hexec : Follows k (executeWord w { s.beginInsn with cycles := [] }) := follows_executeWord (by exact h.congr rfl) w
  unfold debugStep
  split
  · exact .next (hexec _ ‹_›).afterPort
  · exact .fault _
  · exact .refused _

theorem follows_finishFrame (h : s.Followed k) (f : Frame) : Follows k (finishFrame f s) := by
  unfold finishFrame
  split
  · exact .next h
  · have hexec : Follows k (exec (decodeFrame f) s) := follows_exec _ h
    split
    · refine .next ?_
      unfold State.afterFrame
      split
      · exact (hexec _ ‹_›).afterPort
      · exact hexec _ ‹_›
    · exact .fault _
    · exact .refused _

theorem State.Followed.serialClock (h : s.Followed k) (dsdi : Bool) : (s.serialClock dsdi).1.Followed k := by
  unfold State.serialClock
  split
  · split
    · exact h.congr (by simp [State.slotView])
    · exact h.congr rfl
  · dsimp only
    split <;> exact h.congr rfl

theorem follows_serialStep (h : s.Followed k) (dsdi : Bool) : Follows k (serialStep dsdi s) := by
  have hc := h.serialClock dsdi
  unfold serialStep
  split
  · rename_i u f hu
    rw [hu] at hc
    exact follows_finishFrame hc f
  · rename_i u hu
    rw [hu] at hc
    exact .next hc

theorem follows_transmit (h : s.Followed k) (f : Frame) : Follows k (transmit f s) := by
  unfold transmit
  split
  · exact follows_finishFrame (h.congr (by simp [State.slotView])) f
  · exact .next h

/-! ## A step -/

theorem follows_processInput (h : s.Followed k) (i : Input) (hi : ∀ p, i ≠ .reset p) : Follows k (processInput i s) := by
  cases i with
  | cpuStep => exact follows_cpuStep h
  | fetch ia flow =>
    simp only [processInput]
    split
    · exact .next h
    · exact .next ((h.fetchAt ia flow).congr rfl)
  | clock r q n => exact .next (h.clock r q n)
  | busGrant => exact .next h.busGrant
  | frame f => exact follows_transmit h f
  | shift b => exact follows_serialStep h b
  | cancel | peripheral | external | nmi | machineCheck | decrementer | trace => exact .next (h.congr rfl)
  | reset p => exact absurd rfl (hi p)

theorem follows_wordStep (h : s.Followed k) (w : Word) (hn : s.noReset) : Follows k (wordStep w s) := by
  obtain ⟨rest, -, hw⟩ | ⟨i, rest, hin, -, hw⟩ := wordStep_cases w s <;> rw [hw]
  · exact follows_debugStep (by exact h.congr rfl) w
  · exact follows_processInput (by exact h.congr rfl) i fun p hp => hn p (by simp [hin, hp])

/-- At the start of a step nothing has been reported, and what is recognised there in debug mode reports nothing (rule R315). -/
theorem State.Inv.beginStep_followed (h : s.Inv) : s.beginStep.Followed s.trace.prevKind := by
  obtain ⟨hin, -⟩ := h.debug
  have hstart : ∀ ls, ({ s with out := [], lines := ls } : State).Followed s.trace.prevKind := by
    refine fun ls => ⟨rfl, fun hd => ?_⟩
    obtain ⟨-, -, -, hk⟩ := hin hd
    exact hk
  obtain hb | ⟨-, ls, e, hb⟩ := s.beginStep_cases <;> rw [hb]
  · exact hstart s.lines
  · exact (hstart ls).takeAt e _

theorem follows_runOn (h : s.Inv) (hn : s.noReset) : Follows s.trace.prevKind (runOn s) := by
  intro t ht
  have hb : s.beginStep.Followed s.trace.prevKind := h.beginStep_followed
  have hnb : s.beginStep.noReset := by simpa only [State.noReset, State.beginStep_inputs] using hn
  obtain ⟨-, rfl⟩ | ⟨-, ⟨w, -, hw⟩ | ⟨-, ⟨i, rest, hin, hi⟩ | ⟨-, -, hc⟩⟩⟩ := runOn_cases s t ht
  · exact .enterDebug hb.read _ _
  · exact follows_wordStep hb w hnb t hw
  · exact follows_processInput (by exact hb.congr rfl) i (fun p hp => hnb p (by simp [hin, hp])) t hi
  · exact follows_cpuStep hb t hc

end

/-- Settles O57: a step begins with the recorder at the machine's slot, and every operation of it keeps the two together. -/
theorem recorderFollowsTheSlots : Obligations.RecorderFollowsTheSlots := by
  unfold Obligations.RecorderFollowsTheSlots
  intro s t hs hn h
  rw [step_noReset s ((State.nextReset_eq_none s).mpr hn)] at h
  exact (follows_runOn hs hn t h).read

end Sys2Proof.Machine
end

section
/-! PROOFS. The comparators: the numbers they compare, the byte lanes they need, the addresses and cycles they detect (rules
R221 to R239). -/

namespace Sys2Proof.Machine

/-! ## Compare types and addresses -/

/-- The six compare types (rule R221). -/
theorem compareEvent_iff : ∀ (ct : BitVec 3) (eq lt : Bool), compareEvent ct eq lt = true ↔
    ct = 0b100 ∧ eq = true ∨ ct = 0b101 ∧ lt = true ∨ ct = 0b110 ∧ eq = false ∧ lt = false ∨ ct = 0b111 ∧ eq = false := by
  decide

/-- A compare type below 100 detects nothing (rule R221). -/
theorem compareEvent_off : ∀ (ct : BitVec 3) (eq lt : Bool), ct.msb = false → compareEvent ct eq lt = false := by decide

/-- The type "less than" on numbers (rule R221). -/
theorem compareEvent_less (a b : Nat) : compareEvent 0b101 (a == b) (decide (a < b)) = true ↔ a < b := by
  simp [compareEvent]

/-- The type "greater than" on numbers (rule R221). -/
theorem compareEvent_greater (a b : Nat) : compareEvent 0b110 (a == b) (decide (a < b)) = true ↔ b < a := by
  have hgt : ¬ a = b ∧ b ≤ a ↔ b < a := by omega
  simpa [compareEvent] using hgt

/-- The low bits masked in an address comparison are those below the size of the access (rules R101, R232). -/
theorem two_pow_maskedBits (z : Size) : 2 ^ maskedBits z = sizeBytes z := by cases z <;> rfl

theorem rwMatch_iff (crw : BitVec 2) (write : Bool) :
    rwMatch crw write = true ↔ (crw = 0b10 → write = false) ∧ (crw = 0b11 → write = true) := by
  revert crw write
  decide

/-- What an L-address comparator detects (rules R231 to R233). -/
theorem lAddrEvent_iff (ct : BitVec 3) (crw : BitVec 2) (cmp : Word) (c : LsCycle) :
    lAddrEvent ct crw cmp c = true ↔
      (crw = 0b10 → c.write = false) ∧ (crw = 0b11 → c.write = true) ∧
        (ct = 0b100 ∧ c.addr.toNat / sizeBytes c.size = cmp.toNat / sizeBytes c.size ∨
          ct = 0b101 ∧ c.addr.toNat / sizeBytes c.size < cmp.toNat / sizeBytes c.size ∨
          ct = 0b110 ∧ cmp.toNat / sizeBytes c.size < c.addr.toNat / sizeBytes c.size ∨
          ct = 0b111 ∧ c.addr.toNat / sizeBytes c.size ≠ cmp.toNat / sizeBytes c.size) := by
  have hgt : ∀ a b : Nat, (a ≠ b ∧ b ≤ a) ↔ b < a := by omega
  simp only [lAddrEvent, two_pow_maskedBits, Bool.and_eq_true, compareEvent_iff, rwMatch_iff, beq_iff_eq, beq_eq_false_iff_ne,
    decide_eq_true_eq, decide_eq_false_iff_not, Nat.not_lt, hgt]
  rw [and_comm, and_assoc]

/-- An I-address comparator compares word addresses as unsigned numbers (rule R222, D8). -/
theorem iAddrEvent_eq (ct : BitVec 3) (cmp : Word) (ia : WordAddr) :
    iAddrEvent ct cmp ia = compareEvent ct (ia.toNat == cmp.toNat / 4) (decide (ia.toNat < cmp.toNat / 4)) := by
  have hcmp : (fieldOf cmp 0 30).toNat = cmp.toNat / 4 := by
    have := cmp.isLt
    simp only [fieldOf, BitVec.extractLsb'_toNat, Nat.shiftRight_eq_div_pow]
    omega
  simp only [iAddrEvent, BitVec.lt_def, hcmp, ← BitVec.toNat_inj, BEq.beq]

/-- An instruction watchpoint by the code of its field (rule R223). -/
theorem iwpOf_fields (r : Sprs) (ia : WordAddr) (a b c d : Bool) (ha : a = iAddrEvent (fieldOf r.ictrl 0 3) r.cmpa ia)
    (hb : b = iAddrEvent (fieldOf r.ictrl 3 3) r.cmpb ia) (hc : c = iAddrEvent (fieldOf r.ictrl 6 3) r.cmpc ia)
    (hd : d = iAddrEvent (fieldOf r.ictrl 9 3) r.cmpd ia) :
    (fieldOf r.ictrl 12 2 = 0b10 → (iwpOf r ia).w0 = a) ∧ (fieldOf r.ictrl 12 2 = 0b11 → (iwpOf r ia).w0 = (a && b)) ∧
      (fieldOf r.ictrl 14 2 = 0b10 → (iwpOf r ia).w1 = b) ∧ (fieldOf r.ictrl 14 2 = 0b11 → (iwpOf r ia).w1 = (a || b)) ∧
      (fieldOf r.ictrl 16 2 = 0b10 → (iwpOf r ia).w2 = c) ∧ (fieldOf r.ictrl 16 2 = 0b11 → (iwpOf r ia).w2 = (c && d)) ∧
      (fieldOf r.ictrl 18 2 = 0b10 → (iwpOf r ia).w3 = d) ∧ (fieldOf r.ictrl 18 2 = 0b11 → (iwpOf r ia).w3 = (c || d)) := by
  subst ha hb hc hd
  refine ⟨?_, ?_, ?_, ?_, ?_, ?_, ?_, ?_⟩ <;> intro h <;> simp [iwpOf, h]

/-- Codes 00 and 01 select no watchpoint (rule R223). -/
theorem iwpOf_off (r : Sprs) (ia : WordAddr) :
    ((fieldOf r.ictrl 12 2).msb = false → (iwpOf r ia).w0 = false) ∧
      ((fieldOf r.ictrl 14 2).msb = false → (iwpOf r ia).w1 = false) ∧
      ((fieldOf r.ictrl 16 2).msb = false → (iwpOf r ia).w2 = false) ∧
      ((fieldOf r.ictrl 18 2).msb = false → (iwpOf r ia).w3 = false) := by
  have hoff : ∀ f : BitVec 2, f.msb = false → f ≠ 0b10 ∧ f ≠ 0b11 := by decide
  refine ⟨?_, ?_, ?_, ?_⟩ <;> intro h <;> obtain ⟨h2, h3⟩ := hoff _ h <;> simp only [iwpOf, h2, h3, if_false]

/-- Settles O38: the table gives each watchpoint by its code, and the comparators compare the addresses as numbers. -/
theorem instructionRangeDetection : Obligations.InstructionRangeDetection := by
  unfold Obligations.InstructionRangeDetection
  intro r ia
  obtain ⟨h0, h0', -, h1', h2, -, h3, -⟩ := iwpOf_fields r ia _ _ _ _ rfl rfl rfl rfl
  simp only [iAddrEvent_eq] at h0 h0' h1' h2 h3
  refine ⟨fun a b c d ha hb hc hd => ?_, fun hA hB hw => ?_, fun hA hB hw => ?_, fun hC hw => ?_, fun hD hw => ?_, iwpOf_off r ia⟩
  · exact iwpOf_fields r ia a b c d (by rw [iAddrEvent_eq, ha]) (by rw [iAddrEvent_eq, hb]) (by rw [iAddrEvent_eq, hc])
      (by rw [iAddrEvent_eq, hd])
  · rw [h0' hw, hA, hB, Bool.and_eq_true, compareEvent_greater, compareEvent_less]
  · rw [h1' hw, hA, hB, Bool.or_eq_true, compareEvent_less, compareEvent_greater]
  · rw [h2 hw, hC]
    simp [compareEvent]
  · rw [h3 hw, hD]
    simp [compareEvent]

/-! ## The numbers an L-data comparator compares -/

/-- Byte 0 is the most significant (rules R27, R95). -/
theorem byteOf_toNat (w : Word) (k : Nat) : (byteOf w k).toNat = w.toNat / 2 ^ (24 - 8 * k) % 256 := by
  simp [byteOf, BitVec.extractLsb'_toNat, Nat.shiftRight_eq_div_pow]

theorem unitValue_concat (w : Word) (l : List Nat) (k : Nat) :
    unitValue w (l ++ [k]) = 256 * unitValue w l + (byteOf w k).toNat := by
  simp [unitValue]

/-- Some bytes form a number of their width (rule R238). -/
theorem unitValue_lt (w : Word) (l : List Nat) : unitValue w l < 2 ^ (8 * l.length) := by
  induction l using List.reverseRecOn with
  | nil => simp [unitValue]
  | append_singleton l k ih =>
    have hb := (byteOf w k).isLt
    have hp : 2 ^ (8 * (l ++ [k]).length) = 256 * 2 ^ (8 * l.length) := by
      rw [List.length_append, List.length_singleton, Nat.mul_add, Nat.pow_add, Nat.mul_comm]
    rw [unitValue_concat, hp]
    omega

/-- Two words agree in some bytes exactly if these form the same number. -/
theorem unitValue_eq_iff (d c : Word) (l : List Nat) :
    unitValue d l = unitValue c l ↔ ∀ k ∈ l, byteOf d k = byteOf c k := by
  induction l using List.reverseRecOn with
  | nil => simp [unitValue]
  | append_singleton l k ih =>
    have hd := (byteOf d k).isLt
    have hc := (byteOf c k).isLt
    have hsplit : unitValue d (l ++ [k]) = unitValue c (l ++ [k]) ↔
        unitValue d l = unitValue c l ∧ (byteOf d k).toNat = (byteOf c k).toNat := by
      rw [unitValue_concat, unitValue_concat]
      omega
    rw [hsplit, ih, BitVec.toNat_inj]
    simp [or_imp, forall_and]

/-- The bytes agree or not, as the comparator finds it (rule R238). -/
theorem all_byteOf_beq (d c : Word) (l : List Nat) :
    (l.all fun k => byteOf d k == byteOf c k) = (unitValue d l == unitValue c l) := by
  rw [Bool.eq_iff_iff]
  simp [unitValue_eq_iff]

/-- Which of two numbers is less: the one with the sign bit, if that is compared and differs, else by the unsigned values (rule
R238, D25). -/
theorem unitInt_lt (signed : Bool) (d c : Word) (unit live : List Nat) :
    decide (unitInt signed d unit live < unitInt signed c unit live) =
      if signed && live.contains (unit.headD 0) && (byteOf d (unit.headD 0)).msb != (byteOf c (unit.headD 0)).msb then
        (byteOf d (unit.headD 0)).msb
      else decide (unitValue d live < unitValue c live) := by
  have hd : (unitValue d live : Int) < 2 ^ (8 * live.length) := by exact_mod_cast unitValue_lt d live
  have hc : (unitValue c live : Int) < 2 ^ (8 * live.length) := by exact_mod_cast unitValue_lt c live
  simp only [unitInt]
  obtain hs | hs := Bool.eq_false_or_eq_true (signed && live.contains (unit.headD 0)) <;> simp only [hs]
  · cases (byteOf d (unit.headD 0)).msb <;> cases (byteOf c (unit.headD 0)).msb <;> simp <;> omega
  · simp

/-- The sign bit of a unit is compared unless its top byte is masked (rule R238, D12). -/
theorem contains_head_filter (unit : List Nat) (mask : Nat → Bool) (h : unit ≠ []) :
    (unit.filter fun j => !mask j).contains (unit.headD 0) = !mask (unit.headD 0) := by
  cases unit with
  | nil => exact absurd rfl h
  | cons t rest =>
    rw [Bool.eq_iff_iff]
    simp

/-- A unit whose bytes are all masked never matches (rule R238). -/
theorem dataMatch_masked {ct : BitVec 3} {cs : BitVec 2} {signed : Bool} {mask : Nat → Bool} {cmp : Word} {c : LsCycle} {k : Nat}
    (h : ∀ j ∈ unitOf cs k, mask j = true) : dataMatch ct cs signed mask cmp c k = false := by
  have hlive : ((unitOf cs k).filter fun j => !mask j) = [] := by simpa using h
  simp [dataMatch, unitMatch, hlive]

/-- A unit that is not masked altogether matches by its live bytes (rule R238, D12, log entry 27). -/
theorem dataMatch_live {ct : BitVec 3} {cs : BitVec 2} {signed : Bool} {mask : Nat → Bool} {cmp : Word} {c : LsCycle} {k : Nat}
    {unit live : List Nat} (hu : unitOf cs k = unit) (hl : live = unit.filter fun j => !mask j) (hne : live ≠ []) :
    dataMatch ct cs signed mask cmp c k =
      (compareEvent ct (live.all fun j => byteOf c.data j == byteOf cmp j)
          (if signed && !mask (unit.headD 0) && (byteOf c.data (unit.headD 0)).msb != (byteOf cmp (unit.headD 0)).msb then
            (byteOf c.data (unit.headD 0)).msb
          else decide (unitValue c.data live < unitValue cmp live)) &&
        unit.all (validLane c)) := by
  have hunit : unit ≠ [] := by
    rintro rfl
    exact hne hl
  subst hu hl
  simp only [dataMatch, unitMatch, hne, if_false, unitInt_lt, contains_head_filter _ mask hunit]

/-- A unit without masked bytes compares as a binary number of its width, unsigned or two's complement (rules R235, R238, D25). -/
theorem dataMatch_whole {n : Nat} {ct : BitVec 3} {cs : BitVec 2} {signed : Bool} {cmp : Word} {c : LsCycle} {k : Nat}
    {unit : List Nat} (number : Word → BitVec n) (hu : unitOf cs k = unit) (hne : unit ≠ [])
    (hval : ∀ w, unitValue w unit = (number w).toNat) (hsign : ∀ w, (byteOf w (unit.headD 0)).msb = (number w).msb) :
    dataMatch ct cs signed (fun _ => false) cmp c k =
      (compareEvent ct (number c.data == number cmp)
          (if signed then (number c.data).slt (number cmp) else (number c.data).ult (number cmp)) &&
        unit.all (validLane c)) := by
  have heq : (unitValue c.data unit == unitValue cmp unit) = (number c.data == number cmp) := by
    rw [Bool.eq_iff_iff]
    simp [hval, BitVec.toNat_inj]
  have hslt : (number c.data).slt (number cmp) =
      if (number c.data).msb != (number cmp).msb then (number c.data).msb else decide ((number c.data).toNat < (number cmp).toNat) := by
    have hd : ((number c.data).toNat : Int) < 2 ^ n := by exact_mod_cast (number c.data).isLt
    have hc : ((number cmp).toNat : Int) < 2 ^ n := by exact_mod_cast (number cmp).isLt
    rw [BitVec.slt_eq_decide, BitVec.toInt_eq_msb_cond, BitVec.toInt_eq_msb_cond]
    cases (number c.data).msb <;> cases (number cmp).msb <;> simp <;> omega
  rw [dataMatch_live hu (by simp) hne, all_byteOf_beq, heq, hval, hval, hsign, hsign]
  cases signed <;> simp [hslt, BitVec.ult]

/-- The whole word as a unit (rule R235). -/
theorem unitValue_word (w : Word) : unitValue w [0, 1, 2, 3] = w.toNat := by
  have := w.isLt
  simp only [unitValue, List.foldl, byteOf_toNat]
  omega

/-- A half-word as a unit (rule R235). -/
theorem unitValue_half (w : Word) {first : Nat} (h : first = 0 ∨ first = 2) :
    unitValue w [first, first + 1] = (fieldOf w (8 * first) 16).toNat := by
  have := w.isLt
  simp only [unitValue, List.foldl, byteOf_toNat, fieldOf, BitVec.extractLsb'_toNat, Nat.shiftRight_eq_div_pow]
  obtain rfl | rfl := h <;> simp <;> omega

theorem msb_byteOf_word (w : Word) : (byteOf w 0).msb = w.msb := by
  have := w.isLt
  simp only [BitVec.msb_eq_decide, byteOf_toNat, decide_eq_decide]
  omega

theorem msb_byteOf_half (w : Word) {first : Nat} (h : first = 0 ∨ first = 2) :
    (byteOf w first).msb = (fieldOf w (8 * first) 16).msb := by
  have := w.isLt
  simp only [BitVec.msb_eq_decide, byteOf_toNat, fieldOf, BitVec.extractLsb'_toNat, Nat.shiftRight_eq_div_pow]
  obtain rfl | rfl := h <;> simp <;> omega

/-- Settles O37. -/
theorem comparatorEvents : Obligations.ComparatorEvents := by
  unfold Obligations.ComparatorEvents
  refine ⟨fun eq lt => ⟨fun ct => compareEvent_off ct eq lt, rfl, rfl, rfl, rfl⟩, lAddrEvent_iff, ?_,
    fun ct signed cmp c k hk => ⟨?_, ?_, ?_⟩, fun _ _ _ _ _ _ _ => dataMatch_masked, ?_, fun _ _ _ => ⟨rfl, rfl⟩⟩
  · rintro r c e f rfl rfl
    exact ⟨rfl, rfl, rfl, rfl⟩
  · rw [dataMatch_whole (unit := [0, 1, 2, 3]) id rfl (by decide) unitValue_word msb_byteOf_word]
    simp [Bool.and_assoc]
  · rintro first d v hfirst rfl rfl
    have hunit : unitOf 0b10 k = [first, first + 1] := by
      change (if k < 2 then [0, 1] else [2, 3]) = _
      rw [hfirst]
      split <;> rfl
    have h02 : first = 0 ∨ first = 2 := by rw [hfirst]; split <;> simp
    rw [dataMatch_whole (fun w => fieldOf w (8 * first) 16) hunit (by simp) (fun w => unitValue_half w h02)
      fun w => msb_byteOf_half w h02]
    simp
  · rintro d v rfl rfl
    rw [dataMatch_whole (unit := [k]) (fun w => byteOf w k) rfl (by simp) (fun w => by simp [unitValue]) fun w => rfl]
    simp
  · intro ct signed mask cmp c k cs unit live _ hu hl hne
    refine dataMatch_live ?_ hl hne
    obtain ⟨rfl, rfl⟩ | ⟨rfl, rfl⟩ | ⟨rfl, rfl⟩ := hu <;> rfl

/-! ## Byte lanes and small accesses -/

/-- The byte lanes of a cycle (rule R96). -/
theorem validLane_iff (c : LsCycle) (k : Nat) :
    validLane c k = true ↔ c.addr.toNat % 4 ≤ k ∧ k < c.addr.toNat % 4 + sizeBytes c.size := by
  simp [validLane, fieldOf, BitVec.extractLsb'_toNat]

/-- A match needs all byte lanes of its unit (rule R239). -/
theorem dataMatch_lanes {ct : BitVec 3} {cs : BitVec 2} {signed : Bool} {mask : Nat → Bool} {cmp : Word} {c : LsCycle} {k : Nat}
    (h : dataMatch ct cs signed mask cmp c k = true) :
    ∀ j ∈ unitOf cs k, c.addr.toNat % 4 ≤ j ∧ j < c.addr.toNat % 4 + sizeBytes c.size := by
  obtain ⟨-, hv⟩ := (Bool.and_eq_true _ _).mp h
  exact fun j hj => (validLane_iff c j).mp (List.all_eq_true.mp hv j hj)

/-- Settles O40: the cycle has fewer byte lanes than the unit, or there is no unit. -/
theorem smallAccessNeverMatches : Obligations.SmallAccessNeverMatches := by
  unfold Obligations.SmallAccessNeverMatches
  intro ct cs signed mask cmp c k _ _ hcs
  rw [← Bool.not_eq_true]
  intro hmatch
  have hlanes := dataMatch_lanes hmatch
  obtain ⟨rfl, hz⟩ | ⟨rfl, hz⟩ | rfl := hcs
  · have hsize : sizeBytes c.size ≤ 2 := by cases hs : c.size <;> simp_all [sizeBytes]
    obtain ⟨h0, -⟩ := hlanes 0 (by simp [unitOf])
    obtain ⟨-, h3⟩ := hlanes 3 (by simp [unitOf])
    omega
  · have hunit : ∃ j, j ∈ unitOf 0b10 k ∧ j + 1 ∈ unitOf 0b10 k := by
      by_cases hk : k < 2
      · exact ⟨0, by simp [unitOf, hk]⟩
      · exact ⟨2, by simp [unitOf, hk]⟩
    have hsize : sizeBytes c.size = 1 := by rw [hz]; rfl
    obtain ⟨j, hj, hj'⟩ := hunit
    obtain ⟨hlo, -⟩ := hlanes j hj
    obtain ⟨-, hhi⟩ := hlanes (j + 1) hj'
    omega
  · have hnone : dataMatch ct 0b00 signed mask cmp c k = false := dataMatch_masked nofun
    exact absurd (hnone.symm.trans hmatch) nofun

/-! ## The byte watch (vector A1) -/

/-- A byte comparator with only byte `b` live (rules R237 to R239). -/
theorem dataMatch_oneByte {ct : BitVec 3} {mask : Nat → Bool} {cmp : Word} {c : LsCycle} {k b : Nat}
    (hm : mask k = decide (k ≠ b)) :
    dataMatch ct 0b11 false mask cmp c k = true ↔
      k = b ∧
        compareEvent ct ((byteOf c.data b).toNat == (byteOf cmp b).toNat)
          (decide ((byteOf c.data b).toNat < (byteOf cmp b).toNat)) = true ∧
        validLane c b = true := by
  have hunit : unitOf 0b11 k = [k] := rfl
  by_cases hk : k = b
  · subst hk
    rw [dataMatch_live (live := [k]) hunit (by simp [hm]) (by simp), all_byteOf_beq]
    simp [unitValue]
  · have hoff : dataMatch ct 0b11 false mask cmp c k = false := dataMatch_masked fun j hj => by
      rw [hunit, List.mem_singleton] at hj
      rw [hj, hm, decide_eq_true hk]
    simp only [hoff, hk, Bool.false_eq_true, false_and]

/-- Settles O39: comparator E sees the cycles whose unit holds byte address 3, and only byte lane 3 is compared. -/
theorem byteWatchIsExact : Obligations.ByteWatchIsExact := by
  unfold Obligations.ByteWatchIsExact
  intro r w c hal he hg hh h1 h2
  rw [cycleAligned_iff] at hal
  have hmask : ∀ k < 4, bitOf 0x8350F3B8 (22 + k) = decide (k ≠ 3) ∧ bitOf 0x8350F3B8 (26 + k) = decide (k ≠ 3) := by decide
  have hG : ∀ k < 4, (gMatch r c k = true ↔ k = 3 ∧ 7 < (byteOf c.data 3).toNat ∧ validLane c 3 = true) := by
    intro k hk
    obtain ⟨hm, -⟩ := hmask k hk
    change dataMatch _ _ _ _ _ c k = true ↔ _
    rw [h1, hg, show fieldOf 0x8350F3B8 16 2 = 0b11 from rfl, show bitOf 0x8350F3B8 20 = false from rfl, dataMatch_oneByte hm,
      show fieldOf 0x8350F3B8 6 3 = 0b110 from rfl, compareEvent_greater]
    exact Iff.rfl
  have hH : ∀ k < 4, (hMatch r c k = true ↔ k = 3 ∧ (byteOf c.data 3).toNat < 0xC ∧ validLane c 3 = true) := by
    intro k hk
    obtain ⟨-, hm⟩ := hmask k hk
    change dataMatch _ _ _ _ _ c k = true ↔ _
    rw [h1, hh, show fieldOf 0x8350F3B8 18 2 = 0b11 from rfl, show bitOf 0x8350F3B8 21 = false from rfl, dataMatch_oneByte hm,
      show fieldOf 0x8350F3B8 9 3 = 0b101 from rfl, compareEvent_less]
    exact Iff.rfl
  have hD : lDataSelect r 0b10 c = true ↔ 7 < (byteOf c.data 3).toNat ∧ (byteOf c.data 3).toNat < 0xC ∧ validLane c 3 = true := by
    obtain ⟨-, -, hand, -⟩ := lDataSelect_iff r c
    rw [hand]
    constructor
    · rintro ⟨k, hk, hg, hh⟩
      obtain ⟨-, hlo, hv⟩ := (hG k hk).mp hg
      obtain ⟨-, hhi, -⟩ := (hH k hk).mp hh
      exact ⟨hlo, hhi, hv⟩
    · rintro ⟨hlo, hhi, hv⟩
      exact ⟨3, by decide, (hG 3 (by decide)).mpr ⟨rfl, hlo, hv⟩, (hH 3 (by decide)).mpr ⟨rfl, hhi, hv⟩⟩
  have hE : lAddrSelect r 0b00 c = true ↔ c.addr.toNat / sizeBytes c.size = 3 / sizeBytes c.size := by
    change lAddrEvent _ _ _ c = true ↔ _
    rw [h1, he, show fieldOf 0x8350F3B8 0 3 = 0b100 from rfl, show fieldOf 0x8350F3B8 12 2 = 0b00 from rfl, lAddrEvent_iff]
    simp
  have hfields : bitOf r.lctrl2 0 = true ∧ bitOf r.lctrl2 3 = false ∧ bitOf r.lctrl2 6 = true ∧ bitOf r.lctrl2 9 = true ∧
      fieldOf r.lctrl2 4 2 = 0b00 ∧ fieldOf r.lctrl2 7 2 = 0b10 := by
    rw [h2]
    decide
  obtain ⟨h20, h23, h26, h29, h24, h27⟩ := hfields
  rw [lwpCycle_iff]
  simp only [Nat.mul_zero, Nat.zero_add, h20, h23, h26, h29, h24, h27, hE, hD, validLane_iff, Bool.false_eq_true, false_implies,
    true_implies, true_and]
  have hz : sizeBytes c.size = 1 ∨ sizeBytes c.size = 2 ∨ sizeBytes c.size = 4 := by cases c.size <;> simp [sizeBytes]
  obtain hz | hz | hz := hz <;> rw [hz] at hal ⊢ <;> omega

end Sys2Proof.Machine
end

section
/-! PROOFS. Breakpoints and counters: when a breakpoint is raised, what is left of the instruction when it is taken, what is counted
and reported at retirement (rules R225, R245, R250 to R263). -/

namespace Sys2Proof.Machine

/-! ## Watchpoint pulses -/

/-- An output is a pulse of a watchpoint pin. -/
def isPulse : Output → Bool
  | .watchpoint _ => true
  | .vf _ | .showCycle _ _ | .ecrOr | .resetRequest _ => false

/-- The watchpoint pulses of the step so far. -/
def State.pulses (s : State) : List Output := s.out.filter isPulse

theorem State.mem_pulses (s : State) (w : Watchpoint) : .watchpoint w ∈ s.pulses ↔ .watchpoint w ∈ s.out := by
  simp [State.pulses, isPulse]

theorem State.pulses_congr {s t : State} (h : t.out = s.out) : t.pulses = s.pulses := congrArg (·.filter isPulse) h

/-- What is emitted or reported on VF is no pulse. -/
theorem State.pulses_concat {s t : State} {o : Output} (h : t.out = s.out ++ [o]) (ho : isPulse o = false) : t.pulses = s.pulses := by
  simp [State.pulses, h, ho]

@[simp] theorem State.pulses_reportVf (s : State) (v : BitVec 3) (k : SlotKind) : (s.reportVf v k).pulses = s.pulses :=
  State.pulses_concat rfl rfl

@[simp] theorem State.pulses_pulseEcrOr (s : State) : s.pulseEcrOr.pulses = s.pulses := State.pulses_concat rfl rfl

@[simp] theorem State.pulses_closeSlot (s : State) : s.closeSlot.pulses = s.pulses := by
  unfold State.closeSlot
  split
  · rfl
  · exact State.pulses_reportVf _ _ _

@[simp] theorem State.pulses_enterDebug (s : State) (a : Word) (x : Srr1) : (s.enterDebug a x).pulses = s.pulses := by
  have hslot : s.cancelFlight.closeSlot.pulses = s.pulses := State.pulses_closeSlot _
  refine (State.pulses_congr (State.startFetch_out _)).trans ?_
  rw [State.pulses_reportVf, State.pulses_reportVf]
  exact hslot

/-- Taking an event pulses no watchpoint pin. -/
@[simp] theorem State.pulses_takeEvent (s : State) (e : Event) (a : Word) (x : Srr1) : (s.takeEvent e a x).pulses = s.pulses := by
  cases hd : s.dbg.inDebug with
  | true =>
    rw [State.takeEvent_inDebug _ _ _ _ hd]
    exact State.pulses_concat rfl rfl
  | false =>
    obtain ⟨-, -, ht⟩ | ⟨-, -, ht⟩ | ⟨-, -, ht⟩ := s.takeEvent_cases e a x hd <;> rw [ht]
    · exact State.pulses_enterDebug _ _ _
    · exact State.pulses_congr (by simp)
    · exact State.pulses_congr (by simp)

@[simp] theorem State.pulses_takeAt (s : State) (e : Event) (a : Word) : (s.takeAt e a).pulses = s.pulses :=
  State.pulses_takeEvent _ _ _ _

@[simp] theorem State.pulses_lowEvent (s : State) : s.lowEvent.pulses = s.pulses := by
  unfold State.lowEvent
  split
  · exact State.pulses_takeAt _ _ _
  · split
    · exact State.pulses_takeAt _ _ _
    · split
      · exact State.pulses_takeAt _ _ _
      · rfl

@[simp] theorem State.pulses_afterEvents (s : State) (lbrk : Bool) (ia : WordAddr) : (s.afterEvents lbrk ia).pulses = s.pulses := by
  unfold State.afterEvents
  split
  · exact State.pulses_takeAt _ _ _
  · unfold State.traceOr
    split
    · exact State.pulses_takeAt _ _ _
    · exact State.pulses_lowEvent s

/-! ## Conditions of the breakpoints -/

/-- A breakpoint is recognised (rule R255). -/
theorem State.recognized_iff (s : State) : s.recognized = true ↔ s.cpu.msr.ri = true ∨ bitOf s.spr.lctrl2 20 = true := by
  rw [State.recognized, Bool.or_eq_true, or_comm]

/-- A detected watchpoint is trap-enabled (rules R225, R250). -/
theorem State.direct_iff (s : State) (w : Iwp) :
    s.direct w = true ↔
      w.w0 = true ∧ (bitOf s.spr.ictrl 20 = true ∨ s.port.tecr.diwp0en = true) ∨
        w.w1 = true ∧ (bitOf s.spr.ictrl 21 = true ∨ s.port.tecr.diwp1en = true) ∨
        w.w2 = true ∧ (bitOf s.spr.ictrl 22 = true ∨ s.port.tecr.diwp2en = true) ∨
        w.w3 = true ∧ (bitOf s.spr.ictrl 23 = true ∨ s.port.tecr.diwp3en = true) := by
  simp [State.direct, State.trapI, or_assoc]

/-- A counter expires on its instruction watchpoint (rule R263). -/
theorem counterExpiryI_iff (count : Word) (iwp : Bool) :
    counterExpiryI count iwp = true ↔ iwp = true ∧ fieldOf count 30 2 = 0b01 ∧ fieldOf count 0 16 = 1 := by
  simp only [counterExpiryI, cntc, cntv, Bool.and_eq_true, beq_iff_eq]
  rw [and_comm (a := fieldOf count 30 2 = 0b01), and_assoc]

/-- A counter expires on its load/store watchpoint (rule R263). -/
theorem expiryL_iff (count : Word) (lwp : Bool) :
    expiryL count lwp = true ↔ lwp = true ∧ fieldOf count 30 2 = 0b10 ∧ fieldOf count 0 16 = 1 := by
  simp only [expiryL, cntc, cntv, Bool.and_eq_true, beq_iff_eq]
  rw [and_comm (a := fieldOf count 30 2 = 0b10), and_assoc]

/-- When an instruction breakpoint is raised (rules R225, R252, R255, R263). -/
theorem State.ibrk_iff (s : State) (w : Iwp) :
    s.ibrk w = true ↔
      s.recognized = true ∧
        (s.direct w = true ∧ s.ifm = false ∨ counterExpiryI s.spr.counta w.w0 = true ∨ counterExpiryI s.spr.countb w.w1 = true) := by
  simp [State.ibrk, State.expiryI]

/-- What causes the breakpoint on a watchpoint is independent of whether it is detected (rule R245). -/
theorem State.causesL_iff (s : State) (x : Nat) (lwp : Bool) : s.causesL x lwp = true ↔ lwp = true ∧ s.causesL x true = true := by
  cases lwp
  · simp [State.causesL, expiryL]
  · simp

/-- When a load/store breakpoint is raised (rules R245, R255). -/
theorem State.lbrk_iff (s : State) (w : Iwp) (cs : List LsCycle) :
    s.lbrk w cs = true ↔
      s.recognized = true ∧
        (lwpInsn s.spr w 0 cs = true ∧ s.causesL 0 true = true ∨ lwpInsn s.spr w 1 cs = true ∧ s.causesL 1 true = true) := by
  rw [State.lbrk, Bool.and_eq_true, Bool.or_eq_true, State.causesL_iff, State.causesL_iff s 1]

/-- A cycle causes the load/store breakpoint of its instruction (rule R259). -/
def State.cycleCauses (s : State) (w : Iwp) (c : LsCycle) : Prop :=
  lwpCycle s.spr w 0 c = true ∧ s.causesL 0 true = true ∨ lwpCycle s.spr w 1 c = true ∧ s.causesL 1 true = true

/-- BAR receives the address of the first cycle that causes the breakpoint (rule R259, D28). -/
theorem State.barAddr_spec {s : State} {w : Iwp} {cs : List LsCycle} (h : s.lbrk w cs = true) :
    ∃ before c after, cs = before ++ c :: after ∧ s.barAddr w cs = c.addr ∧ s.cycleCauses w c ∧
      ∀ b ∈ before, ¬ s.cycleCauses w b := by
  have hcause : ∀ c,
      (lwpCycle s.spr w 0 c && s.causesL 0 true || lwpCycle s.spr w 1 c && s.causesL 1 true) = true ↔ s.cycleCauses w c := by
    intro c
    rw [Bool.or_eq_true, Bool.and_eq_true, Bool.and_eq_true]
    rfl
  have hex : ∃ c ∈ cs, s.cycleCauses w c := by
    obtain ⟨-, ⟨hl, hx⟩ | ⟨hl, hx⟩⟩ := (s.lbrk_iff w cs).mp h <;> obtain ⟨c, hc, hlc⟩ := (lwpInsn_iff _ _ _ _).mp hl
    · exact ⟨c, hc, .inl ⟨hlc, hx⟩⟩
    · exact ⟨c, hc, .inr ⟨hlc, hx⟩⟩
  cases hf : cs.find? fun c => lwpCycle s.spr w 0 c && s.causesL 0 true || lwpCycle s.spr w 1 c && s.causesL 1 true with
  | none =>
    obtain ⟨c, hc, hcc⟩ := hex
    exact absurd ((hcause c).mpr hcc) (List.find?_eq_none.mp hf c hc)
  | some c =>
    obtain ⟨hc, before, after, hcs, hb⟩ := List.find?_eq_some_iff_append.mp hf
    refine ⟨before, c, after, hcs, by rw [State.barAddr, hf]; rfl, (hcause c).mp hc, fun b hbb hcb => ?_⟩
    have hno := hb b hbb
    rw [(hcause b).mpr hcb] at hno
    exact absurd hno nofun

/-! ## Instruction breakpoints -/

/-- Only an mtspr to ICTRL is unpredictable at its breakpoint (rule R253). -/
theorem State.unpredictable_eq_false (s : State) {e : InFlight} (h : ∀ r, decodeWord? e.word ≠ some (.mtsprIctrl r)) :
    s.unpredictable e = false := by
  unfold State.unpredictable
  split
  · exact absurd ‹_› (h _)
  · rfl

/-- An instruction that raises its breakpoint is not executed (rules R251, R252). -/
theorem State.retire_ibrk (s : State) {e : InFlight} (hf : e.fault ≠ some .machineCheck)
    (hw : ∀ r, decodeWord? e.word ≠ some (.mtsprIctrl r)) (hb : s.ibrk e.iwp = true) :
    ∃ u, (u = s.beginInsn ∨ u = s.beginInsn.setIfm false) ∧ s.retire e = .next (u.takeIbrk e) := by
  change s.beginInsn.ibrk e.iwp = true at hb
  simp only [State.retire, hf, State.unpredictable_eq_false _ hw, hb, if_true, if_false, Bool.false_eq_true]
  split
  · exact ⟨_, .inr rfl, rfl⟩
  · exact ⟨_, .inl rfl, rfl⟩

/-- Where taking an event outside debug mode leads, if it is not check stop (rules R303, R484). -/
theorem State.takeAt_outside (s : State) {e : Event} (a : Word) (hd : s.dbg.inDebug = false) (he : e ≠ .checkStop) :
    (s.takeAt e a).cpu.srr0 = a ∧
      if s.dbg.enable = true ∧ bitOf s.spr.der (eventBit e) = true then (s.takeAt e a).dbg.inDebug = true
      else (s.takeAt e a).dbg.inDebug = false ∧ (s.takeAt e a).cpu.pc = vectorAddr s.cpu.msr.ip e := by
  obtain ⟨hen, hder, ht⟩ | ⟨-, hcs, -⟩ | ⟨hno, -, ht⟩ := s.takeEvent_cases e a (srr1Of e s.cpu.msr) hd
  · obtain ⟨hdbg, hsrr0, -⟩ := (s.noted e).enterDebug_spec a (srr1Of e s.cpu.msr)
    rw [State.takeAt, ht, if_pos ⟨hen, hder⟩, hdbg]
    exact ⟨hsrr0, rfl⟩
  · exact absurd hcs he
  · have hn : ¬ (s.dbg.enable = true ∧ bitOf s.spr.der (eventBit e) = true) := by
      rintro ⟨hen, hder⟩
      simp_all
    rw [State.takeAt, ht, if_neg hn]
    exact ⟨by simp [State.regularEntry], by simp [hd], by simp [State.regularEntry]⟩

/-- The instruction breakpoint, taken before its instruction outside debug mode (rules R251, R263, R484, R486). -/
theorem State.takeIbrk_spec (s : State) (e : InFlight) (hd : s.dbg.inDebug = false) :
    (s.takeIbrk e).cpu.gpr = s.cpu.gpr ∧ (s.takeIbrk e).mem = s.mem ∧ (s.takeIbrk e).cpu.srr0 = s.cpu.pc ∧
      (s.takeIbrk e).spr = { s.spr with ecr := s.spr.ecr ||| 0x00000004 } ∧
      (if s.dbg.enable = true ∧ bitOf s.spr.der 29 = true then (s.takeIbrk e).dbg.inDebug = true
        else (s.takeIbrk e).dbg.inDebug = false ∧ (s.takeIbrk e).cpu.pc = vectorBase s.cpu.msr.ip + 0x1D00) := by
  obtain ⟨hsrr0, hroute⟩ := (s.reportIwp e.iwp).takeAt_outside (e := .instrBreakpoint) s.cpu.pc hd nofun
  have hspr := (s.reportIwp e.iwp).takeEvent_spr .instrBreakpoint s.cpu.pc (srr1Of .instrBreakpoint s.cpu.msr)
  simp only [State.takeIbrk, State.noteExpired_cpu, State.noteExpired_mem, State.noteExpired_spr, State.noteExpired_dbg]
  exact ⟨State.takeAt_cpu_gpr _ _ _, State.takeAt_mem _ _ _, hsrr0, hspr, hroute⟩

/-- Settles O42: the step retires the instruction it fetches, whose breakpoint is taken in place of its execution. -/
theorem instructionBreakpointBefore : Obligations.InstructionBreakpointBefore := by
  unfold Obligations.InstructionBreakpointBefore
  refine ⟨fun s w => ?_, ?_⟩
  · simp only [State.ibrk_iff, State.recognized_iff, State.direct_iff, counterExpiryI_iff]
    rfl
  · intro s hd hcs hc hir hin hfl hh hb hf hw
    have hstep := cpuStep_fetches { s with out := [] } hcs hd (State.highEvent_clearOut hh) hfl
    have hret := State.retire_ibrk (State.fetchAt { s with out := [] } s.pcWord .sequential).1
      (e := (State.fetchAt { s with out := [] } s.pcWord .sequential).2) hf hw hb
    obtain ⟨u, hu, hret⟩ := hret
    refine ⟨_, (step_running s hd hcs hc hir hin).trans (hstep.trans hret), ?_⟩
    have hpre : u.dbg = s.dbg ∧ u.cpu = s.cpu ∧ u.mem = s.mem ∧ u.spr.counta = s.spr.counta ∧ u.spr.countb = s.spr.countb ∧
        u.spr.ecr = s.spr.ecr ∧ u.spr.der = s.spr.der ∧ u.spr.bar = s.spr.bar := by
      obtain rfl | rfl := hu <;> exact ⟨rfl, rfl, rfl, rfl, rfl, rfl, rfl, rfl⟩
    obtain ⟨hdbg, hcpu, hmem, hca, hcb, hecr, hder, hbar⟩ := hpre
    obtain ⟨hgpr, hmem', hsrr0, hspr, hroute⟩ := u.takeIbrk_spec (State.fetchAt { s with out := [] } s.pcWord .sequential).2
      (by rw [hdbg, hd])
    rw [hdbg, hder, hcpu] at hroute
    rw [hgpr, hmem', hsrr0, hspr, hcpu, hmem]
    exact ⟨rfl, rfl, rfl, hca, hcb, congrArg (· ||| 0x00000004) hecr, hder, hbar, hroute⟩

/-! ## Ignore first match -/

/-- Only IFM is written in ICTRL (rule R252). -/
theorem bitOf_setIfm (w : Word) (b : Bool) :
    ∀ n < 32, bitOf ((w &&& 0xFFFFFFF7) ||| bitMask 28 b) n = if n = 28 then b else bitOf w n := by
  intro n hn
  simp only [bitOf, BitVec.getMsbD_or, BitVec.getMsbD_and]
  cases b <;> interval_cases n <;> simp [bitMask]

theorem State.setIfm_ifm (s : State) (b : Bool) : (s.setIfm b).ifm = b := bitOf_setIfm s.spr.ictrl b 28 (by decide)

theorem State.setIfm_ictrl_bit (s : State) (b : Bool) {n : Nat} (hn : n < 32) (h : n ≠ 28) :
    bitOf (s.setIfm b).spr.ictrl n = bitOf s.spr.ictrl n := (bitOf_setIfm s.spr.ictrl b n hn).trans (if_neg h)

/-- The trap enables do not depend on IFM (rule R28). -/
theorem State.setIfm_direct (s : State) (b : Bool) (w : Iwp) : (s.setIfm b).direct w = s.direct w := by
  rw [Bool.eq_iff_iff, State.direct_iff, State.direct_iff]
  simp [State.setIfm_ictrl_bit]

/-- Settles O43. -/
theorem ignoreFirstMatch : Obligations.IgnoreFirstMatch := by
  unfold Obligations.IgnoreFirstMatch
  intro s e hrec hdir hifm hexp hf hw
  have hnobrk : s.beginInsn.ibrk e.iwp = false := by
    change s.ibrk e.iwp = false
    simp [State.ibrk, hifm, hexp]
  have hignore : (s.beginInsn.recognized && s.beginInsn.direct e.iwp && s.beginInsn.ifm) = true := by
    change (s.recognized && s.direct e.iwp && s.ifm) = true
    simp [hrec, hdir, hifm]
  refine ⟨?_, s.setIfm_ifm false, by simp [State.setIfm, bitMask],
    (State.ibrk_iff _ _).mpr ⟨hrec, .inl ⟨?_, s.setIfm_ifm false⟩⟩⟩
  · simp only [State.retire, hf, State.unpredictable_eq_false _ hw, hnobrk, hignore, if_true, if_false, Bool.false_eq_true]
  · rw [State.setIfm_direct, hdir]

/-! ## Counting and reporting at retirement -/

theorem cntv_countWord (v : BitVec 16) (c : BitVec 2) : cntv (countWord v c) = v := by
  rw [cntv, fieldOf, countWord, BitVec.extractLsb'_append_eq_of_le (by decide), BitVec.extractLsb'_append_eq_of_le (by decide)]
  exact BitVec.extractLsb'_eq_self

theorem cntc_countWord (v : BitVec 16) (c : BitVec 2) : cntc (countWord v c) = c := BitVec.extractLsb'_append_eq_right

/-- The machine when a completed instruction has been reported and counted, before the events that follow it. -/
def State.retired (s pre : State) (e : InFlight) : State :=
  let t := State.count
    ((s.reportIwp e.iwp).reportLwp (lwpInsn pre.spr e.iwp 0 s.cycles) (lwpInsn pre.spr e.iwp 1 s.cycles)) pre
    (altersCounters e.word) e.iwp (lwpInsn pre.spr e.iwp 0 s.cycles) (lwpInsn pre.spr e.iwp 1 s.cycles)
  { t with dbg := { t.dbg with unalignedSeen := t.dbg.unalignedSeen || t.cycles.any fun c => !cycleAligned c } }

@[simp] theorem State.retired_cpu (s pre : State) (e : InFlight) : (s.retired pre e).cpu = s.cpu := rfl
@[simp] theorem State.retired_mem (s pre : State) (e : InFlight) : (s.retired pre e).mem = s.mem := rfl
@[simp] theorem State.retired_spr_bar (s pre : State) (e : InFlight) : (s.retired pre e).spr.bar = s.spr.bar := rfl
@[simp] theorem State.retired_spr_ecr (s pre : State) (e : InFlight) : (s.retired pre e).spr.ecr = s.spr.ecr := rfl

/-- What follows a completed instruction (rules R245, R254, R259, R485). -/
theorem State.retireDone_eq (s pre : State) (e : InFlight) :
    s.retireDone pre e =
      if pre.lbrk e.iwp s.cycles then
        (State.takeAt { s.retired pre e with spr := { (s.retired pre e).spr with bar := pre.barAddr e.iwp s.cycles } }
          .loadStoreBreakpoint s.cpu.pc).noteExpired
          (expiryL pre.spr.counta (lwpInsn pre.spr e.iwp 0 s.cycles)) (expiryL pre.spr.countb (lwpInsn pre.spr e.iwp 1 s.cycles))
      else (s.retired pre e).afterEvents false e.addr := rfl

/-- Neither the events after an instruction nor a load/store breakpoint change the counters. -/
theorem State.retireDone_counts (s pre : State) (e : InFlight) :
    (s.retireDone pre e).spr.counta = (s.retired pre e).spr.counta ∧
      (s.retireDone pre e).spr.countb = (s.retired pre e).spr.countb := by
  rw [State.retireDone_eq]
  split <;> simp

/-- The pulses of a completed instruction are those of its watchpoints (rules R224, R244). -/
theorem State.pulses_retireDone (s pre : State) (e : InFlight) : (s.retireDone pre e).pulses = (s.retired pre e).pulses := by
  rw [State.retireDone_eq]
  split
  · refine (State.pulses_congr (State.noteExpired_out _ _ _)).trans ?_
    rw [State.pulses_takeAt]
    rfl
  · exact State.pulses_afterEvents _ _ _

/-- The watchpoint that a counter counts has been detected and is recognised (rules R255, R260). -/
def countHit (recognized : Bool) (source : BitVec 2) (iwp lwp : Bool) : Bool :=
  recognized && (source == 0b01 && iwp || source == 0b10 && lwp)

/-- Each counter is decremented on a hit of its watchpoint and else keeps its value (rules R260, R261, D9). -/
theorem State.retired_counts (s pre : State) {e : InFlight} (ha : altersCounters e.word = false) :
    (s.retired pre e).spr.counta =
        (if countHit pre.recognized (cntc pre.spr.counta) e.iwp.w0 (lwpInsn pre.spr e.iwp 0 s.cycles) then
          countWord (cntv s.spr.counta - 1) (cntc s.spr.counta) else s.spr.counta) ∧
      (s.retired pre e).spr.countb =
        (if countHit pre.recognized (cntc pre.spr.countb) e.iwp.w1 (lwpInsn pre.spr e.iwp 1 s.cycles) then
          countWord (cntv s.spr.countb - 1) (cntc s.spr.countb) else s.spr.countb) := by
  simp only [State.retired, State.count, ha, countedValue]
  exact ⟨rfl, rfl⟩

/-- Settles O44. -/
theorem countersCountAtRetirement : Obligations.CountersCountAtRetirement := by
  unfold Obligations.CountersCountAtRetirement
  intro s pre e ha _ _
  obtain ⟨hca, hcb⟩ := s.retireDone_counts pre e
  obtain ⟨hra, hrb⟩ := s.retired_counts pre ha
  have hrec : (pre.cpu.msr.ri || bitOf pre.spr.lctrl2 20) = pre.recognized := Bool.or_comm _ _
  have hvalue : ∀ (hit : Bool) (w : Word),
      cntv (if hit then countWord (cntv w - 1) (cntc w) else w) = if hit then cntv w - 1 else cntv w := by
    intro hit w
    cases hit
    · rfl
    · exact cntv_countWord _ _
  have hsource : ∀ (hit : Bool) (w : Word), cntc (if hit then countWord (cntv w - 1) (cntc w) else w) = cntc w := by
    intro hit w
    cases hit
    · rfl
    · exact cntc_countWord _ _
  simp only [hrec, hca, hcb, hra, hrb]
  exact ⟨hvalue _ _, hsource _ _, hvalue _ _, hsource _ _⟩

/-! ## Load/store breakpoints -/

/-- What makes a load/store watchpoint cause a breakpoint (rules R245, R250, R263). -/
theorem State.causesL_true_iff (s : State) :
    (s.causesL 0 true = true ↔ bitOf s.spr.lctrl2 30 = true ∨ s.port.tecr.dlw0en = true ∨
      fieldOf s.spr.counta 30 2 = 0b10 ∧ fieldOf s.spr.counta 0 16 = 1) ∧
    (s.causesL 1 true = true ↔ bitOf s.spr.lctrl2 31 = true ∨ s.port.tecr.dlw1en = true ∨
      fieldOf s.spr.countb 30 2 = 0b10 ∧ fieldOf s.spr.countb 0 16 = 1) := by
  constructor <;> simp [State.causesL, State.trapL, expiryL_iff, or_assoc]

/-- A counter that expires on a load/store watchpoint reads zero afterwards (rule R263). -/
theorem cntv_expired {w : Word} (h : cntv w = 1) : cntv (countWord (cntv w - 1) (cntc w)) = 0 := by
  rw [cntv_countWord, h]
  rfl

/-- Settles O45. -/
theorem loadStoreBreakpointAfter : Obligations.LoadStoreBreakpointAfter := by
  unfold Obligations.LoadStoreBreakpointAfter
  refine ⟨fun s w cs => ?_, State.causesL_true_iff, ?_⟩
  · rw [State.lbrk_iff, State.recognized_iff, lwpInsn_iff, lwpInsn_iff]
  · intro s pre e hd hb
    obtain ⟨hrec, -⟩ := (pre.lbrk_iff _ _).mp hb
    obtain ⟨hca, hcb⟩ := s.retireDone_counts pre e
    have heq := s.retireDone_eq pre e
    rw [if_pos hb] at heq
    have htaken := State.takeAt_outside
      { s.retired pre e with spr := { (s.retired pre e).spr with bar := pre.barAddr e.iwp s.cycles } } (e := .loadStoreBreakpoint)
      s.cpu.pc hd nofun
    obtain ⟨hsrr0, -⟩ := htaken
    refine ⟨?_, ?_, ?_, ?_, ?_, ?_, ?_, fun ha hsrc hv hv' hl => ?_, fun ha hsrc hv hv' hl => ?_⟩
    · simp [heq]
    · simp [heq]
    · obtain ⟨before, c, after, hcs, haddr, hcause, hbefore⟩ := State.barAddr_spec hb
      exact ⟨before, c, after, hcs, by simp [heq, haddr], hcause, hbefore⟩
    · simp [heq]
    · simp [heq]
    · rw [heq, State.noteExpired_cpu, hsrr0]
    · rw [heq, State.noteExpired_spr, State.takeAt, State.takeEvent_spr]
      rfl
    · obtain ⟨hra, -⟩ := s.retired_counts pre ha
      rw [hca, hra, hrec, hsrc, hl]
      exact cntv_expired hv
    · obtain ⟨-, hrb⟩ := s.retired_counts pre ha
      rw [hcb, hrb, hrec, hsrc, hl]
      exact cntv_expired hv

/-! ## Masked mode -/

/-- A completed instruction pulses the pin of each of its watchpoints (rules R224, R244). -/
theorem State.retired_out (s pre : State) (e : InFlight) :
    (s.retired pre e).out =
      ((s.reportIwp e.iwp).reportLwp (lwpInsn pre.spr e.iwp 0 s.cycles) (lwpInsn pre.spr e.iwp 1 s.cycles)).out := rfl

/-- Settles O46. -/
theorem maskedModeLosesBreakpoints : Obligations.MaskedModeLosesBreakpoints := by
  unfold Obligations.MaskedModeLosesBreakpoints
  intro s pre e hri hmask
  have hrec : pre.recognized = false := by simp [State.recognized, hri, hmask]
  have hl : pre.lbrk e.iwp s.cycles = false := by simp [State.lbrk, hrec]
  obtain ⟨hca, hcb⟩ := s.retireDone_counts pre e
  have hpins : ∀ w, .watchpoint w ∈ (s.retired pre e).out → .watchpoint w ∈ (s.retireDone pre e).out := by
    intro w hw
    rwa [← State.mem_pulses, State.pulses_retireDone, State.mem_pulses]
  refine ⟨by simp [State.ibrk, hrec], hl, ?_, ?_, ?_, fun h => hpins _ ?_, fun h => hpins _ ?_, fun h => hpins _ ?_, fun h => hpins _ ?_,
    fun h => hpins _ ?_, fun h => hpins _ ?_⟩
  · simp [hca, State.retired, State.count, hrec]
  · simp [hcb, State.retired, State.count, hrec]
  · simp [State.retireDone_eq, hl]
  all_goals simp [State.retired_out, State.reportIwp, State.reportLwp, h]

end Sys2Proof.Machine
end

section
/-! PROOFS. In debug mode no watchpoint exists (rule R256): no operation of a step there pulses a watchpoint pin or counts, also when
the step leaves debug mode, and only an mtspr to them writes COUNTA, COUNTB and ICTRL. -/

namespace Sys2Proof.Machine

/-- From `s` to `t` no watchpoint pin is pulsed, and, if `keep`, the counters and ICTRL keep their values. -/
structure Unwatched (keep : Prop) (s t : State) : Prop where
  pulses : t.pulses = s.pulses
  regs : keep → t.spr.counta = s.spr.counta ∧ t.spr.countb = s.spr.countb ∧ t.spr.ictrl = s.spr.ictrl

/-- A result whose next state, if it is one, is reached unwatched. -/
def LeadsUnwatched (keep : Prop) (s : State) (r : Result) : Prop := ∀ t, r = .next t → Unwatched keep s t

section
variable {keep : Prop} {s t u : State}

theorem Unwatched.refl (s : State) : Unwatched keep s s := ⟨rfl, fun _ => ⟨rfl, rfl, rfl⟩⟩

theorem Unwatched.trans (h : Unwatched keep s u) (h' : Unwatched keep u t) : Unwatched keep s t where
  pulses := h'.pulses.trans h.pulses
  regs hk := by
    obtain ⟨ha, hb, hi⟩ := h.regs hk
    obtain ⟨ha', hb', hi'⟩ := h'.regs hk
    exact ⟨ha'.trans ha, hb'.trans hb, hi'.trans hi⟩

/-- A write of a register that is neither a counter nor ICTRL. -/
theorem Unwatched.of_regs (ho : t.out = s.out)
    (hr : t.spr.counta = s.spr.counta ∧ t.spr.countb = s.spr.countb ∧ t.spr.ictrl = s.spr.ictrl) : Unwatched keep s t :=
  ⟨State.pulses_congr ho, fun _ => hr⟩

/-- An operation that emits nothing and writes none of the registers. -/
theorem Unwatched.of_eq (ho : t.out = s.out) (hs : t.spr = s.spr) : Unwatched keep s t :=
  .of_regs ho (by rw [hs]; exact ⟨rfl, rfl, rfl⟩)

/-- A chain that begins with such an operation. -/
theorem Unwatched.after (h : Unwatched keep u t) (ho : u.out = s.out) (hs : u.spr = s.spr) : Unwatched keep s t :=
  (of_eq ho hs).trans h

/-- A chain that ends with one. -/
theorem Unwatched.andThen (h : Unwatched keep s u) (ho : t.out = u.out) (hs : t.spr = u.spr) : Unwatched keep s t :=
  h.trans (.of_eq ho hs)

theorem LeadsUnwatched.next (h : Unwatched keep s t) : LeadsUnwatched keep s (.next t) := by
  rintro _ ⟨⟩
  exact h

theorem LeadsUnwatched.fault (f : Fault) : LeadsUnwatched keep s (.fault f) := fun _ h => nomatch h

theorem LeadsUnwatched.refused (r : Refusal) : LeadsUnwatched keep s (.refused r) := fun _ h => nomatch h

theorem LeadsUnwatched.mono {keep' : Prop} {r : Result} (h : LeadsUnwatched keep s r) (hk : keep' → keep) :
    LeadsUnwatched keep' s r := fun t ht => ⟨(h t ht).pulses, fun h' => (h t ht).regs (hk h')⟩

theorem LeadsUnwatched.after {r : Result} (h : LeadsUnwatched keep u r) (hs : Unwatched keep s u) : LeadsUnwatched keep s r :=
  fun _ ht => hs.trans (h _ ht)

/-! ## The shared operations -/

theorem Unwatched.startFetch (s : State) : Unwatched keep s s.startFetch := .of_eq (by simp) (by simp)

theorem Unwatched.finish (s : State) (t : VfType) (f : Flow) : Unwatched keep s (s.finish t f) := .of_eq (by simp) (by simp)

theorem Unwatched.complete (s : State) (t : VfType) (f : Flow) : Unwatched keep s (s.complete t f) := .of_eq (by simp) (by simp)

theorem Unwatched.completeMarked (s : State) : Unwatched keep s s.completeMarked := .of_eq (by simp) (by simp)

theorem Unwatched.completePlain (s : State) : Unwatched keep s s.completePlain := .of_eq (by simp) (by simp)

theorem Unwatched.takeEvent (s : State) (e : Event) (a : Word) (x : Srr1) : Unwatched keep s (s.takeEvent e a x) :=
  ⟨by simp, fun _ => by simp⟩

theorem Unwatched.takeAt (s : State) (e : Event) (a : Word) : Unwatched keep s (s.takeAt e a) := .takeEvent s e a _

theorem Unwatched.takeSync (s : State) (c : SyncCause) (a : Option Word) : Unwatched keep s (s.takeSync c a) := by
  have hnone : ∀ u : State, Unwatched keep u (u.takeSync c none) := by
    intro u
    rw [State.takeSync_none]
    split
    · exact (Unwatched.takeEvent u _ _ _).trans (.startFetch _)
    · exact .takeEvent u _ _ _
  cases a with
  | none => exact hnone s
  | some a =>
    rw [State.takeSync_some]
    exact (hnone _).after rfl rfl

theorem Unwatched.portBusError (s : State) : Unwatched keep s s.portBusError :=
  Unwatched.trans (u := (s.recordEvent Config.portBusErrorCause).pulseEcrOr) ⟨State.pulses_pulseEcrOr _, fun _ => ⟨rfl, rfl, rfl⟩⟩
    ((Unwatched.startFetch _).after rfl rfl)

theorem Unwatched.seqErrorDebug (s : State) : Unwatched keep s s.seqErrorDebug := (Unwatched.portBusError _).after rfl rfl

theorem Unwatched.enterDebug (s : State) (a : Word) (x : Srr1) : Unwatched keep s (s.enterDebug a x) :=
  ⟨State.pulses_enterDebug s a x, fun _ => by simp⟩

/-- Leaving debug mode makes one report on VF (rule R179). -/
theorem Unwatched.leaveDebug (s : State) : Unwatched keep s s.leaveDebug := by
  obtain ⟨-, -, -, hout, -⟩ := s.leaveDebug_spec
  exact ⟨State.pulses_concat hout rfl, fun _ => by simp⟩

theorem Unwatched.returnFromInterrupt (s : State) : Unwatched keep s s.returnFromInterrupt := by
  have hleave : ∀ c x, Unwatched keep s (State.leaveDebug { s with cpu := c, expired := x }) :=
    fun _ _ => (Unwatched.leaveDebug _).after rfl rfl
  unfold State.returnFromInterrupt
  dsimp only
  split
  · split
    · exact (hleave _ _).trans (.enterDebug _ _ _)
    · exact (hleave _ _).andThen rfl rfl
  · refine (Unwatched.finish _ _ _).after ?_ ?_ <;> split <;> rfl

theorem Unwatched.highEvent (h : s.highEvent = some u) : Unwatched keep s u := by
  unfold State.highEvent at h
  split at h
  · exact Option.some.inj h ▸ .takeAt s _ _
  · split at h
    · exact Option.some.inj h ▸ (Unwatched.takeAt _ _ _).after rfl rfl
    · split at h
      · exact Option.some.inj h ▸ (Unwatched.takeAt _ _ _).after rfl rfl
      · cases h

theorem Unwatched.lowEvent (s : State) : Unwatched keep s s.lowEvent := ⟨by simp, fun _ => by simp⟩

theorem Unwatched.afterPort (s : State) : Unwatched keep s s.afterPort := by
  obtain ⟨-, h⟩ | h | ⟨-, h⟩ | ⟨-, u, hu, h⟩ | ⟨-, -, h⟩ := s.afterPort_cases <;> rw [h]
  · exact .refl s
  · exact .of_eq rfl rfl
  · exact (Unwatched.takeAt _ _ _).after rfl rfl
  · exact (Unwatched.highEvent hu).andThen rfl rfl
  · exact (Unwatched.lowEvent _).after rfl rfl

/-- What the start of a step in debug mode records pulses no watchpoint pin (rule R315). -/
theorem Unwatched.beginStep (s : State) : Unwatched keep { s with out := [] } s.beginStep := by
  obtain h | ⟨-, ls, e, h⟩ := s.beginStep_cases <;> rw [h]
  · exact .refl _
  · exact (Unwatched.takeAt _ _ _).after rfl rfl

/-! ## The instructions -/

theorem Unwatched.readSpr {g : State → State} (rD : Nat) (v : Word) (hg : ∀ u, Unwatched keep u (g u)) :
    Unwatched keep s (s.readSpr rD v g) := by
  unfold State.readSpr
  split
  · exact ((hg _).trans (.complete _ _ _)).after rfl rfl
  · exact .takeSync s _ _

theorem Unwatched.writeSpr {w : State → Word → State} {d : State → State} (rS : Nat) (hw : ∀ v, Unwatched keep s (w s v))
    (hd : ∀ u, Unwatched keep u (d u)) : Unwatched keep s (s.writeSpr rS w d) := by
  unfold State.writeSpr
  split
  · refine .trans ?_ (hd _)
    split
    · exact hw _
    · exact .refl s
  · exact .takeSync s _ _

theorem Unwatched.storeWithUpdate (s : State) (rS rA : Nat) (d : BitVec 16) : Unwatched keep s (s.storeWithUpdate rS rA d) := by
  obtain ⟨-, h⟩ | ⟨c, -, h⟩ := s.storeWithUpdate_cases rS rA d _ rfl <;> rw [h]
  · exact (Unwatched.complete _ _ _).after rfl rfl
  · exact .takeSync s c _

theorem Unwatched.runForeign (s : State) (w : Word) : Unwatched keep s (s.runForeign w) := by
  have heff : Unwatched keep s (s.foreignEffect w).2 := by
    unfold State.foreignEffect
    split <;> exact .of_eq rfl rfl
  simp only [State.runForeign]
  refine heff.trans ?_
  split
  · exact .takeSync _ _ _
  · split
    · exact .takeSync _ _ _
    · exact (Unwatched.finish _ _ _).after rfl rfl

theorem Unwatched.runOther (s : State) (w : Word) : Unwatched keep s (s.runOther w) := by
  unfold State.runOther
  split
  · exact .storeWithUpdate s _ _ _
  · exact .runForeign s w

theorem leadsUnwatched_execDpInsn (w : Word) (s : State) : LeadsUnwatched keep s (execDpInsn w s) := by
  refine .next ?_
  split
  · split
    · exact .of_eq rfl rfl
    · exact .seqErrorDebug s
    · exact .refl s
  · exact .of_eq rfl rfl

theorem leadsUnwatched_execDpData (w : Word) (s : State) : LeadsUnwatched keep s (execDpData w s) := by
  refine .next ?_
  split
  · split
    · exact .of_eq (by simp) (by simp)
    · exact .seqErrorDebug s
    · exact .refl s
  · exact .of_eq rfl rfl

theorem leadsUnwatched_execDpStartdl (s : State) : LeadsUnwatched keep s (execDpStartdl s) := by
  refine .next ?_
  split
  · dsimp only
    split
    · exact (Unwatched.startFetch _).after rfl rfl
    · exact .of_eq rfl rfl
  · exact .refl s

theorem leadsUnwatched_execDpEnddl (s : State) : LeadsUnwatched keep s (execDpEnddl s) := by
  refine .next ?_
  split <;> exact .of_eq rfl rfl

theorem leadsUnwatched_execDpBrk (nm m : Bool) (s : State) : LeadsUnwatched keep s (execDpBrk nm m s) := by
  refine .next ?_
  split <;> exact .of_eq rfl rfl

theorem leadsUnwatched_execMfsprDpdr (rD : Nat) (s : State) : LeadsUnwatched keep s (execMfsprDpdr rD s) := by
  refine .next ?_
  split
  · exact .of_eq rfl rfl
  · exact .readSpr rD _ fun _ => .of_eq rfl rfl

theorem leadsUnwatched_execMtsprDpdr (rS : Nat) (s : State) : LeadsUnwatched keep s (execMtsprDpdr rS s) := by
  refine .next (.writeSpr rS (fun v => ?_) .completePlain)
  split <;> exact .of_eq rfl rfl

/-- The three instructions that write a counter or ICTRL. -/
def writesCounting (i : Instr) : Prop := ∃ r, i = .mtsprCounta r ∨ i = .mtsprCountb r ∨ i = .mtsprIctrl r

/-- No row of the opcode table pulses a watchpoint pin, and only three write a counter or ICTRL. -/
theorem leadsUnwatched_exec (i : Instr) (s : State) : LeadsUnwatched (¬ writesCounting i) s (exec i s) := by
  cases i with
  | dpInsn w => exact leadsUnwatched_execDpInsn w s
  | dpData w => exact leadsUnwatched_execDpData w s
  | dpStartdl => exact leadsUnwatched_execDpStartdl s
  | dpEnddl => exact leadsUnwatched_execDpEnddl s
  | dpBrk nm m => exact leadsUnwatched_execDpBrk nm m s
  | dpTe | dpNop | rsv00011 | rsv001 | rsv01 | rsv10 | rsv110 | rsv1110 | rsv11110 => exact .next (.of_eq rfl rfl)
  | dpHreset | dpSreset => exact .next ⟨State.pulses_concat rfl rfl, fun _ => ⟨rfl, rfl, rfl⟩⟩
  | mfsprCmpa rD | mfsprCmpb rD | mfsprCmpc rD | mfsprCmpd rD | mfsprCmpe rD | mfsprCmpf rD | mfsprCmpg rD | mfsprCmph rD
  | mfsprDer rD | mfsprLctrl1 rD | mfsprLctrl2 rD | mfsprIctrl rD | mfsprBar rD =>
    exact .next (.readSpr rD _ .refl)
  | mfsprEcr rD => exact .next (.readSpr rD _ fun _ => .of_regs (by simp) (by simp))
  | mfsprCounta rD | mfsprCountb rD => exact .next (.readSpr rD _ fun _ => .of_eq rfl rfl)
  | mfsprDpdr rD => exact leadsUnwatched_execMfsprDpdr rD s
  | mtsprCmpa rS | mtsprCmpb rS | mtsprCmpc rS | mtsprCmpd rS | mtsprCmpe rS | mtsprCmpf rS | mtsprEcr rS | mtsprDer rS =>
    exact .next (.writeSpr rS (fun _ => .of_regs (by simp) (by simp)) .completeMarked)
  | mtsprCmpg rS | mtsprCmph rS | mtsprLctrl1 rS | mtsprLctrl2 rS | mtsprBar rS =>
    exact .next (.writeSpr rS (fun _ => .of_regs (by simp) (by simp)) .completePlain)
  | mtsprCounta rS =>
    exact .next (.writeSpr rS (fun _ => ⟨State.pulses_congr rfl, fun h => absurd ⟨rS, .inl rfl⟩ h⟩) .completePlain)
  | mtsprCountb rS =>
    exact .next (.writeSpr rS (fun _ => ⟨State.pulses_congr rfl, fun h => absurd ⟨rS, .inr (.inl rfl)⟩ h⟩) .completePlain)
  | mtsprIctrl rS =>
    exact .next (.writeSpr rS (fun _ => ⟨State.pulses_congr rfl, fun h => absurd ⟨rS, .inr (.inr rfl)⟩ h⟩) .completeMarked)
  | mtsprDpdr rS => exact leadsUnwatched_execMtsprDpdr rS s
  | rfi => exact .next (.returnFromInterrupt s)
  | sync => exact .next ((Unwatched.complete s _ _).andThen rfl rfl)
  | isync => exact .next (.complete s _ _)
  | mtmsr rS => exact .next ((Unwatched.complete _ _ _).after rfl rfl)
  | stwu => exact .next (.storeWithUpdate s _ _ _)

/-! ## Delivered instructions and transmissions -/

/-- A word that is no write of a counter or ICTRL: another row of the table, or an instruction outside it. -/
def plainWord (w : Word) : Prop := ∀ i, decodeWord? w = some i → ¬ writesCounting i

theorem leadsUnwatched_executeWord (w : Word) (s : State) : LeadsUnwatched (plainWord w) s (executeWord w s) := by
  unfold executeWord
  split
  · exact (leadsUnwatched_exec _ s).mono fun h => h _ ‹_›
  · exact .next (.runOther s w)

/-- The CPU executes a delivered word: no watchpoint or breakpoint exists there (rule R256). -/
theorem leadsUnwatched_debugStep (w : Word) (s : State) : LeadsUnwatched (plainWord w) s (debugStep w s) := by
  have hexec : LeadsUnwatched (plainWord w) s (executeWord w { s.beginInsn with cycles := [] }) :=
    (leadsUnwatched_executeWord w _).after (.of_eq rfl rfl)
  unfold debugStep
  split
  · exact .next ((hexec _ ‹_›).trans (.afterPort _))
  · exact .fault _
  · exact .refused _

/-- No transmission stands for an mtspr (rules R130, R132). -/
theorem decodeFrame_not_writesCounting (f : Frame) : ¬ writesCounting (decodeFrame f) := by
  have hf := encode_decodeFrame f
  rintro ⟨r, h | h | h⟩ <;> rw [h] at hf <;> exact nomatch hf

theorem leadsUnwatched_finishFrame (f : Frame) (s : State) : LeadsUnwatched keep s (finishFrame f s) := by
  have hexec : LeadsUnwatched keep s (exec (decodeFrame f) s) :=
    (leadsUnwatched_exec _ s).mono fun _ => decodeFrame_not_writesCounting f
  unfold finishFrame
  split
  · exact .next (.refl s)
  · split
    · refine .next ((hexec _ ‹_›).trans ?_)
      unfold State.afterFrame
      split
      · exact .afterPort _
      · exact .refl _
    · exact .fault _
    · exact .refused _

theorem Unwatched.serialClock (s : State) (dsdi : Bool) : Unwatched keep s (s.serialClock dsdi).1 := by
  unfold State.serialClock
  split
  · split
    · exact .of_eq (by simp) (by simp)
    · exact .of_eq rfl rfl
  · dsimp only
    split <;> exact .of_eq rfl rfl

theorem leadsUnwatched_serialStep (dsdi : Bool) (s : State) : LeadsUnwatched keep s (serialStep dsdi s) := by
  have hc : Unwatched keep s (s.serialClock dsdi).1 := .serialClock s dsdi
  unfold serialStep
  split
  · rename_i u f hu
    rw [hu] at hc
    exact (leadsUnwatched_finishFrame f u).after hc
  · rename_i u hu
    rw [hu] at hc
    exact .next hc

theorem leadsUnwatched_transmit (f : Frame) (s : State) : LeadsUnwatched keep s (transmit f s) := by
  unfold transmit
  split
  · exact (leadsUnwatched_finishFrame f _).after (.of_eq (by simp) (by simp))
  · exact .next (.refl s)

/-! ## A step in debug mode -/

/-- In debug mode a clock of the status pins reports 000 on VF (rule R177). -/
theorem Unwatched.clock (hd : s.dbg.inDebug = true) (r : ClockReport) (q : Fin 6) (n : Fin 3) :
    Unwatched keep s (s.clock r q n) := by
  have hc : s.clock r q n = State.reportVf { s with trace := { s.trace with histFlush := BitVec.ofNat 2 n.val } } 0b000 .type := by
    simp [State.clock, hd]
  rw [hc]
  exact ⟨State.pulses_concat rfl rfl, fun _ => ⟨rfl, rfl, rfl⟩⟩

/-- A show cycle is no pulse of a watchpoint pin (rule R187). -/
theorem Unwatched.busGrant (s : State) : Unwatched keep s s.busGrant := by
  unfold State.busGrant
  split
  · exact .refl s
  · exact ⟨State.pulses_concat rfl rfl, fun _ => ⟨rfl, rfl, rfl⟩⟩

/-- In debug mode the CPU fetches and retires nothing (rules R256, R372). -/
theorem leadsUnwatched_processInput (hd : s.dbg.inDebug = true) (i : Input) (hi : ∀ p, i ≠ .reset p) :
    LeadsUnwatched keep s (processInput i s) := by
  cases i with
  | cpuStep =>
    have hidle : processInput .cpuStep s = .next s := by simp [processInput, cpuStep, hd]
    rw [hidle]
    exact .next (.refl s)
  | fetch ia flow =>
    simp only [processInput, hd, Bool.true_or, if_true]
    exact .next (.refl s)
  | clock r q n => exact .next (.clock hd r q n)
  | busGrant => exact .next (.busGrant s)
  | frame f => exact leadsUnwatched_transmit f s
  | shift b => exact leadsUnwatched_serialStep b s
  | cancel | peripheral | external | nmi | machineCheck | decrementer | trace => exact .next (.of_eq rfl rfl)
  | reset p => exact absurd rfl (hi p)

theorem leadsUnwatched_wordStep (hd : s.dbg.inDebug = true) (w : Word) (hn : s.noReset) :
    LeadsUnwatched (plainWord w) s (wordStep w s) := by
  obtain ⟨rest, -, h⟩ | ⟨i, rest, hin, -, h⟩ := wordStep_cases w s <;> rw [h]
  · exact (leadsUnwatched_debugStep w _).after (.of_eq rfl rfl)
  · exact (leadsUnwatched_processInput (by exact hd) i fun p hp => hn p (by simp [hin, hp])).after (.of_eq rfl rfl)

/-- The start of a step in debug mode stays there and keeps the delivered word (rule R315). -/
theorem State.beginStep_inDebug (hd : s.dbg.inDebug = true) : s.beginStep.dbg.inDebug = true ∧ s.beginStep.ir = s.ir := by
  obtain h | ⟨-, ls, e, h⟩ := s.beginStep_cases <;> rw [h]
  · exact ⟨hd, rfl⟩
  · rw [State.takeAt, State.takeEvent_inDebug _ _ _ _ (by exact hd)]
    exact ⟨hd, rfl⟩

/-- A step in debug mode is unwatched, unless the delivered word writes a counter or ICTRL. -/
theorem leadsUnwatched_runOn (hd : s.dbg.inDebug = true) (hn : s.noReset) :
    LeadsUnwatched (∀ w, s.ir = some w → plainWord w) { s with out := [] } (runOn s) := by
  intro t ht
  obtain ⟨hdb, hir⟩ := State.beginStep_inDebug hd
  have hnb : s.beginStep.noReset := by simpa only [State.noReset, State.beginStep_inputs] using hn
  have hb : Unwatched (∀ w, s.ir = some w → plainWord w) { s with out := [] } s.beginStep := .beginStep s
  refine hb.trans ?_
  obtain ⟨hc, -⟩ | ⟨-, ⟨w, hw, h⟩ | ⟨-, ⟨i, rest, hin, h⟩ | ⟨-, -, h⟩⟩⟩ := runOn_cases s t ht
  · simp [State.enterCondition, hdb] at hc
  · exact ((leadsUnwatched_wordStep hdb w hnb).mono fun hp => hp w (hir ▸ hw)) t h
  · have hinput : LeadsUnwatched (∀ w, s.ir = some w → plainWord w) s.beginStep
        (processInput i { s.beginStep with inputs := rest }) :=
      (leadsUnwatched_processInput (by exact hdb) i fun p hp => hnb p (by simp [hin, hp])).after (.of_eq rfl rfl)
    exact hinput t h
  · exact leadsUnwatched_processInput hdb .cpuStep nofun t h

end

/-- Settles O47: the step begins with no output, and no operation of it is watched. -/
theorem noWatchpointsInDebugMode : Obligations.NoWatchpointsInDebugMode := by
  unfold Obligations.NoWatchpointsInDebugMode
  intro s t hd hn h
  rw [step_noReset s ((State.nextReset_eq_none s).mpr hn)] at h
  obtain ⟨hpulses, hregs⟩ := leadsUnwatched_runOn hd hn t h
  refine ⟨fun w hw => ?_, fun hword => hregs fun w hir i hi => ?_⟩
  · rw [← State.mem_pulses, hpulses] at hw
    exact nomatch hw
  · rintro ⟨r, h | h | h⟩ <;> obtain ⟨ha, hb, hc⟩ := hword w i r hir hi
    · exact ha h
    · exact hb h
    · exact hc h

end Sys2Proof.Machine
end

section
/-! PROOFS. Code that runs with debug mode enabled and not entered cannot reprogram the debug support (O53). Only an mtspr writes what
programs it, and there the write is not performed; every other operation of a step keeps it in every mode, also after an event of
the step has entered debug mode. -/

namespace Sys2Proof.Machine

/-- What programs the debug support: the special purpose registers without ECR, BAR, ICTRL[IFM] and the counts (rules R302, R432). -/
def State.programming (s : State) : Sprs :=
  { s.spr with
    ecr := 0
    bar := 0
    ictrl := s.spr.ictrl &&& 0xFFFFFFF7
    counta := countWord 0 (cntc s.spr.counta)
    countb := countWord 0 (cntc s.spr.countb) }

/-- A result whose next state, if it is one, is programmed as `s` is. -/
def LeadsProgrammed (s : State) (r : Result) : Prop := ∀ t, r = .next t → t.programming = s.programming

section
variable {s t u : State}

theorem State.programming_congr (h : t.spr = s.spr) : t.programming = s.programming := by
  simp only [State.programming, h]

theorem LeadsProgrammed.next (h : t.programming = s.programming) : LeadsProgrammed s (.next t) := by
  rintro _ ⟨⟩
  exact h

theorem LeadsProgrammed.fault (f : Fault) : LeadsProgrammed s (.fault f) := fun _ h => nomatch h

theorem LeadsProgrammed.refused (r : Refusal) : LeadsProgrammed s (.refused r) := fun _ h => nomatch h

theorem LeadsProgrammed.after {r : Result} (h : LeadsProgrammed u r) (hu : u.programming = s.programming) :
    LeadsProgrammed s r := fun t ht => (h t ht).trans hu

/-! ## Events and counting -/

/-- An event sets a bit of ECR, which programs nothing (rule R481). -/
@[simp] theorem State.programming_takeAt (s : State) (e : Event) (a : Word) : (s.takeAt e a).programming = s.programming := by
  simp [State.programming]

@[simp] theorem State.programming_takeSync (s : State) (c : SyncCause) (a : Option Word) :
    (s.takeSync c a).programming = s.programming := by
  simp [State.programming]

@[simp] theorem State.programming_lowEvent (s : State) : s.lowEvent.programming = s.programming := by
  simp [State.programming]

@[simp] theorem State.programming_afterEvents (s : State) (lbrk : Bool) (ia : WordAddr) :
    (s.afterEvents lbrk ia).programming = s.programming := by
  simp [State.programming]

theorem State.programming_highEvent (h : s.highEvent = some u) : u.programming = s.programming := by
  unfold State.highEvent at h
  split_ifs at h
  all_goals
    obtain rfl := Option.some.inj h
    exact State.programming_takeAt _ _ _

/-- Writing IFM writes no other bit of ICTRL (rule R252). -/
@[simp] theorem State.programming_setIfm (s : State) (b : Bool) : (s.setIfm b).programming = s.programming := by
  have hifm : ((s.spr.ictrl &&& 0xFFFFFFF7) ||| bitMask 28 b) &&& 0xFFFFFFF7 = s.spr.ictrl &&& 0xFFFFFFF7 := by
    have hbit : bitMask 28 b &&& 0xFFFFFFF7 = 0 := by cases b <;> decide
    rw [BitVec.and_or_distrib_right, and_mask_idem, hbit]
    exact BitVec.or_zero
  simp only [State.programming, State.setIfm, hifm]

/-- Counting changes the counts and no source select (rule R261). -/
@[simp] theorem State.programming_retired (s pre : State) (e : InFlight) : (s.retired pre e).programming = s.programming := by
  have hsource : ∀ (hit free : Bool) (draw : BitVec 16) (w : Word),
      cntc (if hit then countedValue free draw w else w) = cntc w := by
    intro hit free draw w
    cases hit
    · rfl
    · exact cntc_countWord _ _
  simp only [State.programming, State.retired, State.count, hsource]
  rfl

/-- What follows a completed instruction writes the counts, BAR and ECR (rules R259, R261, R481). -/
@[simp] theorem State.programming_retireDone (s pre : State) (e : InFlight) :
    (s.retireDone pre e).programming = s.programming := by
  rw [State.retireDone_eq]
  split
  · exact (State.programming_congr (State.noteExpired_spr _ _ _)).trans
      ((State.programming_takeAt _ _ _).trans (s.programming_retired pre e))
  · rw [State.programming_afterEvents, State.programming_retired]

@[simp] theorem State.programming_takeIbrk (s : State) (e : InFlight) : (s.takeIbrk e).programming = s.programming :=
  (State.programming_congr (State.noteExpired_spr _ _ _)).trans (State.programming_takeAt _ _ _)

@[simp] theorem State.programming_afterPort (s : State) : s.afterPort.programming = s.programming := by
  obtain ⟨-, h⟩ | h | ⟨-, h⟩ | ⟨-, u, hu, h⟩ | ⟨-, -, h⟩ := s.afterPort_cases <;> rw [h]
  · rfl
  · exact State.programming_takeAt _ _ _
  · exact (State.programming_highEvent hu :)
  · exact State.programming_lowEvent _

/-! ## Instructions -/

theorem State.programming_readSpr {g : State → State} (s : State) (rD : Nat) (v : Word)
    (hg : ∀ u : State, (g u).programming = u.programming) : (s.readSpr rD v g).programming = s.programming := by
  unfold State.readSpr
  split
  · exact (State.programming_congr (State.complete_spr _ _ _)).trans (hg _)
  · exact s.programming_takeSync _ _

/-- A write that is not enabled is not performed (rule R432). -/
theorem State.programming_writeSpr {w : State → Word → State} {d : State → State} (hw : s.writeEnabled = false) (rS : Nat)
    (hd : ∀ u : State, (d u).spr = u.spr) : (s.writeSpr rS w d).programming = s.programming := by
  unfold State.writeSpr
  split
  · simp only [hw, Bool.false_eq_true, if_false]
    exact State.programming_congr (hd s)
  · exact s.programming_takeSync _ _

@[simp] theorem State.programming_storeWithUpdate (s : State) (rS rA : Nat) (d : BitVec 16) :
    (s.storeWithUpdate rS rA d).programming = s.programming := by
  obtain ⟨-, h⟩ | ⟨c, -, h⟩ := s.storeWithUpdate_cases rS rA d _ rfl <;> rw [h]
  · exact State.programming_congr (State.complete_spr _ _ _)
  · exact s.programming_takeSync c _

/-- An instruction outside the opcode table never touches the debug registers (log entry 6). -/
theorem State.programming_runOther (s : State) (w : Word) : (s.runOther w).programming = s.programming := by
  have heff : ∀ v, (s.foreignEffect v).2.programming = s.programming := by
    intro v
    unfold State.foreignEffect
    split <;> rfl
  unfold State.runOther
  split
  · exact s.programming_storeWithUpdate _ _ _
  · simp only [State.runForeign]
    split
    · rw [State.programming_takeSync, heff]
    · split
      · rw [State.programming_takeSync, heff]
      · exact (State.programming_congr (State.finish_spr _ _ _)).trans (heff w)

theorem State.programming_seqErrorDebug (s : State) : s.seqErrorDebug.programming = s.programming := by
  simp [State.programming]

theorem leadsProgrammed_execDpInsn (w : Word) (s : State) : LeadsProgrammed s (execDpInsn w s) := by
  refine .next ?_
  split
  · split
    · rfl
    · exact s.programming_seqErrorDebug
    · rfl
  · rfl

theorem leadsProgrammed_execDpData (w : Word) (s : State) : LeadsProgrammed s (execDpData w s) := by
  refine .next ?_
  split
  · split
    · exact State.programming_congr (State.receiveData_spr _ _ _)
    · exact s.programming_seqErrorDebug
    · rfl
  · rfl

theorem leadsProgrammed_execDpStartdl (s : State) : LeadsProgrammed s (execDpStartdl s) := by
  refine .next ?_
  split
  · dsimp only
    split
    · exact State.programming_congr (State.startFetch_spr _)
    · rfl
  · rfl

/-- Where writes are not enabled, no row of the opcode table reprograms the debug support (rule R432). -/
theorem leadsProgrammed_exec (i : Instr) (hw : s.writeEnabled = false) : LeadsProgrammed s (exec i s) := by
  cases i with
  | dpInsn w => exact leadsProgrammed_execDpInsn w s
  | dpData w => exact leadsProgrammed_execDpData w s
  | dpStartdl => exact leadsProgrammed_execDpStartdl s
  | dpEnddl => exact .next (by split <;> rfl)
  | dpBrk nm m => exact .next (by split <;> rfl)
  | dpTe | dpNop | dpHreset | dpSreset | rsv00011 | rsv001 | rsv01 | rsv10 | rsv110 | rsv1110 | rsv11110 => exact .next rfl
  | mfsprCmpa rD | mfsprCmpb rD | mfsprCmpc rD | mfsprCmpd rD | mfsprCmpe rD | mfsprCmpf rD | mfsprCmpg rD | mfsprCmph rD
  | mfsprDer rD | mfsprLctrl1 rD | mfsprLctrl2 rD | mfsprIctrl rD | mfsprBar rD =>
    exact .next (s.programming_readSpr rD _ fun _ => rfl)
  | mfsprEcr rD => exact .next (s.programming_readSpr rD _ fun _ => by simp [State.programming])
  | mfsprCounta rD | mfsprCountb rD => exact .next (s.programming_readSpr rD _ fun _ => rfl)
  | mfsprDpdr rD =>
    refine .next ?_
    split
    · rfl
    · exact s.programming_readSpr rD _ fun _ => rfl
  | mtsprCmpa rS | mtsprCmpb rS | mtsprCmpc rS | mtsprCmpd rS | mtsprCmpe rS | mtsprCmpf rS | mtsprEcr rS | mtsprDer rS
  | mtsprIctrl rS =>
    exact .next (State.programming_writeSpr hw rS State.completeMarked_spr)
  | mtsprCmpg rS | mtsprCmph rS | mtsprLctrl1 rS | mtsprLctrl2 rS | mtsprCounta rS | mtsprCountb rS | mtsprBar rS
  | mtsprDpdr rS =>
    exact .next (State.programming_writeSpr hw rS State.completePlain_spr)
  | rfi => exact .next (State.programming_congr s.returnFromInterrupt_spr)
  | sync | isync | mtmsr rS => exact .next (State.programming_congr (State.complete_spr _ _ _))
  | stwu => exact .next (s.programming_storeWithUpdate _ _ _)

theorem leadsProgrammed_executeWord (w : Word) (hw : s.writeEnabled = false) : LeadsProgrammed s (executeWord w s) := by
  unfold executeWord
  split
  · exact leadsProgrammed_exec _ hw
  · exact .next (s.programming_runOther w)

/-! ## Retiring an instruction -/

theorem leadsProgrammed_retireRun (e : InFlight) (ifm : Option Bool) (hw : s.writeEnabled = false) :
    LeadsProgrammed s (s.retireRun e ifm) := by
  have hdone : ∀ v : State, (if v.outcome = .completed then v.retireDone s e else v).programming = v.programming := by
    intro v
    split
    · exact v.programming_retireDone s e
    · rfl
  unfold State.retireRun
  split
  · exact .next (s.programming_takeSync _ _)
  · split
    · rename_i v hv
      have hexec : v.programming = s.programming := leadsProgrammed_executeWord (s := { s with cycles := [] }) e.word hw v hv
      refine .next ((hdone _).trans ?_)
      cases ifm with
      | none => exact hexec
      | some b => exact (v.programming_setIfm b).trans hexec
    · exact .fault _
    · exact .refused _

theorem leadsProgrammed_retire (e : InFlight) (hw : s.writeEnabled = false) : LeadsProgrammed s (s.retire e) := by
  obtain ⟨-, h⟩ | ⟨-, u, ifm, hu, h⟩ := s.retire_cases e
  · rw [h]
    exact .next (s.beginInsn.programming_takeSync _ _)
  · have hpre : u.programming = s.programming ∧ u.writeEnabled = false := by
      obtain rfl | rfl | ⟨b, rfl | rfl⟩ := hu
      · exact ⟨rfl, hw⟩
      · exact ⟨State.programming_setIfm _ _, hw⟩
      · exact ⟨rfl, hw⟩
      · exact ⟨State.programming_setIfm _ _, hw⟩
    obtain ⟨hkeep, hwu⟩ := hpre
    obtain h | h := h <;> rw [h]
    · exact .next ((u.programming_takeIbrk e).trans hkeep)
    · exact (leadsProgrammed_retireRun e ifm hwu).after hkeep

theorem leadsProgrammed_cpuStep (hd : s.dbg.inDebug = false) (hw : s.writeEnabled = false) : LeadsProgrammed s (cpuStep s) := by
  cases hcs : s.dbg.checkStop with
  | true =>
    have hidle : cpuStep s = .next s := by simp [cpuStep, hcs]
    rw [hidle]
    exact .next rfl
  | false =>
    obtain ⟨u, hu, h⟩ | ⟨-, ⟨e, rest, -, -, h⟩ | ⟨e, rest, -, -, h⟩ | ⟨-, h⟩⟩ := cpuStep_cases s hcs hd <;> rw [h]
    · exact .next (State.programming_highEvent hu)
    · exact leadsProgrammed_retire (s := { s with inflight := rest }) e hw
    · exact .next rfl
    · exact leadsProgrammed_retire (s := (s.fetchAt s.pcWord .sequential).1) _ hw

/-! ## Delivered instructions and transmissions -/

theorem leadsProgrammed_debugStep (w : Word) (hw : s.writeEnabled = false) : LeadsProgrammed s (debugStep w s) := by
  have hexec : LeadsProgrammed s (executeWord w { s.beginInsn with cycles := [] }) :=
    leadsProgrammed_executeWord (s := { s.beginInsn with cycles := [] }) w hw
  unfold debugStep
  split
  · exact .next ((State.programming_afterPort _).trans (hexec _ ‹_›))
  · exact .fault _
  · exact .refused _

theorem leadsProgrammed_finishFrame (f : Frame) (hw : s.writeEnabled = false) : LeadsProgrammed s (finishFrame f s) := by
  have hafter : ∀ v : State, (v.afterFrame s).programming = v.programming := by
    intro v
    unfold State.afterFrame
    split
    · exact v.programming_afterPort
    · rfl
  unfold finishFrame
  split
  · exact .next rfl
  · split
    · exact .next ((hafter _).trans (leadsProgrammed_exec _ hw _ ‹_›))
    · exact .fault _
    · exact .refused _

/-- Whether writes are enabled depends on the mode and on MSR[PR] (rule R430). -/
theorem State.writeEnabled_congr (hc : t.cpu = s.cpu) (hd : t.dbg = s.dbg) : t.writeEnabled = s.writeEnabled := by
  simp only [State.writeEnabled, State.supervisor, hc, hd]

theorem leadsProgrammed_transmit (f : Frame) (hw : s.writeEnabled = false) : LeadsProgrammed s (transmit f s) := by
  unfold transmit
  split
  · exact (leadsProgrammed_finishFrame f ((State.writeEnabled_congr (by simp) (by simp)).trans hw)).after
      (State.programming_congr (by simp))
  · exact .next rfl

/-- A serial clock touches the port only (rule R356). -/
theorem State.serialClock_frame (s : State) (dsdi : Bool) :
    (s.serialClock dsdi).1.cpu = s.cpu ∧ (s.serialClock dsdi).1.dbg = s.dbg ∧ (s.serialClock dsdi).1.spr = s.spr := by
  unfold State.serialClock
  split
  · split
    · simp
    · exact ⟨rfl, rfl, rfl⟩
  · dsimp only
    split <;> exact ⟨rfl, rfl, rfl⟩

theorem leadsProgrammed_serialStep (dsdi : Bool) (hw : s.writeEnabled = false) : LeadsProgrammed s (serialStep dsdi s) := by
  obtain ⟨hc, hd, hs⟩ := s.serialClock_frame dsdi
  unfold serialStep
  split
  · rename_i v f hv
    rw [hv] at hc hd hs
    exact (leadsProgrammed_finishFrame f ((State.writeEnabled_congr hc hd).trans hw)).after (State.programming_congr hs)
  · rename_i v hv
    rw [hv] at hs
    exact .next (State.programming_congr hs)

/-! ## A step -/

theorem leadsProgrammed_processInput (hd : s.dbg.inDebug = false) (hw : s.writeEnabled = false) (i : Input)
    (hi : ∀ p, i ≠ .reset p) : LeadsProgrammed s (processInput i s) := by
  cases i with
  | cpuStep => exact leadsProgrammed_cpuStep hd hw
  | fetch ia flow =>
    simp only [processInput]
    split <;> exact .next rfl
  | clock r q n => exact .next (State.programming_congr (by simp))
  | busGrant => exact .next (State.programming_congr (by simp))
  | frame f => exact leadsProgrammed_transmit f hw
  | shift b => exact leadsProgrammed_serialStep b hw
  | cancel | peripheral | external | nmi | machineCheck | decrementer | trace => exact .next rfl
  | reset p => exact absurd rfl (hi p)

theorem leadsProgrammed_wordStep (hd : s.dbg.inDebug = false) (hw : s.writeEnabled = false) (w : Word) (hn : s.noReset) :
    LeadsProgrammed s (wordStep w s) := by
  obtain ⟨rest, -, h⟩ | ⟨i, rest, hin, -, h⟩ := wordStep_cases w s <;> rw [h]
  · exact leadsProgrammed_debugStep (s := { s with ir := none, inputs := rest }) w hw
  · exact leadsProgrammed_processInput (s := { s with inputs := rest }) hd hw i fun p hp => hn p (by simp [hin, hp])

/-- Outside debug mode no event but a reset reprograms the debug support where writes are not enabled. -/
theorem leadsProgrammed_runOn (hd : s.dbg.inDebug = false) (hw : s.writeEnabled = false) (hn : s.noReset) :
    LeadsProgrammed s (runOn s) := by
  intro t ht
  have hcases := runOn_cases s t ht
  rw [s.beginStep_running hd] at hcases
  obtain ⟨-, rfl⟩ | ⟨-, ⟨w, -, h⟩ | ⟨-, ⟨i, rest, hin, h⟩ | ⟨-, -, h⟩⟩⟩ := hcases
  · exact State.programming_congr (State.enterDebug_spr _ _ _)
  · exact leadsProgrammed_wordStep (s := { s with out := [] }) hd hw w hn t h
  · exact leadsProgrammed_processInput (s := { s with out := [], inputs := rest }) hd hw i
      (fun p hp => hn p (by simp [show s.inputs = i :: rest from hin, hp])) t h
  · exact leadsProgrammed_cpuStep (s := { s with out := [] }) hd hw t h

end

/-- Settles O53: writes are not enabled, and what programs the debug support is read off `State.programming`. -/
theorem runningCodeCannotReprogram : Obligations.RunningCodeCannotReprogram := by
  unfold Obligations.RunningCodeCannotReprogram
  intro s t hen hd hn h
  have hw : s.writeEnabled = false := by simp [State.writeEnabled, hen, hd]
  rw [step_noReset s ((State.nextReset_eq_none s).mpr hn)] at h
  have hkeep : ∀ {α : Type} (f : Sprs → α), f t.programming = f s.programming :=
    fun f => congrArg f (leadsProgrammed_runOn hd hw hn t h)
  have hsource : ∀ v w : Word, countWord 0 (cntc v) = countWord 0 (cntc w) → cntc v = cntc w := by
    intro v w hvw
    simpa only [cntc_countWord] using congrArg cntc hvw
  exact ⟨hkeep Sprs.der, hkeep Sprs.cmpa, hkeep Sprs.cmpb, hkeep Sprs.cmpc, hkeep Sprs.cmpd, hkeep Sprs.cmpe, hkeep Sprs.cmpf,
    hkeep Sprs.cmpg, hkeep Sprs.cmph, hkeep Sprs.lctrl1, hkeep Sprs.lctrl2, hkeep Sprs.ictrl,
    hsource _ _ (hkeep Sprs.counta), hsource _ _ (hkeep Sprs.countb)⟩

end Sys2Proof.Machine
end

section
/-! PROOFS. Debug mode: its entry, the events outside and inside it, the return from it, and check stop (rules R303, R306 to R326,
R481 to R484). -/

namespace Sys2Proof.Machine

/-! ## Debug mode entry (rules R306, R308, R173, R174, R177) -/

/-- A machine that supplies no download loop waits for its next instruction (rule R372). -/
theorem State.startFetch_waits {s : State} (h : s.port.downloadInProgress = false) :
    s.startFetch = { s with port := { s.port with cpuWaiting := .instruction } } := by
  obtain ⟨hdl, -⟩ | ⟨-, heq⟩ := s.startFetch_cases
  · exact absurd (h.symm.trans hdl) nofun
  · exact heq

/-- A flush slot still due is closed by one count of 0 to 5; in a type slot nothing is reported (rules R173, R174). -/
theorem State.closeSlot_out (s : State) :
    ∃ slot : List Output, s.closeSlot.out = s.out ++ slot ∧ (s.trace.prevKind = .type → slot = []) ∧
      (s.trace.prevKind = .flush → ∃ n : Nat, n ≤ 5 ∧ slot = [.vf (BitVec.ofNat 3 n)]) := by
  unfold State.closeSlot
  split
  · rename_i hk
    exact ⟨[], (List.append_nil _).symm, fun _ => rfl, fun h => absurd (hk.symm.trans h) nofun⟩
  · rename_i hk
    exact ⟨_, rfl, fun h => absurd (hk.symm.trans h) nofun, fun _ => ⟨_, by omega, rfl⟩⟩

/-- The reports of a debug mode entry: the slot still due, 100, then 000 (rule R177). -/
theorem State.enterDebug_out (s : State) (a : Word) (x : Srr1) :
    (s.enterDebug a x).out = s.cancelFlight.closeSlot.out ++ [.vf 0b100, .vf 0b000] := by
  refine (State.startFetch_out _).trans ?_
  simp only [State.reportVf, List.append_assoc]
  rfl

/-- The entry touches of the port only the start of the next fetch (rule R306). -/
theorem State.enterDebug_port (s : State) (a : Word) (x : Srr1) (h : s.port.downloadInProgress = false) :
    (s.enterDebug a x).port = { s.port with cpuWaiting := .instruction } := by
  unfold State.enterDebug
  dsimp only
  rw [State.startFetch_waits (by simpa [State.reportVf] using h)]
  simp [State.reportVf]

/-- Types not yet reported are dropped, and a program trace cycle is made visible (rule R177, log entry 54). -/
theorem State.enterDebug_trace (s : State) (a : Word) (x : Srr1) :
    (s.enterDebug a x).trace.pending = [] ∧
      ∃ c, (s.enterDebug a x).trace.showQueue.getLast? = some c ∧ c.flow = .indirect := by
  unfold State.enterDebug
  simp [State.reportVf]

/-- Settles O32. -/
theorem debugModeEntry : Obligations.DebugModeEntry := by
  unfold Obligations.DebugModeEntry
  intro s a x
  obtain ⟨hdbg, hsrr0, hsrr1, hpr, hee, hvf, hkind, hfetch, hflight⟩ := s.enterDebug_spec a x
  obtain ⟨hpending, hshow⟩ := s.enterDebug_trace a x
  obtain ⟨slot, hout, htype, hflush⟩ := s.cancelFlight.closeSlot_out
  simp only [State.cancelFlight_trace_prevKind, State.cancelFlight_out] at hout htype hflush
  have hvfls : (s.enterDebug a x).vfls = 0b11 := by simp [State.vfls, hdbg]
  refine ⟨hdbg, hsrr0, hsrr1, hpr, hee, by simp, by simp, by simp, by simp, by simp, by simp, hfetch, s.enterDebug_port a x,
    ⟨slot, ?_, htype, hflush⟩, hvf, hkind, hvfls, hpending, hflight, hshow⟩
  rw [s.enterDebug_out, hout]

/-! ## Events (rules R303, R312, R315, R324, R481 to R484) -/

/-- Settles O33. -/
theorem eventInsideDebugMode : Obligations.EventInsideDebugMode := by
  unfold Obligations.EventInsideDebugMode
  intro s e a x hd
  exact s.takeEvent_inDebug e a x hd

/-- Freeze after an event outside debug mode: as it was, or asserted since an enabled event is recorded (rule R324, D5). -/
theorem State.takeEvent_freeze (s : State) (e : Event) (a : Word) (x : Srr1) (hd : s.dbg.inDebug = false) :
    (s.takeEvent e a x).dbg.freeze = (s.dbg.freeze || (s.noted e).enabledEvent) := by
  obtain ⟨-, hder, h⟩ | ⟨-, -, h⟩ | ⟨-, -, h⟩ := s.takeEvent_cases e a x hd
  · obtain ⟨hdbg, -⟩ := (s.noted e).enterDebug_spec a x
    rw [h, hdbg, s.enabledEvent_noted e hder, Bool.or_true]
  · simp [h, State.updateFreeze_eq, State.enabledEvent, hd]
  · simp [h, State.updateFreeze_eq, State.enabledEvent, hd]

/-- An event enters debug mode exactly if debug mode is enabled and DER enables the event (rule R303). -/
theorem State.takeEvent_inDebug_iff (s : State) (e : Event) (a : Word) (x : Srr1) (hd : s.dbg.inDebug = false) :
    (s.takeEvent e a x).dbg.inDebug = true ↔ s.dbg.enable = true ∧ bitOf s.spr.der (eventBit e) = true := by
  obtain ⟨hen, hder, h⟩ | ⟨hno, -, h⟩ | ⟨hno, -, h⟩ := s.takeEvent_cases e a x hd
  · obtain ⟨hdbg, -⟩ := (s.noted e).enterDebug_spec a x
    simp [h, hdbg, hen, hder]
  · simp only [h, State.updateFreeze_dbg_inDebug, State.enterCheckStop_dbg_inDebug, State.noted_dbg_inDebug, hd]
    obtain hno | hno := hno <;> simp [hno]
  · simp only [h, State.updateFreeze_dbg_inDebug, State.regularEntry_dbg, State.noted_dbg_inDebug, hd]
    obtain hno | hno := hno <;> simp [hno]

/-- An event that enters debug mode is recorded first (rules R303, R481). -/
theorem State.takeEvent_entry (s : State) {e : Event} (a : Word) (x : Srr1) (hd : s.dbg.inDebug = false)
    (hen : s.dbg.enable = true) (hder : bitOf s.spr.der (eventBit e) = true) :
    s.takeEvent e a x = (s.noted e).enterDebug a x := by
  obtain ⟨-, -, h⟩ | ⟨hno, -⟩ | ⟨hno, -⟩ := s.takeEvent_cases e a x hd
  · exact h
  · simp [hen, hder] at hno
  · simp [hen, hder] at hno

/-- Only check stop that does not enter debug mode halts the CPU (rules R303, R312). -/
theorem State.takeEvent_keeps_checkStop (s : State) {e : Event} (a : Word) (x : Srr1) (hd : s.dbg.inDebug = false)
    (h : e ≠ .checkStop ∨ s.dbg.enable = true ∧ bitOf s.spr.der (eventBit e) = true) :
    (s.takeEvent e a x).dbg.checkStop = s.dbg.checkStop := by
  obtain ⟨-, -, ht⟩ | ⟨hno, he, -⟩ | ⟨-, -, ht⟩ := s.takeEvent_cases e a x hd
  · simp [ht]
  · obtain hne | ⟨hen, hder⟩ := h
    · exact absurd he hne
    · simp [hen, hder] at hno
  · simp [ht]

/-- An event that is not enabled does not enter debug mode (rule R303). -/
theorem State.takeEvent_outside (s : State) {e : Event} (a : Word) (x : Srr1) (hd : s.dbg.inDebug = false)
    (hno : s.dbg.enable = false ∨ bitOf s.spr.der (eventBit e) = false) : (s.takeEvent e a x).dbg.inDebug = false := by
  rw [Bool.eq_false_iff, ne_eq, s.takeEvent_inDebug_iff e a x hd]
  obtain hno | hno := hno <;> simp [hno]

/-- Check stop that does not enter debug mode halts the CPU, whose registers keep their values (rule R312). -/
theorem State.takeEvent_checkStop (s : State) (a : Word) (x : Srr1) (hd : s.dbg.inDebug = false)
    (hno : s.dbg.enable = false ∨ bitOf s.spr.der (eventBit .checkStop) = false) :
    (s.takeEvent .checkStop a x).dbg.checkStop = true ∧ (s.takeEvent .checkStop a x).cpu = s.cpu := by
  obtain ⟨hen, hder, -⟩ | ⟨-, -, h⟩ | ⟨-, hne, -⟩ := s.takeEvent_cases .checkStop a x hd
  · simp [hen, hder] at hno
  · simp [h, State.enterCheckStop]
  · exact absurd rfl hne

/-- Every other event that does not enter debug mode is a regular interrupt (rules R484, R483). -/
theorem State.takeEvent_regular (s : State) {e : Event} (a : Word) (x : Srr1) (hd : s.dbg.inDebug = false) (he : e ≠ .checkStop)
    (hno : s.dbg.enable = false ∨ bitOf s.spr.der (eventBit e) = false) :
    s.takeEvent e a x = ((s.noted e).regularEntry e a x).updateFreeze := by
  obtain ⟨hen, hder, -⟩ | ⟨-, hcs, -⟩ | ⟨-, -, h⟩ := s.takeEvent_cases e a x hd
  · simp [hen, hder] at hno
  · exact absurd hcs he
  · exact h

/-- What a regular interrupt saves and changes (rules R484, R483, R171, R172). -/
theorem State.regularEntry_spec (s : State) (e : Event) (a : Word) (x : Srr1) :
    (s.regularEntry e a x).cpu.srr0 = a ∧ (s.regularEntry e a x).cpu.srr1 = x ∧ (s.regularEntry e a x).cpu.msr.ri = false ∧
      (s.regularEntry e a x).cpu.pc = vectorAddr s.cpu.msr.ip e ∧ (s.regularEntry e a x).trace.nextFlow = .indirect ∧
      (s.regularEntry e a x).trace.pending = s.trace.pending ++ [.exception] :=
  ⟨rfl, rfl, rfl, rfl, rfl, rfl⟩

/-- Settles O31. -/
theorem eventRouting : Obligations.EventRouting := by
  unfold Obligations.EventRouting
  intro s e a x hd
  have hfreeze := s.takeEvent_freeze e a x hd
  refine ⟨s.takeEvent_spr e a x, s.takeEvent_inDebug_iff e a x hd, fun hder => ?_, fun hf => ?_, by simp, by simp, by simp, by simp,
    ?_, fun he hno => ?_⟩
  · rw [hfreeze, s.enabledEvent_noted e hder, Bool.or_true]
  · rw [hfreeze, hf, Bool.true_or]
  · rintro rfl hno
    exact s.takeEvent_checkStop a x hd hno
  · obtain ⟨hsrr0, hsrr1, hri, hpc, hflow, hpending⟩ := (s.noted e).regularEntry_spec e a x
    rw [s.takeEvent_regular a x hd he hno, State.updateFreeze_cpu, State.updateFreeze_trace]
    exact ⟨hsrr0, hsrr1, hri, hpc, by simp, hflow, hpending⟩

/-! ## A refused store in debug mode (rules R315, R316, R319) -/

/-- Settles O27: the exception of the refused store is an event inside debug mode, after which the next fetch starts. -/
theorem refusedStoreInDebug : Obligations.RefusedStoreInDebug := by
  unfold Obligations.RefusedStoreInDebug
  intro s c rS rA d hd hS hA hc
  obtain ⟨hok, -⟩ | ⟨c', hc', ht⟩ := s.storeWithUpdate_cases rS rA d _ rfl
  · exact absurd (hok.symm.trans hc) nofun
  · obtain rfl : c' = c := Option.some.inj (hc'.symm.trans hc)
    refine ⟨_, executeWord_stwuWord s rS rA d hS hA, ?_, ?_⟩
    · rintro rfl rfl rfl
      rfl
    · rw [ht, State.takeSync_some, State.takeSync_none, if_pos (by exact hd), State.takeEvent_inDebug _ _ _ _ (by exact hd)]
      simp [hd, State.fetching_startFetch]

/-! ## Return from debug mode (rules R320, R321, R325, R179, R375) -/

/-- The machine in debug mode that an rfi has given its MSR and its pc, and has left. -/
def State.returned (s : State) : State :=
  State.leaveDebug { s with cpu := { s.cpu with msr := s.cpu.srr1.msr, pc := s.cpu.srr0 }, expired := ⟨false, false⟩ }

/-- What an rfi does on its way out of debug mode (rules R320, R325, R179). -/
theorem State.returned_spec (s : State) :
    s.returned.dbg = { s.dbg with inDebug := false, freeze := s.enabledEvent } ∧
      s.returned.port = { s.port with cpuWaiting := .none } ∧ s.returned.inflight = [] ∧
      s.returned.out = s.out ++ [.vf (if s.trace.vsyncChanged then 0b011 else 0b101)] ∧
      s.returned.trace.vsyncChanged = false ∧ s.returned.trace.nextFlow = .indirect ∧
      s.returned.trace.nextVisible = true ∧ s.returned.trace.histFlush.toNat ≤ 2 :=
  State.leaveDebug_spec _

/-- What it leaves alone, with MSR from SRR1 and the pc from SRR0. -/
theorem State.returned_frame (s : State) :
    s.returned.cpu = { s.cpu with msr := s.cpu.srr1.msr, pc := s.cpu.srr0 } ∧ s.returned.spr = s.spr ∧ s.returned.mem = s.mem ∧
      s.returned.trace.showQueue = s.trace.showQueue ∧ s.returned.trace.fetches = s.trace.fetches := by
  simp [State.returned]

/-- What an rfi in debug mode can do (rules R320, R321). -/
theorem State.returnFromInterrupt_inDebug (s : State) (hd : s.dbg.inDebug = true) :
    s.returnFromInterrupt =
      if s.dbg.enable && s.enabledEvent then s.returned.enterDebug s.cpu.srr0 s.cpu.srr1
      else { s.returned with port := { s.returned.port with validData := false } } := by
  have hentry : s.returned.enterCondition = (s.dbg.enable && s.enabledEvent) := by
    simp [State.returned, State.enterCondition, State.enabledEvent, State.leaveDebug_spec]
  rw [← hentry]
  simp only [State.returnFromInterrupt, hd, if_true]
  rfl

/-- The first fetch after debug mode is left is a program trace cycle, shown in every setting (rule R179). -/
theorem State.traceFetch_first {s : State} (hf : s.trace.nextFlow = .indirect) (hv : s.trace.nextVisible = true)
    (hi : s.inflight = []) (a : WordAddr) (f : Flow) :
    (s.traceFetch a f).trace.showQueue = s.trace.showQueue ++ [⟨a, .indirect, s.trace.fetches⟩] := by
  simp [State.traceFetch, State.fetchShown, State.fetchFlow, joinFlow, hf, hv, hi]

/-- Settles O29. -/
theorem returnFromDebugMode : Obligations.ReturnFromDebugMode := by
  unfold Obligations.ReturnFromDebugMode
  intro s hd
  have hexec : exec .rfi s = .next s.returnFromInterrupt := rfl
  obtain ⟨hdbg, hport, hflight, hout, hvsync, hflow, hvisible, hhist⟩ := s.returned_spec
  obtain ⟨hcpu, hspr, hmem, hqueue, hfetches⟩ := s.returned_frame
  rw [hexec, s.returnFromInterrupt_inDebug hd]
  refine ⟨fun hno => ?_, fun hev hen hdl => ?_⟩
  · have hquiet : s.enabledEvent = false := by simp [State.enabledEvent, hno]
    rw [hquiet] at hdbg
    rw [hquiet, Bool.and_false, if_neg nofun]
    refine ⟨_, rfl, hdbg, hcpu, hspr, hmem, by rw [hport], hout, hvsync, ?_, fun a f => ?_⟩
    · simpa [State.vfls, hdbg] using hhist
    · rw [State.traceFetch_first (by exact hflow) (by exact hvisible) (by exact hflight)]
      simp only [hqueue, hfetches]
  · have hpending : s.enabledEvent = true := bne_iff_ne.mpr hev
    obtain ⟨hdbg', hsrr0, hsrr1, hpr, hee, -⟩ := s.returned.enterDebug_spec s.cpu.srr0 s.cpu.srr1
    rw [hen, hpending, Bool.and_self, if_pos rfl]
    refine ⟨_, rfl, ?_, ?_, hsrr0, hsrr1, by simp [hcpu], by simp [hspr], by simp [hmem], hpr, hee⟩
    · rw [hdbg', hdbg]
    · rw [State.enterDebug_port _ _ _ (by rw [hport]; exact hdl), hport]

/-! ## Check stop (rules R311, R312) -/

/-- Settles O50. -/
theorem checkStopHaltsTheCpu : Obligations.CheckStopHaltsTheCpu := by
  unfold Obligations.CheckStopHaltsTheCpu
  intro s hcs hd hc hir
  have hb := s.beginStep_running hd
  have hinput : ∀ i rest, s.inputs = i :: rest → (∀ p, i ≠ .reset p) →
      step s = processInput i { s with out := [], inputs := rest } := by
    intro i rest hin hi
    have hr : s.nextReset = none := by
      rw [State.nextReset_eq_none, hin]
      exact fun p hp => hi p (Option.some.inj hp)
    rw [step_input s i rest hr (by rw [hb]; exact hc) (by rw [hb]; exact hir) (by rw [hb]; exact hin), hb]
  refine ⟨fun hin => ?_, fun rest hin => ?_, fun a f rest hin => ?_⟩
  · have hr : s.nextReset = none := by simp [State.nextReset, hin]
    rw [step_idle s hr (by rw [hb]; exact hc) (by rw [hb]; exact hir) (by rw [hb]; exact hin), hb]
    simp only [hcs, if_true]
  · rw [hinput _ rest hin nofun]
    simp [processInput, cpuStep, hcs]
  · rw [hinput _ rest hin nofun]
    simp [processInput, hcs]

/-- A machine check pending while the CPU runs, with no higher event, is taken in place of an instruction (rules R311, R485). -/
theorem step_machineCheck (s : State) (hd : s.dbg.inDebug = false) (hcs : s.dbg.checkStop = false)
    (hc : s.enterCondition = false) (hir : s.ir = none) (hin : s.inputs = []) (hnb : s.port.tecr.nmbrk = false)
    (hnmi : s.lines.nmi = false) (hmc : s.lines.machineCheck = true) :
    step s = .next (State.takeAt { s with out := [], lines := { s.lines with machineCheck := false } }
      (machineCheckEvent s.cpu.msr.me) s.cpu.pc) := by
  rw [step_running s hd hcs hc hir hin]
  simp [cpuStep, State.highEvent, hd, hcs, hnb, hnmi, hmc]

/-- The ECR bit of the machine check event that MSR[ME] selects (rules R311, R480). -/
theorem eventMask_machineCheckEvent (me : Bool) :
    eventMask (machineCheckEvent me) = if me then 0x10000000 else 0x20000000 := by
  cases me <;> decide

/-- Settles O34: the step takes the check stop or the machine check that MSR[ME] selects, routed by the latch and DER. -/
theorem checkStopTable : Obligations.CheckStopTable := by
  unfold Obligations.CheckStopTable
  intro s hd hcs hc hir hin hnb hnmi hmc
  have hstep := step_machineCheck s hd hcs hc hir hin hnb hnmi hmc
  generalize hu : ({ s with out := [], lines := { s.lines with machineCheck := false } } : State) = u at hstep
  obtain ⟨hdbg, hspr, hip⟩ : u.dbg = s.dbg ∧ u.spr = s.spr ∧ u.cpu.msr.ip = s.cpu.msr.ip := by
    subst hu
    exact ⟨rfl, rfl, rfl⟩
  rw [← hdbg] at hd hcs
  rw [← hdbg, ← hspr, ← hip]
  refine ⟨_, hstep, ?_⟩
  unfold State.takeAt
  rw [u.takeEvent_spr, u.takeEvent_freeze _ _ _ hd]
  refine ⟨by rw [eventMask_machineCheckEvent], ?_⟩
  cases hme : s.cpu.msr.me with
  | false =>
    rw [show machineCheckEvent false = .checkStop from rfl]
    refine ⟨fun _ hno => ⟨?_, u.takeEvent_outside _ _ hd hno⟩, (nomatch ·), fun _ hen hder => ⟨?_, ?_⟩, (nomatch ·), rfl⟩
    · obtain ⟨hstop, -⟩ := u.takeEvent_checkStop s.cpu.pc (srr1Of .checkStop u.cpu.msr) hd hno
      exact hstop
    · exact (u.takeEvent_inDebug_iff .checkStop _ _ hd).mpr ⟨hen, hder⟩
    · exact (u.takeEvent_keeps_checkStop (e := .checkStop) _ _ hd (.inr ⟨hen, hder⟩)).trans hcs
  | true =>
    rw [show machineCheckEvent true = .machineCheck from rfl]
    refine ⟨(nomatch ·), fun _ hno => ⟨?_, u.takeEvent_outside _ _ hd hno, ?_⟩, (nomatch ·), fun _ hen hder => ⟨?_, ?_⟩, rfl⟩
    · exact (u.takeEvent_keeps_checkStop (e := .machineCheck) _ _ hd (.inl nofun)).trans hcs
    · obtain ⟨-, -, -, hpc, -⟩ :=
        (u.noted .machineCheck).regularEntry_spec .machineCheck s.cpu.pc (srr1Of .machineCheck u.cpu.msr)
      rw [u.takeEvent_regular (e := .machineCheck) _ _ hd nofun hno, State.updateFreeze_cpu, hpc]
      rfl
    · exact (u.takeEvent_inDebug_iff .machineCheck _ _ hd).mpr ⟨hen, hder⟩
    · exact (u.takeEvent_keeps_checkStop (e := .machineCheck) _ _ hd (.inl nofun)).trans hcs

end Sys2Proof.Machine
end

section
/-! PROOFS. The serial clocks of a transmission: what the shift register holds after some of them, where the transmission ends, and
what DSDO shows (rules R131, R140 to R142, R355, R356). -/

namespace Sys2Proof

/-! ## The bits of a value, most significant first (rule R98) -/

theorem toBits_injective {n : Nat} {x y : BitVec n} (h : toBits x = toBits y) : x = y := by
  rw [← ofBits_toBits x, h, ofBits_toBits]

theorem getElem?_toBits {n i : Nat} (x : BitVec n) (h : i < n) : (toBits x)[i]? = some (x.getMsbD i) := by
  simp [toBits, h]

theorem toBits_append {m n : Nat} (x : BitVec m) (y : BitVec n) : toBits (x ++ y) = toBits x ++ toBits y := by
  refine List.ext_getElem (by simp) fun i hi _ => ?_
  by_cases him : i < m <;> simp [toBits, List.getElem_append, BitVec.getMsbD_append, him]

@[simp] theorem toBits_ofBool (b : Bool) : toBits (BitVec.ofBool b) = [b] := by cases b <;> rfl

/-- The low bits of a value are the last of its bits. -/
theorem toBits_extractLsb' {n k : Nat} (x : BitVec n) (h : k ≤ n) : toBits (x.extractLsb' 0 k) = (toBits x).drop (n - k) := by
  refine List.ext_getElem (by simp; omega) fun i hi _ => ?_
  have hik : i < k := by simpa using hi
  have hpos : n - 1 - (n - k + i) = k - 1 - i := by omega
  have hin : n - k + i < n := by omega
  simp [toBits, BitVec.getMsbD_eq_getLsbD, BitVec.getLsbD_extractLsb', hik, hpos, hin]
  omega

/-- The mode bit, the second of a transmission, chooses its length (rule R131). -/
theorem Frame.bits_mode (f : Frame) : f.bits[1]? = some (f.bits.length == 10) := by
  cases f <;> simp [Frame.bits]

end Sys2Proof

namespace Sys2Proof.Machine

/-! ## The shift register -/

theorem toBits_shiftIn (r : BitVec 35) (b : Bool) : toBits (shiftIn r b) = (toBits r).drop 1 ++ [b] := by
  rw [shiftIn, toBits_append, toBits_extractLsb' r (by decide), toBits_ofBool]

/-- The register after some serial clocks: the bits shifted in at its low end, what is left of it above (rule R356). -/
theorem toBits_shiftedIn (out : BitVec 35) (l : List Bool) : toBits (l.foldl shiftIn out) = (toBits out ++ l).drop l.length := by
  induction l using List.reverseRecOn with
  | nil => simp
  | append_singleton l b ih =>
    have hlen : l.length + 1 ≤ (toBits out ++ l).length := by simp
    calc toBits ((l ++ [b]).foldl shiftIn out)
        = ((toBits out ++ l).drop l.length).drop 1 ++ [b] := by
          rw [List.foldl_append, List.foldl_cons, List.foldl_nil, toBits_shiftIn, ih]
      _ = ((toBits out ++ l) ++ [b]).drop (l.length + 1) := by
          rw [List.drop_drop, List.drop_append_of_le_length hlen]
      _ = (toBits out ++ (l ++ [b])).drop (l ++ [b]).length := by
          rw [List.append_assoc, List.length_append, List.length_singleton]

/-- One bit of that register, counted from the most significant one. -/
theorem getMsbD_shiftedIn (out : BitVec 35) (l : List Bool) {i : Nat} (hi : i < 35) :
    (toBits out ++ l)[l.length + i]? = some ((l.foldl shiftIn out).getMsbD i) := by
  rw [← getElem?_toBits _ hi, toBits_shiftedIn, List.getElem?_drop]

/-- After all bits of a transmission it holds what the whole transmission leaves in it (rules R131, R355). -/
theorem shiftedIn_bits (out : BitVec 35) (f : Frame) : f.bits.foldl shiftIn out = dpsrAfter out f := by
  apply toBits_injective
  rw [toBits_shiftedIn]
  cases f with
  | short control data =>
    rw [Frame.bits_short_length, List.drop_append_of_le_length (by simp)]
    simp only [dpsrAfter, toBits_append, toBits_extractLsb' out (by decide : 25 ≤ 35), toBits_ofBool, Frame.bits,
      List.append_assoc]
    rfl
  | long control data =>
    rw [Frame.bits_long_length, List.drop_append_of_le_length (by simp), List.drop_of_length_le (by simp)]
    simp only [dpsrAfter, toBits_append, toBits_ofBool, Frame.bits, List.append_assoc]
    rfl

/-- The register then holds the transmission (rules R131, R132). -/
theorem frameOf_dpsrAfter (out : BitVec 35) (f : Frame) : frameOf (dpsrAfter out f) f.bits.length = f := by
  cases f with
  | short control data =>
    rw [Frame.bits_short_length, frameOf, if_pos rfl]
    simp only [dpsrAfter, BitVec.extractLsb'_append_eq_right, BitVec.getLsbD_append, BitVec.getLsbD_ofBool]
    simp
  | long control data =>
    rw [Frame.bits_long_length, frameOf, if_neg (by decide)]
    simp only [dpsrAfter, BitVec.extractLsb'_append_eq_right, BitVec.getLsbD_append, BitVec.getLsbD_ofBool]
    simp

/-- After ten clocks of a transmission its mode bit is the ninth bit of the register from the low end. -/
theorem getLsbD_mode (out : BitVec 35) {f : Frame} {pre rest : List Bool} (h : f.bits = pre ++ rest) (hp : pre.length = 10) :
    (pre.foldl shiftIn out).getLsbD 8 = (f.bits.length == 10) := by
  have hget := getMsbD_shiftedIn out pre (i := 26) (by decide)
  rw [List.getElem?_append_right (by simp; omega), toBits_length, hp, ← List.getElem?_append_left (by omega) (l₂ := rest),
    ← h, f.bits_mode, Option.some.injEq] at hget
  rw [hget]
  simp [BitVec.getMsbD_eq_getLsbD]

/-- Of the clocks of a transmission only the last completes it: the tenth by the mode bit, or the thirty-fifth (rule R131). -/
theorem transmissionDone_iff (out : BitVec 35) {f : Frame} {pre rest : List Bool} (h : f.bits = pre ++ rest) :
    transmissionDone (pre.foldl shiftIn out) pre.length = true ↔ rest = [] := by
  have hlen : f.bits.length = pre.length + rest.length := by rw [h, List.length_append]
  have hlenf : f.bits.length = 10 ∨ f.bits.length = 35 := by cases f <;> simp
  rw [← List.length_eq_zero_iff, transmissionDone]
  by_cases hp : pre.length = 10
  · rw [getLsbD_mode out h hp]
    simp only [Bool.or_eq_true, decide_eq_true_eq, Bool.and_eq_true, beq_iff_eq]
    omega
  · simp only [Bool.or_eq_true, decide_eq_true_eq, Bool.and_eq_true, beq_iff_eq]
    omega

/-! ## The clocks of a transmission -/

/-- When the port is ready (rules R370, R371). -/
theorem State.ready_iff (s : State) :
    s.ready = true ↔ s.port.shifted = 0 ∧ (s.dbg.inDebug = true → s.port.cpuWaiting ≠ .none) := by
  cases hd : s.dbg.inDebug <;> simp [State.ready, hd]

/-- The machine with `n` bits of a transmission shifted and these bits in the shift register. -/
def State.shifting (s : State) (r : BitVec 35) (n : Nat) : State := { s with port := { s.port with dpsr := r, shifted := n } }

/-- The start bit fetches the answer (rules R355, R356, R371). -/
theorem State.serialClock_start {s : State} (hr : s.ready = true) (hh : s.port.scanHold = false) :
    s.serialClock true = (s.answer.shifting (shiftIn s.answer.txBits true) 1, none) := by
  obtain ⟨hidle, -⟩ := s.ready_iff.mp hr
  simp [State.serialClock, hidle, hr, hh, State.shifting]

/-- A later clock shifts, and one that completes the transmission ends it (rule R356). -/
theorem State.serialClock_shifting (s : State) (r : BitVec 35) {n : Nat} (hn : n ≠ 0) (b : Bool) :
    (s.shifting r n).serialClock b =
      if transmissionDone (shiftIn r b) (n + 1) then (s.shifting (shiftIn r b) 0, some (frameOf (shiftIn r b) (n + 1)))
      else (s.shifting (shiftIn r b) (n + 1), none) := by
  unfold State.serialClock
  rw [if_neg (show ¬ (s.shifting r n).port.shifted = 0 from hn)]
  rfl

/-- A later clock of the transmission `f`: only the last one completes it, and then it is `f` (rules R131, R356). -/
theorem State.serialClock_within (s : State) (out : BitVec 35) {f : Frame} {pre : List Bool} {b : Bool} {rest : List Bool}
    (h : f.bits = pre ++ b :: rest) (hpre : pre ≠ []) :
    (s.shifting (pre.foldl shiftIn out) pre.length).serialClock b =
      if rest = [] then (s.shifting (dpsrAfter out f) 0, some f)
      else (s.shifting ((pre ++ [b]).foldl shiftIn out) (pre ++ [b]).length, none) := by
  have hfold : shiftIn (pre.foldl shiftIn out) b = (pre ++ [b]).foldl shiftIn out := by simp
  have hlen : pre.length + 1 = (pre ++ [b]).length := by simp
  have hsplit : f.bits = (pre ++ [b]) ++ rest := by simpa using h
  rw [s.serialClock_shifting _ (by simpa using hpre) b, hfold, hlen]
  refine if_ctx_congr (transmissionDone_iff out hsplit) (fun hrest => ?_) fun _ => rfl
  rw [hrest, List.append_nil] at hsplit
  rw [← hsplit, shiftedIn_bits, frameOf_dpsrAfter]

/-- The clocks of a transmission that has begun, up to its last bit, make the transmission. -/
theorem serialRun_rest (s : State) (out : BitVec 35) {f : Frame} {pre rest : List Bool} (h : f.bits = pre ++ rest)
    (hpre : pre ≠ []) (hrest : rest ≠ []) :
    serialRun rest (s.shifting (pre.foldl shiftIn out) pre.length) = finishFrame f (s.shifting (dpsrAfter out f) 0) := by
  induction rest generalizing pre with
  | nil => exact absurd rfl hrest
  | cons b rest ih =>
    have hclock := s.serialClock_within out h hpre
    split_ifs at hclock with hlast
    · subst hlast
      simp only [serialRun, serialStep, hclock]
      cases finishFrame f (s.shifting (dpsrAfter out f) 0) <;> rfl
    · simp only [serialRun, serialStep, hclock]
      exact ih (by simpa using h) (by simp) hlast

/-- Of the answer's bits DSDO shows the one with as many before it as clocks have passed (rules R40, R98). -/
theorem State.dsdo_shiftedIn (s : State) (out : BitVec 35) {pre : List Bool} (hpre : pre ≠ []) (hlt : pre.length < 35) :
    (s.shifting (pre.foldl shiftIn out) pre.length).dsdo = (toBits out)[pre.length]'(by simpa using hlt) := by
  have hget := getMsbD_shiftedIn out pre (i := 0) (by decide)
  rw [Nat.add_zero, List.getElem?_append_left (by simpa using hlt), List.getElem?_eq_getElem (by simpa using hlt),
    Option.some.injEq] at hget
  rw [hget, State.dsdo_shifting _ (by simpa [State.shifting] using hpre)]
  rfl

/-- At those clocks DSDO shows the answer's bits in order (rules R140, R141, D26). -/
theorem dsdoRun_rest (s : State) (out : BitVec 35) {f : Frame} {pre rest : List Bool} (h : f.bits = pre ++ rest)
    (hpre : pre ≠ []) :
    dsdoRun rest (s.shifting (pre.foldl shiftIn out) pre.length) = ((toBits out).drop pre.length).take rest.length := by
  induction rest generalizing pre with
  | nil => simp [dsdoRun]
  | cons b rest ih =>
    have hlt : pre.length < 35 := by
      have hlen := congrArg List.length h
      cases f <;> simp at hlen <;> omega
    have hclock := s.serialClock_within out h hpre
    rw [List.drop_eq_getElem_cons (by simpa using hlt), ← s.dsdo_shiftedIn out hpre hlt, dsdoRun, List.length_cons,
      List.take_succ_cons, hclock]
    split_ifs with hlast
    · simp [hlast, dsdoRun]
    · rw [ih (by simpa using h) (by simp), List.length_append, List.length_singleton]

/-- What the port shifts out begins with the ready bit, which is low (rule R140). -/
theorem State.toBits_txBits (s : State) : toBits s.txBits = false :: (toBits s.txBits).drop 1 := by
  simp only [State.txBits, toBits_append]
  rfl

/-- With the port ready and scanning, the clocks of a transmission are the transmission, and DSDO shows the answer (rules R98, R140,
R141, R355, R356). -/
theorem serialRun_bits (f : Frame) (s : State) (hr : s.ready = true) (hh : s.port.scanHold = false) :
    serialRun f.bits s = transmit f s ∧ dsdoRun f.bits s = (toBits s.answer.txBits).take f.bits.length := by
  obtain ⟨rest, hf, hrest⟩ : ∃ rest, f.bits = [true] ++ rest ∧ rest ≠ [] := by cases f <;> exact ⟨_, rfl, nofun⟩
  have hclock := State.serialClock_start hr hh
  obtain ⟨hidle, -⟩ := s.ready_iff.mp hr
  have hexchange : s.answer.shifting (dpsrAfter s.answer.txBits f) 0 = s.exchange f := by
    have hhold : s.answer.port.scanHold = false := by simpa using hh
    simp only [State.shifting, State.exchange, hhold]
  constructor
  · rw [transmit, if_pos hr, ← hexchange, ← serialRun_rest s.answer _ hf nofun hrest, hf]
    simp only [List.singleton_append, serialRun, serialStep, hclock]
    rfl
  · have hdsdo : s.dsdo = false := by rw [s.dsdo_idle hidle, hr, Bool.not_true]
    have hlater := dsdoRun_rest s.answer s.answer.txBits hf nofun
    rw [hf, State.toBits_txBits, List.singleton_append, dsdoRun, hclock, hdsdo, List.length_cons, List.take_succ_cons]
    exact congrArg _ hlater

/-- While DSDI has stayed high since a reset a clock only notes whether it is low now (rule R543). -/
theorem State.serialClock_holding {s : State} (hidle : s.port.shifted = 0) (hhold : s.port.scanHold = true) (dsdi : Bool) :
    s.serialClock dsdi = ({ s with port := { s.port with scanHold := dsdi } }, none) := by
  unfold State.serialClock
  rw [if_pos hidle, if_neg (by simp [hhold]), hhold, Bool.true_and]

/-- Settles O15: the first clock fetches the answer, and the later ones shift it out and the transmission in. -/
theorem serialClocksMakeTheTransmission : Obligations.SerialClocksMakeTheTransmission := by
  unfold Obligations.SerialClocksMakeTheTransmission
  refine ⟨serialRun_bits, fun s hidle hhold => ⟨?_, ?_⟩⟩
  · simp only [serialStep, State.serialClock_holding hidle hhold]
    rw [← hhold]
  · simp only [serialStep, State.serialClock_holding hidle hhold]

end Sys2Proof.Machine
end

section
/-! PROOFS. What each transmission does when it is executed (rules R360, R361, R365 to R367, R372, R373, R382, R383, R388, R390). -/

namespace Sys2Proof.Machine

/-! ## DP.TE and DP.BRK (rules R360, R361, R367) -/

/-- A mask of one bit shows its flag at that bit and 0 at every other. -/
theorem bitOf_bitMask {n k : Nat} (hn : n < 32) (hk : k < 32) (b : Bool) : bitOf (bitMask n b) k = (decide (k = n) && b) := by
  cases b with
  | false => simp [bitMask, bitOf]
  | true =>
    have hpos : 31 - n = 31 - k ↔ k = n := by omega
    simp [bitMask, bitOf, BitVec.getMsbD_eq_getLsbD, BitVec.getLsbD_twoPow, hk, hpos]
    omega

theorem bitOf_or (v w : Word) (k : Nat) : bitOf (v ||| w) k = (bitOf v k || bitOf w k) := BitVec.getMsbD_or

theorem bitOf_and (v w : Word) (k : Nat) : bitOf (v &&& w) k = (bitOf v k && bitOf w k) := BitVec.getMsbD_and

/-- Where the enables of TECR are seen: in the views of ICTRL and LCTRL2 and in the trap conditions (rules R28, R30, R361). -/
theorem State.trapEnables_seen {s : State} {i0 i1 i2 i3 l0 l1 vs nm m : Bool}
    (h : s.port.tecr = ⟨i0, i1, i2, i3, l0, l1, vs, nm, m⟩) :
    bitOf s.ictrlView 24 = i0 ∧ bitOf s.ictrlView 25 = i1 ∧ bitOf s.ictrlView 26 = i2 ∧ bitOf s.ictrlView 27 = i3 ∧
      bitOf s.lctrl2View 28 = l0 ∧ bitOf s.lctrl2View 29 = l1 ∧
      s.trapI 0 = (bitOf s.spr.ictrl 20 || i0) ∧ s.trapI 1 = (bitOf s.spr.ictrl 21 || i1) ∧
      s.trapI 2 = (bitOf s.spr.ictrl 22 || i2) ∧ s.trapI 3 = (bitOf s.spr.ictrl 23 || i3) ∧
      s.trapL 0 = (bitOf s.spr.lctrl2 30 || l0) ∧ s.trapL 1 = (bitOf s.spr.lctrl2 31 || l1) := by
  have hictrl : ∀ k, 24 ≤ k → k < 28 → bitOf maskIctrl k = false := by decide
  have hlctrl2 : bitOf maskLctrl2 28 = false ∧ bitOf maskLctrl2 29 = false := by decide
  simp [State.ictrlView, State.lctrl2View, State.trapI, State.trapL, bitOf_or, bitOf_and, bitOf_bitMask, hictrl, hlctrl2, h]

/-- Settles O5. -/
theorem trapEnableTransmission : Obligations.TrapEnableTransmission := by
  unfold Obligations.TrapEnableTransmission
  intro i0 i1 i2 i3 l0 l1 vs s
  exact ⟨_, rfl, rfl, State.trapEnables_seen rfl⟩

/-- DP.BRK writes the request levels, and the flag is set exactly if the command is the reserved one (rules R135, R367). -/
theorem exec_dpBrk (nm m : Bool) (s : State) :
    exec (.dpBrk nm m) s =
      .next
        { s with
          port := { s.port with tecr := { s.port.tecr with nmbrk := nm, mbrk := m } }
          dbg := { s.dbg with reservedCommandSeen := s.dbg.reservedCommandSeen || (s.dbg.inDebug && (nm || m)) } } := by
  change execDpBrk nm m s = _
  unfold execDpBrk State.reservedCommand
  cases s.dbg.inDebug && (nm || m) <;> simp

/-- Settles O6. -/
theorem breakpointRequestTransmission : Obligations.BreakpointRequestTransmission := by
  unfold Obligations.BreakpointRequestTransmission
  exact exec_dpBrk

/-! ## DP.STARTDL and DP.ENDDL (rules R365, R366, R388) -/

/-- A download begins with the fetch that waits, which the port answers (rule R388). -/
theorem exec_dpStartdl_waiting {s : State} (hd : s.dbg.inDebug = true) (hn : s.port.downloadInProgress = false)
    (hw : s.port.cpuWaiting = .instruction) :
    exec .dpStartdl s =
      .next (State.startFetch { s with port := { s.port with downloadInProgress := true, downloadStore := false } }) := by
  change execDpStartdl s = _
  simp [execDpStartdl, hd, hn, hw]

/-- With no fetch waiting it only begins (log entry 35). -/
theorem exec_dpStartdl_busy {s : State} (hd : s.dbg.inDebug = true) (hn : s.port.downloadInProgress = false)
    (hw : s.port.cpuWaiting ≠ .instruction) :
    exec .dpStartdl s = .next { s with port := { s.port with downloadInProgress := true, downloadStore := false } } := by
  change execDpStartdl s = _
  simp [execDpStartdl, hd, hn, hw]

/-- Outside debug mode or during a download DP.STARTDL does nothing (D29; log entry 35). -/
theorem exec_dpStartdl_ignored {s : State} (h : s.dbg.inDebug = false ∨ s.port.downloadInProgress = true) :
    exec .dpStartdl s = .next s := by
  change execDpStartdl s = _
  obtain h | h := h <;> simp [execDpStartdl, h]

/-- DP.ENDDL marks a download (rule R366). -/
theorem exec_dpEnddl_marks {s : State} (hd : s.dbg.inDebug = true) (hp : s.port.downloadInProgress = true) :
    exec .dpEnddl s = .next { s with port := { s.port with endRequested := true } } := by
  change execDpEnddl s = _
  simp [execDpEnddl, hd, hp]

/-- Outside debug mode or with no download DP.ENDDL does nothing (D29). -/
theorem exec_dpEnddl_ignored {s : State} (h : s.dbg.inDebug = false ∨ s.port.downloadInProgress = false) :
    exec .dpEnddl s = .next s := by
  change execDpEnddl s = _
  obtain h | h := h <;> simp [execDpEnddl, h]

/-- Settles O7. -/
theorem downloadCommands : Obligations.DownloadCommands := by
  unfold Obligations.DownloadCommands
  intro s
  exact ⟨fun hd hn hw => ⟨_, exec_dpStartdl_waiting hd hn hw, rfl, rfl, by decide, rfl, rfl, rfl⟩,
    exec_dpStartdl_busy, fun hd hp => ⟨exec_dpStartdl_ignored (.inr hp), exec_dpEnddl_marks hd hp⟩,
    fun _ hn => exec_dpEnddl_ignored (.inr hn), fun hd => ⟨exec_dpStartdl_ignored (.inl hd), exec_dpEnddl_ignored (.inl hd)⟩⟩

/-! ## DP.INSN and DP.DATA (rules R372, R373, R382, R383, R390) -/

theorem exec_dpInsn_fetch {s : State} (w : Word) (hd : s.dbg.inDebug = true) (hw : s.port.cpuWaiting = .instruction) :
    exec (.dpInsn w) s = .next (s.deliver w) := by
  change execDpInsn w s = _
  simp [execDpInsn, hd, hw]

theorem exec_dpInsn_read {s : State} (w : Word) {rD : Nat} (hd : s.dbg.inDebug = true) (hw : s.port.cpuWaiting = .data rD) :
    exec (.dpInsn w) s = .next s.seqErrorDebug := by
  change execDpInsn w s = _
  simp [execDpInsn, hd, hw]

theorem exec_dpInsn_running {s : State} (w : Word) (hd : s.dbg.inDebug = false) : exec (.dpInsn w) s = .next s.seqErrorRunning := by
  change execDpInsn w s = _
  simp [execDpInsn, hd]

theorem exec_dpData_read {s : State} (w : Word) {rD : Nat} (hd : s.dbg.inDebug = true) (hw : s.port.cpuWaiting = .data rD) :
    exec (.dpData w) s = .next (s.receiveData rD w) := by
  change execDpData w s = _
  simp [execDpData, hd, hw]

theorem exec_dpData_fetch {s : State} (w : Word) (hd : s.dbg.inDebug = true) (hw : s.port.cpuWaiting = .instruction) :
    exec (.dpData w) s = .next s.seqErrorDebug := by
  change execDpData w s = _
  simp [execDpData, hd, hw]

theorem exec_dpData_running {s : State} (w : Word) (hd : s.dbg.inDebug = false) : exec (.dpData w) s = .next s.seqErrorRunning := by
  change execDpData w s = _
  simp [execDpData, hd]

/-- A word that does not end a download completes the read, and the next fetch starts (rule R373). -/
theorem State.receiveData_goesOn {s : State} (rD : Nat) (w : Word)
    (h : (s.port.downloadInProgress && s.port.endRequested) = false) :
    s.receiveData rD w = State.startFetch { s.setReg rD w with outcome := .completed } := by
  unfold State.receiveData
  exact if_neg (by simpa using h)

/-- The extra word of a download ends it, and the next fetch goes to the tool (rule R390). -/
theorem State.receiveData_ends {s : State} (rD : Nat) (w : Word)
    (h : (s.port.downloadInProgress && s.port.endRequested) = true) :
    s.receiveData rD w =
      { s.setReg rD w with
        outcome := .completed
        port := { s.port with
          downloadInProgress := false, endRequested := false, downloadStore := false, cpuWaiting := .instruction } } := by
  unfold State.receiveData
  exact if_pos (by simpa using h)

/-- Settles O8. -/
theorem instructionTransmissionDelivers : Obligations.InstructionTransmissionDelivers := by
  unfold Obligations.InstructionTransmissionDelivers
  intro w s hd hw
  exact ⟨_, exec_dpInsn_fetch w hd hw, rfl, rfl, s.kept_deliver w, rfl⟩

/-- Settles O9: the read completes either way; only the extra word after DP.ENDDL ends the download. -/
theorem dataTransmissionCompletesRead : Obligations.DataTransmissionCompletesRead := by
  unfold Obligations.DataTransmissionCompletesRead
  intro w rD s hd hw hr
  have hreg : (s.setReg rD w).reg rD = w := s.reg_setReg_self rD w hr
  refine ⟨fun hgo => ⟨_, exec_dpData_read w hd hw, ?_⟩, fun hend hir => ⟨_, exec_dpData_read w hd hw, ?_⟩⟩
  · rw [State.receiveData_goesOn rD w hgo]
    exact ⟨(State.reg_congr (by simp) rD).trans hreg, State.kept_startFetch _, by simp, State.fetching_startFetch _⟩
  · rw [State.receiveData_ends rD w hend]
    exact ⟨hreg, hir, rfl, rfl, rfl⟩

/-- Settles O10. -/
theorem sequencingErrorOutsideDebug : Obligations.SequencingErrorOutsideDebug := by
  unfold Obligations.SequencingErrorOutsideDebug
  intro w s hd
  exact ⟨_, rfl, exec_dpInsn_running w hd, exec_dpData_running w hd, fun hv => by simp [State.answer, hv]⟩

/-- Settles O11: either word makes the sequencing error of debug mode, whose bus error is recorded before the next fetch starts. -/
theorem sequencingErrorInDebug : Obligations.SequencingErrorInDebug := by
  unfold Obligations.SequencingErrorInDebug
  intro w rD s i hd hi
  have hexec : exec i s = .next s.seqErrorDebug := by
    obtain ⟨rfl, hw⟩ | ⟨rfl, hw⟩ := hi
    · exact exec_dpData_fetch w hd hw
    · exact exec_dpInsn_read w hd hw
  exact ⟨_, hexec, State.kept_startFetch _, by simp, State.fetching_startFetch _⟩

end Sys2Proof.Machine
end

section
/-! PROOFS. The port between transmissions: its answer, when it is ready, and what is left of a suppressed transmission (rules R40,
R370, R371, R380, R381, R385). -/

namespace Sys2Proof.Machine

/-! ## The answer (rules R380, R381) -/

/-- Whether the answer is an error status, which suppresses the transmission that comes in (rules R380, R385). -/
def State.answersError (s : State) : Prop :=
  s.port.validData = false ∧ (s.port.seqErrPending = true ∨ s.port.cpuIntPending = true ∧ s.dbg.inDebug = true)

theorem State.answer_valid {s : State} (hv : s.port.validData = true) :
    s.answer = { s with port := { s.port with
      txStatus := 0b00, txData := s.dpsrData, validData := false, suppress := false } } := by
  simp [State.answer, hv]

theorem State.answer_seqErr {s : State} (hv : s.port.validData = false) (he : s.port.seqErrPending = true) :
    s.answer = { s with port := { s.port with
      txStatus := 0b01, txData := s.statusData, seqErrPending := false, suppress := true } } := by
  simp [State.answer, hv, he]

theorem State.answer_cpuInt {s : State} (hv : s.port.validData = false) (he : s.port.seqErrPending = false)
    (hi : s.port.cpuIntPending = true) (hd : s.dbg.inDebug = true) :
    s.answer = { s with port := { s.port with
      txStatus := 0b10, txData := s.statusData, cpuIntPending := false, suppress := true } } := by
  simp [State.answer, hv, he, hi, hd]

theorem State.answer_null {s : State} (hv : s.port.validData = false) (he : s.port.seqErrPending = false)
    (hi : s.port.cpuIntPending = false ∨ s.dbg.inDebug = false) :
    s.answer = { s with port := { s.port with
      txStatus := 0b11, txData := s.statusData, cpuIntPending := false, suppress := false } } := by
  obtain hi | hi := hi <;> simp [State.answer, hv, he, hi]

/-- The four answers exclude each other and cover every state (rule R380). -/
theorem State.answer_cases (s : State) :
    s.port.validData = true ∨
      s.port.validData = false ∧ s.port.seqErrPending = true ∨
      s.port.validData = false ∧ s.port.seqErrPending = false ∧ s.port.cpuIntPending = true ∧ s.dbg.inDebug = true ∨
      s.port.validData = false ∧ s.port.seqErrPending = false ∧ (s.port.cpuIntPending = false ∨ s.dbg.inDebug = false) := by
  cases s.port.validData <;> cases s.port.seqErrPending <;> cases s.port.cpuIntPending <;> cases s.dbg.inDebug <;> simp

/-- The status data (rule R381). -/
theorem State.bitOf_statusData (s : State) :
    ∀ k < 32, bitOf s.statusData k = if k = 0 then s.dbg.freeze else if k = 1 then !s.port.downloadInProgress else true := by
  unfold State.statusData
  generalize s.dbg.freeze = a
  generalize (!s.port.downloadInProgress) = b
  revert a b
  decide

/-- Settles O12. -/
theorem answerByPriority : Obligations.AnswerByPriority := by
  unfold Obligations.AnswerByPriority
  intro s
  refine ⟨State.answer_valid, State.answer_seqErr, State.answer_cpuInt, State.answer_null, fun hinv hd => ?_,
    s.bitOf_statusData⟩
  obtain ⟨-, hrun⟩ := hinv.debug
  obtain ⟨-, -, hv⟩ := hrun hd
  cases he : s.port.seqErrPending with
  | true => exact .inl (by rw [State.answer_seqErr hv he])
  | false => exact .inr (by rw [State.answer_null hv he (.inr hd)])

/-! ## Suppressed transmissions (rule R385) -/

theorem State.exchange_suppress_iff (s : State) (f : Frame) : (s.exchange f).port.suppress = true ↔ s.answersError := by
  change s.answer.port.suppress = true ↔ _
  unfold State.answersError
  obtain hv | ⟨hv, he⟩ | ⟨hv, he, hi, hd⟩ | ⟨hv, he, hi⟩ := s.answer_cases
  · simp [State.answer_valid hv, hv]
  · simp [State.answer_seqErr hv he, hv, he]
  · simp [State.answer_cpuInt hv he hi hd, hv, hi, hd]
  · obtain h | h := hi <;> simp [State.answer_null hv he (by simp [h]), he, h]

/-- A transmission that is answered with an error status only shifts. -/
theorem transmit_suppressed {s : State} (f : Frame) (hr : s.ready = true) (h : s.answersError) :
    transmit f s = .next (s.exchange f) := by
  rw [transmit, if_pos hr, finishFrame, if_pos ((s.exchange_suppress_iff f).mpr h)]

/-- Settles O13: only the answer and the shifting are left. -/
theorem suppressedTransmissionIgnored : Obligations.SuppressedTransmissionIgnored := by
  unfold Obligations.SuppressedTransmissionIgnored
  intro f s hr hv h
  refine ⟨_, transmit_suppressed f hr ⟨hv, h⟩, ?_⟩
  obtain ⟨hidle, -⟩ := s.ready_iff.mp hr
  cases he : s.port.seqErrPending with
  | true => simp [State.exchange, State.answer_seqErr hv he, hidle]
  | false =>
    obtain ⟨hi, hd⟩ : s.port.cpuIntPending = true ∧ s.dbg.inDebug = true := by simpa [he] using h
    simp [State.exchange, State.answer_cpuInt hv he hi hd, hidle, he]

/-! ## Ready and DSDO (rules R40, R98, R370, R371) -/

/-- While idle the register holds the ready bit above the other 34 bits (rule R370). -/
theorem State.shiftRegister_idle {s : State} (h : s.port.shifted = 0) :
    s.shiftRegister.extractLsb' 0 34 = s.port.dpsr.extractLsb' 0 34 := by
  rw [State.shiftRegister, if_pos h]
  exact BitVec.extractLsb'_append_eq_right

/-- Outside debug mode a transmission leaves the mode, the bits shifted and what the CPU waits for alone: of the rows of the opcode
table only CPU instructions change them there. -/
theorem exec_decodeFrame_running (f : Frame) {s : State} (hd : s.dbg.inDebug = false) :
    ∃ t, exec (decodeFrame f) s = .next t ∧ t.dbg.inDebug = false ∧ t.port.shifted = s.port.shifted ∧
      t.port.cpuWaiting = s.port.cpuWaiting := by
  have henc := encode_decodeFrame f
  generalize decodeFrame f = i at henc
  cases i with
  | dpInsn w => exact ⟨_, exec_dpInsn_running w hd, hd, rfl, rfl⟩
  | dpData w => exact ⟨_, exec_dpData_running w hd, hd, rfl, rfl⟩
  | dpStartdl => exact ⟨_, exec_dpStartdl_ignored (.inl hd), hd, rfl, rfl⟩
  | dpEnddl => exact ⟨_, exec_dpEnddl_ignored (.inl hd), hd, rfl, rfl⟩
  | dpBrk nm m => exact ⟨_, exec_dpBrk nm m _, hd, rfl, rfl⟩
  | dpTe | dpNop | dpHreset | dpSreset | rsv00011 | rsv001 | rsv01 | rsv10 | rsv110 | rsv1110 | rsv11110 =>
    exact ⟨_, rfl, hd, rfl, rfl⟩
  | _ => exact nomatch henc

/-- Outside debug mode the port is ready again at the end of each transmission (rule R370). -/
theorem transmit_running (f : Frame) {s : State} (hd : s.dbg.inDebug = false) (hr : s.ready = true) :
    ∃ t, transmit f s = .next t ∧ t.dbg.inDebug = false ∧ t.port.shifted = 0 := by
  have hde : (s.exchange f).dbg.inDebug = false := by simpa using hd
  rw [transmit, if_pos hr, finishFrame]
  split
  · exact ⟨_, rfl, hde, rfl⟩
  · obtain ⟨t, ht, hdt, hsh, hw⟩ := exec_decodeFrame_running f hde
    have hwaits : t.waitsForData = (s.exchange f).waitsForData := by simp only [State.waitsForData, hw]
    have hafter : t.afterFrame (s.exchange f) = t := by
      rw [State.afterFrame, hwaits, Bool.and_not_self]
      rfl
    rw [ht]
    exact ⟨_, rfl, by rw [hafter]; exact hdt, by rw [hafter, hsh]; rfl⟩

/-- Settles O14. -/
theorem readyRule : Obligations.ReadyRule := by
  unfold Obligations.ReadyRule
  intro s
  refine ⟨s.ready_iff, rfl, fun hidle => ⟨s.dsdo_idle hidle, State.shiftRegister_idle hidle⟩, fun hsh => if_neg hsh,
    fun hr f => if_neg (by simp [hr]), fun hd hr f => ?_⟩
  obtain ⟨t, ht, hdt, hidle⟩ := transmit_running f hd hr
  have hready : t.ready = true := t.ready_iff.mpr ⟨hidle, fun h => absurd (hdt.symm.trans h) nofun⟩
  exact ⟨t, ht, hdt, hready, by rw [t.dsdo_idle hidle, hready, Bool.not_true]⟩

end Sys2Proof.Machine
end

section
/-! PROOFS. What a step runs when the port brings something: a delivered word, or a transmission that is the next input (rules R355,
R371, R372, R385). -/

namespace Sys2Proof.Machine

/-! ## A delivered word (rules R315, R367, R372) -/

/-- The machine at the start of a delivered instruction, which no event of the environment precedes. -/
def State.startsDelivered (s : State) (rest : List Input) : State :=
  { State.beginInsn { s with out := [], ir := none, inputs := rest } with cycles := [] }

/-- In debug mode a step with no event recognised at its start and none of the environment executes the delivered word (rule
R372). -/
theorem step_delivered {s : State} {w : Word} {i : Instr} {rest : List Input} (hd : s.dbg.inDebug = true) (hir : s.ir = some w)
    (hdec : decodeWord? w = some i) (hnmi : s.lines.nmi = false) (hmc : s.lines.machineCheck = false)
    (hee : s.cpu.msr.ee = false) (hin : s.inputs = .cpuStep :: rest ∨ s.inputs = [] ∧ rest = []) :
    step s =
      match exec i (s.startsDelivered rest) with
      | .next t => .next t.afterPort
      | .fault r => .fault r
      | .refused r => .refused r := by
  have hb := s.beginStep_quiet hnmi hmc hee
  have hr : s.nextReset = none := by obtain h | ⟨h, -⟩ := hin <;> simp [State.nextReset, h]
  have hc : s.beginStep.enterCondition = false := by simp [hb, State.enterCondition, hd]
  have hword : wordStep w s.beginStep = debugStep w { s with out := [], ir := none, inputs := rest } := by
    rw [hb]
    obtain h | ⟨h, rfl⟩ := hin <;> simp [wordStep, h]
  rw [step_word s w hr hc (by rw [hb]; exact hir), hword, ← executeWord_decoded hdec]
  rfl

/-- What follows a delivered instruction, by how it has ended and by the mode it leaves the machine in. -/
theorem State.afterPort_eq (s : State) :
    s.afterPort =
      if s.outcome = .stalled then s
      else if s.outcome = .excepted then s.endDelivered
      else if s.dbg.inDebug = true then s.deliveredTraceOr id
      else (s.highEvent.map State.endDelivered).getD (s.deliveredTraceOr State.lowEvent) := by
  unfold State.afterPort
  cases s.outcome with
  | stalled => rfl
  | excepted => rfl
  | completed =>
    simp only [State.afterDelivered, reduceCtorEq, if_false]
    cases s.highEvent <;> rfl

theorem State.deliveredTraceOr_traced {s : State} (h : s.traced.delivered = true) (other : State → State) :
    s.deliveredTraceOr other = s.endDelivered.takeAt .trace s.cpu.pc := if_pos h

theorem State.deliveredTraceOr_untraced {s : State} (h : s.traced.delivered = false) (other : State → State) :
    s.deliveredTraceOr other = other s.endDelivered := if_neg (by simp [h])

/-! ## A transmission (rules R355, R371, R385) -/

/-- The machine in a step that takes the next input and leaves these. -/
def State.takesInput (s : State) (rest : List Input) : State := { s with out := [], inputs := rest }

/-- A transmission that is the next input is sent in the step, also before a delivered word (log entry 14). -/
theorem step_frame {s : State} {f : Frame} {rest : List Input} (hc : s.enterCondition = false) (hin : s.inputs = .frame f :: rest)
    (hq : s.dbg.inDebug = true → s.lines.nmi = false ∧ s.lines.machineCheck = false ∧ s.cpu.msr.ee = false) :
    step s = transmit f (s.takesInput rest) := by
  have hb : s.beginStep = { s with out := [] } := by
    cases hd : s.dbg.inDebug with
    | false => exact s.beginStep_running hd
    | true =>
      obtain ⟨hnmi, hmc, hee⟩ := hq hd
      exact s.beginStep_quiet hnmi hmc hee
  have hr : s.nextReset = none := by simp [State.nextReset, hin]
  have hcb : s.beginStep.enterCondition = false := by rw [hb]; exact hc
  cases hir : s.beginStep.ir with
  | none =>
    rw [step_input s _ rest hr hcb hir (by rw [hb]; exact hin), hb]
    rfl
  | some w =>
    rw [step_word s w hr hcb hir, hb]
    simp only [wordStep, hin]
    rfl

/-- A transmission that the answer does not suppress is executed on the machine that has answered and shifted (rule R355). -/
theorem transmit_executed {s : State} (f : Frame) (hr : s.ready = true) (h : ¬ s.answersError) :
    transmit f s =
      match exec (decodeFrame f) (s.exchange f) with
      | .next t => .next (if s.waitsForData = true ∧ t.waitsForData = false then t.afterPort else t)
      | .fault r => .fault r
      | .refused r => .refused r := by
  have hwaits : (s.exchange f).waitsForData = s.waitsForData := by simp [State.waitsForData]
  have hafter : ∀ t : State, t.afterFrame (s.exchange f) =
      if s.waitsForData = true ∧ t.waitsForData = false then t.afterPort else t := by
    intro t
    simp only [State.afterFrame, hwaits, Bool.and_eq_true, Bool.not_eq_true']
  rw [transmit, if_pos hr, finishFrame, if_neg (fun hs => h ((s.exchange_suppress_iff f).mp hs))]
  cases exec (decodeFrame f) (s.exchange f) with
  | next t => exact congrArg Host.Outcome.next (hafter t)
  | fault r => rfl
  | refused r => rfl

/-- Settles O49. -/
theorem stepRunsWhatThePortBrings : Obligations.StepRunsWhatThePortBrings := by
  unfold Obligations.StepRunsWhatThePortBrings
  refine ⟨fun s w i rest hd hir hdec hnmi hmc hee hin => ⟨decodeWord?_wellFormed hdec, ?_⟩,
    fun s other => ⟨rfl, fun h => State.deliveredTraceOr_traced h other, fun h => State.deliveredTraceOr_untraced h other⟩,
    fun s f rest hc hin hq => ⟨fun hr => ?_, fun hr => ?_⟩⟩
  · rw [step_delivered hd hir hdec hnmi hmc hee hin]
    simp only [State.afterPort_eq]
    rfl
  · rw [step_frame hc hin hq]
    exact if_neg (show ¬ s.ready = true by simp [hr])
  · rw [step_frame hc hin hq]
    split
    · rename_i herr
      exact transmit_suppressed f hr herr
    · rename_i hok
      exact transmit_executed f hr hok

end Sys2Proof.Machine
end

section
/-! PROOFS. A fast download: each word is a transmission to the waiting mfspr, the stwu the port supplies, and the next mfspr (rules
R388, R389; log entry 14). -/

namespace Sys2Proof.Machine

/-! ## The machine in the loop -/

/-- What holds throughout the loop: debug mode in supervisor state, a download that goes on, no request, no refused access, nothing
pending in the port. -/
structure State.Downloading (s : State) : Prop where
  supervisor : s.supervisor = true
  inDebug : s.dbg.inDebug = true
  freeze : s.dbg.freeze = true
  nmi : s.lines.nmi = false
  machineCheck : s.lines.machineCheck = false
  ee : s.cpu.msr.ee = false
  faultMap : s.faultMap = []
  untraced : s.traced.delivered = false
  idle : s.port.shifted = 0
  validData : s.port.validData = false
  seqErr : s.port.seqErrPending = false
  cpuInt : s.port.cpuIntPending = false
  inProgress : s.port.downloadInProgress = true
  goesOn : s.port.endRequested = false

/-- The start of the loop: the mfspr waits for the next word. -/
structure State.AwaitsWord (s : State) : Prop extends s.Downloading where
  noWord : s.ir = none
  store : s.port.downloadStore = true
  waiting : s.port.cpuWaiting = .data 31

/-- After the transmission: r31 has received the word, and the port has supplied the stwu. -/
def State.wordReceived (s : State) (w : Word) : State :=
  { s.setReg 31 w with
    port := { s.port with
      dpsr := dpsrAfter 0 (.long true w), txStatus := 0b11, txData := s.statusData, cpuIntPending := false, suppress := false
      shifted := 0, scanHold := false, cpuWaiting := .none, downloadStore := false }
    ir := some 0x97FE0004
    outcome := .completed
    traced := { s.traced with delivered := false } }

/-- After the stwu: r31 has been stored at the word after r30, and the port has supplied the mfspr. -/
def State.wordStored (s : State) : State :=
  { s.setReg 30 (s.reg 30 + 4) with
    mem := Memory.writeWord s.mem (s.reg 30 + 4) (s.reg 31)
    cycles := [⟨s.reg 30 + 4, .word, true, s.reg 31⟩]
    port := { s.port with cpuWaiting := .none, downloadStore := true }
    ir := some 0x7FF69AA6
    outcome := .completed
    traced := { s.traced with delivered := false } }

/-- After the mfspr: it waits for the next word. -/
def State.wordAwaited (s : State) : State := { s with port := { s.port with cpuWaiting := .data 31 }, outcome := .stalled }

theorem State.wordReceived_regs (s : State) (w : Word) :
    (s.wordReceived w).reg 30 = s.reg 30 ∧ (s.wordReceived w).reg 31 = w :=
  ⟨s.reg_setReg_of_ne 31 30 w (by decide), s.reg_setReg_self 31 w (by decide)⟩

theorem State.wordStored_regs (s : State) : s.wordStored.reg 30 = s.reg 30 + 4 ∧ s.wordStored.reg 31 = s.reg 31 :=
  ⟨s.reg_setReg_self 30 _ (by decide), s.reg_setReg_of_ne 30 31 _ (by decide)⟩

/-! ## The steps of a word -/

/-- In debug mode an instruction that has completed, and is not traced, is followed by nothing (rule R315). -/
theorem State.afterPort_completed {s : State} (hd : s.dbg.inDebug = true) (ho : s.outcome = .completed)
    (ht : s.traced.delivered = false) : s.afterPort = s.endDelivered := by
  rw [s.afterPort_eq, if_neg (by simp [ho]), if_neg (by simp [ho]), if_pos hd, State.deliveredTraceOr_untraced ht]
  rfl

/-- With nothing pending a data transmission is answered with the null status (rule R380). -/
theorem State.Downloading.exchange {s : State} (h : s.Downloading) (w : Word) :
    s.exchange (.long true w) =
      { s with port := { s.port with
          dpsr := dpsrAfter 0 (.long true w), txStatus := 0b11, txData := s.statusData, cpuIntPending := false, suppress := false
          shifted := 0, scanHold := false } } := by
  rw [State.exchange, State.answer_null h.validData h.seqErr (.inl h.cpuInt)]
  rfl

/-- In a download the next fetch is answered by the port, alternately with the mfspr and the stwu (rule R388). -/
theorem State.startFetch_downloading {s : State} (h : s.port.downloadInProgress = true) :
    s.startFetch =
      { s with
        port := { s.port with cpuWaiting := .none, downloadStore := !s.port.downloadStore }
        ir := some (if s.port.downloadStore then 0x97FE0004 else 0x7FF69AA6) } := if_pos h

/-- The word that the mfspr waits for completes it, and the port supplies the stwu (rules R373, R388). -/
theorem State.AwaitsWord.transmit {s : State} (h : s.AwaitsWord) (w : Word) :
    transmit (.long true w) s = .next (s.wordReceived w) := by
  have hr : s.ready = true := s.ready_iff.mpr ⟨h.idle, fun _ => by simp [h.waiting]⟩
  have hok : ¬ s.answersError := by simp [State.answersError, h.seqErr, h.cpuInt]
  have hexec : exec (decodeFrame (.long true w)) (s.exchange (.long true w)) =
      .next ((s.exchange (.long true w)).receiveData 31 w) :=
    exec_dpData_read w (by simpa using h.inDebug) (by simpa using h.waiting)
  have hrecv : (s.exchange (.long true w)).receiveData 31 w = { s.wordReceived w with traced := s.traced } := by
    rw [State.receiveData_goesOn 31 w (by simp [h.goesOn]), State.startFetch_downloading (by simp [h.inProgress]), h.exchange]
    simp only [State.setReg_port, h.store]
    rfl
  have hwaits : s.waitsForData = true := by simp [State.waitsForData, h.waiting]
  rw [transmit_executed _ hr hok, hexec, hrecv]
  dsimp only
  rw [if_pos ⟨hwaits, rfl⟩, State.afterPort_completed (by exact h.inDebug) rfl (by exact h.untraced)]
  rfl

/-- In debug mode a completed instruction is followed by the next fetch (rule R372). -/
theorem State.complete_inDebug {s : State} (h : s.dbg.inDebug = true) (t : VfType) (f : Flow) :
    s.complete t f = State.startFetch { s with outcome := .completed } := by
  rw [State.complete, if_pos h, State.finish, if_pos h]

/-- The stwu stores r31 at the word after r30, and the port supplies the mfspr (rules R146, R388). -/
theorem State.Downloading.exec_stwu {s : State} (h : s.Downloading) (hst : s.port.downloadStore = false) :
    exec .stwu s = .next { s.wordStored with traced := s.traced } := by
  change Host.Outcome.next (s.storeWithUpdate 31 30 4) = _
  obtain ⟨-, hok⟩ | ⟨c, hc, -⟩ := s.storeWithUpdate_cases 31 30 4 (s.reg 30 + 4) rfl
  · rw [hok, State.complete_inDebug (by exact h.inDebug), State.startFetch_downloading (by exact h.inProgress)]
    simp only [State.setReg_port, hst]
    rfl
  · simp [State.accessFault, h.faultMap] at hc

theorem exec_mfsprDpdr_live {s : State} (h : s.dpdrLive = true) (rD : Nat) :
    exec (.mfsprDpdr rD) s = .next { s with port := { s.port with cpuWaiting := .data rD }, outcome := .stalled } := by
  change execMfsprDpdr rD s = _
  rw [execMfsprDpdr, if_pos h]

/-- A step runs the stwu, which completes (rule R372). -/
theorem State.Downloading.step_stwu {s : State} {rest : List Input} (h : s.Downloading) (hir : s.ir = some 0x97FE0004)
    (hin : s.inputs = .cpuStep :: rest) (hst : s.port.downloadStore = false) :
    step s = .next (s.startsDelivered rest).wordStored := by
  have hstart : (s.startsDelivered rest).Downloading := { h with }
  rw [step_delivered h.inDebug hir (i := .stwu) (by decide) h.nmi h.machineCheck h.ee (.inl hin), hstart.exec_stwu hst]
  dsimp only
  rw [State.afterPort_completed (by exact h.inDebug) rfl (by exact h.untraced)]
  rfl

/-- A step runs the mfspr, which waits for the next word (rules R372, R446). -/
theorem State.Downloading.step_mfspr {s : State} {rest : List Input} (h : s.Downloading) (hir : s.ir = some 0x7FF69AA6)
    (hin : s.inputs = .cpuStep :: rest) : step s = .next (s.startsDelivered rest).wordAwaited := by
  have hlive : (s.startsDelivered rest).dpdrLive = true := by
    change s.dpdrLive = true
    simp [State.dpdrLive, h.supervisor, h.inDebug]
  rw [step_delivered h.inDebug hir (i := .mfsprDpdr 31) (by decide) h.nmi h.machineCheck h.ee (.inl hin),
    exec_mfsprDpdr_live hlive]
  rfl

/-! ## The loop -/

theorem core_run_step {s t : State} (h : step s = .next t) (k : Nat) : core.run (k + 1) s = core.run k t := by
  simp only [Host.Core.run]
  rw [show core.step s = .next t from h]

/-- One word: three steps from the start of the loop to its start (log entry 14). -/
theorem State.AwaitsWord.run_word {s : State} {w : Word} {rest : List Input} (h : s.AwaitsWord)
    (hin : s.inputs = .frame (.long true w) :: .cpuStep :: .cpuStep :: rest) (k : Nat) :
    ∃ t : State, core.run (k + 3) s = core.run k t ∧ t.AwaitsWord ∧ t.inputs = rest ∧ t.spr = s.spr ∧ t.dbg = s.dbg ∧
      t.reg 30 = s.reg 30 + 4 ∧ t.reg 31 = w ∧ t.mem = Memory.writeWord s.mem (s.reg 30 + 4) w ∧
      t.port.txStatus = 0b11 ∧ t.port.txData = s.statusData := by
  have hc : s.enterCondition = false := by simp [State.enterCondition, h.inDebug]
  have h0 : (s.takesInput (.cpuStep :: .cpuStep :: rest)).AwaitsWord := { h with }
  generalize hr : (s.takesInput (.cpuStep :: .cpuStep :: rest)).wordReceived w = r
  have hstep0 : step s = .next r := by
    rw [step_frame hc hin fun _ => ⟨h.nmi, h.machineCheck, h.ee⟩, h0.transmit, hr]
  have h1 : r.Downloading := by subst hr; exact { h0 with untraced := rfl, idle := rfl, cpuInt := rfl }
  have hstep1 := h1.step_stwu (rest := .cpuStep :: rest) (by subst hr; rfl) (by subst hr; rfl) (by subst hr; rfl)
  have h2 : (r.startsDelivered (.cpuStep :: rest)).wordStored.Downloading := { h1 with untraced := rfl }
  have hstep2 := h2.step_mfspr (rest := rest) rfl rfl
  refine ⟨_, (core_run_step hstep0 (k + 2)).trans ((core_run_step hstep1 (k + 1)).trans (core_run_step hstep2 k)),
    { h2 with noWord := rfl, store := rfl, waiting := rfl }, ?_⟩
  obtain ⟨hreceived30, hreceived31⟩ := (s.takesInput (.cpuStep :: .cpuStep :: rest)).wordReceived_regs w
  obtain ⟨hstored30, hstored31⟩ := (r.startsDelivered (.cpuStep :: rest)).wordStored_regs
  subst hr
  exact ⟨rfl, rfl, rfl, hstored30.trans (congrArg (· + 4) hreceived30), hstored31.trans hreceived31,
    congrArg₂ (fun a v => Memory.writeWord s.mem (a + 4) v) hreceived30 hreceived31, rfl, rfl⟩

/-! ## The words of a download -/

theorem wordAddress_succ (a : Word) (n : Nat) : a + 4 * BitVec.ofNat 32 (n + 1) = a + 4 + 4 * BitVec.ofNat 32 n := by
  rw [BitVec.ofNat_add, BitVec.mul_add, BitVec.add_comm (4 * _), ← BitVec.add_assoc]
  rfl

/-- Words stored one after another from an address on: the first, then the others from the next address on. -/
theorem foldl_writeWord_cons (m : List Host.Cell) (a w : Word) (ws : List Word) :
    (w :: ws).zipIdx.foldl (fun m p => Memory.writeWord m (a + 4 * BitVec.ofNat 32 p.2) p.1) m =
      ws.zipIdx.foldl (fun m p => Memory.writeWord m (a + 4 + 4 * BitVec.ofNat 32 p.2) p.1) (Memory.writeWord m a w) := by
  have hzero : a + 4 * BitVec.ofNat 32 0 = a := by simp
  rw [List.zipIdx_cons, List.foldl_cons, List.zipIdx_succ, List.foldl_map, hzero]
  simp only [wordAddress_succ]

/-- The status data of the loop (rule R381): freeze, and a download in progress. -/
theorem State.Downloading.statusData {s : State} (h : s.Downloading) : s.statusData = 0xBFFFFFFF := by
  rw [State.statusData, h.freeze, h.inProgress]
  rfl

/-- The loop over the words, by induction on them: each one is three steps, which leave the machine at the start of the loop. -/
theorem State.AwaitsWord.run_words {ws : List Word} {s : State} (h : s.AwaitsWord)
    (hin : s.inputs = ws.flatMap fun w => [.frame (.long true w), .cpuStep, .cpuStep]) :
    ∃ t : State, core.run (3 * ws.length) s = .next t ∧ t.AwaitsWord ∧
      t.reg 30 = s.reg 30 + 4 * BitVec.ofNat 32 ws.length ∧
      t.mem = ws.zipIdx.foldl (fun m p => Memory.writeWord m (s.reg 30 + 4 + 4 * BitVec.ofNat 32 p.2) p.1) s.mem ∧
      t.reg 31 = ws.getLastD (s.reg 31) ∧ t.spr = s.spr ∧ t.dbg = s.dbg ∧ t.inputs = [] ∧
      t.port.txStatus = (if ws = [] then s.port.txStatus else 0b11) ∧
      t.port.txData = (if ws = [] then s.port.txData else 0xBFFFFFFF) := by
  induction ws generalizing s with
  | nil => exact ⟨s, rfl, h, by simp, rfl, rfl, rfl, rfl, hin, rfl, rfl⟩
  | cons w ws ih =>
    obtain ⟨u, hrun, hu, hinu, hspr, hdbg, h30, h31, hmem, hst, hdata⟩ := h.run_word hin (3 * ws.length)
    obtain ⟨t, hrunt, ht, h30t, hmemt, h31t, hsprt, hdbgt, hint, hstt, hdatat⟩ := ih hu hinu
    refine ⟨t, hrun.trans hrunt, ht, ?_, ?_, ?_, hsprt.trans hspr, hdbgt.trans hdbg, hint, ?_, ?_⟩
    · rw [h30t, h30, List.length_cons, wordAddress_succ]
    · rw [hmemt, hmem, h30, foldl_writeWord_cons]
    · rw [h31t, h31, List.getLastD_cons]
    · rw [hstt, hst, ite_self, if_neg nofun]
    · rw [hdatat, hdata, h.statusData, ite_self, if_neg nofun]

/-- Settles O60: the machine is at the start of the loop. -/
theorem fastDownload : Obligations.FastDownload := by
  unfold Obligations.FastDownload
  intro ws s hinv hsup hd hlines hee hfm htr hir hsh hv he hi hdl hend hst hw hin
  obtain ⟨hdebug, -⟩ := hinv.debug
  obtain ⟨-, hfreeze, -⟩ := hdebug hd
  have hstart : s.AwaitsWord :=
    { supervisor := hsup, inDebug := hd, freeze := hfreeze, nmi := by rw [hlines], machineCheck := by rw [hlines], ee := hee,
      faultMap := hfm, untraced := htr, idle := hsh, validData := hv, seqErr := he, cpuInt := hi, inProgress := hdl,
      goesOn := hend, noWord := hir, store := hst, waiting := hw }
  obtain ⟨t, hrun, ht, h30, hmem, h31, hspr, hdbg, hint, hstatus, hdata⟩ := hstart.run_words hin
  exact ⟨t, hrun, h30, hmem, h31, hspr, hdbg, hint, ht.noWord, ht.waiting, ht.inProgress,
    fun hne => ⟨by rw [hstatus, if_neg hne], by rw [hdata, if_neg hne]⟩⟩

end Sys2Proof.Machine
end

section
/-! PROOFS. The accesses to the seventeen registers: what mfspr delivers, what mtspr stores, and what either leaves unchanged in each
mode (44_spr_access.md rules R430 to R471). -/

namespace Sys2Proof.Machine

/-! ## Words of the registers -/

/-- A counter without its reserved bits (rules R452, R453). -/
theorem countWord_fields (w : Word) : countWord (cntv w) (cntc w) = w &&& 0xFFFF0003 := by
  apply BitVec.eq_of_getLsbD_eq
  intro n hn
  simp only [countWord, cntv, cntc, fieldOf, BitVec.getLsbD_and, BitVec.getLsbD_append, BitVec.getLsbD_extractLsb']
  interval_cases n <;> simp

/-- Below the count a counter word holds its source select only (rule R452). -/
theorem countWord_source (v : BitVec 16) (w : Word) : countWord v (cntc w) &&& 0x0000FFFF = w &&& 3 := by
  apply BitVec.eq_of_getLsbD_eq
  intro n hn
  simp only [countWord, cntc, fieldOf, BitVec.getLsbD_and, BitVec.getLsbD_append, BitVec.getLsbD_extractLsb']
  interval_cases n <;> simp

/-- With source 00 or 11 a counter is not active (rules R260, U4). -/
theorem counterActive_eq_false {w : Word} (h : w &&& 3 = 0 ∨ w &&& 3 = 3) : counterActive w = false := by
  have hsource : cntc w = (w &&& 3).extractLsb' 0 2 := by
    have hmask : (3 : Word).extractLsb' 0 2 = BitVec.allOnes 2 := by decide
    rw [BitVec.extractLsb'_and, hmask, BitVec.and_allOnes]
    rfl
  unfold counterActive
  rw [hsource]
  obtain h | h := h <;> rw [h] <;> decide

/-- ISCT_SER is stored as it is written (rule R469). -/
theorem isctSer_stored (w : Word) : fieldOf (w &&& maskIctrl) 29 3 = fieldOf w 29 3 := by
  have hmask : maskIctrl.extractLsb' 0 3 = BitVec.allOnes 3 := by decide
  unfold fieldOf
  rw [BitVec.extractLsb'_and, hmask, BitVec.and_allOnes]

/-- LCTRL2 as mfspr reads it, with its masks written out (rules R30, R466). -/
theorem State.lctrl2View_eq (s : State) :
    s.lctrl2View = (s.spr.lctrl2 &&& 0xFFFFF803) ||| flagBit s.port.tecr.dlw0en 8 ||| flagBit s.port.tecr.dlw1en 4 := rfl

/-- ICTRL as mfspr reads it, with its masks written out (rules R28, R468). -/
theorem State.ictrlView_eq (s : State) :
    s.ictrlView =
      (s.spr.ictrl &&& 0xFFFFFF0F) ||| flagBit s.port.tecr.diwp0en 0x80 ||| flagBit s.port.tecr.diwp1en 0x40 |||
        flagBit s.port.tecr.diwp2en 0x20 ||| flagBit s.port.tecr.diwp3en 0x10 := rfl

/-! ## Reads (rules R431, R433) -/

/-- A read in supervisor state whose side effect leaves the CPU and debug mode alone: rD holds the value, what is kept is what the
side effect leaves, and the next instruction follows. -/
theorem exec_read {s : State} {i : Instr} {r : Nat} {v : Word} {g : State → State} (hx : exec i s = .next (s.readSpr r v g))
    (hs : s.supervisor = true) (hr : r < 32) (hcpu : ∀ u, (g u).cpu = u.cpu) (hdbg : ∀ u, (g u).dbg = u.dbg) :
    ∃ t, exec i s = .next t ∧ t.reg r = v ∧ t.kept = (g (s.setReg r v)).kept ∧ t.cpu.pc = s.nextPc ∧ t.fetching := by
  have hgpr : ((g (s.setReg r v)).complete .sequential .sequential).cpu.gpr = (s.setReg r v).cpu.gpr := by
    rw [State.complete_cpu_gpr, hcpu]
  have hnext : (g (s.setReg r v)).nextPc = s.nextPc := State.nextPc_congr (by rw [hdbg]; rfl) (by rw [hcpu]; rfl)
  refine ⟨_, hx.trans (congrArg _ (s.readSpr_supervisor r v g hs)), ?_, State.kept_complete _ _ _, ?_, State.fetching_complete _ _ _⟩
  · rw [State.reg_congr hgpr, State.reg_setReg_self s r v hr]
  · rw [State.complete_pc, hnext]

/-- Settles O16: each row is a read of its value without a side effect. -/
theorem readsDeliverTheRegister : Obligations.ReadsDeliverTheRegister := by
  unfold Obligations.ReadsDeliverTheRegister
  intro s r i v hs hr hi
  have hx : exec i s = .next (s.readSpr r v id) := by
    simp only [← State.lctrl2View_eq, ← State.ictrlView_eq, List.mem_cons, List.not_mem_nil, or_false, Prod.mk.injEq] at hi
    obtain ⟨rfl, rfl⟩ | ⟨rfl, rfl⟩ | ⟨rfl, rfl⟩ | ⟨rfl, rfl⟩ | ⟨rfl, rfl⟩ | ⟨rfl, rfl⟩ | ⟨rfl, rfl⟩ | ⟨rfl, rfl⟩ | ⟨rfl, rfl⟩ |
      ⟨rfl, rfl⟩ | ⟨rfl, rfl⟩ | ⟨rfl, rfl⟩ | ⟨rfl, rfl⟩ := hi <;> rfl
  exact exec_read hx hs hr (fun _ => rfl) fun _ => rfl

/-- ECR after its side effect in supervisor state: 0, unless debug mode is enabled and not entered (rules R434, R441). -/
theorem State.clearEcr_supervisor {s : State} (hs : s.supervisor = true) :
    s.clearEcr = { s with spr := { s.spr with ecr := if s.dbg.enable && !s.dbg.inDebug then s.spr.ecr else 0 } } := by
  unfold State.clearEcr State.ecrClears
  rw [hs]
  cases s.dbg.enable <;> cases s.dbg.inDebug <;> rfl

/-- Settles O17. -/
theorem ecrReadClears : Obligations.EcrReadClears := by
  unfold Obligations.EcrReadClears
  intro s r hs hr
  obtain ⟨t, hx, hreg, hkept, hpc, hfetch⟩ :=
    exec_read (i := .mfsprEcr r) rfl hs hr State.clearEcr_cpu State.clearEcr_dbg
  refine ⟨t, hx, hreg, ?_, hpc, hfetch⟩
  rw [hkept, State.clearEcr_supervisor (by exact hs)]
  rfl

/-- Where the counter is not active, or a sync or its own expiry makes the read exact, the live count is read (rules R107, R260, R262,
R263). -/
theorem State.counterRead_exact {s : State} {count : Word} {expired : Bool}
    (h : s.countersSettled = true ∨ expired = true ∨ count &&& 3 = 0 ∨ count &&& 3 = 3) :
    s.counterRead count expired = count &&& 0xFFFF0003 := by
  obtain hexact | ⟨hactive, hsettled, hexpired, -⟩ := s.counterRead_cases count expired
  · rw [hexact, countWord_fields]
  · obtain h | h | h := h
    · exact absurd (h.symm.trans hsettled) nofun
    · exact absurd (h.symm.trans hexpired) nofun
    · exact absurd (hactive.symm.trans (counterActive_eq_false h)) nofun

/-- The source select and the reserved bits are exact in every case (rules R452, R454). -/
theorem State.counterRead_source (s : State) (count : Word) (expired : Bool) :
    s.counterRead count expired &&& 0x0000FFFF = count &&& 3 := by
  obtain h | ⟨-, -, -, h⟩ := s.counterRead_cases count expired <;> rw [h, countWord_source]

/-- Settles O18: both counters are read alike. -/
theorem counterReads : Obligations.CounterReads := by
  unfold Obligations.CounterReads
  intro s r i count expired hs hr hi
  have hx : exec i s = .next (s.readCounter r count expired) := by
    simp only [List.mem_cons, List.not_mem_nil, or_false, Prod.mk.injEq] at hi
    obtain ⟨rfl, rfl, rfl⟩ | ⟨rfl, rfl, rfl⟩ := hi <;> rfl
  obtain ⟨t, ht, hreg, hkept, hpc, hfetch⟩ := exec_read hx hs hr (fun _ => rfl) fun _ => rfl
  exact ⟨t, _, ht, hreg, s.counterRead_source count expired, State.counterRead_exact, hkept, hpc, hfetch⟩

/-! ## Writes (rules R431, R432) -/

/-- The completion of an instruction that is not a branch: nothing kept changes, and the next instruction follows. -/
structure Completes (d : State → State) : Prop where
  kept : ∀ u, (d u).kept = u.kept
  pc : ∀ u, (d u).cpu.pc = u.nextPc
  fetching : ∀ u, (d u).fetching

theorem completes_marked : Completes State.completeMarked :=
  ⟨State.kept_completeMarked, State.completeMarked_pc, State.fetching_completeMarked⟩

theorem completes_plain : Completes State.completePlain :=
  ⟨State.kept_completePlain, State.completePlain_pc, fun u => u.fetching_complete _ _⟩

/-- A write where writes are enabled: what is kept is what the write makes of the machine (rule R432). -/
theorem exec_write {s u : State} {i : Instr} {r : Nat} {w : State → Word → State} {d : State → State}
    (hx : exec i s = .next (s.writeSpr r w d)) (hd : Completes d) (hs : s.supervisor = true)
    (he : s.dbg.enable = false ∨ s.dbg.inDebug = true) (hw : (w s (s.reg r)).kept = u.kept)
    (hpc : (w s (s.reg r)).cpu.pc = s.cpu.pc) (hdbg : (w s (s.reg r)).dbg.inDebug = s.dbg.inDebug) :
    ∃ t, exec i s = .next t ∧ t.kept = u.kept ∧ t.cpu.pc = s.nextPc ∧ t.fetching :=
  ⟨_, hx.trans (congrArg _ (s.writeSpr_enabled r w d hs he)), (hd.kept _).trans hw,
    (hd.pc _).trans (State.nextPc_congr hdbg hpc), hd.fetching _⟩

theorem State.writeCounta_kept (s : State) (v : Word) :
    (s.writeCounta v).kept = State.kept { s with spr := { s.spr with counta := v &&& 0xFFFF0003 } } := by
  rw [State.writeCounta, countWord_fields]
  rfl

theorem State.writeCountb_kept (s : State) (v : Word) :
    (s.writeCountb v).kept = State.kept { s with spr := { s.spr with countb := v &&& 0xFFFF0003 } } := by
  rw [State.writeCountb, countWord_fields]
  rfl

/-- Settles O20: each row is a write of its register; only the counters are put together from their fields. -/
theorem writesStoreTheWritableBits : Obligations.WritesStoreTheWritableBits := by
  unfold Obligations.WritesStoreTheWritableBits
  intro s r i p hs he hi
  cases i with
  | mtsprCmpa rS | mtsprCmpb rS | mtsprCmpc rS | mtsprCmpd rS | mtsprEcr rS | mtsprCmpe rS | mtsprCmpf rS =>
    simp at hi
    obtain ⟨rfl, rfl⟩ := hi
    exact exec_write rfl completes_marked hs he rfl rfl rfl
  | mtsprCmpg rS | mtsprCmph rS | mtsprLctrl1 rS | mtsprLctrl2 rS | mtsprBar rS =>
    simp at hi
    obtain ⟨rfl, rfl⟩ := hi
    exact exec_write rfl completes_plain hs he rfl rfl rfl
  | mtsprCounta rS =>
    simp at hi
    obtain ⟨rfl, rfl⟩ := hi
    exact exec_write rfl completes_plain hs he (s.writeCounta_kept _) rfl rfl
  | mtsprCountb rS =>
    simp at hi
    obtain ⟨rfl, rfl⟩ := hi
    exact exec_write rfl completes_plain hs he (s.writeCountb_kept _) rfl rfl
  | _ => simp at hi

/-- Each of the seventeen is a write that completes where it is not performed (rule R432). -/
theorem exec_sprWrites {i : Instr} {r : Nat} (s : State) (hi : i ∈ sprWrites r) :
    ∃ w d, Completes d ∧ exec i s = .next (s.writeSpr r w d) := by
  cases i with
  | mtsprCmpa rS | mtsprCmpb rS | mtsprCmpc rS | mtsprCmpd rS | mtsprEcr rS | mtsprDer rS | mtsprCmpe rS | mtsprCmpf rS
  | mtsprIctrl rS =>
    obtain rfl : rS = r := by simpa [sprWrites] using hi
    exact ⟨_, _, completes_marked, rfl⟩
  | mtsprCounta rS | mtsprCountb rS | mtsprCmpg rS | mtsprCmph rS | mtsprLctrl1 rS | mtsprLctrl2 rS | mtsprBar rS
  | mtsprDpdr rS =>
    obtain rfl : rS = r := by simpa [sprWrites] using hi
    exact ⟨_, _, completes_plain, rfl⟩
  | _ => simp [sprWrites] at hi

/-- Outside debug mode the next instruction is the next word in memory (rule R92). -/
theorem State.nextPc_outside {s : State} (hd : s.dbg.inDebug = false) : s.nextPc = s.cpu.pc + 4 := by
  simp [State.nextPc, hd]

/-- Settles O21: what is not performed is only completed. -/
theorem writesNotPerformedOutsideDebug : Obligations.WritesNotPerformedOutsideDebug := by
  unfold Obligations.WritesNotPerformedOutsideDebug
  intro s r i hs he hd hi
  obtain ⟨w, d, hdone, hx⟩ := exec_sprWrites s hi
  exact ⟨d s, hx.trans (congrArg _ (s.writeSpr_disabled r w d hs he hd)), hdone.kept s,
    (hdone.pc s).trans (State.nextPc_outside hd)⟩

/-! ## DER and ICTRL (rules R444, R469, R109, R193) -/

/-- A write of DER, with the freeze latch it sets at once (rules R324, R444). -/
theorem State.writeDer_eq (s : State) (v : Word) :
    s.writeDer v = { s with
      spr := { s.spr with der := v &&& 0x73E7540F }
      dbg := { s.dbg with freeze := s.dbg.freeze || s.dbg.inDebug || (s.spr.ecr &&& (v &&& 0x73E7540F)) != 0 } } := by
  rw [State.writeDer, State.updateFreeze_eq, Bool.or_right_comm]
  rfl

/-- Settles O22. -/
theorem derWriteActsAtOnce : Obligations.DerWriteActsAtOnce := by
  unfold Obligations.DerWriteActsAtOnce
  intro s r hs he
  exact exec_write (i := .mtsprDer r) rfl completes_marked hs he (congrArg State.kept (s.writeDer_eq _)) (by simp) (by simp)

/-- With nothing in flight the setting that a write of ICTRL holds back is in force (rule R109). -/
theorem State.isctInForce_held {s : State} (hh : s.trace.isctHold = true) (hf : s.inflight = []) :
    s.isctInForce = s.trace.isctActive := by
  simp [State.isctInForce, hh, hf]

/-- Settles O23: the write holds the old setting back for the next instruction and leaves nothing in flight. -/
theorem ictrlWriteAndItsDelay : Obligations.IctrlWriteAndItsDelay := by
  unfold Obligations.IctrlWriteAndItsDelay
  intro s r hs he
  have hx : exec (.mtsprIctrl r) s = .next (s.writeIctrl (s.reg r)).completeMarked :=
    congrArg _ (s.writeSpr_enabled r State.writeIctrl State.completeMarked hs he)
  refine ⟨_, hx, State.kept_completeMarked _, State.completeMarked_pc _, State.fetching_completeMarked _, fun _ a f e => ?_⟩
  generalize ht : (s.writeIctrl (s.reg r)).completeMarked = t
  have hheld : t.trace.isctHold = true := by rw [← ht, State.completeMarked_trace_isctHold]; rfl
  have hempty : t.inflight = [] := by rw [← ht, State.completeMarked_inflight]; rfl
  have hold : t.trace.isctActive = fieldOf s.spr.ictrl 29 3 := by rw [← ht, State.completeMarked_trace_isctActive]; rfl
  have hnew : fieldOf t.spr.ictrl 29 3 = fieldOf (s.reg r) 29 3 := by
    rw [← ht, State.completeMarked_spr]
    exact isctSer_stored (s.reg r)
  exact ⟨(State.isctInForce_held hheld hempty).trans hold,
    (State.isctInForce_held (s := t.traceFetch a f) hheld hempty).trans hold,
    (State.isctInForce_ictrl (.inl (List.cons_ne_nil e []))).trans hnew, (State.isctInForce_ictrl (.inr rfl)).trans hnew⟩

/-! ## DPDR (rules R373 to R375, R445 to R447) -/

theorem State.dpdrLive_iff (s : State) : s.dpdrLive = true ↔ s.supervisor = true ∧ s.dbg.inDebug = true := by
  simp [State.dpdrLive]

/-- Where DPDR is not live a read is of some value, under the read rule (rule R445). -/
theorem exec_mfsprDpdr_notLive {s : State} (h : ¬ s.dpdrLive = true) (r : Nat) :
    exec (.mfsprDpdr r) s = .next (s.readSpr r (Config.freeWord s.draws) fun t => { t with draws := t.draws + 1 }) := by
  change execMfsprDpdr r s = _
  rw [execMfsprDpdr, if_neg h]

/-- In debug mode the write is performed (rule R447). -/
theorem exec_mtsprDpdr_live {s : State} (h : s.dpdrLive = true) (r : Nat) :
    exec (.mtsprDpdr r) s = .next (s.writeDpdr (s.reg r)).completePlain := by
  obtain ⟨hs, hd⟩ := s.dpdrLive_iff.mp h
  change execMtsprDpdr r s = _
  rw [execMtsprDpdr, s.writeSpr_enabled r _ _ hs (.inr hd), if_pos h]

/-- Outside debug mode it only completes, whether or not debug mode is enabled (rules R445, R432). -/
theorem exec_mtsprDpdr_outside {s : State} (r : Nat) (hs : s.supervisor = true) (hd : s.dbg.inDebug = false) :
    exec (.mtsprDpdr r) s = .next s.completePlain := by
  change execMtsprDpdr r s = _
  cases he : s.dbg.enable with
  | true => rw [execMtsprDpdr, s.writeSpr_disabled r _ _ hs he hd]
  | false =>
    rw [execMtsprDpdr, s.writeSpr_enabled r _ _ hs (.inl he), if_neg (by simp [s.dpdrLive_iff, hd])]

/-- Outside debug mode completing an instruction does not disturb the port. -/
theorem State.complete_port {s : State} (hd : s.dbg.inDebug = false) (t : VfType) (f : Flow) :
    (s.complete t f).port = s.port := by
  rw [s.complete_running t f hd]

/-- A word offered to the tool is its next answer (rules R374, R380). -/
theorem State.answer_writeDpdr (s : State) (v : Word) :
    (s.writeDpdr v).completePlain.answer.port.txStatus = 0b00 ∧ (s.writeDpdr v).completePlain.answer.port.txData = v := by
  have hvalid : (s.writeDpdr v).completePlain.port.validData = true := State.completePlain_port_validData _
  have hdata : (s.writeDpdr v).completePlain.dpsrData = v := by
    rw [State.dpsrData, State.completePlain_port_dpsr]
    exact BitVec.extractLsb'_append_eq_right
  rw [State.answer_valid hvalid]
  exact ⟨rfl, hdata⟩

/-- Settles O19. The data transmission that completes the read in debug mode is O9's. -/
theorem dpdrAccesses : Obligations.DpdrAccesses := by
  unfold Obligations.DpdrAccesses
  refine ⟨fun s r hs hr => ⟨fun hd => ?_, fun hd hgo w => ?_⟩, fun s r hs => ⟨fun hd => ?_, fun hd => ?_⟩⟩
  · have hx := exec_mfsprDpdr_notLive (s := s) (by simp [s.dpdrLive_iff, hd]) r
    obtain ⟨t, ht, hreg, hkept, hpc, -⟩ := exec_read hx hs hr (fun _ => rfl) fun _ => rfl
    have hport : t.port = s.port := by
      obtain rfl := Host.Outcome.next.inj (hx.symm.trans ht)
      rw [s.readSpr_supervisor r _ _ hs]
      exact State.complete_port (by exact hd) _ _
    exact ⟨t, _, ht, hreg, hkept, hport, hpc.trans (State.nextPc_outside hd)⟩
  · refine ⟨_, exec_mfsprDpdr_live (s.dpdrLive_iff.mpr ⟨hs, hd⟩) r, rfl, rfl, rfl, ?_⟩
    obtain ⟨hcompletes, -⟩ := dataTransmissionCompletesRead w r
      { s with port := { s.port with cpuWaiting := .data r }, outcome := .stalled } hd rfl hr
    exact hcompletes hgo
  · exact ⟨_, exec_mtsprDpdr_live (s.dpdrLive_iff.mpr ⟨hs, hd⟩) r, State.kept_completePlain _, (State.completePlain_pc _).trans (if_pos hd),
      completes_plain.fetching _, s.answer_writeDpdr _⟩
  · exact ⟨_, exec_mtsprDpdr_outside r hs hd, State.kept_completePlain s, State.complete_port hd _ _,
      (State.completePlain_pc s).trans (State.nextPc_outside hd)⟩

/-! ## User state (rules R431, R487) -/

/-- Every access is a read or a write under the access rules, but for the read of DPDR in debug mode, which user state does not reach
(rule R430). -/
theorem exec_sprAccess_user {s : State} {i : Instr} {r : Nat} (hs : s.supervisor = false) (hi : i ∈ sprAccesses r) :
    exec i s = .next s.programException := by
  cases i with
  | mfsprCmpa | mfsprCmpb | mfsprCmpc | mfsprCmpd | mfsprEcr | mfsprDer | mfsprCounta | mfsprCountb | mfsprCmpe | mfsprCmpf
  | mfsprCmpg | mfsprCmph | mfsprLctrl1 | mfsprLctrl2 | mfsprIctrl | mfsprBar =>
    exact congrArg _ (s.readSpr_user _ _ _ hs)
  | mfsprDpdr rD =>
    rw [exec_mfsprDpdr_notLive (by simp [s.dpdrLive_iff, hs]), s.readSpr_user _ _ _ hs]
  | mtsprCmpa | mtsprCmpb | mtsprCmpc | mtsprCmpd | mtsprEcr | mtsprDer | mtsprCounta | mtsprCountb | mtsprCmpe | mtsprCmpf
  | mtsprCmpg | mtsprCmph | mtsprLctrl1 | mtsprLctrl2 | mtsprIctrl | mtsprBar | mtsprDpdr =>
    exact congrArg _ (s.writeSpr_user _ _ _ hs)
  | _ => simp [sprAccesses] at hi

/-- Outside debug mode the program exception is an event that is routed (rules R482, R487). -/
theorem State.programException_outside {s : State} (hd : s.dbg.inDebug = false) :
    ∃ a x, s.programException = s.takeEvent .program a x :=
  ⟨_, _, (s.takeSync_none .program).trans (if_neg (by simp [hd]))⟩

/-- Inside it, it is an event that only pulses ECR_OR, and the next fetch starts (rule R315). -/
theorem State.programException_inside {s : State} (hd : s.dbg.inDebug = true) :
    ∃ a x, s.programException = (s.takeEvent .program a x).startFetch :=
  ⟨_, _, (s.takeSync_none .program).trans (if_pos hd)⟩

/-- In either mode it sets ECR[PRE] and touches no other register (rule R481). -/
theorem State.programException_spr (s : State) :
    s.programException.spr = { s.spr with ecr := s.spr.ecr ||| 0x00800000 } := by
  cases hd : s.dbg.inDebug with
  | false =>
    obtain ⟨a, x, h⟩ := State.programException_outside hd
    rw [h, State.takeEvent_spr]
    rfl
  | true =>
    obtain ⟨a, x, h⟩ := State.programException_inside hd
    rw [h, State.startFetch_spr, State.takeEvent_spr]
    rfl

/-- Settles O24. -/
theorem userAccessRaisesProgramException : Obligations.UserAccessRaisesProgramException := by
  unfold Obligations.UserAccessRaisesProgramException
  intro s r i hs hi
  refine ⟨_, exec_sprAccess_user hs hi, by simp, by simp, s.programException_spr, by simp, by simp, by simp, fun hd => ?_,
    fun hd => ?_⟩
  · obtain ⟨a, x, h⟩ := State.programException_outside hd
    rw [h]
    split_ifs with hder
    · obtain ⟨hen, hbit⟩ := hder
      rw [s.takeEvent_entry (e := .program) a x hd hen hbit]
      obtain ⟨hdbg, -, -, hpr, -⟩ := (s.noted .program).enterDebug_spec a x
      exact ⟨by rw [hdbg], hpr⟩
    · have hno : s.dbg.enable = false ∨ bitOf s.spr.der (eventBit .program) = false := by
        rwa [not_and_or, Bool.not_eq_true, Bool.not_eq_true] at hder
      refine ⟨s.takeEvent_outside a x hd hno, ?_⟩
      rw [s.takeEvent_regular (e := .program) a x hd (by decide) hno, State.updateFreeze_cpu]
      rfl
  · obtain ⟨a, x, h⟩ := State.programException_inside hd
    rw [h, s.takeEvent_inDebug .program a x hd]
    simp [hd]

end Sys2Proof.Machine
end

section
/-! PROOFS. The catalogue of events, the order in which simultaneous ones are taken, the non-maskable breakpoint, and the return from
a handler (rules R480, R483, R485, R488, R489, R496, R325, R326). -/

namespace Sys2Proof.Machine

/-! ## The catalogue (rules R480, R483) -/

/-- The mask of an event is its bit, counted from the most significant one (rules R12, R480). -/
theorem eventMask_eq_shift (e : Event) : eventMask e = 0x80000000#32 >>> eventBit e := by cases e <;> decide

theorem mem_allEvents (e : Event) : e ∈ allEvents := by cases e <;> decide

/-- No two events share a bit (rule R480). -/
theorem eventBit_injective {e f : Event} (h : eventBit e = eventBit f) : e = f :=
  List.inj_on_of_nodup_map (show (allEvents.map eventBit).Nodup by decide) (mem_allEvents e) (mem_allEvents f) h

/-- Settles O30. -/
theorem eventCatalogue : Obligations.EventCatalogue := by
  unfold Obligations.EventCatalogue
  refine ⟨fun e bit vector hrow => ?_, rfl, rfl, eventMask_eq_shift, rfl, mem_allEvents, fun _ _ => eventBit_injective, by decide⟩
  obtain ⟨hbit, hoffset⟩ : eventBit e = bit ∧ vectorOffset e = vector :=
    (by decide : ∀ row ∈ _, eventBit row.1 = row.2.1 ∧ vectorOffset row.1 = row.2.2) _ hrow
  exact ⟨hbit, hoffset ▸ BitVec.zero_add _, hoffset ▸ rfl⟩

/-! ## Return from a handler (rules R325, R326, R496) -/

/-- Outside debug mode finishing an instruction queues its type and fixes the class of the next fetch (rules R170, R171). -/
theorem State.finish_running (s : State) (t : VfType) (f : Flow) (h : s.dbg.inDebug = false) :
    (s.finish t f).trace = { s.trace with pending := s.trace.pending ++ [t], nextFlow := f } := by
  simp [State.finish, h]

/-- The machine whose MSR, pc and, with debug mode disabled, freeze an rfi outside debug mode has set (rules R496, R325, R326). -/
def State.restored (s : State) : State :=
  { s with
    cpu := { s.cpu with msr := s.cpu.srr1.msr, pc := s.cpu.srr0 }
    expired := ⟨false, false⟩
    dbg := { s.dbg with freeze := if s.dbg.enable then s.dbg.freeze else s.enabledEvent } }

/-- An rfi outside debug mode restores the state and is finished as an indirect change of flow (rules R496, R180). -/
theorem State.returnFromInterrupt_running (s : State) (hd : s.dbg.inDebug = false) :
    s.returnFromInterrupt = s.restored.finish .indirect .indirect := by
  refine (if_neg (by simp [hd])).trans ?_
  unfold State.restored
  split_ifs <;> rfl

/-- Settles O28. -/
theorem returnFromHandler : Obligations.ReturnFromHandler := by
  unfold Obligations.ReturnFromHandler
  intro s hd
  have hexec : exec .rfi s = .next s.returnFromInterrupt := rfl
  have htrace := s.restored.finish_running .indirect .indirect hd
  rw [hexec, s.returnFromInterrupt_running hd]
  exact ⟨_, rfl, State.finish_pc _ _ _, State.kept_finish _ _ _, by rw [htrace]; rfl, by rw [htrace]⟩

/-! ## The events before an instruction (rule R485, lines 1 to 5) -/

/-- The non-maskable breakpoint comes first (rules R485, R489). -/
theorem State.highEvent_nonMaskable {s : State} (h : s.port.tecr.nmbrk = true) :
    s.highEvent = some (s.takeAt .devPortInterrupt s.cpu.pc) := by
  simp only [State.highEvent, h, if_true]

/-- Then the system reset interrupt, whose request is used up. -/
theorem State.highEvent_systemReset {s : State} (hnb : s.port.tecr.nmbrk = false) (h : s.lines.nmi = true) :
    s.highEvent = some (State.takeAt { s with lines := { s.lines with nmi := false } } .systemReset s.cpu.pc) := by
  simp only [State.highEvent, hnb, h, Bool.false_eq_true, if_false, if_true]

/-- Then machine check or check stop, as MSR[ME] decides (rule R311). -/
theorem State.highEvent_machineCheck {s : State} (hnb : s.port.tecr.nmbrk = false) (hnmi : s.lines.nmi = false)
    (h : s.lines.machineCheck = true) :
    s.highEvent =
      some (State.takeAt { s with lines := { s.lines with machineCheck := false } } (machineCheckEvent s.cpu.msr.me) s.cpu.pc) := by
  simp only [State.highEvent, hnb, hnmi, h, Bool.false_eq_true, if_false, if_true]

/-- Nothing comes before an instruction exactly if none of them is requested. -/
theorem State.highEvent_eq_none_iff (s : State) :
    s.highEvent = none ↔ s.port.tecr.nmbrk = false ∧ s.lines.nmi = false ∧ s.lines.machineCheck = false := by
  unfold State.highEvent
  split_ifs <;> simp_all

/-- Outside debug mode and check stop such an event is taken in place of an instruction. -/
theorem cpuStep_highEvent {s u : State} (hd : s.dbg.inDebug = false) (hcs : s.dbg.checkStop = false)
    (h : s.highEvent = some u) : cpuStep s = .next u := by
  obtain ⟨v, hv, hstep⟩ | ⟨hnone, -⟩ := cpuStep_cases s hcs hd
  · rw [hstep, Option.some.inj (hv.symm.trans h)]
  · exact absurd (hnone.symm.trans h) nofun

/-- A machine check of the instruction's own fetch comes before its instruction breakpoint. -/
theorem State.retire_fetchMachineCheck (s : State) {e : InFlight} (h : e.fault = some .machineCheck) :
    s.retire e = .next (s.beginInsn.takeSync .machineCheck none) := by
  obtain ⟨-, hretire⟩ | ⟨hne, -⟩ := s.retire_cases e
  · exact hretire
  · exact absurd h hne

/-! ## The events after a completed instruction (rule R485, lines 6 to 10) -/

/-- The trace event of the traced instruction is used up (rule R482). -/
theorem State.afterEvents_traced {s : State} {ia : WordAddr} (h : s.traced.insn = some ia) :
    s.afterEvents false ia = State.takeAt { s with traced := { s.traced with insn := none } } .trace s.cpu.pc :=
  if_pos h

theorem State.afterEvents_untraced {s : State} {ia : WordAddr} (h : s.traced.insn ≠ some ia) :
    s.afterEvents false ia = s.lowEvent :=
  if_neg h

/-- The maskable external breakpoint is recognised: it is requested by the port or a peripheral, and MSR[RI] is set (rule R488). -/
def State.maskableBreak (s : State) : Bool := (s.port.tecr.mbrk || s.lines.peripheral) && s.cpu.msr.ri

theorem State.maskableBreak_eq_true {s : State} (hreq : s.port.tecr.mbrk = true ∨ s.lines.peripheral = true)
    (hri : s.cpu.msr.ri = true) : s.maskableBreak = true := by
  simp [State.maskableBreak, hreq, hri]

theorem State.maskableBreak_eq_false {s : State}
    (h : s.port.tecr.mbrk = false ∧ s.lines.peripheral = false ∨ s.cpu.msr.ri = false) : s.maskableBreak = false := by
  obtain ⟨hm, hp⟩ | hri := h
  · simp [State.maskableBreak, hm, hp]
  · simp [State.maskableBreak, hri]

/-- The last three lines of the order, by name. -/
theorem State.lowEvent_eq (s : State) :
    s.lowEvent =
      if s.maskableBreak then s.takeAt .externalBreakpoint s.cpu.pc
      else if s.lines.external && s.cpu.msr.ee then s.takeAt .externalInterrupt s.cpu.pc
      else if s.lines.decrementer && s.cpu.msr.ee then
        State.takeAt { s with lines := { s.lines with decrementer := false } } .decrementer s.cpu.pc
      else s := rfl

/-- Settles O36. -/
theorem eventsByOrder : Obligations.EventsByOrder := by
  unfold Obligations.EventsByOrder
  intro s ia
  refine ⟨s.highEvent_nonMaskable, s.highEvent_systemReset, s.highEvent_machineCheck, s.highEvent_eq_none_iff,
    fun u => cpuStep_highEvent, rfl, fun e => s.retire_fetchMachineCheck, s.afterEvents_traced, s.afterEvents_untraced,
    fun hreq hri => ?_, fun hno hee => ⟨fun hext => ?_, fun hext hdec => ?_⟩, fun hno hquiet => ?_⟩
  · simp [s.lowEvent_eq, s.maskableBreak_eq_true hreq hri]
  · simp [s.lowEvent_eq, s.maskableBreak_eq_false hno, hext, hee]
  · simp [s.lowEvent_eq, s.maskableBreak_eq_false hno, hext, hdec, hee]
  · obtain hee | ⟨hext, hdec⟩ := hquiet
    · simp [s.lowEvent_eq, s.maskableBreak_eq_false hno, hee]
    · simp [s.lowEvent_eq, s.maskableBreak_eq_false hno, hext, hdec]

/-! ## The non-maskable breakpoint (rules R310, R489, R497) -/

/-- Every event outside debug mode but check stop saves the return address (rules R306, R484). -/
theorem State.takeEvent_srr0 (s : State) {e : Event} (a : Word) (x : Srr1) (hd : s.dbg.inDebug = false) (he : e ≠ .checkStop) :
    (s.takeEvent e a x).cpu.srr0 = a := by
  obtain ⟨-, -, h⟩ | ⟨-, hcs, -⟩ | ⟨-, -, h⟩ := s.takeEvent_cases e a x hd
  · obtain ⟨-, hsrr0, -⟩ := (s.noted e).enterDebug_spec a x
    rw [h, hsrr0]
  · exact absurd hcs he
  · obtain ⟨hsrr0, -⟩ := (s.noted e).regularEntry_spec e a x
    rw [h, State.updateFreeze_cpu, hsrr0]

/-- An event that is a regular interrupt goes on at its vector (rule R483). -/
theorem State.takeEvent_regular_pc (s : State) {e : Event} (a : Word) (x : Srr1) (hd : s.dbg.inDebug = false)
    (he : e ≠ .checkStop) (hno : s.dbg.enable = false ∨ bitOf s.spr.der (eventBit e) = false) :
    (s.takeEvent e a x).cpu.pc = vectorAddr s.cpu.msr.ip e := by
  obtain ⟨-, -, -, hpc, -⟩ := (s.noted e).regularEntry_spec e a x
  rw [s.takeEvent_regular a x hd he hno, State.updateFreeze_cpu, hpc, State.noted_cpu]

/-- An event outside debug mode that is a breakpoint leaves the non-restartable flag if MSR[RI] = 0, however it is routed (rule
R497). -/
theorem State.takeEvent_nonRestartable (s : State) (e : Event) (a : Word) (x : Srr1) (hd : s.dbg.inDebug = false) :
    (s.takeEvent e a x).dbg.nonRestartable = (s.dbg.nonRestartable || (!s.cpu.msr.ri && nonRestartableEvent e)) := by
  have hnoted : (s.noted e).dbg.nonRestartable = (s.dbg.nonRestartable || (!s.cpu.msr.ri && nonRestartableEvent e)) := by
    simp [State.noted, hd]
  obtain ⟨-, -, h⟩ | ⟨-, -, h⟩ | ⟨-, -, h⟩ := s.takeEvent_cases e a x hd <;> simp [h, hnoted]

/-- It is taken at the next boundary, whatever MSR holds (rules R485, R489). -/
theorem step_nonMaskable {s : State} (hd : s.dbg.inDebug = false) (hcs : s.dbg.checkStop = false)
    (hc : s.enterCondition = false) (hir : s.ir = none) (hin : s.inputs = []) (hnb : s.port.tecr.nmbrk = true) :
    step s = .next (State.takeAt { s with out := [] } .devPortInterrupt s.cpu.pc) := by
  rw [step_running s hd hcs hc hir hin]
  exact cpuStep_highEvent hd hcs (State.highEvent_nonMaskable (s := { s with out := [] }) hnb)

/-- Settles O35: the step takes the event, which DER and the enable latch route. -/
theorem nonMaskableBreakpoint : Obligations.NonMaskableBreakpoint := by
  unfold Obligations.NonMaskableBreakpoint
  intro s hd hcs hc hir hin hnb
  have hstep := step_nonMaskable hd hcs hc hir hin hnb
  generalize hu : ({ s with out := [] } : State) = u at hstep
  obtain ⟨hcpu, hspr, hport, hdbg, hmem⟩ :
      u.cpu = s.cpu ∧ u.spr = s.spr ∧ u.port = s.port ∧ u.dbg = s.dbg ∧ u.mem = s.mem := by
    subst hu
    exact ⟨rfl, rfl, rfl, rfl, rfl⟩
  rw [← hcpu] at hstep
  rw [← hdbg] at hd
  rw [← hcpu, ← hspr, ← hport, ← hdbg, ← hmem]
  refine ⟨_, hstep, u.takeEvent_spr _ _ _, u.takeEvent_srr0 _ _ hd nofun, by simp, by simp, by simp, ?_, ?_⟩
  · split_ifs with hder
    · exact (u.takeEvent_inDebug_iff .devPortInterrupt _ _ hd).mpr hder
    · have hno : u.dbg.enable = false ∨ bitOf u.spr.der (eventBit .devPortInterrupt) = false := by
        rwa [not_and_or, Bool.not_eq_true, Bool.not_eq_true] at hder
      exact ⟨u.takeEvent_outside _ _ hd hno, u.takeEvent_regular_pc _ _ hd nofun hno⟩
  · exact (u.takeEvent_nonRestartable .devPortInterrupt _ _ hd).trans (by simp [nonRestartableEvent])

end Sys2Proof.Machine
end

section
/-! PROOFS. The reset: what it leaves with DSCK released at one of its samples, and the entry into debug mode with DSCK held (rules
R60, R541 to R546). -/

namespace Sys2Proof.Machine

/-- With ICTRL clear no fetch has an instruction watchpoint (rules R60, R223). -/
theorem iwpOf_ictrl_zero {r : Sprs} (h : r.ictrl = 0) (ia : WordAddr) : iwpOf r ia = ⟨false, false, false, false⟩ := by
  obtain ⟨h0, h1, h2, h3⟩ := iwpOf_off r ia
  rw [h] at h0 h1 h2 h3
  calc iwpOf r ia = ⟨(iwpOf r ia).w0, (iwpOf r ia).w1, (iwpOf r ia).w2, (iwpOf r ia).w3⟩ := rfl
    _ = ⟨false, false, false, false⟩ := by rw [h0 (by decide), h1 (by decide), h2 (by decide), h3 (by decide)]

/-- The registers of the reset table at their values, the others kept (rules R60, R545). -/
def Sprs.afterReset (r : Sprs) : Sprs :=
  { r with
    ictrl := 0, lctrl1 := 0, lctrl2 := 0, ecr := 0, der := 0x2002000F
    counta := r.counta &&& 0xFFFF0000, countb := r.countb &&& 0xFFFF0000 }

/-- The port is cleared but for its shift register; the clock mode and the wait for DSDI come from the pins (rules R542, R543,
R546). -/
def Port.afterReset (q : Port) (p : ResetPins) : Port :=
  { State.reset.port with
    dpsr := q.dpsr
    clockMode := if p.dsdiAt8 then .syncSelfClock else .async
    scanHold := p.dsdiAt16 }

/-- With DSCK released at one of the samples the CPU is left at the reset vector, outside debug mode (rules R541, R483). -/
theorem State.applyReset_released (s : State) {p : ResetPins} (h : (p.dsckAtMinus3 && p.dsckAt7) = false) :
    (s.applyReset p).spr = s.spr.afterReset ∧ (s.applyReset p).port = s.port.afterReset p ∧
      (s.applyReset p).dbg = { State.reset.dbg with enable := p.dsckAtMinus3 } ∧
      (s.applyReset p).cpu.pc = vectorAddr p.ip .systemReset ∧ (s.applyReset p).cpu.msr.ip = p.ip ∧
      (s.applyReset p).cpu.gpr = s.cpu.gpr ∧ (s.applyReset p).mem = s.mem := by
  unfold State.applyReset
  rw [h]
  exact ⟨rfl, rfl, rfl, rfl, rfl, rfl, rfl⟩

/-- With DSCK held at both samples debug mode is entered from a state that is reset but for ECR[DPI] (rule R541). -/
theorem State.applyReset_held (s : State) {p : ResetPins} (h : (p.dsckAtMinus3 && p.dsckAt7) = true) :
    ∃ (r : State) (a : Word) (x : Srr1), s.applyReset p = r.enterDebug a x ∧ r.spr = { s.spr.afterReset with ecr := 1 } ∧
      r.port = s.port.afterReset p ∧ r.dbg = { State.reset.dbg with enable := p.dsckAtMinus3 } ∧ r.cpu.gpr = s.cpu.gpr ∧
      r.mem = s.mem := by
  have hdpi : s.spr.afterReset.ecr ||| eventMask .devPortInterrupt = 1 := by
    change (0 : Word) ||| eventMask .devPortInterrupt = 1
    decide
  unfold State.applyReset
  rw [h]
  exact ⟨_, _, _, rfl, congrArg (fun w => { s.spr.afterReset with ecr := w }) hdpi, rfl, rfl, rfl, rfl⟩

/-- The entry adds to it debug mode with freeze asserted and the CPU's read of the port (rules R541, R306). -/
theorem State.applyReset_entered (s : State) {p : ResetPins} (h : (p.dsckAtMinus3 && p.dsckAt7) = true) :
    (s.applyReset p).spr = { s.spr.afterReset with ecr := 1 } ∧
      (s.applyReset p).port = { s.port.afterReset p with cpuWaiting := .instruction } ∧
      (s.applyReset p).dbg = { State.reset.dbg with enable := p.dsckAtMinus3, inDebug := true, freeze := true } ∧
      (s.applyReset p).cpu.gpr = s.cpu.gpr ∧ (s.applyReset p).mem = s.mem := by
  obtain ⟨r, a, x, hentry, hspr, hport, hdbg, hgpr, hmem⟩ := s.applyReset_held h
  have hidle : r.port.downloadInProgress = false := by rw [hport]; rfl
  obtain ⟨hdebug, -⟩ := r.enterDebug_spec a x
  rw [hentry, State.enterDebug_spr, State.enterDebug_port r a x hidle, hdebug, State.enterDebug_cpu_gpr, State.enterDebug_mem,
    hport, hdbg]
  exact ⟨hspr, rfl, rfl, hgpr, hmem⟩

/-- Settles O56: whatever is in progress the reset is the step, and the two samples of DSCK decide which of its outcomes follows. -/
theorem resetState : Obligations.ResetState := by
  unfold Obligations.ResetState
  refine ⟨step_reset, fun s p => ?_⟩
  dsimp only
  cases hpins : p.dsckAtMinus3 && p.dsckAt7 with
  | false =>
    obtain ⟨hspr, hport, hdbg, hpc, hip, hgpr, hmem⟩ := s.applyReset_released hpins
    rw [hspr, hport, hdbg]
    exact ⟨rfl, rfl, rfl, rfl, rfl, fun _ => ⟨hpc, hip⟩, hmem, hgpr, iwpOf_ictrl_zero rfl⟩
  | true =>
    obtain ⟨hspr, hport, hdbg, hgpr, hmem⟩ := s.applyReset_entered hpins
    rw [hspr, hport, hdbg]
    exact ⟨rfl, rfl, rfl, rfl, rfl, nofun, hmem, hgpr, iwpOf_ictrl_zero rfl⟩

end Sys2Proof.Machine
end
